-- ==== Sys2Proof/Config.lean ====
section
/-! DEFINITION. What the KT512 fixes once: its capacities. The manual leaves no result value open, so there is no free
value here. -/

namespace Sys2Proof.Config

/-- The record table has 512 slots, numbered 0 to 511 (R3). -/
abbrev recordSlots : Nat := 512

/-- The coupling table has 256 slots, numbered 0 to 255 (R107). -/
abbrev couplingSlots : Nat := 256

/-- A request queue holds at most 16 frames, a reply queue at most 16 replies (R165, R167). -/
abbrev queueDepth : Nat := 16

/-- The estate clock and every time hold 0 to 4 294 967 295 (R46). -/
abbrev maxTime : Nat := 4294967295

end Sys2Proof.Config
end

