-- ==== Sys2Proof/Word.lean ====
section
/-! DEFINITION. The word types of the part: bytes on the links, tags, and the list of bytes a frame is made of. -/

namespace Sys2Proof

/-- One byte as a service port carries it (R163). -/
abbrev Byte := BitVec 8

/-- A 16-bit field of a frame: the tag and the check (R164, section 10.6). -/
abbrev Half := BitVec 16

end Sys2Proof
end

