-- ==== Sys2Proof/Syntax.lean ====
section
/-! DEFINITION. The commands of the part: one constructor for each row of spec/opcode_table.json. -/

namespace Sys2Proof

/-- The two service ports (file 10). -/
inductive PortId where
  | a
  | b
  deriving DecidableEq, Repr

/-- The commands. A request row (UNKNOWN_REQUEST to RESTART) is the step in which the engine serves one request of that
kind; the request's own operands are the bytes of the frame it serves (R167, R168; notes/assumptions/2.md). -/
inductive Instr where
  /-- POWER_ON: supply is applied (R27). -/
  | powerOn
  /-- RESET_LINE_LOW: the RESET line is driven low (R172). -/
  | resetLineLow
  /-- WARM_RESTART: the rising edge of the RESET line (R172). -/
  | warmRestart
  /-- CLOCK_TICK: one second of the internal timebase passes (R46). -/
  | clockTick
  /-- STALENESS_EXPIRY: the expiry of the record in this slot is taken (R64, R65). -/
  | stalenessExpiry (slot : Nat)
  /-- ATTN_DELAY_ELAPSED: the delay test of this port comes to hold (R160). -/
  | attnDelayElapsed (port : PortId)
  /-- REQUEST_FRAME: the gateway clocks these bytes into this port (R163, R164). -/
  | requestFrame (port : PortId) (bytes : List Byte)
  /-- SELECT_RAISED: the gateway raises this port's select (R163, R164). -/
  | selectRaised (port : PortId)
  /-- REPLY_SHIFTED_OUT: the gateway clocks what is left of the head reply out, sending this filler byte (R163, R169). -/
  | replyShiftedOut (port : PortId) (filler : Byte)
  /-- UNKNOWN_REQUEST: a request whose code names no request is served (R168). -/
  | unknownRequest
  | define
  | lookup
  | enumerate
  | amend
  | retire
  | observe
  | calibrate
  | acquit
  | couple
  | uncouple
  | scan
  | zoneSet
  | profileSet
  | portSet
  | setTime
  | readTime
  | status
  | restart
  deriving DecidableEq, Repr

end Sys2Proof
end

