-- ==== Sys2Proof/WellFormed.lean ====
section
/-! DEFINITION. When a command's operands name something the part has. -/

namespace Sys2Proof

/-- A STALENESS_EXPIRY names one of the 512 record slots (R3), and a REQUEST_FRAME carries at least one byte (R163:
a gateway clocks whole bytes). Every other operand is in range by its type. -/
abbrev Instr.WellFormed : Instr → Prop
  | .stalenessExpiry slot => slot < Config.recordSlots
  | .requestFrame _ bytes => bytes ≠ []
  | _ => True

end Sys2Proof
end

