-- ==== Sys2Proof/Machine/State.lean ====
section
/-! DEFINITION. Everything the manual says the KT512 holds, as plain data, and the part after power-on. -/

namespace Sys2Proof.Machine

/-- The reasons a step can stop with a fault. -/
inductive Fault where
  /-- Raised by STALENESS_EXPIRY alone, when its slot operand is above 511: R3 gives the record table slots 0 to 511,
  so there is no such record. Safe: the part has no such event. -/
  | noSuchSlot
  deriving DecidableEq, Repr

/-- The reasons a step can be refused. -/
inductive Refusal where
  /-- A command that has no meaning yet, by its mnemonic; raised by exec's refused arms alone, and there is none. Safe. -/
  | notModelled (mnemonic : String)
  deriving DecidableEq, Repr

/-- A table held by slot: the occupied slots in rising order, each with what it holds. An unlisted slot is empty. -/
abbrev Table (α : Type) := List (Nat × α)

/-- Element kinds (R1). -/
inductive ElementKind where
  | damper
  | valve
  deriving DecidableEq, Repr

/-- Coil senses (R7). -/
inductive CoilSense where
  | heat
  | cool
  deriving DecidableEq, Repr

/-- The identity of an element (R1). -/
structure Key where
  building : BitVec 6
  unit : BitVec 8
  kind : ElementKind
  number : BitVec 4
  deriving DecidableEq, Repr

/-- Lifecycle states (R9 to R13). -/
inductive Lifecycle where
  | settling
  | live
  | stale
  deriving DecidableEq, Repr

/-- Verdicts (R127). -/
inductive Verdict where
  | clear
  | watch
  | suspect
  | confirmed
  deriving DecidableEq, Repr

/-- One fault's score and verdict (R127). -/
structure Tracker where
  score : Nat
  verdict : Verdict
  deriving DecidableEq, Repr

/-- The seven record-wide parameters, in the order of R28. -/
structure RecordWide where
  windowLength : Nat
  minSamples : Nat
  settleWindows : Nat
  staleAfter : Nat
  closedSettle : Nat
  leakMinSamples : Nat
  reversalDeadband : Nat
  deriving DecidableEq, Repr

/-- The seven banked parameters, in the order of R29. -/
structure Bank where
  stuckRatio : Nat
  minTravel : Nat
  stepSize : Nat
  stepTimeout : Nat
  closedLevel : Nat
  leakThreshold : Nat
  profile : Nat
  deriving DecidableEq, Repr

/-- A parameter set: the record-wide parameters and both banks (R28, R29). -/
structure ParamSet where
  wide : RecordWide
  bank0 : Bank
  bank1 : Bank
  deriving DecidableEq, Repr

/-- The leakage figures of a VALVE record's window (R58, R95). -/
structure LeakFigures where
  count : Nat
  sum : Int
  deriving DecidableEq, Repr

/-- An open window (R58). The leakage figures are absent for a DAMPER. -/
structure Window where
  start : Nat
  samples : Nat
  commandTravel : Nat
  feedbackTravel : Nat
  feedbackMin : Option Nat
  feedbackMax : Option Nat
  feedbackCount : Nat
  stepExpiry : Bool
  leak : Option LeakFigures
  deriving DecidableEq, Repr

/-- A record's last sample (R57). -/
structure LastSample where
  time : Nat
  command : Nat
  feedback : Option Nat
  deriving DecidableEq, Repr

/-- The direction of a step or of a turn (R77, R117). -/
inductive Direction where
  | up
  | down
  deriving DecidableEq, Repr

/-- A record's reversal tracker (R117); direction NONE is an absent direction. -/
structure ReversalTracker where
  direction : Option Direction
  extreme : Option Nat
  deriving DecidableEq, Repr

/-- An open step watch (R78). -/
structure StepWatch where
  start : Nat
  startCommand : Nat
  startFeedback : Nat
  direction : Direction
  total : Nat
  deadline : Nat
  deriving DecidableEq, Repr

/-- Why a calibration failed (section 5.4). -/
inductive CalFailure where
  | disturbed
  | stale
  | restart
  | insufficient
  deriving DecidableEq, Repr

/-- The figures of a RUNNING calibration (section 5.4). -/
structure CalRun where
  start : Nat
  duration : Nat
  count : Nat
  sum : Int
  deriving DecidableEq, Repr

/-- A calibration status, with what is present beside it (section 5.4). -/
inductive Calibration where
  | none
  | running (run : CalRun)
  | done
  | doneClamped
  | failed (reason : CalFailure)
  deriving DecidableEq, Repr

/-- The parts a VALVE record has and a DAMPER record has not (R7). -/
structure ValveParts where
  sense : CoilSense
  offset : Int
  leak : Tracker
  deriving DecidableEq, Repr

/-- A record (section 1.4). Its handle is formed from its slot and the slot's generation (R5); its staleness deadline is
not stored (R63). -/
structure Record where
  key : Key
  zone : Fin 16
  valve : Option ValveParts
  state : Lifecycle
  settleCount : Nat
  revision : Nat
  active : ParamSet
  bank : Fin 2
  pendingSet : Option ParamSet
  lag : Nat
  window : Option Window
  last : Option LastSample
  closedRun : Option Nat
  reversal : ReversalTracker
  watch : Option StepWatch
  cal : Calibration
  stuck : Tracker
  flatline : Tracker
  couplingCount : Nat
  mark : Option Nat
  deriving DecidableEq, Repr

/-- The five coupling parameters (R110). -/
structure CouplingParams where
  overlapLevel : Nat
  overlapFraction : Nat
  huntCount : Nat
  pairWindow : Nat
  profile : Nat
  deriving DecidableEq, Repr

/-- A member's unpaired reversal (R109, R120). -/
structure Reversal where
  time : Nat
  direction : Direction
  deriving DecidableEq, Repr

/-- A coupling (R109). Its handle is formed from its slot and the slot's generation (R108). -/
structure Coupling where
  lead : Nat
  follower : Nat
  params : CouplingParams
  lastUpdate : Option Nat
  leadCommand : Option Nat
  followerCommand : Option Nat
  leadReversal : Option Reversal
  followerReversal : Option Reversal
  overlap : Nat
  antiphase : Nat
  followerStale : Bool
  fight : Tracker
  mark : Option Nat
  deriving DecidableEq, Repr

/-- Zone modes (R144). -/
inductive ZoneMode where
  | run
  | hold
  deriving DecidableEq, Repr

/-- A zone (R144); bit n of the owner mask is requester n. -/
structure Zone where
  mode : ZoneMode
  seasonBank : Fin 2
  owners : BitVec 8
  deriving DecidableEq, Repr

/-- The six values of a threshold profile (R135). -/
structure Profile where
  rise : Nat
  fall : Nat
  onWatch : Nat
  onSuspect : Nat
  onConfirmed : Nat
  hyst : Nat
  deriving DecidableEq, Repr

/-- The part's tables and its clock: all that requests read and change, apart from the ports. -/
structure Tables where
  records : Table Record
  directory : Table Key
  recordGens : Table Nat
  couplings : Table Coupling
  couplingGens : Table Nat
  zones : Vector Zone 16
  profile4 : Profile
  clock : Nat
  deriving DecidableEq, Repr

/-- A checked request frame (section 10.6). -/
structure Frame where
  requester : Byte
  code : Byte
  tag : Half
  body : List Byte
  deriving DecidableEq, Repr

/-- Completion codes (section 10.6). -/
inductive Completion where
  | done
  | started
  | notFound
  | duplicateKey
  | tableFull
  | couplingFull
  | duplicatePair
  | sameRecord
  | limit
  | inUse
  | notPermitted
  | badParam
  | revisionMismatch
  | wrongKind
  | busy
  | recordStale
  | zoneHeld
  | unknownRequest
  | badLength
  deriving DecidableEq, Repr

/-- A reply waiting to be shifted out: all of its frame but the status byte and the check, which are formed as it is
shifted out (R169). -/
structure Reply where
  tag : Half
  code : Byte
  completion : Completion
  body : List Byte
  deriving DecidableEq, Repr

/-- A port's receiver (R164). IN_FRAME holds the bytes received after the request marker. -/
inductive Receiver where
  | hunting
  | inFrame (received : List Byte)
  deriving DecidableEq, Repr

/-- The four settings of a port (R160, R166). -/
structure PortSettings where
  holdOn : Nat
  holdOff : Nat
  trigger : Nat
  delay : Nat
  deriving DecidableEq, Repr

/-- A service port (file 10). -/
structure Port where
  requests : List Frame
  replies : List Reply
  shiftPos : Nat
  statusByte : Byte
  receiver : Receiver
  selected : Bool
  sdo : List Byte
  hold : Bool
  attn : Bool
  overrun : Bool
  frameError : Bool
  restarted : Bool
  settings : PortSettings
  deriving DecidableEq, Repr

/-- The request in service and the port it came from (R167). -/
structure InService where
  port : PortId
  frame : Frame
  deriving DecidableEq, Repr

/-- Restart causes (R171). -/
inductive RestartCause where
  | powerOn
  | resetLine
  | restartRequest
  deriving DecidableEq, Repr

/-- The KT512: its tables, its two ports, the engine, the RESET line (R3, R46, R107, R144, R163 to R172), and the queue of
waiting commands, which is the model's own. -/
structure State where
  tables : Tables
  portA : Port
  portB : Port
  serving : Option InService
  lastServed : PortId
  resetLow : Bool
  restartCause : RestartCause
  pending : List Instr
  deriving DecidableEq, Repr

/-- A zone after power-on (R144). -/
def Zone.reset : Zone := { mode := .run, seasonBank := 0, owners := 0xFF }

/-- The STANDARD profile (R135), which profile 4 copies at power-on. -/
def Profile.standard : Profile :=
  { rise := 40, fall := 20, onWatch := 40, onSuspect := 100, onConfirmed := 200, hyst := 20 }

/-- The tables after power-on (R27, R126, R144, R135, R46). -/
def Tables.reset : Tables :=
  { records := [], directory := [], recordGens := [], couplings := [], couplingGens := [],
    zones := Vector.replicate 16 Zone.reset, profile4 := Profile.standard, clock := 0 }

/-- A port's settings after power-on (R160, R166). -/
def PortSettings.reset : PortSettings := { holdOn := 12, holdOff := 4, trigger := 1, delay := 0 }

/-- A port after power-on (R172, second column; R162). DESIGN CHOICE (notes/assumptions/5.md), unsafe: the select line
is raised, no byte has been carried out and the status byte as sent reads 0. -/
def Port.reset : Port :=
  { requests := [], replies := [], shiftPos := 0, statusByte := 0, receiver := .hunting, selected := false, sdo := [],
    hold := false, attn := false, overrun := false, frameError := false, restarted := true,
    settings := PortSettings.reset }

/-- The part after power-on (R27, R167, R172). DESIGN CHOICE (notes/assumptions/5.md), unsafe: the RESET line is high. -/
def State.reset : State :=
  { tables := Tables.reset, portA := Port.reset, portB := Port.reset, serving := none, lastServed := .b,
    resetLow := false, restartCause := .powerOn, pending := [] }

end Sys2Proof.Machine
end

