-- ==== Sys2Proof/Machine/Wire.lean ====
section
/-! DEFINITION. Bytes on the links: multi-byte numbers, the one-byte codes of section 10.6, and the CRC of R164. -/

namespace Sys2Proof.Machine

/-! ### Numbers, most significant byte first (section 10.6) -/

/-- A 1-byte unsigned field. -/
def be8 (n : Nat) : List Byte := [BitVec.ofNat 8 n]

/-- A 2-byte unsigned field. -/
def be16 (n : Nat) : List Byte := [BitVec.ofNat 8 (n / 256), BitVec.ofNat 8 n]

/-- A 4-byte unsigned field. -/
def be32 (n : Nat) : List Byte := be16 (n / 65536) ++ be16 n

/-- A 5-byte unsigned field: a deadline, formed without wrap (section 10.6). -/
def be40 (n : Nat) : List Byte := be8 (n / 4294967296) ++ be32 n

/-- A 2-byte signed field, two's complement. -/
def be16s (z : Int) : List Byte := be16 (z % 65536).toNat

/-- A 4-byte signed field, two's complement. -/
def be32s (z : Int) : List Byte := be32 (z % 4294967296).toNat

/-- A flag byte: 0 for clear and 1 for set. -/
def flagByte (b : Bool) : List Byte := be8 (if b then 1 else 0)

/-- An optional field or group of a reply body: a flag byte giving its presence, then the field (R174). -/
def optField {α : Type} (enc : α → List Byte) : Option α → List Byte
  | none => flagByte false
  | some x => flagByte true ++ enc x

/-- Read a 1-byte unsigned field. -/
def readU8 : List Byte → Option (Nat × List Byte)
  | x :: rest => some (x.toNat, rest)
  | _ => none

/-- Read a 2-byte unsigned field. -/
def readU16 : List Byte → Option (Nat × List Byte)
  | x :: y :: rest => some (256 * x.toNat + y.toNat, rest)
  | _ => none

/-- Read a 4-byte unsigned field. -/
def readU32 (b : List Byte) : Option (Nat × List Byte) := do
  let (hi, b) ← readU16 b
  let (lo, b) ← readU16 b
  return (65536 * hi + lo, b)

/-- Read a 2-byte signed field, two's complement. -/
def readS16 (b : List Byte) : Option (Int × List Byte) := do
  let (n, b) ← readU16 b
  return (if n < 32768 then (n : Int) else (n : Int) - 65536, b)

/-- Read a field only when its presence bit is set. -/
def readIf {α : Type} (present : Bool) (read : List Byte → Option (α × List Byte)) (b : List Byte) :
    Option (Option α × List Byte) :=
  if present then do
    let (x, b) ← read b
    return (some x, b)
  else some (none, b)

/-- A body that matches its layout has nothing left over (R168). -/
def readEnd {α : Type} (x : α) (b : List Byte) : Option α := if b = [] then some x else none

/-! ### Codes (section 10.6) -/

def ElementKind.code : ElementKind → Nat
  | .damper => 0
  | .valve => 1

def CoilSense.code : CoilSense → Nat
  | .heat => 0
  | .cool => 1

def Lifecycle.code : Lifecycle → Nat
  | .settling => 0
  | .live => 1
  | .stale => 2

/-- A verdict's level, CLEAR 0 to CONFIRMED 3 (R127), which is also its code. -/
def Verdict.level : Verdict → Nat
  | .clear => 0
  | .watch => 1
  | .suspect => 2
  | .confirmed => 3

def Direction.code : Direction → Nat
  | .up => 1
  | .down => 2

/-- The code of a direction that may be NONE. -/
def directionCode : Option Direction → Nat
  | none => 0
  | some d => d.code

def Calibration.code : Calibration → Nat
  | .none => 0
  | .running _ => 1
  | .done => 2
  | .doneClamped => 3
  | .failed _ => 4

def CalFailure.code : CalFailure → Nat
  | .disturbed => 1
  | .stale => 2
  | .restart => 3
  | .insufficient => 4

def ZoneMode.code : ZoneMode → Nat
  | .run => 0
  | .hold => 1

def RestartCause.code : RestartCause → Nat
  | .powerOn => 0
  | .resetLine => 1
  | .restartRequest => 2

def Completion.code : Completion → Nat
  | .done => 0x00
  | .started => 0x01
  | .notFound => 0x20
  | .duplicateKey => 0x21
  | .tableFull => 0x22
  | .couplingFull => 0x23
  | .duplicatePair => 0x24
  | .sameRecord => 0x25
  | .limit => 0x26
  | .inUse => 0x27
  | .notPermitted => 0x28
  | .badParam => 0x29
  | .revisionMismatch => 0x2A
  | .wrongKind => 0x2B
  | .busy => 0x2C
  | .recordStale => 0x2D
  | .zoneHeld => 0x2E
  | .unknownRequest => 0x2F
  | .badLength => 0x30

/-- The request codes that name a request are 0x01 (DEFINE) to 0x12 (RESTART). -/
def knownCode (c : Byte) : Bool := 1 ≤ c.toNat && c.toNat ≤ 0x12

/-! ### The check (R164) -/

/-- One bit of the CRC with polynomial 0x1021, without reflection. -/
def crcBit (c : Half) : Half := if c.msb then (c <<< 1) ^^^ 0x1021 else c <<< 1

/-- One byte of the CRC, most significant bit first. -/
def crcByte (c : Half) (b : Byte) : Half :=
  crcBit (crcBit (crcBit (crcBit (crcBit (crcBit (crcBit (crcBit (c ^^^ (b.setWidth 16 <<< 8)))))))))

/-- CRC-16 with initial value 0xFFFF and no final inversion. -/
def crc16 (bytes : List Byte) : Half := bytes.foldl crcByte 0xFFFF

/-- The check as sent: high byte first. -/
def crcBytes (bytes : List Byte) : List Byte := be16 (crc16 bytes).toNat

/-! ### Frames (section 10.6) -/

/-- The request marker. -/
def requestMarker : Byte := 0x5A

/-- The bytes of a reply frame whose status byte is the one given: marker 0xA5, length, tag, request code, completion
code, status, body, check over length through body (R169). -/
def Reply.bytes (r : Reply) (status : Byte) : List Byte :=
  let inner := be8 (5 + r.body.length) ++ be16 r.tag.toNat ++ [r.code] ++ be8 r.completion.code ++ [status] ++ r.body
  0xA5 :: (inner ++ crcBytes inner)

/-- How many bytes a reply frame has. -/
def Reply.wireLength (r : Reply) : Nat := r.body.length + 9

/-- The place of the status byte in a reply frame, counted from the marker. -/
def statusPos : Nat := 6

/-- The bytes of a request frame after its marker: length, requester, request code, tag, body, check (section 10.6). -/
def Frame.afterMarker (f : Frame) : List Byte :=
  let inner := be8 (4 + f.body.length) ++ [f.requester, f.code] ++ be16 f.tag.toNat ++ f.body
  inner ++ crcBytes inner

/-- The bytes of a request frame as a gateway sends it (section 10.6). -/
def Frame.bytes (f : Frame) : List Byte := requestMarker :: f.afterMarker

/-- The request frame that the bytes after the marker make, when the last two of them are the check of the rest. The
length byte has been judged and the count of bytes agrees with it (R164). -/
def frameOf (received : List Byte) : Option Frame :=
  let checked := received.take (received.length - 2)
  if received.drop (received.length - 2) = crcBytes checked then
    match checked with
    | _ :: requester :: code :: t1 :: t0 :: body =>
      some { requester := requester, code := code, tag := BitVec.ofNat 16 (256 * t1.toNat + t0.toNat), body := body }
    | _ => none
  else none

end Sys2Proof.Machine
end

