-- ==== Sys2Proof/Machine/Flags.lean ====
section
/-! DEFINITION. Everything the part signals: the HOLD output, the attention count and the ATTN tests, and the port
status byte. -/

namespace Sys2Proof.Machine

/-! ### Ports by name -/

def State.port (s : State) : PortId → Port
  | .a => s.portA
  | .b => s.portB

def State.setPort (s : State) (p : PortId) (q : Port) : State :=
  match p with
  | .a => { s with portA := q }
  | .b => { s with portB := q }

/-- The other port. -/
def otherPort : PortId → PortId
  | .a => .b
  | .b => .a

/-! ### HOLD (R166) -/

/-- The HOLD level after the request-queue count came to this value: asserted at or above hold-on, deasserted at or below
hold-off, kept between the two. -/
def holdLevel (set : PortSettings) (count : Nat) (now : Bool) : Bool :=
  if set.holdOn ≤ count then true else if count ≤ set.holdOff then false else now

/-- A port with this request queue, its HOLD tested against the new count. -/
def Port.withRequests (q : Port) (frames : List Frame) : Port :=
  { q with requests := frames, hold := holdLevel q.settings frames.length q.hold }

/-! ### Attention (R154, R160) -/

/-- The mark times of all the marks present, records first. -/
def Tables.markTimes (T : Tables) : List Nat :=
  T.records.filterMap (·.2.mark) ++ T.couplings.filterMap (·.2.mark)

/-- The attention count: the number of records and couplings that bear a mark (R154). -/
def Tables.attentionCount (T : Tables) : Nat := T.markTimes.length

/-- The oldest mark time: the lowest mark time present (R154). -/
def Tables.oldestMark (T : Tables) : Option Nat := T.markTimes.min?

/-- The delay test of R160. -/
def delayTest (set : PortSettings) (T : Tables) : Bool :=
  match T.oldestMark with
  | none => false
  | some m => 0 < set.delay && m ≤ T.clock && set.delay ≤ T.clock - m

/-- The count test of R160. -/
def countTest (set : PortSettings) (T : Tables) : Bool := set.trigger ≤ T.attentionCount

/-- The level R160 gives a port's ATTN output. -/
def State.attnLevel (s : State) (p : PortId) : Bool :=
  !s.resetLow && (countTest (s.port p).settings s.tables || delayTest (s.port p).settings s.tables)

/-- Both ATTN outputs take the level of their tests, as R161 says they do as soon as an input of the tests changes. -/
def State.driveAttn (s : State) : State :=
  { s with portA := { s.portA with attn := s.attnLevel .a }, portB := { s.portB with attn := s.attnLevel .b } }

/-! ### The port status byte (R169) -/

/-- The port status byte as formed now: bit 0 HOLD, bit 1 OVERRUN, bit 2 FRAME_ERROR, bit 3 ATTENTION, bit 4 RESTARTED. -/
def State.portStatus (s : State) (p : PortId) : Byte :=
  let q := s.port p
  BitVec.ofNat 8 (q.hold.toNat + 2 * q.overrun.toNat + 4 * q.frameError.toNat
    + 8 * (decide (1 ≤ s.tables.attentionCount)).toNat + 16 * q.restarted.toNat)

/-- A status byte that reports OVERRUN set. -/
def reportsOverrun (status : Byte) : Bool := status.getLsbD 1

/-- A status byte that reports FRAME_ERROR set. -/
def reportsFrameError (status : Byte) : Bool := status.getLsbD 2

/-! ### Urgency (R158) -/

/-- The urgency of a record's mark: the highest verdict level among its trackers. -/
def Record.urgency (r : Record) : Nat :=
  max (max r.stuck.verdict.level r.flatline.verdict.level)
    (match r.valve with
      | some v => v.leak.verdict.level
      | none => 0)

/-- The urgency of a coupling's mark: the verdict level of FIGHT. -/
def Coupling.urgency (c : Coupling) : Nat := c.fight.verdict.level

end Sys2Proof.Machine
end

