-- ==== Sys2Proof/Machine/Operands.lean ====
section
/-! DEFINITION. The operands of the requests: the layout of every request body (section 10.6, R168), the parameter ranges
(R28, R29, R31, R110) and the conditioning of a sample (R52). A reader answers none exactly where the body does not match
its layout, which is BAD_LENGTH. -/

namespace Sys2Proof.Machine

/-! ### Names and keys (R1, R6) -/

/-- A key as carried, before its fields are judged. -/
structure RawKey where
  building : Nat
  unit : Nat
  kind : Nat
  number : Nat
  deriving DecidableEq, Repr

/-- A record or coupling named by key or by handle. -/
inductive RequestName where
  | key (k : RawKey)
  | handle (value : Nat)
  deriving DecidableEq, Repr

/-- The key that in-range fields name: building 0 to 63 and a kind code of DAMPER or VALVE (R1). -/
def RawKey.judge (k : RawKey) : Option Key :=
  if k.building < 64 ∧ k.unit < 256 ∧ k.number < 16 ∧ k.kind < 2 then
    some { building := BitVec.ofNat 6 k.building, unit := BitVec.ofNat 8 k.unit,
           kind := if k.kind = 0 then .damper else .valve, number := BitVec.ofNat 4 k.number }
  else none

/-- Kind bit 1: a handle value of 32768 or more names no record (R5). -/
def isCouplingHandle (value : Nat) : Bool := 32768 ≤ value

def readKey : List Byte → Option (RawKey × List Byte)
  | x :: y :: z :: rest =>
    some ({ building := x.toNat, unit := y.toNat, kind := z.toNat / 16, number := z.toNat % 16 }, rest)
  | _ => none

/-- A name: form byte 0x01 then a key, or form byte 0x02 then a handle. Any other form byte is BAD_LENGTH (R168). -/
def readName (b : List Byte) : Option (RequestName × List Byte) := do
  let (form, b) ← readU8 b
  if form = 1 then
    let (k, b) ← readKey b
    return (.key k, b)
  else if form = 2 then
    let (h, b) ← readU16 b
    return (.handle h, b)
  else none

/-! ### Parameter sets (R28, R29, section 10.6) -/

def readWide (b : List Byte) : Option (RecordWide × List Byte) := do
  let (w, b) ← readU16 b
  let (minS, b) ← readU8 b
  let (settle, b) ← readU8 b
  let (stale, b) ← readU32 b
  let (closed, b) ← readU16 b
  let (leakMin, b) ← readU8 b
  let (dead, b) ← readU8 b
  return ({ windowLength := w, minSamples := minS, settleWindows := settle, staleAfter := stale,
            closedSettle := closed, leakMinSamples := leakMin, reversalDeadband := dead }, b)

def readBank (b : List Byte) : Option (Bank × List Byte) := do
  let (ratio, b) ← readU16 b
  let (travel, b) ← readU16 b
  let (size, b) ← readU16 b
  let (timeout, b) ← readU16 b
  let (level, b) ← readU8 b
  let (leak, b) ← readU16 b
  let (profile, b) ← readU8 b
  return ({ stuckRatio := ratio, minTravel := travel, stepSize := size, stepTimeout := timeout,
            closedLevel := level, leakThreshold := leak, profile := profile }, b)

/-- A parameter set: the record-wide fields, bank 0, bank 1; 36 bytes. -/
def readParams (b : List Byte) : Option (ParamSet × List Byte) := do
  let (wide, b) ← readWide b
  let (bank0, b) ← readBank b
  let (bank1, b) ← readBank b
  return ({ wide := wide, bank0 := bank0, bank1 := bank1 }, b)

/-- The ranges of R28. -/
abbrev RecordWide.InRange (w : RecordWide) : Prop :=
  (60 ≤ w.windowLength ∧ w.windowLength ≤ 3600) ∧ (3 ≤ w.minSamples ∧ w.minSamples ≤ 100) ∧ w.settleWindows ≤ 16 ∧
  (120 ≤ w.staleAfter ∧ w.staleAfter ≤ 86400) ∧ w.closedSettle ≤ 1800 ∧
  (5 ≤ w.leakMinSamples ∧ w.leakMinSamples ≤ 200) ∧ (10 ≤ w.reversalDeadband ∧ w.reversalDeadband ≤ 200)

/-- The ranges of R29. -/
abbrev Bank.InRange (k : Bank) : Prop :=
  (50 ≤ k.stuckRatio ∧ k.stuckRatio ≤ 900) ∧ (50 ≤ k.minTravel ∧ k.minTravel ≤ 1000) ∧
  (50 ≤ k.stepSize ∧ k.stepSize ≤ 500) ∧ (30 ≤ k.stepTimeout ∧ k.stepTimeout ≤ 600) ∧ k.closedLevel ≤ 100 ∧
  (50 ≤ k.leakThreshold ∧ k.leakThreshold ≤ 1000) ∧ k.profile ≤ 4

/-- Every field of a set in its own range; no check across fields (R30). -/
abbrev ParamSet.InRange (p : ParamSet) : Prop := p.wide.InRange ∧ p.bank0.InRange ∧ p.bank1.InRange

/-- The defaults of R29, the same in both banks. -/
def Bank.default : Bank :=
  { stuckRatio := 250, minTravel := 200, stepSize := 150, stepTimeout := 120, closedLevel := 20,
    leakThreshold := 150, profile := 1 }

/-- The defaults of R28 and R29. -/
def ParamSet.default : ParamSet :=
  { wide := { windowLength := 900, minSamples := 5, settleWindows := 2, staleAfter := 1800, closedSettle := 300,
              leakMinSamples := 10, reversalDeadband := 30 },
    bank0 := Bank.default, bank1 := Bank.default }

/-- The ranges of R110. -/
abbrev CouplingParams.InRange (c : CouplingParams) : Prop :=
  (20 ≤ c.overlapLevel ∧ c.overlapLevel ≤ 500) ∧ (50 ≤ c.overlapFraction ∧ c.overlapFraction ≤ 1000) ∧
  (1 ≤ c.huntCount ∧ c.huntCount ≤ 32) ∧ (10 ≤ c.pairWindow ∧ c.pairWindow ≤ 600) ∧ c.profile ≤ 4

/-- The defaults of R110. -/
def CouplingParams.default : CouplingParams :=
  { overlapLevel := 100, overlapFraction := 200, huntCount := 4, pairWindow := 120, profile := 1 }

/-! ### Samples (R49, R52) -/

/-- A sample as carried. -/
structure RawSample where
  time : Nat
  command : Nat
  feedback : Option Nat
  entering : Option Int
  leaving : Option Int
  fan : Option Nat
  deriving DecidableEq, Repr

/-- A sample as applied: conditioned. -/
structure Sample where
  time : Nat
  command : Nat
  feedback : Option Nat
  entering : Option Int
  leaving : Option Int
  fanOn : Option Bool
  deriving DecidableEq, Repr

def readSample (b : List Byte) : Option (RawSample × List Byte) := do
  let (time, b) ← readU32 b
  let (bits, b) ← readU8 b
  let (command, b) ← readU16 b
  let (feedback, b) ← readIf (bits.testBit 0) readU16 b
  let (entering, b) ← readIf (bits.testBit 1) readS16 b
  let (leaving, b) ← readIf (bits.testBit 2) readS16 b
  let (fan, b) ← readIf (bits.testBit 3) readU8 b
  return ({ time := time, command := command, feedback := feedback, entering := entering, leaving := leaving,
            fan := fan }, b)

/-- So many samples, in the order listed. -/
def readSamples : Nat → List Byte → Option (List RawSample × List Byte)
  | 0, b => some ([], b)
  | n + 1, b => do
    let (x, b) ← readSample b
    let (xs, b) ← readSamples n b
    return (x :: xs, b)

/-- A temperature outside −4000 to +8000 is taken as absent; the marker −32768 lies outside (R52). -/
def conditionTemp : Option Int → Option Int
  | some t => if -4000 ≤ t ∧ t ≤ 8000 then some t else none
  | none => none

/-- Conditioning (R52). -/
def RawSample.condition (x : RawSample) : Sample :=
  { time := x.time, command := min x.command 1000, feedback := x.feedback.map (min · 1000),
    entering := conditionTemp x.entering, leaving := conditionTemp x.leaving, fanOn := x.fan.map (· == 1) }

/-! ### Request bodies (section 10.6) -/

structure DefineReq where
  key : RawKey
  zone : Nat
  sense : Option Nat
  params : Option ParamSet
  lag : Option Nat
  offset : Option Int
  deriving DecidableEq, Repr

def readDefine (b : List Byte) : Option DefineReq := do
  let (key, b) ← readKey b
  let (zone, b) ← readU8 b
  let (bits, b) ← readU8 b
  let (sense, b) ← readIf (bits.testBit 0) readU8 b
  let (params, b) ← readIf (bits.testBit 1) readParams b
  let (lag, b) ← readIf (bits.testBit 2) readU16 b
  let (offset, b) ← readIf (bits.testBit 3) readS16 b
  readEnd { key := key, zone := zone, sense := sense, params := params, lag := lag, offset := offset } b

structure LookupReq where
  name : RequestName
  view : Nat
  keep : Nat
  deriving DecidableEq, Repr

def readLookup (b : List Byte) : Option LookupReq := do
  let (name, b) ← readName b
  let (view, b) ← readU8 b
  let (keep, b) ← readU8 b
  readEnd { name := name, view := view, keep := keep } b

structure EnumerateReq where
  zone : Nat
  cursor : Option Nat
  deriving DecidableEq, Repr

/-- The cursor flag decides the length, so a value other than 0 or 1 is BAD_LENGTH (R168). -/
def readEnumerate (b : List Byte) : Option EnumerateReq := do
  let (zone, b) ← readU8 b
  let (flag, b) ← readU8 b
  if flag ≤ 1 then
    let (cursor, b) ← readIf (flag == 1) readU16 b
    readEnd { zone := zone, cursor := cursor } b
  else none

structure AmendReq where
  name : RequestName
  expected : Nat
  params : Option ParamSet
  zone : Option Nat
  deriving DecidableEq, Repr

def readAmend (b : List Byte) : Option AmendReq := do
  let (name, b) ← readName b
  let (expected, b) ← readU16 b
  let (bits, b) ← readU8 b
  let (params, b) ← readIf (bits.testBit 0) readParams b
  let (zone, b) ← readIf (bits.testBit 1) readU8 b
  readEnd { name := name, expected := expected, params := params, zone := zone } b

structure RetireReq where
  name : RequestName
  expected : Nat
  deriving DecidableEq, Repr

def readRetire (b : List Byte) : Option RetireReq := do
  let (name, b) ← readName b
  let (expected, b) ← readU16 b
  readEnd { name := name, expected := expected } b

structure ObserveReq where
  name : RequestName
  expected : Nat
  count : Nat
  samples : List RawSample
  deriving DecidableEq, Repr

def readObserve (b : List Byte) : Option ObserveReq := do
  let (name, b) ← readName b
  let (expected, b) ← readU16 b
  let (count, b) ← readU8 b
  let (samples, b) ← readSamples count b
  readEnd { name := name, expected := expected, count := count, samples := samples } b

structure CalibrateReq where
  name : RequestName
  expected : Nat
  duration : Nat
  deriving DecidableEq, Repr

def readCalibrate (b : List Byte) : Option CalibrateReq := do
  let (name, b) ← readName b
  let (expected, b) ← readU16 b
  let (duration, b) ← readU16 b
  readEnd { name := name, expected := expected, duration := duration } b

structure AcquitReq where
  name : RequestName
  tracker : Nat
  expected : Nat
  deriving DecidableEq, Repr

/-- The name is a handle with kind bit 1. -/
def RequestName.isCoupling : RequestName → Bool
  | .key _ => false
  | .handle h => isCouplingHandle h

/-- The expected revision is absent when the name is a handle with kind bit 1; it then reads as 0 and is not read. -/
def readAcquit (b : List Byte) : Option AcquitReq := do
  let (name, b) ← readName b
  let (tracker, b) ← readU8 b
  let (expected, b) ← readIf (!name.isCoupling) readU16 b
  readEnd { name := name, tracker := tracker, expected := expected.getD 0 } b

structure CoupleReq where
  lead : RequestName
  follower : RequestName
  params : Option CouplingParams
  deriving DecidableEq, Repr

def readCouplingParams (b : List Byte) : Option (CouplingParams × List Byte) := do
  let (level, b) ← readU16 b
  let (fraction, b) ← readU16 b
  let (hunt, b) ← readU8 b
  let (pairWindow, b) ← readU16 b
  let (profile, b) ← readU8 b
  return ({ overlapLevel := level, overlapFraction := fraction, huntCount := hunt, pairWindow := pairWindow,
            profile := profile }, b)

/-- The parameter flag decides the length, so a value other than 0 or 1 is BAD_LENGTH (R168). -/
def readCouple (b : List Byte) : Option CoupleReq := do
  let (lead, b) ← readName b
  let (follower, b) ← readName b
  let (flag, b) ← readU8 b
  if flag ≤ 1 then
    let (params, b) ← readIf (flag == 1) readCouplingParams b
    readEnd { lead := lead, follower := follower, params := params } b
  else none

/-- UNCOUPLE carries a handle alone. -/
def readUncouple (b : List Byte) : Option Nat := do
  let (h, b) ← readU16 b
  readEnd h b

structure ZoneSetReq where
  zone : Nat
  mode : Option Nat
  seasonBank : Option Nat
  owners : Option Nat
  deriving DecidableEq, Repr

def readZoneSet (b : List Byte) : Option ZoneSetReq := do
  let (zone, b) ← readU8 b
  let (bits, b) ← readU8 b
  let (mode, b) ← readIf (bits.testBit 0) readU8 b
  let (season, b) ← readIf (bits.testBit 1) readU8 b
  let (owners, b) ← readIf (bits.testBit 2) readU8 b
  readEnd { zone := zone, mode := mode, seasonBank := season, owners := owners } b

def readProfile (b : List Byte) : Option Profile := do
  let (rise, b) ← readU8 b
  let (fall, b) ← readU8 b
  let (onW, b) ← readU8 b
  let (onS, b) ← readU8 b
  let (onC, b) ← readU8 b
  let (hyst, b) ← readU8 b
  readEnd { rise := rise, fall := fall, onWatch := onW, onSuspect := onS, onConfirmed := onC, hyst := hyst } b

structure PortSetReq where
  port : Nat
  holdOn : Option Nat
  holdOff : Option Nat
  trigger : Option Nat
  delay : Option Nat
  deriving DecidableEq, Repr

/-- Hold-on, hold-off and trigger, as counts, take one byte each, and the delay, as a duration, two (DEDUCED,
notes/assumptions/10.md, unsafe). -/
def readPortSet (b : List Byte) : Option PortSetReq := do
  let (port, b) ← readU8 b
  let (bits, b) ← readU8 b
  let (on, b) ← readIf (bits.testBit 0) readU8 b
  let (off, b) ← readIf (bits.testBit 1) readU8 b
  let (trigger, b) ← readIf (bits.testBit 2) readU8 b
  let (delay, b) ← readIf (bits.testBit 3) readU16 b
  readEnd { port := port, holdOn := on, holdOff := off, trigger := trigger, delay := delay } b

def readSetTime (b : List Byte) : Option Nat := do
  let (t, b) ← readU32 b
  readEnd t b

/-- SCAN, STATUS, READ_TIME and RESTART carry no body. -/
def readEmpty (b : List Byte) : Option Unit := readEnd () b

end Sys2Proof.Machine
end

