-- ==== Sys2Proof/Machine/Ops.lean ====
section
/-! DEFINITION. The shared operations: tables held by slot, handles and resolution (R5, R6, R108), the access and revision
checks (R42, R146, R147), attention marks (R155), and the engine: taking a request, serving it, placing its reply
(R167, R168, R26). -/

namespace Sys2Proof.Machine

/-! ### Tables by slot (R3, R107) -/

/-- What a slot holds. -/
def Table.get {α : Type} : Table α → Nat → Option α
  | [], _ => none
  | (j, v) :: rest, i => if j = i then some v else Table.get rest i

/-- Fill a slot, keeping the slots in rising order. -/
def Table.put {α : Type} : Table α → Nat → α → Table α
  | [], i, v => [(i, v)]
  | (j, w) :: rest, i, v =>
    if i < j then (i, v) :: (j, w) :: rest
    else if i = j then (i, v) :: rest
    else (j, w) :: Table.put rest i v

/-- Empty a slot. -/
def Table.erase {α : Type} (t : Table α) (i : Nat) : Table α := t.filter fun e => decide (e.1 ≠ i)

/-- Replace what an occupied slot holds; an empty slot stays empty. -/
def Table.replace {α : Type} (t : Table α) (i : Nat) (v : α) : Table α :=
  t.map fun e => if e.1 = i then (e.1, v) else e

/-- Apply a function to what every occupied slot holds. -/
def Table.mapValues {α β : Type} (t : Table α) (f : α → β) : Table β := t.map fun e => (e.1, f e.2)

/-- The lowest-numbered empty slot below the capacity. -/
def Table.lowestFree {α : Type} (t : Table α) (capacity : Nat) : Option Nat :=
  (List.range capacity).find? fun i => (Table.get t i).isNone

/-- The canonical form of a table: slots in strictly rising order, all below the capacity. -/
abbrev Table.Wf {α : Type} (t : Table α) (capacity : Nat) : Prop :=
  (t.map Prod.fst).Pairwise (· < ·) ∧ ∀ e ∈ t, e.1 < capacity

/-- A slot's generation; an unlisted slot has generation 0 (R4, R108). -/
def generationOf (gens : Table Nat) (slot : Nat) : Nat := (Table.get gens slot).getD 0

/-- Advance a slot's generation by one, 63 being followed by 0; a generation of 0 is not listed (R4, R108). -/
def advanceGeneration (gens : Table Nat) (slot : Nat) : Table Nat :=
  let g := (generationOf gens slot + 1) % 64
  if g = 0 then Table.erase gens slot else Table.put gens slot g

/-! ### Handles (R5, R108) -/

def recordHandle (slot generation : Nat) : Nat := 64 * slot + generation

def couplingHandle (slot generation : Nat) : Nat := 32768 + 64 * slot + generation

/-- The slot a record handle names. -/
def recordSlotOf (handle : Nat) : Nat := handle / 64

/-- The handle of the record in a slot (R5). -/
def Tables.recordHandle (T : Tables) (slot : Nat) : Nat := Machine.recordHandle slot (generationOf T.recordGens slot)

/-- The handle of the coupling in a slot (R108). -/
def Tables.couplingHandle (T : Tables) (slot : Nat) : Nat :=
  Machine.couplingHandle slot (generationOf T.couplingGens slot)

/-- The slots of a coupling's members. -/
def Coupling.leadSlot (c : Coupling) : Nat := recordSlotOf c.lead

def Coupling.followerSlot (c : Coupling) : Nat := recordSlotOf c.follower

/-- A coupling names the record in this slot, as lead or as follower. -/
def Coupling.names (c : Coupling) (slot : Nat) : Bool := c.leadSlot == slot || c.followerSlot == slot

/-! ### Refusals and checks -/

/-- A request refused: the completion code, and the reply body (empty but for REVISION_MISMATCH, R168). -/
structure Refused where
  completion : Completion
  body : List Byte
  deriving DecidableEq, Repr

/-- A refusal with an empty body. -/
def refuse {α : Type} (c : Completion) : Except Refused α := .error { completion := c, body := [] }

/-- Refuse unless the condition holds. -/
def require (p : Prop) [Decidable p] (c : Completion) : Except Refused Unit := if p then .ok () else refuse c

/-- A value that must be there, or the refusal. -/
def orRefuse {α : Type} (x : Option α) (c : Completion) : Except Refused α :=
  match x with
  | some a => .ok a
  | none => refuse c

/-- A body read to its layout, or BAD_LENGTH (R168). -/
def parsed {α : Type} (x : Option α) : Except Refused α := orRefuse x .badLength

/-- The slot the key directory gives a key (R2). -/
def Tables.slotOfKey (T : Tables) (k : Key) : Option Nat := (T.directory.find? fun e => decide (e.2 = k)).map Prod.fst

/-- The record a record handle names: kind bit 0, the slot occupied, the generation the slot's (R6). -/
def Tables.recordOfHandle (T : Tables) (h : Nat) : Option (Nat × Record) :=
  if isCouplingHandle h then none
  else if h % 64 = generationOf T.recordGens (recordSlotOf h) then
    (Table.get T.records (recordSlotOf h)).map fun r => (recordSlotOf h, r)
  else none

/-- The coupling a coupling handle names: 32768 to 49151, the slot occupied, the generation the slot's (R108). -/
def Tables.couplingOfHandle (T : Tables) (h : Nat) : Option (Nat × Coupling) :=
  if isCouplingHandle h ∧ h < 49152 then
    let slot := (h - 32768) / 64
    if h % 64 = generationOf T.couplingGens slot then (Table.get T.couplings slot).map fun c => (slot, c) else none
  else none

/-- Resolution of the record named in a request (R6). -/
def Tables.resolveRecord (T : Tables) : RequestName → Except Refused (Nat × Record)
  | .key raw => do
    let k ← orRefuse raw.judge .badParam
    let slot ← orRefuse (T.slotOfKey k) .notFound
    let r ← orRefuse (Table.get T.records slot) .notFound
    return (slot, r)
  | .handle h => orRefuse (T.recordOfHandle h) .notFound

/-- Resolution of a coupling by its handle (R108). -/
def Tables.resolveCoupling (T : Tables) (h : Nat) : Except Refused (Nat × Coupling) :=
  orRefuse (T.couplingOfHandle h) .notFound

/-- Requester 0 is the administrator (R146). -/
def isAdmin (requester : Byte) : Bool := requester == 0

/-- The requester passes the access check of a zone: the administrator always, another when its bit is set in the owner
mask; a requester of 8 or more has no bit (R146, R147). -/
def Tables.permits (T : Tables) (requester : Byte) (zone : Fin 16) : Bool :=
  isAdmin requester || T.zones[zone].owners.getLsbD requester.toNat

/-- The expected-revision check (R42); the refusal carries the handle and the current revision. -/
def Tables.checkRevision (T : Tables) (slot : Nat) (r : Record) (expected : Nat) : Except Refused Unit :=
  if expected = 0 ∨ expected = r.revision then .ok ()
  else .error { completion := .revisionMismatch, body := be16 (T.recordHandle slot) ++ be16 r.revision }

/-- The revision advanced by one, 65535 being followed by 1 (R8). -/
def nextRevision (n : Nat) : Nat := if n < 65535 then n + 1 else 1

/-- A zone number 0 to 15. -/
def zoneOfNat (n : Nat) : Option (Fin 16) := if h : n < 16 then some ⟨n, h⟩ else none

/-- A 0-or-1 code. -/
def bitOfNat (n : Nat) : Option (Fin 2) := if h : n < 2 then some ⟨n, h⟩ else none

/-! ### Attention marks (R155) -/

/-- Set a mark: an entry that bears one keeps its mark time. -/
def setMark (clock : Nat) (mark : Option Nat) : Option Nat := some (mark.getD clock)

def Record.marked (clock : Nat) (r : Record) : Record := { r with mark := setMark clock r.mark }

def Coupling.marked (clock : Nat) (c : Coupling) : Coupling := { c with mark := setMark clock c.mark }

/-! ### Parameters in force (R28, R32, R135) -/

/-- The bank the active bank index names (R32). -/
def Record.activeBank (r : Record) : Bank := if r.bank = 0 then r.active.bank0 else r.active.bank1

/-- A record's staleness deadline, while it holds a last sample (R63). -/
def Record.deadline (r : Record) : Option Nat := r.last.map fun l => l.time + r.active.wide.staleAfter

/-! ### The engine (R167) -/

/-- What a request leaves: the state, the completion code and the reply body. -/
structure Answer where
  state : State
  completion : Completion
  body : List Byte

/-- A port is eligible when its request queue holds a frame and its reply queue fewer than 16 replies (R167). -/
def Port.eligible (q : Port) : Bool := !q.requests.isEmpty && decide (q.replies.length < Config.queueDepth)

/-- The port the idle engine takes from: of two eligible ports the one not served last (R167). -/
def State.arbiter (s : State) : Option PortId :=
  if s.portA.eligible then
    if s.portB.eligible then some (otherPort s.lastServed) else some .a
  else if s.portB.eligible then some .b
  else none

/-- The engine, when idle and with RESET high, takes the head frame of the port the arbiter chooses; the queue count
falls by one and HOLD is tested (R166, R167, R172). -/
def State.takeRequest (s : State) : State :=
  if s.resetLow || s.serving.isSome then s
  else
    match s.arbiter with
    | none => s
    | some p =>
      match (s.port p).requests with
      | [] => s
      | f :: rest =>
        { s.setPort p ((s.port p).withRequests rest) with
          serving := some { port := p, frame := f }, lastServed := p }

/-- Place a reply at the tail of a port's reply queue (R167). -/
def State.placeReply (s : State) (p : PortId) (r : Reply) : State :=
  s.setPort p { s.port p with replies := (s.port p).replies ++ [r] }

/-- Completion: the engine is idle again, the one reply stands on the port the request came from, and ATTN follows
(R26, R161, R167). -/
def Answer.complete (a : Answer) (job : InService) : State :=
  (State.placeReply { a.state with serving := none } job.port
    { tag := job.frame.tag, code := job.frame.code, completion := a.completion, body := a.body }).driveAttn

/-- The request the engine is serving, or takes now, when its code is one of those asked for. While RESET is low the
engine serves nothing (R172). -/
def State.servedRequest (s : State) (isCode : Byte → Bool) : Option (State × InService) :=
  if s.resetLow then none
  else
    match s.takeRequest.serving with
    | none => none
    | some job => if isCode job.frame.code then some (s.takeRequest, job) else none

/-- Serve a request of the kind the command names. Where the engine's request is of another kind, or there is none, the
step the command names does not come about and nothing changes (DESIGN CHOICE, notes/assumptions/2.md, safe). -/
def State.serve (s : State) (isCode : Byte → Bool) (run : InService → State → Answer) :
    Host.Outcome State Fault Refusal :=
  match s.servedRequest isCode with
  | none => .next s
  | some (t, job) => .next ((run job t).complete job)

/-- What an accepted request leaves in the tables. -/
structure Accepted where
  tables : Tables
  completion : Completion
  body : List Byte

/-- The answer to a request that reads and changes the tables alone; a refused one leaves them as they were. -/
def answerTables (run : Frame → Tables → Except Refused Accepted) (job : InService) (s : State) : Answer :=
  match run job.frame s.tables with
  | .ok a => { state := { s with tables := a.tables }, completion := a.completion, body := a.body }
  | .error r => { state := s, completion := r.completion, body := r.body }

/-- Serve a request of this code that reads and changes the tables alone. -/
def State.serveTables (s : State) (code : Byte) (run : Frame → Tables → Except Refused Accepted) :
    Host.Outcome State Fault Refusal :=
  s.serve (fun c => c == code) (answerTables run)

end Sys2Proof.Machine
end

