-- ==== Sys2Proof/Machine/Attention.lean ====
section
/-! DEFINITION. The request SCAN: the marked entries by urgency, mark time and handle (file 09). -/

namespace Sys2Proof.Machine

/-- One marked entry as SCAN lists it (R159). -/
structure MarkEntry where
  handle : Nat
  urgency : Nat
  time : Nat
  deriving DecidableEq, Repr

/-- The order of R159: higher urgency, then earlier mark time, then lower handle value. -/
def MarkEntry.before (a b : MarkEntry) : Bool :=
  if a.urgency ≠ b.urgency then b.urgency < a.urgency
  else if a.time ≠ b.time then a.time < b.time
  else a.handle < b.handle

/-- Put an entry before the first one it precedes. -/
def insertMark (a : MarkEntry) : List MarkEntry → List MarkEntry
  | [] => [a]
  | b :: rest => if a.before b then a :: b :: rest else b :: insertMark a rest

/-- The entries in the order of R159. -/
def sortMarks : List MarkEntry → List MarkEntry
  | [] => []
  | a :: rest => insertMark a (sortMarks rest)

/-- Every marked entry, with its urgency as the trackers now stand (R158). -/
def Tables.markEntries (T : Tables) : List MarkEntry :=
  (T.records.filterMap fun e =>
    e.2.mark.map fun t => { handle := T.recordHandle e.1, urgency := e.2.urgency, time := t }) ++
  (T.couplings.filterMap fun e =>
    e.2.mark.map fun t => { handle := T.couplingHandle e.1, urgency := e.2.urgency, time := t })

def MarkEntry.bytes (a : MarkEntry) : List Byte := be16 a.handle ++ be8 a.urgency ++ be32 a.time

def scan (f : Frame) (T : Tables) : Except Refused Accepted := do
  parsed (readEmpty f.body)
  let listed := (sortMarks T.markEntries).take 8
  return { tables := T, completion := .done,
           body := be16 T.attentionCount ++ be8 listed.length ++ listed.flatMap MarkEntry.bytes }

/-- SCAN. -/
def execScan (s : State) : Host.Outcome State Fault Refusal := s.serveTables 0x0B scan

end Sys2Proof.Machine
end

