-- ==== Sys2Proof/Machine/Verdicts.lean ====
section
/-! DEFINITION. The verdict unit (file 07): profiles, score and verdict updates, and the requests PROFILE_SET and ACQUIT. -/

namespace Sys2Proof.Machine

/-! ### Profiles (R135) -/

def Profile.prompt : Profile :=
  { rise := 64, fall := 16, onWatch := 32, onSuspect := 96, onConfirmed := 160, hyst := 16 }

def Profile.patient : Profile :=
  { rise := 24, fall := 24, onWatch := 48, onSuspect := 120, onConfirmed := 220, hyst := 24 }

def Profile.cautious : Profile :=
  { rise := 16, fall := 32, onWatch := 64, onSuspect := 128, onConfirmed := 240, hyst := 32 }

/-- The profile a number names; profiles 0 to 3 are fixed, 4 is the programmable one. -/
def Tables.profile (T : Tables) : Nat → Profile
  | 0 => Profile.prompt
  | 1 => Profile.standard
  | 2 => Profile.patient
  | 3 => Profile.cautious
  | _ => T.profile4

/-- The four conditions the values of profile 4 satisfy (R135). -/
abbrev Profile.Valid (p : Profile) : Prop :=
  (1 ≤ p.rise ∧ p.rise ≤ 255) ∧ p.fall ≤ 255 ∧
  (1 ≤ p.onWatch ∧ p.onWatch < p.onSuspect ∧ p.onSuspect < p.onConfirmed ∧ p.onConfirmed ≤ 255) ∧ p.hyst < p.onWatch

/-! ### Updates (R129 to R133) -/

/-- What a window gives a tracker (R128). -/
inductive Evidence where
  | evidence
  | clean
  | neutral
  deriving DecidableEq, Repr

/-- The score after an update (R129). -/
def nextScore (p : Profile) : Evidence → Nat → Nat
  | .evidence, score => min 255 (score + p.rise)
  | .clean, score => score - p.fall
  | .neutral, score => score

/-- The highest level above the current verdict whose on-threshold the score meets (R130). -/
def riseTo (p : Profile) (score : Nat) (v : Verdict) : Option Verdict :=
  if v.level < 3 ∧ p.onConfirmed ≤ score then some .confirmed
  else if v.level < 2 ∧ p.onSuspect ≤ score then some .suspect
  else if v.level < 1 ∧ p.onWatch ≤ score then some .watch
  else none

/-- The drop test, taken again at each level reached (R131); CONFIRMED does not drop (R132). -/
def dropFrom (p : Profile) (score : Nat) : Verdict → Verdict
  | .clear => .clear
  | .watch => if score < p.onWatch - p.hyst then .clear else .watch
  | .suspect =>
    if score < p.onSuspect - p.hyst then (if score < p.onWatch - p.hyst then .clear else .watch) else .suspect
  | .confirmed => .confirmed

/-- One update of a tracker (R129 to R133). -/
def Tracker.update (p : Profile) (e : Evidence) (t : Tracker) : Tracker :=
  match e with
  | .neutral => t
  | _ =>
    let score := nextScore p e t.score
    { score := score, verdict := (riseTo p score t.verdict).getD (dropFrom p score t.verdict) }

/-- A fresh or acquitted tracker (R127, R140). -/
def Tracker.fresh : Tracker := { score := 0, verdict := .clear }

/-! ### PROFILE_SET (R136, R137) -/

/-- The six values of a profile as a reply carries them. -/
def Profile.bytes (p : Profile) : List Byte :=
  be8 p.rise ++ be8 p.fall ++ be8 p.onWatch ++ be8 p.onSuspect ++ be8 p.onConfirmed ++ be8 p.hyst

def profileSet (f : Frame) (T : Tables) : Except Refused Accepted := do
  let new ← parsed (readProfile f.body)
  require (isAdmin f.requester) .notPermitted
  require new.Valid .badParam
  return { tables := { T with profile4 := new }, completion := .done, body := T.profile4.bytes ++ new.bytes }

/-- PROFILE_SET. -/
def execProfileSet (s : State) : Host.Outcome State Fault Refusal := s.serveTables 0x0D profileSet

/-! ### ACQUIT (R138 to R140) -/

/-- The body of an ACQUIT reply: handle, tracker, the score and verdict held before, and for a record the new revision. -/
def acquitBody (handle tracker : Nat) (before : Tracker) (revision : Option Nat) : List Byte :=
  be16 handle ++ be8 tracker ++ be8 before.score ++ be8 before.verdict.level ++ optField be16 revision

/-- A record's tracker by its code, 0 STUCK, 1 FLATLINE, 2 LEAK; LEAK is absent on a DAMPER. -/
def Record.tracker (r : Record) : Nat → Option Tracker
  | 0 => some r.stuck
  | 1 => some r.flatline
  | 2 => r.valve.map (·.leak)
  | _ => none

/-- The record with the tracker of this code acquitted. -/
def Record.acquitTracker (r : Record) : Nat → Record
  | 0 => { r with stuck := Tracker.fresh }
  | 1 => { r with flatline := Tracker.fresh }
  | 2 => { r with valve := r.valve.map fun v => { v with leak := Tracker.fresh } }
  | _ => r

/-- ACQUIT naming a record (R138, R140). -/
def acquitRecord (requester : Byte) (q : AcquitReq) (T : Tables) : Except Refused Accepted := do
  let (slot, r) ← T.resolveRecord q.name
  require (q.tracker ≤ 2) .badParam
  require (T.permits requester r.zone) .notPermitted
  T.checkRevision slot r q.expected
  let before ← orRefuse (r.tracker q.tracker) .wrongKind
  let r' := { r.acquitTracker q.tracker with mark := none, revision := nextRevision r.revision }
  return { tables := { T with records := Table.replace T.records slot r' }, completion := .done,
           body := acquitBody (T.recordHandle slot) q.tracker before (some r'.revision) }

/-- The zone of a coupling's lead, as the lead stands (R114, R139). -/
def Tables.leadZone (T : Tables) (c : Coupling) : Option (Fin 16) :=
  (Table.get T.records c.leadSlot).map (·.zone)

/-- The requester passes the check against the lead's zone (R147). Every coupling's lead is present (R107); were it not,
only the administrator would pass (DESIGN CHOICE, notes/assumptions/18.md, safe). -/
def Tables.permitsLead (T : Tables) (requester : Byte) (c : Coupling) : Bool :=
  match T.leadZone c with
  | some z => T.permits requester z
  | none => isAdmin requester

/-- ACQUIT naming a coupling handle (R139, R140). -/
def acquitCoupling (requester : Byte) (h : Nat) (tracker : Nat) (T : Tables) : Except Refused Accepted := do
  let (slot, c) ← T.resolveCoupling h
  require (tracker = 3) .badParam
  require (T.permitsLead requester c) .notPermitted
  let c' := { c with fight := Tracker.fresh, mark := none }
  return { tables := { T with couplings := Table.replace T.couplings slot c' }, completion := .done,
           body := acquitBody (T.couplingHandle slot) tracker c.fight none }

def acquit (f : Frame) (T : Tables) : Except Refused Accepted := do
  let q ← parsed (readAcquit f.body)
  match q.name with
  | .handle h =>
    if isCouplingHandle h then acquitCoupling f.requester h q.tracker T else acquitRecord f.requester q T
  | .key _ => acquitRecord f.requester q T

/-- ACQUIT. -/
def execAcquit (s : State) : Host.Outcome State Fault Refusal := s.serveTables 0x08 acquit

end Sys2Proof.Machine
end

