-- ==== Sys2Proof/Machine/Movement.lean ====
section
/-! DEFINITION. Movement tracking (file 04): the STUCK and FLATLINE evidence and the step watch, on one record. -/

namespace Sys2Proof.Machine

/-! ### Evidence at a window close (R72 to R76) -/

/-- The movement ratio, capped at 4000 (R73). It is read only where the command travel is at least min travel. -/
def movementRatio (w : Window) : Nat := min 4000 (w.feedbackTravel * 1000 / w.commandTravel)

/-- FLATLINE evidence (R74). -/
def flatlineEvidence (k : Bank) (w : Window) : Evidence :=
  if w.commandTravel < k.minTravel then .neutral
  else if 2 ≤ w.feedbackCount ∧ w.feedbackMax = w.feedbackMin then .evidence
  else .clean

/-- STUCK evidence (R74 to R76), given the FLATLINE verdict before the close. -/
def stuckEvidence (k : Bank) (flatline : Verdict) (w : Window) : Evidence :=
  if 2 ≤ flatline.level then .neutral
  else if flatlineEvidence k w = .evidence then .neutral
  else if w.commandTravel < k.minTravel then (if w.stepExpiry then .evidence else .neutral)
  else if movementRatio w < k.stuckRatio ∨ w.stepExpiry then .evidence
  else .clean

/-! ### The step watch (R77 to R86) -/

/-- The magnitude of the difference of two positions. -/
def distance (a b : Nat) : Nat := (a - b) + (b - a)

/-- A watch's allowance: the larger of the step timeout and twice the learned lag, no more than 600 (R80). -/
def watchAllowance (k : Bank) (lag : Nat) : Nat := min 600 (max k.stepTimeout (2 * lag))

/-- The expiry test of R83, and R84: the watch leaves and the flag is set in the open window. -/
def Record.expireWatch (x : Sample) (r : Record) : Record :=
  match r.watch with
  | some w =>
    if w.deadline ≤ x.time then
      { r with watch := none, window := r.window.map fun win => { win with stepExpiry := true } }
    else r
  | none => r

/-- The watch expires at this sample. -/
def Record.watchExpires (x : Sample) (r : Record) : Bool :=
  match r.watch with
  | some w => w.deadline ≤ x.time
  | none => false

/-- The displacement of R85: how far the feedback stands from the start feedback, in the watch's direction. -/
def displacement (w : StepWatch) (feedback : Nat) : Int :=
  match w.direction with
  | .up => (feedback : Int) - w.startFeedback
  | .down => (w.startFeedback : Int) - feedback

/-- The learned lag after a completion (R86). -/
def learnLag (old lag : Nat) : Nat := if old = 0 then lag else (3 * old + lag) / 4

/-- The completion test of R83 and R85. -/
def Record.completeWatch (x : Sample) (r : Record) : Record :=
  match r.watch, x.feedback with
  | some w, some fb =>
    if ((w.total / 2 : Nat) : Int) ≤ displacement w fb then
      { r with watch := none, lag := learnLag r.lag (x.time - w.start) }
    else r
  | _, _ => r

/-- A watch opened by a step at this sample (R79, R80). -/
def Record.newWatch (x : Sample) (prevCommand prevFeedback : Nat) (d : Direction) (r : Record) : StepWatch :=
  { start := x.time, startCommand := prevCommand, startFeedback := prevFeedback, direction := d,
    total := distance x.command prevCommand, deadline := x.time + watchAllowance r.activeBank r.lag }

/-- Step detection (R77), opening (R79), extension (R81) and cancellation (R82). -/
def Record.detectStep (x : Sample) (r : Record) : Record :=
  match x.feedback, r.last with
  | some _, some prev =>
    match prev.feedback with
    | some prevFb =>
      if r.activeBank.stepSize ≤ distance x.command prev.command then
        let d := if prev.command < x.command then Direction.up else Direction.down
        match r.watch with
        | none => { r with watch := some (r.newWatch x prev.command prevFb d) }
        | some w =>
          if w.direction = d then
            { r with watch := some { w with total := distance x.command w.startCommand } }
          else { r with watch := some (r.newWatch x prev.command prevFb d) }
      else r
    | none => r
  | _, _ => r

/-- Stage 2 of a sample: expiry, then completion unless it expired, then step detection (R83). -/
def Record.stageWatch (x : Sample) (r : Record) : Record :=
  (if r.watchExpires x then r.expireWatch x else r.completeWatch x).detectStep x

end Sys2Proof.Machine
end

