-- ==== Sys2Proof/Machine/Leakage.lean ====
section
/-! DEFINITION. Coil leakage and offset calibration (file 05): closed runs, residuals, LEAK evidence, the running
calibration, and the request CALIBRATE. -/

namespace Sys2Proof.Machine

/-! ### Closed runs and qualifying samples (R91, R93) -/

/-- The closed-run start after a sample of a VALVE record (R91). A DAMPER record has no closed run. -/
def Record.closedRunAfter (x : Sample) (r : Record) : Option Nat :=
  if r.valve.isNone then none
  else if x.command ≤ r.activeBank.closedLevel then some (r.closedRun.getD x.time)
  else none

/-- A sample qualifies: in a closed run, settled, fan ON, both temperatures present (R93). Read after R91. -/
def Record.qualifies (x : Sample) (r : Record) : Bool :=
  r.valve.isSome && x.fanOn == some true && x.entering.isSome && x.leaving.isSome &&
  match r.closedRun with
  | some start => decide (start + r.active.wide.closedSettle ≤ x.time)
  | none => false

/-- Clamp to −2000 to +2000 (R94, R100). -/
def clampResidual (z : Int) : Int := max (-2000) (min 2000 z)

/-- The temperature change across the coil in the direction its water would give (R94). -/
def coilChange (sense : CoilSense) (entering leaving : Int) : Int :=
  match sense with
  | .heat => leaving - entering
  | .cool => entering - leaving

/-- The residual of a qualifying sample, with this offset subtracted (R94; offset 0 for the raw residual of R100). -/
def residual (sense : CoilSense) (offset : Int) (x : Sample) : Int :=
  match x.entering, x.leaving with
  | some e, some l => clampResidual (coilChange sense e l - offset)
  | _, _ => 0

/-- A qualifying sample is added to the open window's leakage figures (R95). -/
def Record.accumulateLeak (x : Sample) (r : Record) : Record :=
  match r.valve, r.window with
  | some v, some w =>
    if r.qualifies x then
      { r with window := some { w with
          leak := w.leak.map fun f => { count := f.count + 1, sum := f.sum + residual v.sense v.offset x } } }
    else r
  | _, _ => r

/-- The leakage part of stage 3 (R91, R93 to R95). -/
def Record.stageLeak (x : Sample) (r : Record) : Record :=
  Record.accumulateLeak x { r with closedRun := r.closedRunAfter x }

/-! ### LEAK evidence (R97) -/

def Calibration.isRunning : Calibration → Bool
  | .running _ => true
  | _ => false

/-- The mean of a sum over a count, truncated toward zero. -/
def truncatedMean (sum : Int) (count : Nat) : Int := sum.tdiv count

/-- LEAK evidence of a closing window (R97). -/
def Record.leakEvidence (r : Record) (w : Window) : Evidence :=
  match w.leak with
  | none => .neutral
  | some f =>
    if f.count < r.active.wide.leakMinSamples then .neutral
    else if r.cal.isRunning then .neutral
    else if (r.activeBank.leakThreshold : Int) < truncatedMean f.sum f.count then .evidence
    else .clean

/-! ### The running calibration (R100 to R102) -/

/-- The status and the learned offset at completion, from the qualifying count and the raw sum (R102). -/
def calOutcome (run : CalRun) (offset : Int) : Calibration × Int :=
  if 10 ≤ run.count then
    let mean := truncatedMean run.sum run.count
    if mean < -200 then (.doneClamped, -200)
    else if 200 < mean then (.doneClamped, 200)
    else (.done, mean)
  else (.failed .insufficient, offset)

/-- Step 3 of R100: a qualifying sample feeds its raw residual. -/
def feedRun (run : CalRun) (qualifies : Bool) (raw : Int) : CalRun :=
  if qualifies then { run with count := run.count + 1, sum := run.sum + raw } else run

/-- Stage 5 of a sample (R100): time, disturbance, accumulation, completion. -/
def Record.stageCalibration (clock : Nat) (x : Sample) (r : Record) : Record :=
  match r.cal, r.valve with
  | .running run, some v =>
    if x.time < run.start then r
    else if r.activeBank.closedLevel < x.command then ({ r with cal := .failed .disturbed }).marked clock
    else
      let run' := feedRun run (r.qualifies x) (residual v.sense 0 x)
      if run.start + run.duration ≤ x.time then
        let out := calOutcome run' v.offset
        ({ r with cal := out.1, valve := some { v with offset := out.2 } }).marked clock
      else { r with cal := .running run' }
  | _, _ => r

/-- A RUNNING calibration fails with this reason and marks the record (R103). -/
def Record.failCalibration (clock : Nat) (reason : CalFailure) (r : Record) : Record :=
  if r.cal.isRunning then ({ r with cal := .failed reason }).marked clock else r

/-! ### CALIBRATE (R98, R99) -/

def calibrate (f : Frame) (T : Tables) : Except Refused Accepted := do
  let q ← parsed (readCalibrate f.body)
  let (slot, r) ← T.resolveRecord q.name
  require (300 ≤ q.duration ∧ q.duration ≤ 3600) .badParam
  require (T.permits f.requester r.zone) .notPermitted
  T.checkRevision slot r q.expected
  require (r.valve.isSome) .wrongKind
  require (r.state ≠ .stale) .recordStale
  require (T.zones[r.zone].mode ≠ .hold) .zoneHeld
  require (!r.cal.isRunning) .busy
  let r' := { r with
    cal := .running { start := T.clock, duration := q.duration, count := 0, sum := 0 },
    revision := nextRevision r.revision }
  return { tables := { T with records := Table.replace T.records slot r' }, completion := .started,
           body := be16 (T.recordHandle slot) ++ be16 r'.revision ++ be32 T.clock ++ be16 q.duration }

/-- CALIBRATE. -/
def execCalibrate (s : State) : Host.Outcome State Fault Refusal := s.serveTables 0x07 calibrate

end Sys2Proof.Machine
end

