-- ==== Sys2Proof/Machine/Fighting.lean ====
section
/-! DEFINITION. Couplings and loop fighting (file 06): reversals, the coupling's steps at a member sample, the fight
evaluation, staleness of members, and the requests COUPLE and UNCOUPLE. -/

namespace Sys2Proof.Machine

/-! ### Reversals (R117) -/

/-- The reversal tracker takes a command; the second part is the direction of the reversal, if the sample is one (R117). -/
def ReversalTracker.take (deadband command : Nat) (t : ReversalTracker) : ReversalTracker × Option Direction :=
  match t.extreme with
  | none => ({ t with extreme := some command }, none)
  | some e =>
    match t.direction with
    | none =>
      if e + deadband ≤ command then ({ direction := some .up, extreme := some command }, none)
      else if command + deadband ≤ e then ({ direction := some .down, extreme := some command }, none)
      else (t, none)
    | some .up =>
      if e < command then ({ t with extreme := some command }, none)
      else if command + deadband ≤ e then ({ direction := some .down, extreme := some command }, some .down)
      else (t, none)
    | some .down =>
      if command < e then ({ t with extreme := some command }, none)
      else if e + deadband ≤ command then ({ direction := some .up, extreme := some command }, some .up)
      else (t, none)

/-! ### A member's sample at a coupling (R118 to R120, R123, R124) -/

/-- The member of a coupling that a sample belongs to. -/
inductive Role where
  | lead
  | follower
  deriving DecidableEq, Repr

/-- Step 1 of R118: the lead's reopening starts the measurement afresh (R124); the follower's sample ends follower-stale
(R123). -/
def Coupling.reopen (role : Role) (reopening : Bool) (c : Coupling) : Coupling :=
  match role with
  | .lead =>
    if reopening then
      { c with overlap := 0, antiphase := 0, leadReversal := none, followerReversal := none, leadCommand := none }
    else c
  | .follower => { c with followerStale := false }

/-- Both members' stored commands stand at or above the overlap level (R119). -/
def Coupling.bothOpen (c : Coupling) : Bool :=
  match c.leadCommand, c.followerCommand with
  | some a, some b => c.params.overlapLevel ≤ a && c.params.overlapLevel ≤ b
  | _, _ => false

/-- The seconds a sample at this time credits: the forward gap from u, at most 300, when both stood open (R119). -/
def Coupling.creditedGap (t : Nat) (c : Coupling) : Nat :=
  match c.lastUpdate with
  | some u => if u < t ∧ c.bothOpen then min (t - u) 300 else 0
  | none => 0

/-- The overlap step (R119). -/
def Coupling.overlapStep (role : Role) (t command : Nat) (c : Coupling) : Coupling :=
  let u := match c.lastUpdate with
    | some u => max u t
    | none => t
  let c' := { c with overlap := min 65535 (c.overlap + c.creditedGap t), lastUpdate := some u }
  match role with
  | .lead => { c' with leadCommand := some command }
  | .follower => { c' with followerCommand := some command }

/-- The other member's unpaired reversal pairs with one at this time and in this direction (R120). -/
def pairsWith (pairWindow t : Nat) (d : Direction) (other : Option Reversal) : Bool :=
  match other with
  | some y => distance t y.time ≤ pairWindow && y.direction ≠ d
  | none => false

/-- The antiphase step (R120). -/
def Coupling.antiphaseStep (role : Role) (t : Nat) (d : Direction) (c : Coupling) : Coupling :=
  match role with
  | .lead =>
    if pairsWith c.params.pairWindow t d c.followerReversal then
      { c with antiphase := min 255 (c.antiphase + 1), followerReversal := none }
    else { c with leadReversal := some { time := t, direction := d } }
  | .follower =>
    if pairsWith c.params.pairWindow t d c.leadReversal then
      { c with antiphase := min 255 (c.antiphase + 1), leadReversal := none }
    else { c with followerReversal := some { time := t, direction := d } }

/-- The three steps of R118 for a coupling in which the sample's record has this role. -/
def Coupling.takeSample (role : Role) (reopening : Bool) (x : Sample) (turn : Option Direction) (c : Coupling) :
    Coupling :=
  let c' := (c.reopen role reopening).overlapStep role x.time x.command
  match turn with
  | some d => c'.antiphaseStep role x.time d
  | none => c'

/-- Stage 4 at one coupling of the table: nothing, unless it names the sample's record (R118). -/
def Coupling.memberSample (slot : Nat) (reopening : Bool) (x : Sample) (turn : Option Direction) (c : Coupling) :
    Coupling :=
  if c.leadSlot = slot then c.takeSample .lead reopening x turn
  else if c.followerSlot = slot then c.takeSample .follower reopening x turn
  else c

/-! ### Fight evaluation (R121, R122) -/

/-- A record's STUCK or FLATLINE verdict is CONFIRMED (R121). -/
def Record.movementConfirmed (r : Record) : Bool := r.stuck.verdict == .confirmed || r.flatline.verdict == .confirmed

/-- One of the conditions of R121 holds. The lead is given as step 3 of the close left it, before the settle step. A
follower that is not in the table (R107 says there is none such) makes the evidence neutral (DESIGN CHOICE,
notes/assumptions/18.md, safe). -/
def Tables.fightNeutral (T : Tables) (lead : Record) (w : Window) (c : Coupling) : Bool :=
  match Table.get T.records c.followerSlot with
  | none => true
  | some f =>
    decide (w.samples < lead.active.wide.minSamples) ||
    lead.state == .settling || f.state == .settling ||
    T.zones[lead.zone].mode == .hold || T.zones[f.zone].mode == .hold ||
    c.followerStale || c.followerCommand.isNone ||
    lead.movementConfirmed || f.movementConfirmed

/-- The overlap fraction, at most 1000 (R122). -/
def overlapFraction (overlap windowLength : Nat) : Nat := min 1000 (overlap * 1000 / windowLength)

/-- The evidence a coupling gets at its lead's close (R121, R122). -/
def Tables.fightEvidence (T : Tables) (lead : Record) (w : Window) (c : Coupling) : Evidence :=
  if T.fightNeutral lead w c then .neutral
  else if c.params.overlapFraction ≤ overlapFraction c.overlap lead.active.wide.windowLength ∨
      c.params.huntCount ≤ c.antiphase then .evidence
  else .clean

/-- The fight evaluation of one coupling (R122), with the mark of a verdict change (R134). -/
def Tables.evaluateFight (T : Tables) (lead : Record) (w : Window) (c : Coupling) : Coupling :=
  let fight := c.fight.update (T.profile c.params.profile) (T.fightEvidence lead w c)
  let c' := { c with fight := fight, overlap := 0, antiphase := 0 }
  if fight.verdict = c.fight.verdict then c' else c'.marked T.clock

/-- Step 4 of a close: every coupling the record leads is evaluated (R60, R121). -/
def Tables.evaluateLed (T : Tables) (slot : Nat) (lead : Record) (w : Window) : Table Coupling :=
  Table.mapValues T.couplings fun c => if c.leadSlot = slot then T.evaluateFight lead w c else c

/-! ### Staleness of members (R66, R123, R124) -/

/-- A coupling at the staleness expiry of the record in this slot (R66). -/
def Coupling.memberExpiry (slot : Nat) (c : Coupling) : Coupling :=
  if c.leadSlot = slot then { c with overlap := 0, antiphase := 0, leadReversal := none, followerReversal := none }
  else if c.followerSlot = slot then
    { c with followerStale := true, followerCommand := none, followerReversal := none }
  else c

/-! ### COUPLE (R111, R112) -/

/-- Some coupling names these two records, in either role (R111). -/
def Tables.coupled (T : Tables) (a b : Nat) : Bool :=
  T.couplings.any fun e =>
    (e.2.leadSlot == a && e.2.followerSlot == b) || (e.2.leadSlot == b && e.2.followerSlot == a)

/-- The coupling a COUPLE makes (R109, R112). -/
def newCoupling (lead follower : Nat) (params : CouplingParams) (followerStale : Bool) : Coupling :=
  { lead := lead, follower := follower, params := params, lastUpdate := none, leadCommand := none,
    followerCommand := none, leadReversal := none, followerReversal := none, overlap := 0, antiphase := 0,
    followerStale := followerStale, fight := Tracker.fresh, mark := none }

/-- A record's coupling count raised or lowered (R113). -/
def Record.raiseCount (r : Record) : Record := { r with couplingCount := r.couplingCount + 1 }

def Record.lowerCount (r : Record) : Record := { r with couplingCount := r.couplingCount - 1 }

/-- Apply a function to the record in a slot, if there is one. -/
def Tables.modifyRecord (T : Tables) (slot : Nat) (f : Record → Record) : Tables :=
  { T with records := T.records.map fun e => if e.1 = slot then (e.1, f e.2) else e }

def couple (f : Frame) (T : Tables) : Except Refused Accepted := do
  let q ← parsed (readCouple f.body)
  let (a, lead) ← T.resolveRecord q.lead
  let (b, follower) ← T.resolveRecord q.follower
  require (a ≠ b) .sameRecord
  require (∀ p ∈ q.params, p.InRange) .badParam
  require (T.permits f.requester lead.zone && T.permits f.requester follower.zone) .notPermitted
  require (!T.coupled a b) .duplicatePair
  require (lead.couplingCount < 4 ∧ follower.couplingCount < 4) .limit
  let slot ← orRefuse (Table.lowestFree T.couplings Config.couplingSlots) .couplingFull
  let c := newCoupling (T.recordHandle a) (T.recordHandle b) (q.params.getD CouplingParams.default)
    (follower.state == .stale)
  let T' := (T.modifyRecord a Record.raiseCount).modifyRecord b Record.raiseCount
  return { tables := { T' with couplings := Table.put T.couplings slot c }, completion := .done,
           body := be16 (T.couplingHandle slot) }

/-- COUPLE. -/
def execCouple (s : State) : Host.Outcome State Fault Refusal := s.serveTables 0x09 couple

/-! ### UNCOUPLE (R114, R115) -/

def uncouple (f : Frame) (T : Tables) : Except Refused Accepted := do
  let h ← parsed (readUncouple f.body)
  let (slot, c) ← T.resolveCoupling h
  require (T.permitsLead f.requester c) .notPermitted
  let T' := (T.modifyRecord c.leadSlot Record.lowerCount).modifyRecord c.followerSlot Record.lowerCount
  return { tables := { T' with couplings := Table.erase T.couplings slot,
                               couplingGens := advanceGeneration T.couplingGens slot },
           completion := .done, body := be16 h }

/-- UNCOUPLE. -/
def execUncouple (s : State) : Host.Outcome State Fault Refusal := s.serveTables 0x0A uncouple

end Sys2Proof.Machine
end

