-- ==== Sys2Proof/Machine/Observations.lean ====
section
/-! DEFINITION. Observations and windows (files 01, 02, 03): settling, the latch, window closes, the six stages of an
accepted sample, and the request OBSERVE. -/

namespace Sys2Proof.Machine

/-! ### Windows (R58, R59) -/

/-- A window as it opens; the leakage figures are 0 for a VALVE and absent for a DAMPER (R58). -/
def Record.openWindow (t : Nat) (r : Record) : Record :=
  { r with window := some {
      start := t, samples := 0, commandTravel := 0, feedbackTravel := 0, feedbackMin := none, feedbackMax := none,
      feedbackCount := 0, stepExpiry := false, leak := r.valve.map fun _ => { count := 0, sum := 0 } } }

/-- The open window that a sample at this time closes, if any (R59). A STALE record holds none to close (R55, R69). -/
def Record.closingWindow (x : Sample) (r : Record) : Option Window :=
  if r.state = .stale then none
  else
    match r.window with
    | some w => if w.start + r.active.wide.windowLength ≤ x.time then some w else none
    | none => none

/-! ### Evaluation of a closing window (R60, R61) -/

/-- The gate of R61 is passed: enough samples, the zone in RUN, the record LIVE. -/
def Record.judged (mode : ZoneMode) (w : Window) (r : Record) : Bool :=
  decide (r.active.wide.minSamples ≤ w.samples) && mode == .run && r.state == .live

/-- Evidence, or neutral where the gate of R61 is not passed. -/
def gated (passed : Bool) (e : Evidence) : Evidence := if passed then e else .neutral

/-- Some tracker's verdict differs between the two (R134). -/
def Record.verdictsDiffer (before after : Record) : Bool :=
  before.stuck.verdict != after.stuck.verdict || before.flatline.verdict != after.flatline.verdict ||
  (before.valve.map (·.leak.verdict)) != (after.valve.map (·.leak.verdict))

/-- Steps 1 to 3 of R60: one update of each of the record's trackers, before any mark. -/
def Record.updateTrackers (p : Profile) (mode : ZoneMode) (w : Window) (r : Record) : Record :=
  let k := r.activeBank
  let pass := r.judged mode w
  { r with
    stuck := r.stuck.update p (gated pass (stuckEvidence k r.flatline.verdict w))
    flatline := r.flatline.update p (gated pass (flatlineEvidence k w))
    valve := r.valve.map fun v => { v with leak := v.leak.update p (gated pass (r.leakEvidence w)) } }

/-- Steps 1 to 3 of R60, with the mark of R134. -/
def Record.evaluateWindow (clock : Nat) (p : Profile) (mode : ZoneMode) (w : Window) (r : Record) : Record :=
  let r' := r.updateTrackers p mode w
  if r.verdictsDiffer r' then r'.marked clock else r'

/-! ### Settling and the latch (R10, R11, R32, R35) -/

/-- The settle step of a closing window (R10). -/
def Record.settleStep (w : Window) (r : Record) : Record :=
  if r.active.wide.minSamples ≤ w.samples ∧ r.settleCount < r.active.wide.settleWindows then
    { r with
      settleCount := r.settleCount + 1
      state := if r.settleCount + 1 = r.active.wide.settleWindows ∧ r.state = .settling then .live else r.state }
  else r

/-- R11: a new settle windows value lowers the settle count to it, and a SETTLING record that then stands at it becomes
LIVE. -/
def Record.takeSettleWindows (r : Record) : Record :=
  let n := min r.settleCount r.active.wide.settleWindows
  { r with
    settleCount := n
    state := if r.state = .settling ∧ n = r.active.wide.settleWindows then .live else r.state }

/-- The latch: the pending set, if present, becomes the active set; the bank index takes the zone's season bank (R32,
R35); R11 follows where settle windows changed. -/
def Record.latch (season : Fin 2) (r : Record) : Record :=
  match r.pendingSet with
  | none => { r with bank := season }
  | some p =>
    let r' := { r with active := p, pendingSet := none, bank := season }
    if p.wide.settleWindows = r.active.wide.settleWindows then r' else r'.takeSettleWindows

/-- A STALE record leaves STALE by the settle windows now in force (R13). -/
def Record.leaveStale (r : Record) : Record :=
  { r with state := if r.settleCount < r.active.wide.settleWindows then .settling else .live }

/-! ### Stage 1 (R55) -/

/-- Stage 1 on the record (R35, R36, R37, R55). -/
def Tables.stageWindow (T : Tables) (x : Sample) (r : Record) : Record :=
  let z := T.zones[r.zone]
  if r.state = .stale then ((r.latch z.seasonBank).leaveStale.marked T.clock).openWindow x.time
  else
    match r.window with
    | none => r.openWindow x.time
    | some _ =>
      match r.closingWindow x with
      | none => r
      | some w =>
        (((r.evaluateWindow T.clock (T.profile r.activeBank.profile) z.mode w).settleStep w).latch
          z.seasonBank).openWindow x.time

/-- Stage 1 on the couplings: at a close, those the record leads are evaluated with the record as step 3 left it. -/
def Tables.stageFights (T : Tables) (slot : Nat) (x : Sample) (r : Record) : Table Coupling :=
  match r.closingWindow x with
  | none => T.couplings
  | some w =>
    T.evaluateLed slot
      (r.evaluateWindow T.clock (T.profile r.activeBank.profile) T.zones[r.zone].mode w) w

/-! ### Stage 3 (R56) -/

/-- The smaller and the larger of a value and one that may be absent. -/
def minWith (a : Option Nat) (b : Nat) : Nat :=
  match a with
  | some a => min a b
  | none => b

def maxWith (a : Option Nat) (b : Nat) : Nat :=
  match a with
  | some a => max a b
  | none => b

/-- The previous sample, when it carries feedback and lies in this window (R56). -/
def Record.pairedPrevious (w : Window) (r : Record) : Option (Nat × Nat) :=
  match r.last with
  | some l =>
    match l.feedback with
    | some fb => if w.start ≤ l.time then some (l.command, fb) else none
    | none => none
  | none => none

/-- The sample counted into a window (R56). -/
def Window.count (x : Sample) (previous : Option (Nat × Nat)) (w : Window) : Window :=
  match x.feedback with
  | none => { w with samples := w.samples + 1 }
  | some fb =>
    let travelled := match previous with
      | some (c, f) => (distance x.command c, distance fb f)
      | none => (0, 0)
    { w with
      samples := w.samples + 1
      feedbackCount := w.feedbackCount + 1
      feedbackMin := some (minWith w.feedbackMin fb)
      feedbackMax := some (maxWith w.feedbackMax fb)
      commandTravel := w.commandTravel + travelled.1
      feedbackTravel := w.feedbackTravel + travelled.2 }

/-- Stage 3: the window's figures, then the closed run and the leakage figures (R56, R91, R95). -/
def Record.stageAccumulate (x : Sample) (r : Record) : Record :=
  Record.stageLeak x { r with window := r.window.map fun w => w.count x (r.pairedPrevious w) }

/-! ### Stages 4 and 6 (R57, R117) -/

/-- Stage 4 on the record: its reversal tracker. -/
def Record.stageReversal (x : Sample) (r : Record) : Record :=
  { r with reversal := (r.reversal.take r.active.wide.reversalDeadband x.command).1 }

/-- The direction in which the sample is a reversal of the record, if it is one (R117). -/
def Record.turnAt (x : Sample) (r : Record) : Option Direction :=
  (r.reversal.take r.active.wide.reversalDeadband x.command).2

/-- Stage 6: the sample becomes the last sample (R57). -/
def Record.stageLast (x : Sample) (r : Record) : Record :=
  { r with last := some { time := x.time, command := x.command, feedback := x.feedback } }

/-! ### An accepted sample (R54) -/

/-- The record after an accepted sample (R54). -/
def Tables.sampledRecord (T : Tables) (x : Sample) (r : Record) : Record :=
  ((((T.stageWindow x r).stageWatch x).stageAccumulate x).stageReversal x |>.stageCalibration T.clock x).stageLast x

/-- The couplings after an accepted sample: the evaluation of stage 1, then stage 4 (R118). -/
def Tables.sampledCouplings (T : Tables) (slot : Nat) (x : Sample) (r : Record) : Table Coupling :=
  Table.mapValues (T.stageFights slot x r)
    (Coupling.memberSample slot (r.state == .stale) x (((T.stageWindow x r).stageWatch x).stageAccumulate x |>.turnAt x))

/-- The tables after an accepted sample of the record in this slot (R54). -/
def Tables.applySample (T : Tables) (slot : Nat) (r : Record) (x : Sample) : Tables :=
  { T with records := Table.replace T.records slot (T.sampledRecord x r), couplings := T.sampledCouplings slot x r }

/-! ### OBSERVE (R49 to R53) -/

/-- Per-sample results (R51). -/
inductive SampleResult where
  | accepted
  | late
  | future
  deriving DecidableEq, Repr

def SampleResult.code : SampleResult → Nat
  | .accepted => 0
  | .late => 1
  | .future => 2

/-- The result of one sample, against the record as the earlier samples left it (R51). -/
def sampleResult (clock : Nat) (r : Record) (time : Nat) : SampleResult :=
  match r.last with
  | some l => if time ≤ l.time then .late else if clock + 60 < time then .future else .accepted
  | none => if clock + 60 < time then .future else .accepted

/-- The samples of one request, applied one after another in the order listed (R51, R53). -/
def Tables.applySamples (T : Tables) (slot : Nat) : List RawSample → Tables × List SampleResult
  | [] => (T, [])
  | x :: rest =>
    match Table.get T.records slot with
    | none => (T, [])
    | some r =>
      let res := sampleResult T.clock r x.time
      let next := Tables.applySamples (if res = .accepted then T.applySample slot r x.condition else T) slot rest
      (next.1, res :: next.2)

/-- The body of an OBSERVE reply (R53). -/
def Tables.observeBody (T : Tables) (slot : Nat) (r : Record) (results : List SampleResult) : List Byte :=
  be16 (T.recordHandle slot) ++ be16 r.revision ++ be8 r.state.code ++ be8 results.length ++
  results.flatMap (fun x => be8 x.code) ++ optField (fun l : LastSample => be32 l.time) r.last

def observe (f : Frame) (T : Tables) : Except Refused Accepted := do
  let q ← parsed (readObserve f.body)
  let (slot, r) ← T.resolveRecord q.name
  require (1 ≤ q.count ∧ q.count ≤ 8 ∧ ∀ x ∈ q.samples, ∀ fan ∈ x.fan, fan ≤ 1) .badParam
  require (T.permits f.requester r.zone) .notPermitted
  T.checkRevision slot r q.expected
  let out := T.applySamples slot q.samples
  let after := (Table.get out.1.records slot).getD r
  return { tables := out.1, completion := .done, body := out.1.observeBody slot after out.2 }

/-- OBSERVE. -/
def execObserve (s : State) : Host.Outcome State Fault Refusal := s.serveTables 0x06 observe

end Sys2Proof.Machine
end

