-- ==== Sys2Proof/Machine/Clock.lean ====
section
/-! DEFINITION. Time (file 03, file 09): the estate clock's tick, staleness expiry, the ATTN delay test coming to hold, and
the requests SET_TIME and READ_TIME. -/

namespace Sys2Proof.Machine

/-! ### CLOCK_TICK (R46) -/

/-- The clock advanced by one second; at 4 294 967 295 it holds (R46). -/
def nextClock (clock : Nat) : Nat := if clock < Config.maxTime then clock + 1 else clock

/-- CLOCK_TICK: the clock advances, also while RESET is low, and ATTN follows (R46, R161). -/
def execClockTick (s : State) : Host.Outcome State Fault Refusal :=
  .next { s with tables := { s.tables with clock := nextClock s.tables.clock } }.driveAttn

/-! ### STALENESS_EXPIRY (R64 to R66) -/

/-- A record's expiry is due: it holds a last sample and the clock stands at or above its deadline (R64). -/
def Record.expiryDue (clock : Nat) (r : Record) : Bool :=
  match r.deadline with
  | some d => decide (d ≤ clock)
  | none => false

/-- The record at its expiry (R65). -/
def Record.expire (clock : Nat) (r : Record) : Record :=
  ({ r.failCalibration clock .stale with
      window := none, watch := none, closedRun := none, last := none, state := .stale }).marked clock

/-- The tables after the expiry of the record in this slot (R65, R66). -/
def Tables.expire (T : Tables) (slot : Nat) (r : Record) : Tables :=
  { T with
    records := Table.replace T.records slot (r.expire T.clock)
    couplings := Table.mapValues T.couplings (Coupling.memberExpiry slot) }

/-- STALENESS_EXPIRY of the record in a slot. While RESET is low no expiry is taken (R172); where none is due the event
does not come about and nothing changes (DESIGN CHOICE, notes/assumptions/6.md, safe); there is no slot above 511 (R3). -/
def execStalenessExpiry (slot : Nat) (s : State) : Host.Outcome State Fault Refusal :=
  if Config.recordSlots ≤ slot then .fault .noSuchSlot
  else
    match Table.get s.tables.records slot with
    | none => .next s
    | some r =>
      if !s.resetLow && r.expiryDue s.tables.clock then
        .next { s with tables := s.tables.expire slot r }.driveAttn
      else .next s

/-! ### ATTN_DELAY_ELAPSED (R160) -/

/-- ATTN_DELAY_ELAPSED: where RESET is high and the port's delay test holds, its ATTN is asserted; elsewhere the event does
not come about and nothing changes (DESIGN CHOICE, notes/assumptions/7.md, safe). -/
def execAttnDelayElapsed (p : PortId) (s : State) : Host.Outcome State Fault Refusal :=
  if !s.resetLow && delayTest (s.port p).settings s.tables then .next (s.setPort p { s.port p with attn := true })
  else .next s

/-! ### SET_TIME and READ_TIME (R47, R48) -/

def setTime (f : Frame) (T : Tables) : Except Refused Accepted := do
  let t ← parsed (readSetTime f.body)
  require (isAdmin f.requester) .notPermitted
  return { tables := { T with clock := t }, completion := .done, body := be32 T.clock ++ be32 t }

/-- SET_TIME. -/
def execSetTime (s : State) : Host.Outcome State Fault Refusal := s.serveTables 0x0F setTime

def readTime (f : Frame) (T : Tables) : Except Refused Accepted := do
  parsed (readEmpty f.body)
  return { tables := T, completion := .done, body := be32 T.clock }

/-- READ_TIME. -/
def execReadTime (s : State) : Host.Outcome State Fault Refusal := s.serveTables 0x10 readTime

end Sys2Proof.Machine
end

