-- ==== Sys2Proof/Machine/Ports.lean ====
section
/-! DEFINITION. The service ports (file 10): bytes on the link, request frames, replies shifted out, and the requests
UNKNOWN_REQUEST, PORT_SET and STATUS. -/

namespace Sys2Proof.Machine

/-! ### One byte clocked (R163 to R165, R169) -/

/-- A byte carried out on data out. -/
def Port.emit (q : Port) (b : Byte) : Port := { q with sdo := q.sdo ++ [b] }

/-- The head reply leaves the queue at its last check byte; a flag its status byte reported as set is cleared (R169). -/
def Port.popReply (q : Port) (rest : List Reply) (status : Byte) : Port :=
  { q with
    replies := rest, shiftPos := 0, statusByte := 0
    overrun := q.overrun && !reportsOverrun status
    frameError := q.frameError && !reportsFrameError status }

/-- The byte carried out at one byte clocked: the next byte of the head reply, or filler (R163). The status byte is formed
from the port's state as it is shifted out, and the check over it as sent (R169). -/
def State.shiftByte (s : State) (p : PortId) : Port :=
  let q := s.port p
  match q.replies with
  | [] => q.emit 0x00
  | r :: rest =>
    let status := if q.shiftPos = statusPos then s.portStatus p else q.statusByte
    let q' := q.emit ((r.bytes status).getD q.shiftPos 0)
    if q.shiftPos + 1 < r.wireLength then { q' with shiftPos := q.shiftPos + 1, statusByte := status }
    else q'.popReply rest status

/-- A checked frame joins the request queue, or is dropped with OVERRUN when the queue holds 16 (R165); HOLD is tested as
the count rises (R166). -/
def Port.enqueue (q : Port) (f : Frame) : Port :=
  if q.requests.length < Config.queueDepth then q.withRequests (q.requests ++ [f]) else { q with overrun := true }

/-- A frame discarded (R164). -/
def Port.discardFrame (q : Port) : Port := { q with receiver := .hunting, frameError := true }

/-- The receiver takes one byte (R164). -/
def Port.receiveByte (q : Port) (b : Byte) : Port :=
  match q.receiver with
  | .hunting => if b = requestMarker then { q with receiver := .inFrame [] } else q
  | .inFrame received =>
    let got := received ++ [b]
    let length := (got.headD 0).toNat
    if length < 4 ∨ 250 < length then q.discardFrame
    else if got.length < length + 3 then { q with receiver := .inFrame got }
    else
      match frameOf got with
      | some f => { q with receiver := .hunting }.enqueue f
      | none => q.discardFrame

/-- One byte clocked on a port: a byte of reply or filler out, then the byte in to the receiver; the port is selected
(R163, R164; the order within one byte time is a DESIGN CHOICE, notes/assumptions/16.md, unsafe). While RESET is low the
byte in is discarded and filler goes out (R172). -/
def State.clockByte (s : State) (p : PortId) (b : Byte) : State :=
  if s.resetLow then s.setPort p { (s.port p).emit 0x00 with selected := true }
  else s.setPort p ({ s.shiftByte p with selected := true }.receiveByte b)

/-- Bytes clocked one after another; data out is collected from the first of them on. -/
def State.clockBytes (s : State) (p : PortId) (bytes : List Byte) : State :=
  bytes.foldl (fun t b => t.clockByte p b) (s.setPort p { s.port p with sdo := [] })

/-! ### REQUEST_FRAME, SELECT_RAISED, REPLY_SHIFTED_OUT -/

/-- REQUEST_FRAME: the gateway clocks these bytes in, a complete frame or any others (R163, R164). -/
def execRequestFrame (p : PortId) (bytes : List Byte) (s : State) : Host.Outcome State Fault Refusal :=
  .next (s.clockBytes p bytes)

/-- SELECT_RAISED: a partly received frame is discarded with FRAME_ERROR, and a partly shifted reply returns to its marker
(R163, R164). -/
def Port.raiseSelect (q : Port) : Port :=
  let q' := { q with selected := false, shiftPos := 0, statusByte := 0 }
  match q.receiver with
  | .hunting => q'
  | .inFrame _ => q'.discardFrame

/-- SELECT_RAISED. On a port that is not selected there is no edge and nothing changes. -/
def execSelectRaised (p : PortId) (s : State) : Host.Outcome State Fault Refusal :=
  if (s.port p).selected then .next (s.setPort p (s.port p).raiseSelect) else .next s

/-- How many bytes of the head reply are still to be clocked out. -/
def Port.remaining (q : Port) : Nat :=
  match q.replies with
  | [] => 0
  | r :: _ => r.wireLength - q.shiftPos

/-- REPLY_SHIFTED_OUT: the gateway clocks the rest of the head reply out, sending its filler byte. With no reply queued, or
with RESET low, no reply is shifted out and nothing changes (DESIGN CHOICE, notes/assumptions/1.md, safe). -/
def execReplyShiftedOut (p : PortId) (filler : Byte) (s : State) : Host.Outcome State Fault Refusal :=
  if s.resetLow || (s.port p).replies.isEmpty then .next s
  else .next (s.clockBytes p (List.replicate (s.port p).remaining filler))

/-! ### UNKNOWN_REQUEST (R168) -/

/-- UNKNOWN_REQUEST: refused with no other effect. -/
def execUnknownRequest (s : State) : Host.Outcome State Fault Refusal :=
  s.serve (fun c => !knownCode c) (answerTables fun _ _ => refuse .unknownRequest)

/-! ### PORT_SET (R170) -/

/-- Port codes. -/
def portOfNat : Nat → Option PortId
  | 0 => some .a
  | 1 => some .b
  | _ => none

/-- The settings as they would stand after a PORT_SET. -/
def PortSettings.write (set : PortSettings) (q : PortSetReq) : PortSettings :=
  { holdOn := q.holdOn.getD set.holdOn, holdOff := q.holdOff.getD set.holdOff,
    trigger := q.trigger.getD set.trigger, delay := q.delay.getD set.delay }

/-- What R166 and R160 let a port's settings be. -/
abbrev PortSettings.Valid (set : PortSettings) : Prop :=
  (4 ≤ set.holdOn ∧ set.holdOn ≤ 16) ∧ set.holdOff < set.holdOn ∧
  (set.trigger = 1 ∨ set.trigger = 2 ∨ set.trigger = 4 ∨ set.trigger = 8) ∧ set.delay ≤ 255

/-- The conditions of R170 on the settings given. -/
abbrev PortSetReq.InRange (q : PortSetReq) : Prop :=
  (∀ n ∈ q.holdOn, 4 ≤ n ∧ n ≤ 16) ∧ (∀ n ∈ q.trigger, n = 1 ∨ n = 2 ∨ n = 4 ∨ n = 8) ∧ (∀ n ∈ q.delay, n ≤ 255)

def PortSettings.bytes (set : PortSettings) : List Byte :=
  be8 set.holdOn ++ be8 set.holdOff ++ be8 set.trigger ++ be16 set.delay

/-- A port with new settings, its HOLD tested against them (R166). -/
def Port.withSettings (q : Port) (set : PortSettings) : Port :=
  { q with settings := set, hold := holdLevel set q.requests.length q.hold }

/-- The checks of PORT_SET: the port and the settings it is to have. -/
def portSetChecked (f : Frame) (s : State) : Except Refused (PortId × PortSettings) := do
  let q ← parsed (readPortSet f.body)
  require (isAdmin f.requester) .notPermitted
  let p ← orRefuse (portOfNat q.port) .badParam
  let set := (s.port p).settings.write q
  require (q.InRange ∧ set.holdOff < set.holdOn) .badParam
  return (p, set)

def portSet (job : InService) (s : State) : Answer :=
  match portSetChecked job.frame s with
  | .error r => { state := s, completion := r.completion, body := r.body }
  | .ok (p, set) =>
    { state := s.setPort p ((s.port p).withSettings set), completion := .done,
      body := (s.port p).settings.bytes ++ set.bytes }

/-- PORT_SET. -/
def execPortSet (s : State) : Host.Outcome State Fault Refusal := s.serve (fun c => c == 0x0E) portSet

/-! ### STATUS (R171) -/

/-- The body of a STATUS reply, in the order of R171. The HOLD level is sent as a flag byte, 1 asserted and 0 deasserted
(DESIGN CHOICE, notes/assumptions/25.md, unsafe). -/
def State.statusBody (s : State) (p : PortId) : List Byte :=
  be8 s.restartCause.code ++ be16 s.tables.records.length ++ be16 (Config.recordSlots - s.tables.records.length) ++
  be16 s.tables.couplings.length ++ be16 s.tables.attentionCount ++
  flagByte (s.port p).hold ++ flagByte (s.port p).overrun ++ flagByte (s.port p).frameError ++ be32 s.tables.clock

def statusAnswer (job : InService) (s : State) : Answer :=
  match readEmpty job.frame.body with
  | none => { state := s, completion := .badLength, body := [] }
  | some _ =>
    { state := s.setPort job.port { s.port job.port with restarted := false }, completion := .done,
      body := s.statusBody job.port }

/-- STATUS. -/
def execStatus (s : State) : Host.Outcome State Fault Refusal := s.serve (fun c => c == 0x11) statusAnswer

end Sys2Proof.Machine
end

