-- ==== Sys2Proof/Machine/Views.lean ====
section
/-! DEFINITION. The bodies of replies that show a record or a coupling (R17 to R19, R116), field by field in the order their
rules list them. An optional field or group is preceded by a flag byte (R174; which fields make a group is a DESIGN CHOICE,
notes/assumptions/8.md, unsafe). -/

namespace Sys2Proof.Machine

/-- A key: building, unit, then kind in bits 7 to 4 and element number in bits 3 to 0. -/
def Key.bytes (k : Key) : List Byte :=
  be8 k.building.toNat ++ be8 k.unit.toNat ++ be8 (16 * k.kind.code + k.number.toNat)

def RecordWide.bytes (w : RecordWide) : List Byte :=
  be16 w.windowLength ++ be8 w.minSamples ++ be8 w.settleWindows ++ be32 w.staleAfter ++ be16 w.closedSettle ++
  be8 w.leakMinSamples ++ be8 w.reversalDeadband

def Bank.bytes (k : Bank) : List Byte :=
  be16 k.stuckRatio ++ be16 k.minTravel ++ be16 k.stepSize ++ be16 k.stepTimeout ++ be8 k.closedLevel ++
  be16 k.leakThreshold ++ be8 k.profile

/-- A parameter set, 36 bytes. -/
def ParamSet.bytes (p : ParamSet) : List Byte := p.wide.bytes ++ p.bank0.bytes ++ p.bank1.bytes

/-- A tracker: score, verdict. -/
def Tracker.bytes (t : Tracker) : List Byte := be8 t.score ++ be8 t.verdict.level

/-- A calibration status with its failure reason, present when FAILED. -/
def Calibration.bytes (c : Calibration) : List Byte :=
  be8 c.code ++ optField (fun r : CalFailure => be8 r.code)
    (match c with
      | .failed r => some r
      | _ => Option.none)

/-- The SUMMARY view (R17). -/
def Tables.summaryBody (T : Tables) (slot : Nat) (r : Record) : List Byte :=
  be16 (T.recordHandle slot) ++ r.key.bytes ++ be8 r.zone ++
  optField (fun v : ValveParts => be8 v.sense.code) r.valve ++
  be8 r.state.code ++ be8 r.settleCount ++ be16 r.revision ++ be8 r.bank ++ flagByte r.pendingSet.isSome ++
  be16 r.lag ++ optField (fun v : ValveParts => be16s v.offset) r.valve ++ r.cal.bytes ++
  r.stuck.bytes ++ r.flatline.bytes ++ optField (fun v : ValveParts => v.leak.bytes) r.valve ++
  be8 r.couplingCount ++ optField be32 r.mark ++
  optField (fun l : LastSample => be32 l.time) r.last ++ optField be40 r.deadline

/-- The SETTINGS view (R18). -/
def Tables.settingsBody (T : Tables) (slot : Nat) (r : Record) : List Byte :=
  be16 (T.recordHandle slot) ++ be16 r.revision ++ be8 r.bank ++ r.active.bytes ++
  optField ParamSet.bytes r.pendingSet

/-- The feedback minimum and maximum, one group: they come and go together (R58). -/
def Window.feedbackSpan (w : Window) : Option (Nat × Nat) :=
  match w.feedbackMin, w.feedbackMax with
  | some a, some b => some (a, b)
  | _, _ => none

/-- An open window in the PROGRESS view (R19, item 1). -/
def Window.bytes (w : Window) : List Byte :=
  be32 w.start ++ be16 w.samples ++ be32 w.commandTravel ++ be32 w.feedbackTravel ++
  optField (fun p : Nat × Nat => be16 p.1 ++ be16 p.2) w.feedbackSpan ++
  be16 w.feedbackCount ++ flagByte w.stepExpiry ++
  optField (fun f : LeakFigures => be16 f.count ++ be32s f.sum) w.leak

def LastSample.bytes (l : LastSample) : List Byte := be32 l.time ++ be16 l.command ++ optField be16 l.feedback

def StepWatch.bytes (w : StepWatch) : List Byte :=
  be32 w.start ++ be16 w.startCommand ++ be16 w.startFeedback ++ be8 w.direction.code ++ be16 w.total ++ be40 w.deadline

def CalRun.bytes (c : CalRun) : List Byte := be32 c.start ++ be16 c.duration ++ be16 c.count ++ be32s c.sum

/-- The run figures, present while RUNNING. -/
def Calibration.run? : Calibration → Option CalRun
  | .running c => some c
  | _ => Option.none

/-- The PROGRESS view (R19). -/
def Tables.progressBody (T : Tables) (slot : Nat) (r : Record) : List Byte :=
  be16 (T.recordHandle slot) ++ be16 r.revision ++ optField Window.bytes r.window ++ optField LastSample.bytes r.last ++
  optField be32 r.closedRun ++ be8 (directionCode r.reversal.direction) ++ optField be16 r.reversal.extreme ++
  optField StepWatch.bytes r.watch ++ optField CalRun.bytes r.cal.run?

/-- A member of a coupling: its handle and its key. The member is present (R107); were it not, its key would read as zeros
(DESIGN CHOICE, notes/assumptions/18.md, safe). -/
def Tables.memberBytes (T : Tables) (handle : Nat) : List Byte :=
  be16 handle ++
  (match Table.get T.records (recordSlotOf handle) with
    | some r => r.key.bytes
    | none => be8 0 ++ be8 0 ++ be8 0)

def CouplingParams.bytes (p : CouplingParams) : List Byte :=
  be16 p.overlapLevel ++ be16 p.overlapFraction ++ be8 p.huntCount ++ be16 p.pairWindow ++ be8 p.profile

def Reversal.bytes (v : Reversal) : List Byte := be32 v.time ++ be8 v.direction.code

/-- The coupling view (R116). -/
def Tables.couplingBody (T : Tables) (slot : Nat) (c : Coupling) : List Byte :=
  be16 (T.couplingHandle slot) ++ T.memberBytes c.lead ++ T.memberBytes c.follower ++ c.params.bytes ++
  optField be32 c.lastUpdate ++ optField be16 c.leadCommand ++ optField be16 c.followerCommand ++
  optField Reversal.bytes c.leadReversal ++ optField Reversal.bytes c.followerReversal ++
  be16 c.overlap ++ be8 c.antiphase ++ flagByte c.followerStale ++ c.fight.bytes ++ optField be32 c.mark

end Sys2Proof.Machine
end

