-- ==== Sys2Proof/Machine/Records.lean ====
section
/-! DEFINITION. The requests that create, read, list, amend and remove records: DEFINE, LOOKUP, ENUMERATE, AMEND, RETIRE
(files 01 and 02). -/

namespace Sys2Proof.Machine

/-! ### DEFINE (R14 to R16, R30, R31) -/

/-- Coil sense codes. -/
def senseOfNat : Nat → Option CoilSense
  | 0 => some .heat
  | 1 => some .cool
  | _ => none

/-- Step 1 of R15 on the coil sense: present for a VALVE, absent for a DAMPER, and a code that is defined. The answer is
the coil sense the record is to have, absent for a DAMPER. -/
def judgeSense (kind : ElementKind) (sense : Option Nat) : Option (Option CoilSense) :=
  match kind, sense with
  | .damper, none => some none
  | .valve, some c => (senseOfNat c).map some
  | _, _ => none

/-- The learned values are absent, or a lag alone for a DAMPER, or a lag and an offset for a VALVE (R31, R174). -/
def learnedShape (kind : ElementKind) (lag : Option Nat) (offset : Option Int) : Bool :=
  match lag, offset, kind with
  | none, none, _ => true
  | some _, some _, .valve => true
  | some _, none, .damper => true
  | _, _, _ => false

/-- The learned values agree with R31 and lie in their ranges. -/
abbrev learnedValid (kind : ElementKind) (lag : Option Nat) (offset : Option Int) : Prop :=
  learnedShape kind lag offset ∧ (∀ n ∈ lag, n ≤ 600) ∧ (∀ z ∈ offset, -200 ≤ z ∧ z ≤ 200)

/-- The record a DEFINE makes (R16, R9). -/
def newRecord (key : Key) (zone : Fin 16) (sense : Option CoilSense) (params : ParamSet) (season : Fin 2) (lag : Nat)
    (offset : Int) : Record :=
  { key := key, zone := zone,
    valve := sense.map fun c => { sense := c, offset := offset, leak := Tracker.fresh },
    state := if params.wide.settleWindows = 0 then .live else .settling,
    settleCount := 0, revision := 1, active := params, bank := season, pendingSet := none, lag := lag,
    window := none, last := none, closedRun := none, reversal := { direction := none, extreme := none }, watch := none,
    cal := .none, stuck := Tracker.fresh, flatline := Tracker.fresh, couplingCount := 0, mark := none }

def define (f : Frame) (T : Tables) : Except Refused Accepted := do
  let q ← parsed (readDefine f.body)
  let key ← orRefuse q.key.judge .badParam
  let zone ← orRefuse (zoneOfNat q.zone) .badParam
  let sense ← orRefuse (judgeSense key.kind q.sense) .badParam
  require (T.permits f.requester zone) .notPermitted
  require ((∀ p ∈ q.params, p.InRange) ∧ learnedValid key.kind q.lag q.offset) .badParam
  require (T.slotOfKey key = none) .duplicateKey
  let slot ← orRefuse (Table.lowestFree T.records Config.recordSlots) .tableFull
  let r := newRecord key zone sense (q.params.getD ParamSet.default) T.zones[zone].seasonBank (q.lag.getD 0)
    (q.offset.getD 0)
  return { tables := { T with records := Table.put T.records slot r, directory := Table.put T.directory slot key },
           completion := .done,
           body := be16 (T.recordHandle slot) ++ be16 r.revision ++ be8 r.state.code }

/-- DEFINE. -/
def execDefine (s : State) : Host.Outcome State Fault Refusal := s.serveTables 0x01 define

/-! ### LOOKUP (R17 to R20, R116) -/

/-- LOOKUP of a record: the view named, and the mark removed when the keep-mark flag is clear (R17 to R20). -/
def lookupRecord (slot : Nat) (r : Record) (view keep : Nat) (T : Tables) : Accepted :=
  { tables := if keep = 0 then { T with records := Table.replace T.records slot { r with mark := none } } else T,
    completion := .done,
    body := if view = 0 then T.summaryBody slot r else if view = 1 then T.settingsBody slot r else T.progressBody slot r }

/-- LOOKUP of a coupling: the coupling view, whatever the view code (R116, R20). -/
def lookupCoupling (slot : Nat) (c : Coupling) (keep : Nat) (T : Tables) : Accepted :=
  { tables := if keep = 0 then { T with couplings := Table.replace T.couplings slot { c with mark := none } } else T,
    completion := .done, body := T.couplingBody slot c }

def lookup (f : Frame) (T : Tables) : Except Refused Accepted := do
  let q ← parsed (readLookup f.body)
  require (q.view ≤ 2 ∧ q.keep ≤ 1) .badParam
  match q.name with
  | .handle h =>
    if isCouplingHandle h then
      let (slot, c) ← T.resolveCoupling h
      return lookupCoupling slot c q.keep T
    else
      let (slot, r) ← T.resolveRecord q.name
      return lookupRecord slot r q.view q.keep T
  | .key _ =>
    let (slot, r) ← T.resolveRecord q.name
    return lookupRecord slot r q.view q.keep T

/-- LOOKUP. -/
def execLookup (s : State) : Host.Outcome State Fault Refusal := s.serveTables 0x02 lookup

/-! ### ENUMERATE (R21, R22) -/

/-- One entry of an ENUMERATE reply. -/
def Tables.enumerateEntry (T : Tables) (e : Nat × Record) : List Byte :=
  be16 (T.recordHandle e.1) ++ e.2.key.bytes ++ be8 e.2.state.code ++ be16 e.2.revision ++ flagByte e.2.mark.isSome

/-- The records of a zone above the cursor, in slot order (R21). -/
def Tables.enumerated (T : Tables) (zone : Fin 16) (cursor : Option Nat) : List (Nat × Record) :=
  T.records.filter fun e => decide (e.2.zone = zone) && decide (∀ c ∈ cursor, c < T.recordHandle e.1)

def enumerate (f : Frame) (T : Tables) : Except Refused Accepted := do
  let q ← parsed (readEnumerate f.body)
  let zone ← orRefuse (zoneOfNat q.zone) .badParam
  require (∀ c ∈ q.cursor, isCouplingHandle c = false) .badParam
  let found := T.enumerated zone q.cursor
  return { tables := T, completion := .done,
           body := (found.take 16).flatMap T.enumerateEntry ++ flagByte (decide (16 < found.length)) }

/-- ENUMERATE. -/
def execEnumerate (s : State) : Host.Outcome State Fault Refusal := s.serveTables 0x03 enumerate

/-! ### AMEND (R38 to R41) -/

/-- The new zone of an AMEND: none given, or one in 0 to 15. -/
def judgeNewZone : Option Nat → Option (Option (Fin 16))
  | none => some none
  | some n => (zoneOfNat n).map some

def amend (f : Frame) (T : Tables) : Except Refused Accepted := do
  let q ← parsed (readAmend f.body)
  let (slot, r) ← T.resolveRecord q.name
  require (q.params.isSome ∨ q.zone.isSome) .badParam
  let newZone ← orRefuse (judgeNewZone q.zone) .badParam
  require (T.permits f.requester r.zone ∧ ∀ z ∈ newZone, z ≠ r.zone → T.permits f.requester z) .notPermitted
  T.checkRevision slot r q.expected
  require (∀ p ∈ q.params, p.InRange) .badParam
  let r' := { r with
    pendingSet := if q.params.isSome then q.params else r.pendingSet
    zone := newZone.getD r.zone
    revision := nextRevision r.revision }
  return { tables := { T with records := Table.replace T.records slot r' }, completion := .done,
           body := be16 (T.recordHandle slot) ++ be16 r'.revision ++ flagByte r'.pendingSet.isSome }

/-- AMEND. -/
def execAmend (s : State) : Host.Outcome State Fault Refusal := s.serveTables 0x04 amend

/-! ### RETIRE (R23, R24) -/

def retire (f : Frame) (T : Tables) : Except Refused Accepted := do
  let q ← parsed (readRetire f.body)
  let (slot, r) ← T.resolveRecord q.name
  require (T.permits f.requester r.zone) .notPermitted
  T.checkRevision slot r q.expected
  require (r.couplingCount = 0) .inUse
  return { tables := { T with records := Table.erase T.records slot, directory := Table.erase T.directory slot,
                              recordGens := advanceGeneration T.recordGens slot },
           completion := .done, body := be16 (T.recordHandle slot) }

/-- RETIRE. -/
def execRetire (s : State) : Host.Outcome State Fault Refusal := s.serveTables 0x05 retire

end Sys2Proof.Machine
end

