-- ==== Sys2Proof/Machine/Restarts.lean ====
section
/-! DEFINITION. Power-on, the RESET line and warm restarts (R27, R71, R126, R172, R173). -/

namespace Sys2Proof.Machine

/-- POWER_ON: everything as the manual gives it after power-on; the queue of waiting commands is the model's own and
stands. -/
def execPowerOn (s : State) : Host.Outcome State Fault Refusal := .next { State.reset with pending := s.pending }

/-- A port while RESET is held low: HOLD deasserted (R166, R172). -/
def Port.heldInReset (q : Port) : Port := { q with hold := false }

/-- RESET_LINE_LOW: a request in service is discarded, HOLD and both ATTN outputs are deasserted (R161, R172, R173). -/
def execResetLineLow (s : State) : Host.Outcome State Fault Refusal :=
  .next { s with resetLow := true, serving := none, portA := s.portA.heldInReset,
                 portB := s.portB.heldInReset }.driveAttn

/-- A record at a warm restart (R27, R71, R103). -/
def Record.warmRestart (clock : Nat) (r : Record) : Record :=
  { r.failCalibration clock .restart with window := none, watch := none, closedRun := none }

/-- A coupling at a warm restart (R126). -/
def Coupling.warmRestart (c : Coupling) : Coupling :=
  { c with overlap := 0, antiphase := 0, leadReversal := none, followerReversal := none }

/-- The tables at a warm restart. -/
def Tables.warmRestart (T : Tables) : Tables :=
  { T with records := Table.mapValues T.records (Record.warmRestart T.clock),
           couplings := Table.mapValues T.couplings Coupling.warmRestart }

/-- A port at a warm restart (R172); its settings, its select line and what it last carried out stand. -/
def Port.warmRestart (q : Port) : Port :=
  { q with requests := [], replies := [], shiftPos := 0, statusByte := 0, receiver := .hunting, hold := false,
           overrun := false, frameError := false, restarted := true }

/-- The warm restart, which takes no time (R172). -/
def State.warmRestart (s : State) (cause : RestartCause) : State :=
  { s with tables := s.tables.warmRestart, portA := s.portA.warmRestart, portB := s.portB.warmRestart, serving := none,
           lastServed := .b, resetLow := false, restartCause := cause }.driveAttn

/-- WARM_RESTART: the rising edge of the RESET line (R172). Where the line is already high the command stands for a low
pulse and its rising edge (DESIGN CHOICE, notes/assumptions/4.md, safe). -/
def execWarmRestart (s : State) : Host.Outcome State Fault Refusal := .next (s.warmRestart .resetLine)

/-- The checks of R173. -/
def restartChecked (f : Frame) : Except Refused Unit := do
  parsed (readEmpty f.body)
  require (isAdmin f.requester) .notPermitted

def restartAnswer (job : InService) (s : State) : Answer :=
  match restartChecked job.frame with
  | .error r => { state := s, completion := r.completion, body := r.body }
  | .ok _ => { state := s.warmRestart .restartRequest, completion := .done, body := [] }

/-- RESTART: the warm restart at its completion, its DONE reply then the sole one on its port (R173). -/
def execRestart (s : State) : Host.Outcome State Fault Refusal := s.serve (fun c => c == 0x12) restartAnswer

end Sys2Proof.Machine
end

