-- ==== Sys2Proof/Machine/Zones.lean ====
section
/-! DEFINITION. The zone table's one writer, ZONE_SET (file 08). -/

namespace Sys2Proof.Machine

/-- Mode codes. -/
def modeOfNat : Nat → Option ZoneMode
  | 0 => some .run
  | 1 => some .hold
  | _ => none

/-- A zone's three fields as a reply carries them. -/
def Zone.bytes (z : Zone) : List Byte := be8 z.mode.code ++ be8 z.seasonBank ++ be8 z.owners.toNat

/-- The zone with each field that is carried written, or none where a code is not defined (R149, R150). -/
def Zone.write (z : Zone) (mode seasonBank owners : Option Nat) : Option Zone := do
  let m ← match mode with
    | none => some z.mode
    | some n => modeOfNat n
  let b ← match seasonBank with
    | none => some z.seasonBank
    | some n => bitOfNat n
  return { mode := m, seasonBank := b,
           owners := match owners with
             | none => z.owners
             | some n => BitVec.ofNat 8 n }

def zoneSet (f : Frame) (T : Tables) : Except Refused Accepted := do
  let q ← parsed (readZoneSet f.body)
  require (isAdmin f.requester) .notPermitted
  let i ← orRefuse (zoneOfNat q.zone) .badParam
  let new ← orRefuse (T.zones[i].write q.mode q.seasonBank q.owners) .badParam
  return { tables := { T with zones := T.zones.set i new }, completion := .done, body := T.zones[i].bytes ++ new.bytes }

/-- ZONE_SET. -/
def execZoneSet (s : State) : Host.Outcome State Fault Refusal := s.serveTables 0x0C zoneSet

end Sys2Proof.Machine
end

