-- ==== Sys2Proof/Machine/Dispatch.lean ====
section
/-! DEFINITION. One arm per command: its meaning. -/

namespace Sys2Proof.Machine

/-- A command's effect on everything but the queue of waiting commands. -/
def exec (i : Instr) (s : State) : Host.Outcome State Fault Refusal :=
  match i with
  | .powerOn => Sys2Proof.Machine.execPowerOn s
  | .resetLineLow => Sys2Proof.Machine.execResetLineLow s
  | .warmRestart => Sys2Proof.Machine.execWarmRestart s
  | .clockTick => Sys2Proof.Machine.execClockTick s
  | .stalenessExpiry slot => Sys2Proof.Machine.execStalenessExpiry slot s
  | .attnDelayElapsed p => Sys2Proof.Machine.execAttnDelayElapsed p s
  | .requestFrame p bytes => Sys2Proof.Machine.execRequestFrame p bytes s
  | .selectRaised p => Sys2Proof.Machine.execSelectRaised p s
  | .replyShiftedOut p filler => Sys2Proof.Machine.execReplyShiftedOut p filler s
  | .unknownRequest => Sys2Proof.Machine.execUnknownRequest s
  | .define => Sys2Proof.Machine.execDefine s
  | .lookup => Sys2Proof.Machine.execLookup s
  | .enumerate => Sys2Proof.Machine.execEnumerate s
  | .amend => Sys2Proof.Machine.execAmend s
  | .retire => Sys2Proof.Machine.execRetire s
  | .observe => Sys2Proof.Machine.execObserve s
  | .calibrate => Sys2Proof.Machine.execCalibrate s
  | .acquit => Sys2Proof.Machine.execAcquit s
  | .couple => Sys2Proof.Machine.execCouple s
  | .uncouple => Sys2Proof.Machine.execUncouple s
  | .scan => Sys2Proof.Machine.execScan s
  | .zoneSet => Sys2Proof.Machine.execZoneSet s
  | .profileSet => Sys2Proof.Machine.execProfileSet s
  | .portSet => Sys2Proof.Machine.execPortSet s
  | .setTime => Sys2Proof.Machine.execSetTime s
  | .readTime => Sys2Proof.Machine.execReadTime s
  | .status => Sys2Proof.Machine.execStatus s
  | .restart => Sys2Proof.Machine.execRestart s

end Sys2Proof.Machine
end

