-- ==== Sys2Proof/Machine/Step.lean ====
section
/-! DEFINITION. One step: the command at the front of the queue, or, when none waits, the engine's own taking of a
request. -/

namespace Sys2Proof.Machine

/-- A step takes the command at the front of the queue and runs it on the rest. On an empty queue the idle engine takes a
request if a port is eligible, as R167 says it does by itself, and nothing else happens (DESIGN CHOICE,
notes/assumptions/3.md, safe). -/
def step (s : State) : Host.Outcome State Fault Refusal :=
  match s.pending with
  | [] => .next s.takeRequest
  | c :: rest => exec c { s with pending := rest }

/-- The state with the command a table word spells put at the front of its queue; no word spells one. -/
def State.withFetchWord (s : State) (nbits w : Nat) : State :=
  match decodeTableWord nbits w with
  | some c => { s with pending := c :: s.pending }
  | none => s

end Sys2Proof.Machine
end

