-- ==== Sys2Proof/Machine/Gateway.lean ====
section
/-! DEFINITION. The request bodies as a gateway lays them out (section 10.6): the writers that stand against the readers of
Operands.lean, and the values each field has room for. No command calls them; statements about layouts do. -/

namespace Sys2Proof.Machine

/-- A presence byte with these bits, bit 0 first. -/
def presenceByte (b0 b1 b2 b3 : Bool) : List Byte := be8 (b0.toNat + 2 * b1.toNat + 4 * b2.toNat + 8 * b3.toNat)

/-- A field that takes room only when it is present. -/
def ifPresent {α : Type} (enc : α → List Byte) : Option α → List Byte
  | none => []
  | some x => enc x

/-- A key of four numbers. -/
def RawKey.bytes (k : RawKey) : List Byte := be8 k.building ++ be8 k.unit ++ be8 (16 * k.kind + k.number)

/-- A key as its four numbers. -/
def Key.raw (k : Key) : RawKey :=
  { building := k.building.toNat, unit := k.unit.toNat, kind := k.kind.code, number := k.number.toNat }

/-- A name: form byte 0x01 and a key, or form byte 0x02 and a handle. -/
def RequestName.bytes : RequestName → List Byte
  | .key k => be8 1 ++ k.bytes
  | .handle h => be8 2 ++ be16 h

def RawSample.bytes (x : RawSample) : List Byte :=
  be32 x.time ++ presenceByte x.feedback.isSome x.entering.isSome x.leaving.isSome x.fan.isSome ++ be16 x.command ++
  ifPresent be16 x.feedback ++ ifPresent be16s x.entering ++ ifPresent be16s x.leaving ++ ifPresent be8 x.fan

def DefineReq.bytes (q : DefineReq) : List Byte :=
  q.key.bytes ++ be8 q.zone ++ presenceByte q.sense.isSome q.params.isSome q.lag.isSome q.offset.isSome ++
  ifPresent be8 q.sense ++ ifPresent ParamSet.bytes q.params ++ ifPresent be16 q.lag ++ ifPresent be16s q.offset

def LookupReq.bytes (q : LookupReq) : List Byte := q.name.bytes ++ be8 q.view ++ be8 q.keep

def EnumerateReq.bytes (q : EnumerateReq) : List Byte :=
  be8 q.zone ++ flagByte q.cursor.isSome ++ ifPresent be16 q.cursor

def AmendReq.bytes (q : AmendReq) : List Byte :=
  q.name.bytes ++ be16 q.expected ++ presenceByte q.params.isSome q.zone.isSome false false ++
  ifPresent ParamSet.bytes q.params ++ ifPresent be8 q.zone

def RetireReq.bytes (q : RetireReq) : List Byte := q.name.bytes ++ be16 q.expected

def ObserveReq.bytes (q : ObserveReq) : List Byte :=
  q.name.bytes ++ be16 q.expected ++ be8 q.count ++ q.samples.flatMap RawSample.bytes

def CalibrateReq.bytes (q : CalibrateReq) : List Byte := q.name.bytes ++ be16 q.expected ++ be16 q.duration

/-- The expected revision takes no room when the name is a coupling handle. -/
def AcquitReq.bytes (q : AcquitReq) : List Byte :=
  q.name.bytes ++ be8 q.tracker ++ (if q.name.isCoupling then [] else be16 q.expected)

def CoupleReq.bytes (q : CoupleReq) : List Byte :=
  q.lead.bytes ++ q.follower.bytes ++ flagByte q.params.isSome ++ ifPresent CouplingParams.bytes q.params

def ZoneSetReq.bytes (q : ZoneSetReq) : List Byte :=
  be8 q.zone ++ presenceByte q.mode.isSome q.seasonBank.isSome q.owners.isSome false ++
  ifPresent be8 q.mode ++ ifPresent be8 q.seasonBank ++ ifPresent be8 q.owners

def PortSetReq.bytes (q : PortSetReq) : List Byte :=
  be8 q.port ++ presenceByte q.holdOn.isSome q.holdOff.isSome q.trigger.isSome q.delay.isSome ++
  ifPresent be8 q.holdOn ++ ifPresent be8 q.holdOff ++ ifPresent be8 q.trigger ++ ifPresent be16 q.delay

/-! ### What the fields have room for -/

abbrev fits8 (n : Nat) : Prop := n < 256

abbrev fits16 (n : Nat) : Prop := n < 65536

abbrev fits32 (n : Nat) : Prop := n < 4294967296

abbrev fits16s (z : Int) : Prop := -32768 ≤ z ∧ z < 32768

abbrev RawKey.Fits (k : RawKey) : Prop := fits8 k.building ∧ fits8 k.unit ∧ k.kind < 16 ∧ k.number < 16

abbrev RequestName.Fits : RequestName → Prop
  | .key k => k.Fits
  | .handle h => fits16 h

abbrev Bank.Fits (k : Bank) : Prop :=
  fits16 k.stuckRatio ∧ fits16 k.minTravel ∧ fits16 k.stepSize ∧ fits16 k.stepTimeout ∧ fits8 k.closedLevel ∧
  fits16 k.leakThreshold ∧ fits8 k.profile

abbrev RecordWide.Fits (w : RecordWide) : Prop :=
  fits16 w.windowLength ∧ fits8 w.minSamples ∧ fits8 w.settleWindows ∧ fits32 w.staleAfter ∧ fits16 w.closedSettle ∧
  fits8 w.leakMinSamples ∧ fits8 w.reversalDeadband

abbrev ParamSet.Fits (p : ParamSet) : Prop := p.wide.Fits ∧ p.bank0.Fits ∧ p.bank1.Fits

abbrev CouplingParams.Fits (p : CouplingParams) : Prop :=
  fits16 p.overlapLevel ∧ fits16 p.overlapFraction ∧ fits8 p.huntCount ∧ fits16 p.pairWindow ∧ fits8 p.profile

abbrev RawSample.Fits (x : RawSample) : Prop :=
  fits32 x.time ∧ fits16 x.command ∧ (∀ n ∈ x.feedback, fits16 n) ∧ (∀ z ∈ x.entering, fits16s z) ∧
  (∀ z ∈ x.leaving, fits16s z) ∧ (∀ n ∈ x.fan, fits8 n)

abbrev Profile.Fits (p : Profile) : Prop :=
  fits8 p.rise ∧ fits8 p.fall ∧ fits8 p.onWatch ∧ fits8 p.onSuspect ∧ fits8 p.onConfirmed ∧ fits8 p.hyst

end Sys2Proof.Machine
end

