-- ==== Sys2Proof/Safety.lean ====
section
/-! DEFINITION. The terms claims are stated in: when the engine serves a frame, what a completed request leaves, and the
invariants of the part. -/

namespace Sys2Proof.Machine

/-! ### Serving (R167) -/

/-- A port the engine can take from, in the words of R167. -/
def Port.CanServe (q : Port) : Prop := q.requests ≠ [] ∧ q.replies.length < 16

/-- The idle engine takes this frame from this port next (R167): it is the head of an eligible port's request queue, and
when the other port is eligible too, this one was not served last. -/
structure State.TakesNext (s : State) (p : PortId) (f : Frame) : Prop where
  idle : s.serving = none
  head : (s.port p).requests.head? = some f
  room : (s.port p).replies.length < 16
  turn : (s.port (otherPort p)).CanServe → s.lastServed ≠ p

/-- The engine completes this frame from this port at the next request step: RESET is high and the frame is in service, or
the idle engine takes it. -/
def State.Serves (s : State) (p : PortId) (f : Frame) : Prop :=
  s.resetLow = false ∧ (s.serving = some { port := p, frame := f } ∨ s.TakesNext p f)

/-- HOLD tested at this queue count, in the words of R166. -/
def holdAt (set : PortSettings) (count : Nat) (before : Bool) : Bool :=
  if set.holdOn ≤ count then true else if count ≤ set.holdOff then false else before

/-- A port's ATTN output stands at the level R160 gives it, in the words of R160. -/
def State.AttnAt (s : State) (p : PortId) : Prop :=
  (s.port p).attn = true ↔
    s.resetLow = false ∧
    ((s.port p).settings.trigger ≤ s.tables.attentionCount ∨
      (0 < (s.port p).settings.delay ∧
        ∃ m, m ∈ s.tables.markTimes ∧ (∀ n ∈ s.tables.markTimes, m ≤ n) ∧ m ≤ s.tables.clock ∧
          (s.port p).settings.delay ≤ s.tables.clock - m))

/-- Both ATTN outputs stand at the level R160 gives them. -/
def State.AttnOk (s : State) : Prop := s.AttnAt .a ∧ s.AttnAt .b

/-- The parts of a port that serving a request never touches: the link, the flags and the settings. -/
structure Port.SameLink (q q' : Port) : Prop where
  shiftPos : q'.shiftPos = q.shiftPos
  statusByte : q'.statusByte = q.statusByte
  receiver : q'.receiver = q.receiver
  selected : q'.selected = q.selected
  sdo : q'.sdo = q.sdo
  overrun : q'.overrun = q.overrun
  frameError : q'.frameError = q.frameError

/-- A port as it was, but for its ATTN output. -/
structure Port.SameButAttn (q q' : Port) : Prop where
  link : q.SameLink q'
  requests : q'.requests = q.requests
  replies : q'.replies = q.replies
  hold : q'.hold = q.hold
  restarted : q'.restarted = q.restarted
  settings : q'.settings = q.settings

/-- The request queue of the port a request came from, once it is served: the frame has left it, now or when it was
taken. -/
def State.queueAfter (s : State) (p : PortId) : List Frame :=
  if s.serving.isSome then (s.port p).requests else (s.port p).requests.tail

/-- The HOLD level of that port: tested as the count falls (R166). -/
def State.holdAfter (s : State) (p : PortId) : Bool :=
  if s.serving.isSome then (s.port p).hold
  else holdAt (s.port p).settings (s.port p).requests.tail.length (s.port p).hold

/-- The state t is s after the request f from port p was completed with this completion code and this reply body, leaving
these tables, and nothing else changed: the frame left its queue, the one reply stands at the tail of the same port's reply
queue, the engine is idle, the port is the one served last, and both ATTN outputs follow their tests (R26, R161, R166,
R167). -/
structure State.Completed (s t : State) (p : PortId) (f : Frame) (c : Completion) (body : List Byte) (T : Tables) :
    Prop where
  tables : t.tables = T
  reply : (t.port p).replies =
    (s.port p).replies ++ [{ tag := f.tag, code := f.code, completion := c, body := body }]
  requests : (t.port p).requests = s.queueAfter p
  hold : (t.port p).hold = s.holdAfter p
  link : (s.port p).SameLink (t.port p)
  restarted : (t.port p).restarted = (s.port p).restarted
  settings : (t.port p).settings = (s.port p).settings
  other : (s.port (otherPort p)).SameButAttn (t.port (otherPort p))
  serving : t.serving = none
  lastServed : t.lastServed = if s.serving.isSome then s.lastServed else p
  attn : t.AttnOk
  resetLow : t.resetLow = s.resetLow
  restartCause : t.restartCause = s.restartCause
  pending : t.pending = s.pending

/-- The command, serving the frame f from port p, completes with this code and this reply body and leaves these tables and
nothing else changed. -/
def State.Answers (s : State) (c : Instr) (p : PortId) (f : Frame) (code : Completion) (body : List Byte) (T : Tables) :
    Prop := ∃ t, exec c s = .next t ∧ s.Completed t p f code body T

/-- The command, serving the frame f from port p, refuses it with this code, an empty body and no effect (R168). -/
def State.Refuses (s : State) (c : Instr) (p : PortId) (f : Frame) (code : Completion) : Prop :=
  s.Answers c p f code [] s.tables

/-- The requester passes the access check of a zone, in the words of R146 and R147: it is the administrator, or it is one
of 0 to 7 and present in the owner mask. -/
def Tables.MayChange (T : Tables) (requester : Byte) (zone : Fin 16) : Prop :=
  requester = 0 ∨ (requester.toNat < 8 ∧ T.zones[zone].owners.getLsbD requester.toNat = true)

/-- The expected revision passes the check of R42. -/
def Record.Expects (r : Record) (expected : Nat) : Prop := expected = 0 ∨ expected = r.revision

/-- Step 1 of R15: the key's fields, the zone and the coil sense of a DEFINE. -/
structure DefineReq.FormOk (q : DefineReq) : Prop where
  building : q.key.building < 64
  unit : q.key.unit < 256
  number : q.key.number < 16
  kind : q.key.kind = 0 ∨ q.key.kind = 1
  zone : q.zone < 16
  sensePresent : q.sense.isSome = true ↔ q.key.kind = 1
  sense : ∀ c ∈ q.sense, c = 0 ∨ c = 1

/-- Step 3 of R15: every parameter in its range, and the learned values absent, or a lag with an offset exactly for a VALVE,
each in its range (R30, R31). -/
structure DefineReq.ValuesOk (q : DefineReq) : Prop where
  params : ∀ p ∈ q.params, p.InRange
  learned : (q.lag = none ∧ q.offset = none) ∨
    ∃ n, q.lag = some n ∧ n ≤ 600 ∧
      ((q.key.kind = 0 ∧ q.offset = none) ∨ (q.key.kind = 1 ∧ ∃ z, q.offset = some z ∧ -200 ≤ z ∧ z ≤ 200))

/-- The request commands and the request codes they serve (section 10.6). -/
def requestCommands : List (Instr × Nat) :=
  [(.define, 0x01), (.lookup, 0x02), (.enumerate, 0x03), (.amend, 0x04), (.retire, 0x05), (.observe, 0x06),
   (.calibrate, 0x07), (.acquit, 0x08), (.couple, 0x09), (.uncouple, 0x0A), (.scan, 0x0B), (.zoneSet, 0x0C),
   (.profileSet, 0x0D), (.portSet, 0x0E), (.setTime, 0x0F), (.readTime, 0x10), (.status, 0x11), (.restart, 0x12)]

/-- A port after a warm restart, in the words of R172; its ATTN output follows the tests. -/
def Port.Restarted (q q' : Port) : Prop :=
  q' = { q with requests := [], replies := [], shiftPos := 0, statusByte := 0, receiver := .hunting, hold := false,
                overrun := false, frameError := false, restarted := true, attn := q'.attn }

/-- The tables after a warm restart, in the words of R27, R71, R103 and R126. -/
structure Tables.Restarted (T T' : Tables) : Prop where
  records : ∀ i r, Table.get T.records i = some r →
    Table.get T'.records i = some (
      match r.cal with
      | .running _ => { r with window := none, watch := none, closedRun := none, cal := .failed .restart,
                               mark := some (r.mark.getD T.clock) }
      | _ => { r with window := none, watch := none, closedRun := none })
  noRecord : ∀ i, Table.get T.records i = none → Table.get T'.records i = none
  couplings : ∀ i c, Table.get T.couplings i = some c →
    Table.get T'.couplings i =
      some { c with overlap := 0, antiphase := 0, leadReversal := none, followerReversal := none }
  noCoupling : ∀ i, Table.get T.couplings i = none → Table.get T'.couplings i = none
  directory : T'.directory = T.directory
  recordGens : T'.recordGens = T.recordGens
  couplingGens : T'.couplingGens = T.couplingGens
  zones : T'.zones = T.zones
  profile4 : T'.profile4 = T.profile4
  clock : T'.clock = T.clock

/-- The on-threshold of a level above CLEAR (R130). -/
def Profile.on (p : Profile) : Verdict → Nat
  | .clear => 0
  | .watch => p.onWatch
  | .suspect => p.onSuspect
  | .confirmed => p.onConfirmed

/-! ### The ports' invariant (R165 to R167, R172) -/

/-- A port within its limits: both queues, the settings, the receiver inside the frame its length byte announces, and the
shifter inside the head reply. -/
structure Port.Within (q : Port) : Prop where
  requests : q.requests.length ≤ 16
  replies : q.replies.length ≤ 16
  settings : q.settings.Valid
  receiver : ∀ length rest, q.receiver = .inFrame (length :: rest) →
    4 ≤ length.toNat ∧ length.toNat ≤ 250 ∧ rest.length < length.toNat + 2
  shifter : q.shiftPos = 0 ∨ ∃ r rest, q.replies = r :: rest ∧ q.shiftPos < r.wireLength

/-- HOLD is asserted at or above hold-on and deasserted at or below hold-off (R166). -/
def Port.HoldOk (q : Port) : Prop :=
  (q.settings.holdOn ≤ q.requests.length → q.hold = true) ∧ (q.requests.length ≤ q.settings.holdOff → q.hold = false)

/-- The ports' invariant: limits, HOLD by its hysteresis while RESET is high and deasserted while it is low, and room for
the reply of a request in service. -/
structure State.PortsOk (s : State) : Prop where
  withinA : s.portA.Within
  withinB : s.portB.Within
  holdHigh : s.resetLow = false → s.portA.HoldOk ∧ s.portB.HoldOk
  holdLow : s.resetLow = true → s.portA.hold = false ∧ s.portB.hold = false ∧ s.serving = none
  room : ∀ job, s.serving = some job → (s.port job.port).replies.length < 16

/-! ### The tables' invariants (R2 to R5, R107, R108, R113) -/

/-- Generations as stored: 1 to 63, an unlisted slot having 0. -/
def generationsOk (gens : Table Nat) (capacity : Nat) : Prop :=
  Table.Wf gens capacity ∧ ∀ e ∈ gens, 1 ≤ e.2 ∧ e.2 < 64

/-- The record table in canonical form, no two records with one key, and the key directory holding exactly one entry for
each record (R1 to R4). -/
structure Tables.RecordsOk (T : Tables) : Prop where
  records : Table.Wf T.records 512
  generations : generationsOk T.recordGens 512
  keys : (T.records.map fun e => e.2.key).Nodup
  directory : T.directory = Table.mapValues T.records Record.key

/-- How many couplings name the record in a slot. -/
def Tables.couplingsNaming (T : Tables) (slot : Nat) : Nat := (T.couplings.filter fun e => e.2.names slot).length

/-- The coupling table in canonical form; every coupling names two distinct present records by their handles, no two the
same pair; every record's coupling count is the number of couplings naming it, at most 4 (R107 to R109, R113). -/
structure Tables.CouplingsOk (T : Tables) : Prop where
  couplings : Table.Wf T.couplings 256
  generations : generationsOk T.couplingGens 256
  members : ∀ e ∈ T.couplings, e.2.leadSlot ≠ e.2.followerSlot ∧
    e.2.lead = T.recordHandle e.2.leadSlot ∧ e.2.follower = T.recordHandle e.2.followerSlot ∧
    (Table.get T.records e.2.leadSlot).isSome ∧ (Table.get T.records e.2.followerSlot).isSome
  pairs : ∀ e ∈ T.couplings, ∀ d ∈ T.couplings, e.1 ≠ d.1 →
    ¬ (d.2.names e.2.leadSlot = true ∧ d.2.names e.2.followerSlot = true)
  counts : ∀ e ∈ T.records, e.2.couplingCount = T.couplingsNaming e.1 ∧ e.2.couplingCount ≤ 4

/-- A coupling is follower-stale exactly while its follower is STALE, and then holds neither a stored command nor an
unpaired reversal of it (R123). -/
def Tables.FollowersOk (T : Tables) : Prop :=
  ∀ e ∈ T.couplings, ∀ f, Table.get T.records e.2.followerSlot = some f →
    (e.2.followerStale = true ↔ f.state = .stale) ∧
    (e.2.followerStale = true → e.2.followerCommand = none ∧ e.2.followerReversal = none)

/-! ### The records' invariants -/

/-- A record as the manual says it stays: kind-bound parts by its kind (R7), sets in range (R30), revision, settle count and
lag in range (R8, R10, R89), scores in range (R129), offset in range (R96), a SETTLING record below its settle windows, and
a STALE record with nothing in flight (R69). -/
structure Record.Ok (r : Record) : Prop where
  kind : r.valve.isSome = true ↔ r.key.kind = .valve
  active : r.active.InRange
  waiting : ∀ p ∈ r.pendingSet, p.InRange
  revision : 1 ≤ r.revision ∧ r.revision ≤ 65535
  settled : r.settleCount ≤ r.active.wide.settleWindows
  settling : r.state = .settling → r.settleCount < r.active.wide.settleWindows
  lag : r.lag ≤ 600
  offset : ∀ v ∈ r.valve, -200 ≤ v.offset ∧ v.offset ≤ 200
  scores : r.stuck.score ≤ 255 ∧ r.flatline.score ≤ 255 ∧ ∀ v ∈ r.valve, v.leak.score ≤ 255
  stale : r.state = .stale →
    r.window = none ∧ r.last = none ∧ r.watch = none ∧ r.closedRun = none ∧ r.cal.isRunning = false
  calibrating : r.cal.isRunning = true → r.valve.isSome = true
  closedRun : r.closedRun.isSome = true → r.valve.isSome = true
  watch : ∀ w ∈ r.watch, w.start + 30 ≤ w.deadline ∧ w.deadline ≤ w.start + 600

/-- Every record of the table is as the manual says it stays. -/
def Tables.RecordsShaped (T : Tables) : Prop := ∀ e ∈ T.records, e.2.Ok

/-- An open window lies within W of its start and holds at most one sample a second; its travels and its residual sum are
bounded by its counts (R56, R59, R95). -/
def Record.WindowOk (r : Record) : Prop :=
  (∀ l ∈ r.last, l.command ≤ 1000 ∧ ∀ fb ∈ l.feedback, fb ≤ 1000) ∧
  ∀ w ∈ r.window, ∃ l, r.last = some l ∧
    w.start ≤ l.time ∧ l.time < w.start + r.active.wide.windowLength ∧
    1 ≤ w.samples ∧ w.samples ≤ l.time - w.start + 1 ∧
    w.commandTravel ≤ 1000 * (w.samples - 1) ∧ w.feedbackTravel ≤ 1000 * (w.samples - 1) ∧
    w.feedbackCount ≤ w.samples ∧
    ∀ f ∈ w.leak, f.count ≤ w.samples ∧ -(2000 * (f.count : Int)) ≤ f.sum ∧ f.sum ≤ 2000 * (f.count : Int)

/-- Every record's open window keeps within its bounds. -/
def Tables.WindowsOk (T : Tables) : Prop := ∀ e ∈ T.records, e.2.WindowOk

end Sys2Proof.Machine
end

