-- ==== Sys2Proof/Certificates/Slice0/Obligations.lean ====
section
/-! DEFINITION. The statements for the provers. Each says what a command, a sample or a step does, in terms of the rules of
spec/. `State.Serves` says when the engine completes a frame; `State.Answers` says that a request completes, with which reply
and which tables, and that nothing else changes. -/

open Sys2Proof Sys2Proof.Machine

/-! ### The step (model: one queue of commands) -/

/-- A step runs the command at the front of the queue on the rest of the queue. -/
def Obligations.StepRunsFrontCommand : Prop :=
  ∀ (s : State) (c : Instr) (rest : List Instr), s.pending = c :: rest → step s = exec c { s with pending := rest }

/-- On an empty queue (model's choice, log 3) the idle engine takes the frame R167 names, HOLD is tested as the count falls
(R166, as log 23 reads it) and nothing else changes; where the engine is serving, RESET is low or no port is eligible,
nothing changes. -/
def Obligations.IdleStepTakesRequest : Prop :=
  ∀ s : State, s.pending = [] →
    (∀ p f, s.resetLow = false → s.TakesNext p f →
      ∃ t, step s = .next t ∧ t.serving = some { port := p, frame := f } ∧ t.lastServed = p ∧
        t.port p = { s.port p with requests := (s.port p).requests.tail,
                                   hold := holdAt (s.port p).settings (s.port p).requests.tail.length (s.port p).hold } ∧
        t.port (otherPort p) = s.port (otherPort p) ∧ t.tables = s.tables ∧ t.resetLow = false ∧
        t.restartCause = s.restartCause ∧ t.pending = []) ∧
    (s.resetLow = true ∨ s.serving.isSome = true ∨ (¬ s.portA.CanServe ∧ ¬ s.portB.CanServe) → step s = .next s)

/-! ### Power, RESET and time -/

/-- Power-on gives the part the state of R27, R46, R126, R135, R144, R162 and R172, whatever it held. The equality with the
model's reset state also says what no rule says: RESET high, both selects raised, no byte on data out and a stored status
byte of 0 are the model's choice (log 5), and the queue of waiting commands, which stands, is the model's own (log 22). -/
def Obligations.PowerOnStartsThePart : Prop :=
  (∀ s : State, exec .powerOn s = .next { State.reset with pending := s.pending }) ∧
  (∀ i, Table.get State.reset.tables.records i = none ∧ Table.get State.reset.tables.couplings i = none ∧
    generationOf State.reset.tables.recordGens i = 0 ∧ generationOf State.reset.tables.couplingGens i = 0) ∧
  State.reset.tables.directory = [] ∧ State.reset.tables.clock = 0 ∧
  (∀ z : Fin 16, State.reset.tables.zones[z] = { mode := .run, seasonBank := 0, owners := 0xFF }) ∧
  State.reset.tables.profile4 = { rise := 40, fall := 20, onWatch := 40, onSuspect := 100, onConfirmed := 200, hyst := 20 } ∧
  (∀ p, (State.reset.port p).requests = [] ∧ (State.reset.port p).replies = [] ∧ (State.reset.port p).shiftPos = 0 ∧
    (State.reset.port p).receiver = .hunting ∧ (State.reset.port p).overrun = false ∧
    (State.reset.port p).frameError = false ∧ (State.reset.port p).restarted = true ∧
    (State.reset.port p).hold = false ∧ (State.reset.port p).attn = false ∧
    (State.reset.port p).settings = { holdOn := 12, holdOff := 4, trigger := 1, delay := 0 }) ∧
  State.reset.lastServed = .b ∧ State.reset.restartCause = .powerOn ∧ State.reset.serving = none

/-- RESET driven low deasserts HOLD and ATTN on both ports, leaves no request in service, and changes nothing else (R161,
R166, R172, R173). That the request in service is discarded at the fall is the model's reading (log 20). -/
def Obligations.ResetLineLowHoldsThePart : Prop :=
  ∀ s : State, exec .resetLineLow s = .next { s with
    resetLow := true, serving := none,
    portA := { s.portA with hold := false, attn := false }, portB := { s.portB with hold := false, attn := false } }

/-- While RESET is low no request is served, no staleness expiry is taken, and bytes clocked in are discarded while filler
goes out (R172); that REPLY_SHIFTED_OUT then clocks no byte at all is the model's choice (log 1), and that ATTN_DELAY_ELAPSED
then changes nothing is too (log 7). With RESET high a request step, UNKNOWN_REQUEST's too, whose request is not the one the
engine serves changes nothing, and so does one while the engine has nothing to serve (model's choice, log 2). -/
def Obligations.NothingServed : Prop :=
  (∀ s : State, s.resetLow = true →
    (∀ c code, (c, code) ∈ requestCommands → exec c s = .next s) ∧ exec .unknownRequest s = .next s ∧
    (∀ slot, slot < 512 → exec (.stalenessExpiry slot) s = .next s) ∧
    (∀ p, exec (.attnDelayElapsed p) s = .next s) ∧
    (∀ p (bytes : List Byte), bytes ≠ [] → exec (.requestFrame p bytes) s =
      .next (s.setPort p { s.port p with selected := true, sdo := List.replicate bytes.length 0 })) ∧
    (∀ p filler, exec (.replyShiftedOut p filler) s = .next s)) ∧
  (∀ (s : State) (c : Instr) (code : Nat), (c, code) ∈ requestCommands →
    (∀ p f, s.Serves p f → f.code.toNat ≠ code → exec c s = .next s) ∧
    (s.resetLow = false → s.serving = none → ¬ s.portA.CanServe → ¬ s.portB.CanServe → exec c s = .next s)) ∧
  (∀ s : State,
    (∀ p f, s.Serves p f → 1 ≤ f.code.toNat → f.code.toNat ≤ 0x12 → exec .unknownRequest s = .next s) ∧
    (s.resetLow = false → s.serving = none → ¬ s.portA.CanServe → ¬ s.portB.CanServe →
      exec .unknownRequest s = .next s))

/-- The rising edge of RESET carries out the warm restart, with cause RESET_LINE, on both ports and all tables (R27, R71,
R103, R126, R172); ATTN then stands at the level of its tests (R161). Where the line is high already there is no edge, and
that the command then stands for a low pulse and its rising edge is the model's choice (log 4). -/
def Obligations.WarmRestartCarriedOut : Prop :=
  ∀ s : State, ∃ t, exec .warmRestart s = .next t ∧ s.tables.Restarted t.tables ∧
    s.portA.Restarted t.portA ∧ s.portB.Restarted t.portB ∧ t.AttnOk ∧ t.serving = none ∧ t.lastServed = .b ∧
    t.resetLow = false ∧ t.restartCause = .resetLine ∧ t.pending = s.pending

/-- A second of the timebase advances the clock by one, holding it at 4 294 967 295, also while RESET is low, and moves
nothing else but ATTN (R46, R161). Where RESET is high and the delay test of R160 holds for a port, ATTN_DELAY_ELAPSED
asserts its ATTN and changes nothing else; elsewhere it changes nothing (model's choice, log 7). -/
def Obligations.TimePasses : Prop :=
  (∀ s : State, ∃ t, exec .clockTick s = .next t ∧
    t.tables = { s.tables with
      clock := if s.tables.clock < 4294967295 then s.tables.clock + 1 else s.tables.clock } ∧
    (∀ p, (s.port p).SameButAttn (t.port p)) ∧ t.AttnOk ∧ t.serving = s.serving ∧ t.lastServed = s.lastServed ∧
    t.resetLow = s.resetLow ∧ t.restartCause = s.restartCause ∧ t.pending = s.pending) ∧
  (∀ (s : State) (p : PortId),
    let holds := s.resetLow = false ∧ 0 < (s.port p).settings.delay ∧
      ∃ m, m ∈ s.tables.markTimes ∧ (∀ n ∈ s.tables.markTimes, m ≤ n) ∧ m ≤ s.tables.clock ∧
        (s.port p).settings.delay ≤ s.tables.clock - m
    (holds → exec (.attnDelayElapsed p) s = .next (s.setPort p { s.port p with attn := true })) ∧
    (¬ holds → exec (.attnDelayElapsed p) s = .next s))

/-- The expiry of a record whose deadline the clock has reached (R63 to R66): the record as R65 changes it, every coupling
naming it as R66, R123 and R124 change it, and nothing else but ATTN. No expiry is taken for an empty slot, for a record
with no deadline or for one whose deadline lies above the clock (that the command then changes nothing is the model's
choice, log 6); a slot above 511 is none of the table's, and the model stops (log 6). -/
def Obligations.StalenessExpiryTaken : Prop :=
  (∀ (s : State) (slot : Nat) (r : Record) (l : LastSample), slot < 512 → s.resetLow = false →
    Table.get s.tables.records slot = some r → r.last = some l →
    l.time + r.active.wide.staleAfter ≤ s.tables.clock →
    ∃ t, exec (.stalenessExpiry slot) s = .next t ∧
      Table.get t.tables.records slot = some { r with
        window := none, watch := none, closedRun := none, last := none, state := .stale,
        cal := match r.cal with
          | .running _ => .failed .stale
          | c => c
        mark := some (r.mark.getD s.tables.clock) } ∧
      (∀ j, j ≠ slot → Table.get t.tables.records j = Table.get s.tables.records j) ∧
      (∀ i, Table.get t.tables.couplings i = (Table.get s.tables.couplings i).map fun c =>
        if c.leadSlot = slot then
          { c with overlap := 0, antiphase := 0, leadReversal := none, followerReversal := none }
        else if c.followerSlot = slot then
          { c with followerStale := true, followerCommand := none, followerReversal := none }
        else c) ∧
      t.tables = { s.tables with records := t.tables.records, couplings := t.tables.couplings } ∧
      (∀ p, (s.port p).SameButAttn (t.port p)) ∧ t.AttnOk ∧ t.serving = s.serving ∧ t.lastServed = s.lastServed ∧
      t.resetLow = s.resetLow ∧ t.restartCause = s.restartCause ∧ t.pending = s.pending) ∧
  (∀ (s : State) (slot : Nat), slot < 512 →
    (∀ r, Table.get s.tables.records slot = some r →
      ∀ l, r.last = some l → s.tables.clock < l.time + r.active.wide.staleAfter) →
    exec (.stalenessExpiry slot) s = .next s) ∧
  (∀ (s : State) (slot : Nat), 512 ≤ slot → exec (.stalenessExpiry slot) s = .fault .noSuchSlot)

/-! ### The ports' links -/

/-- A request frame sent whole, as section 10.6 lays it out, to a hunting receiver with RESET high is received whole: it
joins the tail of the request queue when that holds fewer than 16 frames, HOLD being tested at the new count (as log 23 reads
R166), and sets OVERRUN when it holds 16 (R164, R165, R166). Nothing else changes but by the bytes that go out meanwhile (R163): the port is
as so many filler bytes would leave it, which touch the reply queue, the shifter, its status byte and data out, and clear
a flag that a reply leaving the queue reported; with no reply queued they carry filler out and touch no more. That OVERRUN
stays set where such a reply leaves in the very byte time of the frame's last byte rests on the model's order of the two
(log 16). -/
def Obligations.FrameReceived : Prop :=
  ∀ (s : State) (p : PortId) (f : Frame), s.resetLow = false → (s.port p).receiver = .hunting → f.body.length ≤ 246 →
    let old := s.port p
    ∃ q : Port,
      exec (.requestFrame p (List.replicate f.bytes.length 0x00)) s = .next (s.setPort p q) ∧
      (old.requests.length < 16 → exec (.requestFrame p f.bytes) s = .next (s.setPort p { q with
        requests := old.requests ++ [f], hold := holdAt old.settings (old.requests.length + 1) old.hold })) ∧
      (16 ≤ old.requests.length → exec (.requestFrame p f.bytes) s = .next (s.setPort p { q with overrun := true })) ∧
      q = { old with
        selected := true, replies := q.replies, shiftPos := q.shiftPos, statusByte := q.statusByte, sdo := q.sdo,
        overrun := q.overrun, frameError := q.frameError } ∧
      (q.overrun = true → old.overrun = true) ∧ (q.frameError = true → old.frameError = true) ∧
      q.sdo.length = f.bytes.length ∧
      (old.replies = [] →
        q = { old with selected := true, sdo := List.replicate (f.body.length + 8) 0x00 })

/-- A frame whose length byte is below 4 or above 250 is discarded at that byte, and one whose check does not match at its
second check byte: FRAME_ERROR is set, the receiver hunts again, and no queue takes anything (R164). That FRAME_ERROR stays
set where a reply that reported it leaves in that very byte time rests on the model's order of the two (log 16). -/
def Obligations.BadFramesDiscarded : Prop :=
  ∀ (s : State) (p : PortId), s.resetLow = false → (s.port p).receiver = .hunting →
    (∀ length : Byte, length.toNat < 4 ∨ 250 < length.toNat →
      ∃ q, exec (.requestFrame p [0x5A, length]) s = .next (s.setPort p q) ∧ q.receiver = .hunting ∧
        q.frameError = true ∧ q.requests = (s.port p).requests ∧ q.hold = (s.port p).hold) ∧
    (∀ (inner check : List Byte) (length : Byte), 4 ≤ length.toNat → length.toNat ≤ 250 →
      inner.length = length.toNat → check.length = 2 → check ≠ crcBytes (length :: inner) →
      ∃ q, exec (.requestFrame p (0x5A :: length :: (inner ++ check))) s = .next (s.setPort p q) ∧
        q.receiver = .hunting ∧ q.frameError = true ∧ q.requests = (s.port p).requests ∧ q.hold = (s.port p).hold)

/-- Raising a selected port's select discards a partly received frame with FRAME_ERROR and returns a partly shifted reply to
its marker; the queues stand (R163, R164). On a port that is not selected there is no edge and nothing changes (model's
reading, log 1). -/
def Obligations.SelectRaisedEndsTheSelection : Prop :=
  ∀ (s : State) (p : PortId),
    ((s.port p).selected = true → exec (.selectRaised p) s = .next (s.setPort p { s.port p with
      selected := false, shiftPos := 0, statusByte := 0, receiver := .hunting,
      frameError := (s.port p).frameError || decide ((s.port p).receiver ≠ .hunting) })) ∧
    ((s.port p).selected = false → exec (.selectRaised p) s = .next s)

/-- What goes out while bytes are clocked (R163, R164, R169). A reply's frame and its status byte are those of section 10.6.
One byte clocked carries out filler, or the head reply's next byte; the status byte is formed as it goes out; the last byte
takes the reply off its queue and clears the flags its status byte reported and no others, so that a flag set after that
byte stays set; then the receiver takes the byte in, whatever went out (the order of the two is the model's choice, log 16).
Bytes clocked together do what they do one after another. So REPLY_SHIFTED_OUT, which clocks filler for the rest of the head
reply, carries out that reply from wherever its shifter stands, and so do the bytes of a REQUEST_FRAME, whatever they are.
With no reply queued filler goes out, and REPLY_SHIFTED_OUT changes nothing (model's choice, log 1). -/
def Obligations.ReplyShiftedOutWhole : Prop :=
  (∀ (r : Reply) (status : Byte),
    let inner := be8 (5 + r.body.length) ++ be16 r.tag.toNat ++ [r.code] ++ be8 r.completion.code ++ [status] ++ r.body
    r.bytes status = 0xA5 :: (inner ++ crcBytes inner)) ∧
  (∀ (s : State) (p : PortId) (n : Nat), (s.portStatus p).getLsbD n =
    match n with
    | 0 => (s.port p).hold
    | 1 => (s.port p).overrun
    | 2 => (s.port p).frameError
    | 3 => decide (1 ≤ s.tables.attentionCount)
    | 4 => (s.port p).restarted
    | _ => false) ∧
  (∀ (s : State) (p : PortId) (b : Byte), s.resetLow = false →
    let q := s.port p
    let after := fun o : Port => Host.Outcome.next (s.setPort p ({ o with selected := true }.receiveByte b))
    (q.replies = [] → exec (.requestFrame p [b]) s = after { q with sdo := [0x00] }) ∧
    ∀ r rest, q.replies = r :: rest →
      let status := if q.shiftPos = 6 then s.portStatus p else q.statusByte
      let sent := [(r.bytes status).getD q.shiftPos 0]
      (q.shiftPos + 1 < r.body.length + 9 → exec (.requestFrame p [b]) s =
        after { q with sdo := sent, shiftPos := q.shiftPos + 1, statusByte := status }) ∧
      (r.body.length + 9 ≤ q.shiftPos + 1 → exec (.requestFrame p [b]) s =
        after { q with
          sdo := sent, replies := rest, shiftPos := 0, statusByte := 0,
          overrun := q.overrun && !status.getLsbD 1, frameError := q.frameError && !status.getLsbD 2 })) ∧
  (∀ (q : Port) (b : Byte),
    let discarded : Port := { q with receiver := .hunting, frameError := true }
    (q.receiver = .hunting →
      q.receiveByte b = if b = 0x5A then { q with receiver := .inFrame [] } else q) ∧
    (q.receiver = .inFrame [] → q.receiveByte b =
      if b.toNat < 4 ∨ 250 < b.toNat then discarded else { q with receiver := .inFrame [b] }) ∧
    ∀ (length : Byte) (rest : List Byte), q.receiver = .inFrame (length :: rest) → 4 ≤ length.toNat →
      length.toNat ≤ 250 →
      (rest.length + 1 < length.toNat + 2 → q.receiveByte b = { q with receiver := .inFrame (length :: rest ++ [b]) }) ∧
      (∀ f : Frame, f.bytes = 0x5A :: length :: rest ++ [b] → f.body.length ≤ 246 → q.receiveByte b =
        if q.requests.length < 16 then
          { q with receiver := .hunting, requests := q.requests ++ [f],
                   hold := holdAt q.settings (q.requests.length + 1) q.hold }
        else { q with receiver := .hunting, overrun := true }) ∧
      (rest.length + 1 = length.toNat + 2 →
        (rest ++ [b]).drop length.toNat ≠ crcBytes (length :: (rest ++ [b]).take length.toNat) →
        q.receiveByte b = discarded)) ∧
  (∀ (s : State) (p : PortId) (xs ys : List Byte), ∃ t u : State,
    exec (.requestFrame p xs) s = .next t ∧ exec (.requestFrame p ys) t = .next u ∧
    exec (.requestFrame p (xs ++ ys)) s =
      .next (u.setPort p { u.port p with sdo := (t.port p).sdo ++ (u.port p).sdo })) ∧
  (∀ (s : State) (p : PortId) (r : Reply) (rest : List Reply), s.resetLow = false → (s.port p).replies = r :: rest →
    let q := s.port p
    let left := r.body.length + 9 - q.shiftPos
    (∀ filler, exec (.replyShiftedOut p filler) s = exec (.requestFrame p (List.replicate left filler)) s) ∧
    (∀ filler, q.shiftPos < r.body.length + 9 → q.receiver = .hunting → filler ≠ 0x5A →
      let status := if q.shiftPos ≤ 6 then s.portStatus p else q.statusByte
      exec (.replyShiftedOut p filler) s = .next (s.setPort p { q with
        replies := rest, shiftPos := 0, statusByte := 0, selected := true, sdo := (r.bytes status).drop q.shiftPos,
        overrun := q.overrun && !status.getLsbD 1, frameError := q.frameError && !status.getLsbD 2 })) ∧
    (∀ bytes : List Byte, bytes.length ≤ left → ∃ (q' : Port) (status : Byte),
      exec (.requestFrame p bytes) s = .next (s.setPort p q') ∧ (6 < q.shiftPos → status = q.statusByte) ∧
      q'.sdo = ((r.bytes status).drop q.shiftPos).take bytes.length ∧
      (bytes.length < left → q'.replies = r :: rest ∧ q'.shiftPos = q.shiftPos + bytes.length ∧
        (6 < q'.shiftPos → q'.statusByte = status)) ∧
      (0 < bytes.length → bytes.length = left → q'.replies = rest ∧ q'.shiftPos = 0))) ∧
  (∀ (s : State) (p : PortId) (bytes : List Byte), s.resetLow = false → (s.port p).replies = [] →
    ∃ q, exec (.requestFrame p bytes) s = .next (s.setPort p q) ∧ q.sdo = List.replicate bytes.length 0x00 ∧
      q.replies = []) ∧
  (∀ (s : State) (p : PortId) (filler : Byte), (s.port p).replies = [] → exec (.replyShiftedOut p filler) s = .next s)

/-! ### Requests -/

/-- A request whose code names no request is refused UNKNOWN_REQUEST with no other effect (R168). -/
def Obligations.UnknownRequestRefused : Prop :=
  ∀ (s : State) (p : PortId) (f : Frame), s.Serves p f → (f.code = 0 ∨ 0x12 < f.code.toNat) →
    s.Refuses .unknownRequest p f .unknownRequest

/-- How the name in a request resolves (R1, R2, R6, R108), in tables whose directory mirrors the records: a key out of range
is refused BAD_PARAM and one the directory does not hold NOT_FOUND; a key in the directory and the handle of an occupied
slot's record resolve to that record; every other handle is refused NOT_FOUND. A coupling handle resolves to the coupling of
its slot when the generations agree. -/
def Obligations.NamesResolve : Prop :=
  ∀ T : Tables, T.RecordsOk →
    (∀ raw : RawKey, 64 ≤ raw.building ∨ 256 ≤ raw.unit ∨ 16 ≤ raw.number ∨ 2 ≤ raw.kind →
      T.resolveRecord (.key raw) = refuse .badParam) ∧
    (∀ k : Key, (∀ e ∈ T.directory, e.2 ≠ k) → T.resolveRecord (.key k.raw) = refuse .notFound) ∧
    (∀ slot r, Table.get T.records slot = some r →
      T.resolveRecord (.key r.key.raw) = .ok (slot, r) ∧
      T.resolveRecord (.handle (64 * slot + generationOf T.recordGens slot)) = .ok (slot, r) ∧
      64 * slot + generationOf T.recordGens slot < 32768) ∧
    (∀ h, 32768 ≤ h ∨ Table.get T.records (h / 64) = none ∨ h % 64 ≠ generationOf T.recordGens (h / 64) →
      T.resolveRecord (.handle h) = refuse .notFound) ∧
    (∀ h slot c, T.couplingOfHandle h = some (slot, c) ↔
      32768 ≤ h ∧ h < 49152 ∧ slot = (h - 32768) / 64 ∧ h % 64 = generationOf T.couplingGens slot ∧
      Table.get T.couplings slot = some c)

/-- DEFINE accepted: the lowest-numbered empty slot holds the record R16 gives, the directory its key, the reply is DONE
with the handle, revision 1 and the lifecycle state of R9, and nothing else changes (R3, R4, R9, R14 to R16, R31). -/
def Obligations.DefineCompletes : Prop :=
  ∀ (s : State) (p : PortId) (f : Frame) (q : DefineReq) (key : Key) (zone : Fin 16) (slot : Nat),
    s.Serves p f → f.code = 0x01 → readDefine f.body = some q → q.FormOk → q.ValuesOk → key.raw = q.key →
    zone.val = q.zone → s.tables.MayChange f.requester zone → (∀ e ∈ s.tables.directory, e.2 ≠ key) →
    slot < 512 → Table.get s.tables.records slot = none → (∀ j < slot, (Table.get s.tables.records j).isSome = true) →
    let set := q.params.getD ParamSet.default
    let live := set.wide.settleWindows = 0
    let r : Record := {
      key := key, zone := zone,
      valve := q.sense.map fun c => { sense := if c = 0 then .heat else .cool, offset := q.offset.getD 0,
                                      leak := { score := 0, verdict := .clear } }
      state := if live then .live else .settling, settleCount := 0, revision := 1, active := set,
      bank := s.tables.zones[zone].seasonBank, pendingSet := none, lag := q.lag.getD 0, window := none, last := none,
      closedRun := none, reversal := { direction := none, extreme := none }, watch := none, cal := .none,
      stuck := { score := 0, verdict := .clear }, flatline := { score := 0, verdict := .clear }, couplingCount := 0,
      mark := none }
    s.Answers .define p f .done
      (be16 (64 * slot + generationOf s.tables.recordGens slot) ++ be16 1 ++ be8 (if live then 1 else 0))
      { s.tables with records := Table.put s.tables.records slot r,
                      directory := Table.put s.tables.directory slot key }

/-- DEFINE refused, at the first check of R15 that fails, with no effect (R15, R30, R31, R168). -/
def Obligations.DefineRefused : Prop :=
  ∀ (s : State) (p : PortId) (f : Frame), s.Serves p f → f.code = 0x01 →
    (readDefine f.body = none → s.Refuses .define p f .badLength) ∧
    ∀ q, readDefine f.body = some q →
      (¬ q.FormOk → s.Refuses .define p f .badParam) ∧
      ∀ (key : Key) (zone : Fin 16), q.FormOk → key.raw = q.key → zone.val = q.zone →
        (¬ s.tables.MayChange f.requester zone → s.Refuses .define p f .notPermitted) ∧
        (s.tables.MayChange f.requester zone →
          (¬ q.ValuesOk → s.Refuses .define p f .badParam) ∧
          (q.ValuesOk → (∃ slot, (slot, key) ∈ s.tables.directory) → s.Refuses .define p f .duplicateKey) ∧
          (q.ValuesOk → (∀ e ∈ s.tables.directory, e.2 ≠ key) →
            (∀ slot < 512, (Table.get s.tables.records slot).isSome = true) → s.Refuses .define p f .tableFull))

/-- LOOKUP of a record answers the view named, and of a coupling the coupling view whatever the view code, field by field in
the order R17, R18, R19 and R116 list them; a clear keep-mark flag removes the mark of the entry read and a set one leaves
it; nothing else changes and no access check applies (R17 to R20, R116). Which optional fields share one flag byte is the
model's choice (log 8), and the widths that section 10.6 does not name are the model's reading (log 11). -/
def Obligations.LookupCompletes : Prop :=
  ∀ (s : State) (p : PortId) (f : Frame) (q : LookupReq), s.Serves p f → f.code = 0x02 →
    readLookup f.body = some q → q.view ≤ 2 → q.keep ≤ 1 →
    let flag := fun b : Bool => be8 (if b then 1 else 0)
    let opt : {α : Type} → (α → List Byte) → Option α → List Byte := fun field x =>
      match x with
      | none => be8 0
      | some v => be8 1 ++ field v
    let key := fun k : Key => be8 k.building.toNat ++ be8 k.unit.toNat ++
      be8 ((match k.kind with
        | .damper => 0
        | .valve => 16) + k.number.toNat)
    let state := fun x : Lifecycle => be8 (match x with
      | .settling => 0
      | .live => 1
      | .stale => 2)
    let tracker := fun t : Tracker => be8 t.score ++ be8 (match t.verdict with
      | .clear => 0
      | .watch => 1
      | .suspect => 2
      | .confirmed => 3)
    let direction := fun d : Direction => be8 (match d with
      | .up => 1
      | .down => 2)
    let calibration := fun c : Calibration =>
      match c with
      | .none => be8 0 ++ be8 0
      | .running _ => be8 1 ++ be8 0
      | .done => be8 2 ++ be8 0
      | .doneClamped => be8 3 ++ be8 0
      | .failed reason => be8 4 ++ be8 1 ++ be8 (match reason with
        | .disturbed => 1
        | .stale => 2
        | .restart => 3
        | .insufficient => 4)
    let bank := fun k : Bank => be16 k.stuckRatio ++ be16 k.minTravel ++ be16 k.stepSize ++ be16 k.stepTimeout ++
      be8 k.closedLevel ++ be16 k.leakThreshold ++ be8 k.profile
    let set := fun x : ParamSet => be16 x.wide.windowLength ++ be8 x.wide.minSamples ++ be8 x.wide.settleWindows ++
      be32 x.wide.staleAfter ++ be16 x.wide.closedSettle ++ be8 x.wide.leakMinSamples ++ be8 x.wide.reversalDeadband ++
      bank x.bank0 ++ bank x.bank1
    let handle := fun slot : Nat => be16 (64 * slot + generationOf s.tables.recordGens slot)
    let summary := fun (slot : Nat) (r : Record) =>
      handle slot ++ key r.key ++ be8 r.zone ++
      opt (fun v : ValveParts => be8 (match v.sense with
        | .heat => 0
        | .cool => 1)) r.valve ++
      state r.state ++ be8 r.settleCount ++ be16 r.revision ++ be8 r.bank ++ flag r.pendingSet.isSome ++ be16 r.lag ++
      opt (fun v : ValveParts => be16s v.offset) r.valve ++ calibration r.cal ++ tracker r.stuck ++ tracker r.flatline ++
      opt (fun v : ValveParts => tracker v.leak) r.valve ++ be8 r.couplingCount ++ opt be32 r.mark ++
      opt (fun l : LastSample => be32 l.time) r.last ++
      opt (fun l : LastSample => be40 (l.time + r.active.wide.staleAfter)) r.last
    let settings := fun (slot : Nat) (r : Record) =>
      handle slot ++ be16 r.revision ++ be8 r.bank ++ set r.active ++ opt set r.pendingSet
    let window := fun w : Window =>
      be32 w.start ++ be16 w.samples ++ be32 w.commandTravel ++ be32 w.feedbackTravel ++
      (match w.feedbackMin, w.feedbackMax with
        | some a, some b => be8 1 ++ be16 a ++ be16 b
        | _, _ => be8 0) ++
      be16 w.feedbackCount ++ flag w.stepExpiry ++ opt (fun g : LeakFigures => be16 g.count ++ be32s g.sum) w.leak
    let progress := fun (slot : Nat) (r : Record) =>
      handle slot ++ be16 r.revision ++ opt window r.window ++
      opt (fun l : LastSample => be32 l.time ++ be16 l.command ++ opt be16 l.feedback) r.last ++
      opt be32 r.closedRun ++
      (match r.reversal.direction with
        | none => be8 0
        | some d => direction d) ++ opt be16 r.reversal.extreme ++
      opt (fun w : StepWatch => be32 w.start ++ be16 w.startCommand ++ be16 w.startFeedback ++ direction w.direction ++
        be16 w.total ++ be40 w.deadline) r.watch ++
      (match r.cal with
        | .running c => be8 1 ++ be32 c.start ++ be16 c.duration ++ be16 c.count ++ be32s c.sum
        | _ => be8 0)
    let reversal := fun v : Reversal => be32 v.time ++ direction v.direction
    let coupling := fun (slot : Nat) (c : Coupling) (lead follower : Record) =>
      be16 (32768 + 64 * slot + generationOf s.tables.couplingGens slot) ++ be16 c.lead ++ key lead.key ++
      be16 c.follower ++ key follower.key ++ be16 c.params.overlapLevel ++ be16 c.params.overlapFraction ++
      be8 c.params.huntCount ++ be16 c.params.pairWindow ++ be8 c.params.profile ++ opt be32 c.lastUpdate ++
      opt be16 c.leadCommand ++ opt be16 c.followerCommand ++ opt reversal c.leadReversal ++
      opt reversal c.followerReversal ++ be16 c.overlap ++ be8 c.antiphase ++ flag c.followerStale ++ tracker c.fight ++
      opt be32 c.mark
    (∀ slot r, q.name.isCoupling = false → s.tables.resolveRecord q.name = .ok (slot, r) →
      s.Answers .lookup p f .done
        (if q.view = 0 then summary slot r else if q.view = 1 then settings slot r else progress slot r)
        (if q.keep = 0 then
          { s.tables with records := Table.replace s.tables.records slot { r with mark := none } }
        else s.tables)) ∧
    (∀ h slot c lead follower, q.name = .handle h → s.tables.couplingOfHandle h = some (slot, c) →
      Table.get s.tables.records c.leadSlot = some lead → Table.get s.tables.records c.followerSlot = some follower →
      s.Answers .lookup p f .done (coupling slot c lead follower)
        (if q.keep = 0 then
          { s.tables with couplings := Table.replace s.tables.couplings slot { c with mark := none } }
        else s.tables))

/-- ENUMERATE lists the records of the zone above the cursor in slot order, at most 16, says whether more remain, and changes
nothing (R21). That the reply carries no count of its entries is the model's choice (log 9). -/
def Obligations.EnumerateCompletes : Prop :=
  ∀ (s : State) (p : PortId) (f : Frame) (q : EnumerateReq) (zone : Fin 16), s.Serves p f → f.code = 0x03 →
    readEnumerate f.body = some q → zone.val = q.zone → (∀ c ∈ q.cursor, c < 32768) →
    let handle := fun slot : Nat => 64 * slot + generationOf s.tables.recordGens slot
    let above := s.tables.records.filter fun e =>
      decide (e.2.zone = zone) && decide (∀ c ∈ q.cursor, c < handle e.1)
    s.Answers .enumerate p f .done
      ((above.take 16).flatMap (fun e => be16 (handle e.1) ++ e.2.key.bytes ++ be8 e.2.state.code ++
          be16 e.2.revision ++ flagByte e.2.mark.isSome) ++
        flagByte (decide (16 < above.length)))
      s.tables

/-- The requests open to every requester, refused: a body that does not match its layout, a bad view code or keep-mark flag
before resolution, a name that does not resolve, a zone out of range or a cursor with kind bit 1; a mark is left in place
(R6, R17, R20, R21, R116, R168, R174). -/
def Obligations.ReadersRefused : Prop :=
  ∀ (s : State) (p : PortId) (f : Frame), s.Serves p f →
    (f.code = 0x02 →
      (readLookup f.body = none → s.Refuses .lookup p f .badLength) ∧
      ∀ q, readLookup f.body = some q →
        (2 < q.view ∨ 1 < q.keep → s.Refuses .lookup p f .badParam) ∧
        (q.view ≤ 2 → q.keep ≤ 1 →
          (∀ e, q.name.isCoupling = false → s.tables.resolveRecord q.name = .error e →
            s.Refuses .lookup p f e.completion) ∧
          (∀ h, q.name = .handle h → 32768 ≤ h → s.tables.couplingOfHandle h = none →
            s.Refuses .lookup p f .notFound))) ∧
    (f.code = 0x03 →
      (readEnumerate f.body = none → s.Refuses .enumerate p f .badLength) ∧
      ∀ q, readEnumerate f.body = some q →
        (16 ≤ q.zone → s.Refuses .enumerate p f .badParam) ∧
        (q.zone < 16 → (∃ c ∈ q.cursor, 32768 ≤ c) → s.Refuses .enumerate p f .badParam)) ∧
    (f.body ≠ [] →
      (f.code = 0x0B → s.Refuses .scan p f .badLength) ∧ (f.code = 0x10 → s.Refuses .readTime p f .badLength))

/-- AMEND accepted: the set given becomes the pending set, the zone given the record's zone, the revision advances once, the
reply is DONE with the handle, the new revision and whether a pending set is held; all else stands (R8, R34, R38 to R41). -/
def Obligations.AmendCompletes : Prop :=
  ∀ (s : State) (p : PortId) (f : Frame) (q : AmendReq) (slot : Nat) (r : Record), s.Serves p f → f.code = 0x04 →
    readAmend f.body = some q → s.tables.resolveRecord q.name = .ok (slot, r) →
    (q.params ≠ none ∨ q.zone ≠ none) → (∀ n ∈ q.zone, n < 16) → s.tables.MayChange f.requester r.zone →
    (∀ z : Fin 16, q.zone = some z.val → z ≠ r.zone → s.tables.MayChange f.requester z) → r.Expects q.expected →
    (∀ set ∈ q.params, set.InRange) →
    ∀ zone : Fin 16, zone.val = q.zone.getD r.zone.val →
      let revision := if r.revision < 65535 then r.revision + 1 else 1
      let waiting := if q.params = none then r.pendingSet else q.params
      s.Answers .amend p f .done
        (be16 (64 * slot + generationOf s.tables.recordGens slot) ++ be16 revision ++ flagByte waiting.isSome)
        { s.tables with records :=
            Table.replace s.tables.records slot { r with pendingSet := waiting, zone := zone, revision := revision } }

/-- AMEND refused, at the first check of R39 that fails, with no effect (R30, R39, R42, R168). -/
def Obligations.AmendRefused : Prop :=
  ∀ (s : State) (p : PortId) (f : Frame), s.Serves p f → f.code = 0x04 →
    (readAmend f.body = none → s.Refuses .amend p f .badLength) ∧
    ∀ q, readAmend f.body = some q →
      (∀ e, s.tables.resolveRecord q.name = .error e → s.Refuses .amend p f e.completion) ∧
      ∀ slot r, s.tables.resolveRecord q.name = .ok (slot, r) →
        ((q.params = none ∧ q.zone = none) ∨ (∃ n ∈ q.zone, 16 ≤ n) → s.Refuses .amend p f .badParam) ∧
        ((q.params ≠ none ∨ q.zone ≠ none) → (∀ n ∈ q.zone, n < 16) →
          let may := s.tables.MayChange f.requester r.zone ∧
            ∀ z : Fin 16, q.zone = some z.val → z ≠ r.zone → s.tables.MayChange f.requester z
          (¬ may → s.Refuses .amend p f .notPermitted) ∧
          (may → ¬ r.Expects q.expected →
            s.Answers .amend p f .revisionMismatch
              (be16 (64 * slot + generationOf s.tables.recordGens slot) ++ be16 r.revision) s.tables) ∧
          (may → r.Expects q.expected → (∃ set ∈ q.params, ¬ set.InRange) → s.Refuses .amend p f .badParam))

/-- RETIRE accepted: the slot is empty, its generation one higher modulo 64, the key gone from the directory, the reply DONE
with the handle the record bore; every other slot stands (R2, R4, R24). -/
def Obligations.RetireCompletes : Prop :=
  ∀ (s : State) (p : PortId) (f : Frame) (q : RetireReq) (slot : Nat) (r : Record), s.Serves p f → f.code = 0x05 →
    readRetire f.body = some q → s.tables.resolveRecord q.name = .ok (slot, r) →
    s.tables.MayChange f.requester r.zone → r.Expects q.expected → r.couplingCount = 0 →
    ∃ T : Tables,
      s.Answers .retire p f .done (be16 (64 * slot + generationOf s.tables.recordGens slot)) T ∧
      Table.get T.records slot = none ∧ (∀ j, j ≠ slot → Table.get T.records j = Table.get s.tables.records j) ∧
      Table.get T.directory slot = none ∧ (∀ j, j ≠ slot → Table.get T.directory j = Table.get s.tables.directory j) ∧
      generationOf T.recordGens slot = (generationOf s.tables.recordGens slot + 1) % 64 ∧
      (∀ j, j ≠ slot → generationOf T.recordGens j = generationOf s.tables.recordGens j) ∧
      T = { s.tables with records := T.records, directory := T.directory, recordGens := T.recordGens }

/-- RETIRE and UNCOUPLE refused, at the first check of R23 and R114 that fails, with no effect (R42, R168). -/
def Obligations.RemovalsRefused : Prop :=
  ∀ (s : State) (p : PortId) (f : Frame), s.Serves p f →
    (f.code = 0x05 →
      (readRetire f.body = none → s.Refuses .retire p f .badLength) ∧
      ∀ q, readRetire f.body = some q →
        (∀ e, s.tables.resolveRecord q.name = .error e → s.Refuses .retire p f e.completion) ∧
        ∀ slot r, s.tables.resolveRecord q.name = .ok (slot, r) →
          (¬ s.tables.MayChange f.requester r.zone → s.Refuses .retire p f .notPermitted) ∧
          (s.tables.MayChange f.requester r.zone →
            (¬ r.Expects q.expected →
              s.Answers .retire p f .revisionMismatch
                (be16 (64 * slot + generationOf s.tables.recordGens slot) ++ be16 r.revision) s.tables) ∧
            (r.Expects q.expected → r.couplingCount ≠ 0 → s.Refuses .retire p f .inUse))) ∧
    (f.code = 0x0A →
      (readUncouple f.body = none → s.Refuses .uncouple p f .badLength) ∧
      ∀ h, readUncouple f.body = some h →
        (s.tables.couplingOfHandle h = none → s.Refuses .uncouple p f .notFound) ∧
        ∀ slot c lead, s.tables.couplingOfHandle h = some (slot, c) →
          Table.get s.tables.records c.leadSlot = some lead → ¬ s.tables.MayChange f.requester lead.zone →
          s.Refuses .uncouple p f .notPermitted)

/-- OBSERVE accepted: its samples are applied in the order listed at the one completion, the reply is DONE with the handle,
the revision, the state, a result for each sample and the last sample's time, and nothing changes but the record named and
the couplings naming it (R49, R50, R51, R53). -/
def Obligations.ObserveCompletes : Prop :=
  ∀ (s : State) (p : PortId) (f : Frame) (q : ObserveReq) (slot : Nat) (r : Record), s.Serves p f → f.code = 0x06 →
    readObserve f.body = some q → s.tables.resolveRecord q.name = .ok (slot, r) → 1 ≤ q.count → q.count ≤ 8 →
    (∀ x ∈ q.samples, ∀ fan ∈ x.fan, fan ≤ 1) → s.tables.MayChange f.requester r.zone → r.Expects q.expected →
    let T := (s.tables.applySamples slot q.samples).1
    let results := (s.tables.applySamples slot q.samples).2
    ∃ r' : Record, Table.get T.records slot = some r' ∧ results.length = q.samples.length ∧
      s.Answers .observe p f .done
        (be16 (64 * slot + generationOf s.tables.recordGens slot) ++ be16 r'.revision ++ be8 r'.state.code ++
          be8 results.length ++ results.flatMap (fun x => be8 x.code) ++
          (match r'.last with
            | some l => be8 1 ++ be32 l.time
            | none => be8 0)) T ∧
      (∀ j, j ≠ slot → Table.get T.records j = Table.get s.tables.records j) ∧
      (∀ j c, Table.get s.tables.couplings j = some c → c.names slot = false → Table.get T.couplings j = some c) ∧
      T = { s.tables with records := T.records, couplings := T.couplings }

/-- OBSERVE refused as a whole, at the first check of R50 that fails, with no effect (R42, R50, R168). -/
def Obligations.ObserveRefused : Prop :=
  ∀ (s : State) (p : PortId) (f : Frame), s.Serves p f → f.code = 0x06 →
    (readObserve f.body = none → s.Refuses .observe p f .badLength) ∧
    ∀ q, readObserve f.body = some q →
      (∀ e, s.tables.resolveRecord q.name = .error e → s.Refuses .observe p f e.completion) ∧
      ∀ slot r, s.tables.resolveRecord q.name = .ok (slot, r) →
        let form := 1 ≤ q.count ∧ q.count ≤ 8 ∧ ∀ x ∈ q.samples, ∀ fan ∈ x.fan, fan = 0 ∨ fan = 1
        (¬ form → s.Refuses .observe p f .badParam) ∧
        (form → ¬ s.tables.MayChange f.requester r.zone → s.Refuses .observe p f .notPermitted) ∧
        (form → s.tables.MayChange f.requester r.zone → ¬ r.Expects q.expected →
          s.Answers .observe p f .revisionMismatch
            (be16 (64 * slot + generationOf s.tables.recordGens slot) ++ be16 r.revision) s.tables)

/-- CALIBRATE accepted: the status is RUNNING from the clock's value, with the duration given and both figures 0, the
revision advances, the reply is STARTED with handle, revision, start and duration, and all else stands (R8, R99). -/
def Obligations.CalibrateCompletes : Prop :=
  ∀ (s : State) (p : PortId) (f : Frame) (q : CalibrateReq) (slot : Nat) (r : Record), s.Serves p f → f.code = 0x07 →
    readCalibrate f.body = some q → s.tables.resolveRecord q.name = .ok (slot, r) →
    300 ≤ q.duration → q.duration ≤ 3600 → s.tables.MayChange f.requester r.zone → r.Expects q.expected →
    r.valve ≠ none → r.state ≠ .stale → s.tables.zones[r.zone].mode = .run → (∀ run, r.cal ≠ .running run) →
    let revision := if r.revision < 65535 then r.revision + 1 else 1
    s.Answers .calibrate p f .started
      (be16 (64 * slot + generationOf s.tables.recordGens slot) ++ be16 revision ++ be32 s.tables.clock ++
        be16 q.duration)
      { s.tables with records :=
          Table.replace s.tables.records slot { r with
            cal := .running { start := s.tables.clock, duration := q.duration, count := 0, sum := 0 },
            revision := revision } }

/-- CALIBRATE refused, at the first check of R98 that fails, with no effect (R42, R98, R168). -/
def Obligations.CalibrateRefused : Prop :=
  ∀ (s : State) (p : PortId) (f : Frame), s.Serves p f → f.code = 0x07 →
    (readCalibrate f.body = none → s.Refuses .calibrate p f .badLength) ∧
    ∀ q, readCalibrate f.body = some q →
      (∀ e, s.tables.resolveRecord q.name = .error e → s.Refuses .calibrate p f e.completion) ∧
      ∀ slot r, s.tables.resolveRecord q.name = .ok (slot, r) →
        (q.duration < 300 ∨ 3600 < q.duration → s.Refuses .calibrate p f .badParam) ∧
        (300 ≤ q.duration → q.duration ≤ 3600 →
          (¬ s.tables.MayChange f.requester r.zone → s.Refuses .calibrate p f .notPermitted) ∧
          (s.tables.MayChange f.requester r.zone →
            (¬ r.Expects q.expected →
              s.Answers .calibrate p f .revisionMismatch
                (be16 (64 * slot + generationOf s.tables.recordGens slot) ++ be16 r.revision) s.tables) ∧
            (r.Expects q.expected →
              (r.valve = none → s.Refuses .calibrate p f .wrongKind) ∧
              (r.valve ≠ none → r.state = .stale → s.Refuses .calibrate p f .recordStale) ∧
              (r.valve ≠ none → r.state ≠ .stale → s.tables.zones[r.zone].mode = .hold →
                s.Refuses .calibrate p f .zoneHeld) ∧
              (r.valve ≠ none → r.state ≠ .stale → s.tables.zones[r.zone].mode = .run →
                (∃ run, r.cal = .running run) → s.Refuses .calibrate p f .busy))))

/-- ACQUIT accepted: the tracker named stands at score 0 and CLEAR, the entry's mark is gone, a record's revision advances,
the reply is DONE with the handle, the tracker, what it held before and, for a record, the new revision; all else stands
(R8, R138 to R140). That a flag byte stands before the new revision is the model's choice (log 8). -/
def Obligations.AcquitCompletes : Prop :=
  ∀ (s : State) (p : PortId) (f : Frame) (q : AcquitReq), s.Serves p f → f.code = 0x08 → readAcquit f.body = some q →
    (∀ slot r, q.name.isCoupling = false → s.tables.resolveRecord q.name = .ok (slot, r) →
      s.tables.MayChange f.requester r.zone → r.Expects q.expected →
      let revision := if r.revision < 65535 then r.revision + 1 else 1
      let r' : Record := { r with mark := none, revision := revision }
      let fresh : Tracker := { score := 0, verdict := .clear }
      let body := fun before : Tracker => be16 (64 * slot + generationOf s.tables.recordGens slot) ++ be8 q.tracker ++
        be8 before.score ++ be8 before.verdict.level ++ be8 1 ++ be16 revision
      (q.tracker = 0 → s.Answers .acquit p f .done (body r.stuck)
        { s.tables with records := Table.replace s.tables.records slot { r' with stuck := fresh } }) ∧
      (q.tracker = 1 → s.Answers .acquit p f .done (body r.flatline)
        { s.tables with records := Table.replace s.tables.records slot { r' with flatline := fresh } }) ∧
      (∀ v, q.tracker = 2 → r.valve = some v → s.Answers .acquit p f .done (body v.leak)
        { s.tables with records :=
            Table.replace s.tables.records slot { r' with valve := some { v with leak := fresh } } })) ∧
    (∀ h slot c lead, q.name = .handle h → s.tables.couplingOfHandle h = some (slot, c) → q.tracker = 3 →
      Table.get s.tables.records c.leadSlot = some lead → s.tables.MayChange f.requester lead.zone →
      let c' : Coupling := { c with fight := { score := 0, verdict := .clear }, mark := none }
      s.Answers .acquit p f .done
        (be16 (32768 + 64 * slot + generationOf s.tables.couplingGens slot) ++ be8 3 ++ be8 c.fight.score ++
          be8 c.fight.verdict.level ++ be8 0)
        { s.tables with couplings := Table.replace s.tables.couplings slot c' })

/-- ACQUIT refused, at the first check of R138 or R139 that fails, with no effect (R42, R138, R139, R168). -/
def Obligations.AcquitRefused : Prop :=
  ∀ (s : State) (p : PortId) (f : Frame), s.Serves p f → f.code = 0x08 →
    (readAcquit f.body = none → s.Refuses .acquit p f .badLength) ∧
    ∀ q, readAcquit f.body = some q →
      (q.name.isCoupling = false →
        (∀ e, s.tables.resolveRecord q.name = .error e → s.Refuses .acquit p f e.completion) ∧
        ∀ slot r, s.tables.resolveRecord q.name = .ok (slot, r) →
          (3 ≤ q.tracker → s.Refuses .acquit p f .badParam) ∧
          (q.tracker ≤ 2 → ¬ s.tables.MayChange f.requester r.zone → s.Refuses .acquit p f .notPermitted) ∧
          (q.tracker ≤ 2 → s.tables.MayChange f.requester r.zone → ¬ r.Expects q.expected →
            s.Answers .acquit p f .revisionMismatch
              (be16 (64 * slot + generationOf s.tables.recordGens slot) ++ be16 r.revision) s.tables) ∧
          (q.tracker = 2 → s.tables.MayChange f.requester r.zone → r.Expects q.expected → r.valve = none →
            s.Refuses .acquit p f .wrongKind)) ∧
      (∀ h, q.name = .handle h → 32768 ≤ h →
        (s.tables.couplingOfHandle h = none → s.Refuses .acquit p f .notFound) ∧
        ∀ slot c lead, s.tables.couplingOfHandle h = some (slot, c) →
          Table.get s.tables.records c.leadSlot = some lead →
          (q.tracker ≠ 3 → s.Refuses .acquit p f .badParam) ∧
          (q.tracker = 3 → ¬ s.tables.MayChange f.requester lead.zone → s.Refuses .acquit p f .notPermitted))

/-- COUPLE accepted: the lowest-numbered empty coupling slot holds the coupling R109 and R112 give, both members' counts
rise by one, the reply is DONE with the coupling's handle, and all else stands (R107 to R113). -/
def Obligations.CoupleCompletes : Prop :=
  ∀ (s : State) (p : PortId) (f : Frame) (q : CoupleReq) (a b slot : Nat) (lead follower : Record), s.Serves p f →
    f.code = 0x09 → readCouple f.body = some q → s.tables.resolveRecord q.lead = .ok (a, lead) →
    s.tables.resolveRecord q.follower = .ok (b, follower) → a ≠ b → (∀ c ∈ q.params, c.InRange) →
    s.tables.MayChange f.requester lead.zone → s.tables.MayChange f.requester follower.zone →
    (∀ e ∈ s.tables.couplings, ¬ (e.2.names a = true ∧ e.2.names b = true)) →
    lead.couplingCount < 4 → follower.couplingCount < 4 → slot < 256 → Table.get s.tables.couplings slot = none →
    (∀ j < slot, (Table.get s.tables.couplings j).isSome = true) →
    let c : Coupling := {
      lead := 64 * a + generationOf s.tables.recordGens a, follower := 64 * b + generationOf s.tables.recordGens b,
      params := q.params.getD CouplingParams.default, lastUpdate := none, leadCommand := none,
      followerCommand := none, leadReversal := none, followerReversal := none, overlap := 0, antiphase := 0,
      followerStale := decide (follower.state = .stale), fight := { score := 0, verdict := .clear }, mark := none }
    ∃ T : Tables,
      s.Answers .couple p f .done (be16 (32768 + 64 * slot + generationOf s.tables.couplingGens slot)) T ∧
      Table.get T.records a = some { lead with couplingCount := lead.couplingCount + 1 } ∧
      Table.get T.records b = some { follower with couplingCount := follower.couplingCount + 1 } ∧
      (∀ j, j ≠ a → j ≠ b → Table.get T.records j = Table.get s.tables.records j) ∧
      T = { s.tables with records := T.records, couplings := Table.put s.tables.couplings slot c }

/-- COUPLE refused, at the first check of R111 that fails, with no effect (R107, R110, R111, R113, R168). That
the lead is resolved wholly before the follower is looked at is the model's choice (log 12). -/
def Obligations.CoupleRefused : Prop :=
  ∀ (s : State) (p : PortId) (f : Frame), s.Serves p f → f.code = 0x09 →
    (readCouple f.body = none → s.Refuses .couple p f .badLength) ∧
    ∀ q, readCouple f.body = some q →
      (∀ e, s.tables.resolveRecord q.lead = .error e → s.Refuses .couple p f e.completion) ∧
      ∀ a lead, s.tables.resolveRecord q.lead = .ok (a, lead) →
        (∀ e, s.tables.resolveRecord q.follower = .error e → s.Refuses .couple p f e.completion) ∧
        ∀ b follower, s.tables.resolveRecord q.follower = .ok (b, follower) →
          let form := a ≠ b ∧ ∀ c ∈ q.params, c.InRange
          let may := s.tables.MayChange f.requester lead.zone ∧ s.tables.MayChange f.requester follower.zone
          let fresh := ∀ e ∈ s.tables.couplings, ¬ (e.2.names a = true ∧ e.2.names b = true)
          (a = b → s.Refuses .couple p f .sameRecord) ∧
          (a ≠ b → (∃ c ∈ q.params, ¬ c.InRange) → s.Refuses .couple p f .badParam) ∧
          (form → ¬ may → s.Refuses .couple p f .notPermitted) ∧
          (form → may → ¬ fresh → s.Refuses .couple p f .duplicatePair) ∧
          (form → may → fresh → (4 ≤ lead.couplingCount ∨ 4 ≤ follower.couplingCount) →
            s.Refuses .couple p f .limit) ∧
          (form → may → fresh → lead.couplingCount < 4 → follower.couplingCount < 4 →
            (∀ j < 256, (Table.get s.tables.couplings j).isSome = true) → s.Refuses .couple p f .couplingFull)

/-- UNCOUPLE accepted: the slot is empty, its generation one higher modulo 64, each member's count one lower, the reply DONE
with the handle the coupling bore, and all else stands (R108, R113 to R115). -/
def Obligations.UncoupleCompletes : Prop :=
  ∀ (s : State) (p : PortId) (f : Frame) (h slot : Nat) (c : Coupling) (lead follower : Record), s.Serves p f →
    f.code = 0x0A → readUncouple f.body = some h → s.tables.couplingOfHandle h = some (slot, c) →
    c.leadSlot ≠ c.followerSlot → Table.get s.tables.records c.leadSlot = some lead →
    Table.get s.tables.records c.followerSlot = some follower → s.tables.MayChange f.requester lead.zone →
    ∃ T : Tables,
      s.Answers .uncouple p f .done (be16 h) T ∧
      Table.get T.couplings slot = none ∧
      (∀ j, j ≠ slot → Table.get T.couplings j = Table.get s.tables.couplings j) ∧
      generationOf T.couplingGens slot = (generationOf s.tables.couplingGens slot + 1) % 64 ∧
      (∀ j, j ≠ slot → generationOf T.couplingGens j = generationOf s.tables.couplingGens j) ∧
      Table.get T.records c.leadSlot = some { lead with couplingCount := lead.couplingCount - 1 } ∧
      Table.get T.records c.followerSlot = some { follower with couplingCount := follower.couplingCount - 1 } ∧
      (∀ j, j ≠ c.leadSlot → j ≠ c.followerSlot → Table.get T.records j = Table.get s.tables.records j) ∧
      T = { s.tables with records := T.records, couplings := T.couplings, couplingGens := T.couplingGens }

/-- SCAN answers the attention count and the first eight of all marked entries, by urgency downward, then mark time upward,
then handle upward, and changes nothing (R154, R158, R159). That the urgency takes one byte in the reply is the model's
reading (log 11). -/
def Obligations.ScanCompletes : Prop :=
  ∀ (s : State) (p : PortId) (f : Frame), s.Serves p f → f.code = 0x0B → f.body = [] →
    let records := s.tables.records.filterMap fun e => e.2.mark.map fun t =>
      ({ handle := 64 * e.1 + generationOf s.tables.recordGens e.1, time := t,
         urgency := max (max e.2.stuck.verdict.level e.2.flatline.verdict.level)
           ((e.2.valve.map fun v => v.leak.verdict.level).getD 0) } : MarkEntry)
    let couplings := s.tables.couplings.filterMap fun e => e.2.mark.map fun t =>
      ({ handle := 32768 + 64 * e.1 + generationOf s.tables.couplingGens e.1, time := t,
         urgency := e.2.fight.verdict.level } : MarkEntry)
    ∃ sorted : List MarkEntry, sorted.Perm (records ++ couplings) ∧
      sorted.Pairwise (fun a b => b.urgency < a.urgency ∨
        (a.urgency = b.urgency ∧ (a.time < b.time ∨ (a.time = b.time ∧ a.handle ≤ b.handle)))) ∧
      s.Answers .scan p f .done
        (be16 (records ++ couplings).length ++ be8 (min 8 (records ++ couplings).length) ++
          (sorted.take 8).flatMap (fun a => be16 a.handle ++ be8 a.urgency ++ be32 a.time)) s.tables

/-- ZONE_SET from the administrator writes each field it carries into the zone named, and answers the zone's three fields
before and after; another requester is refused NOT_PERMITTED, and a zone, mode or season bank out of range BAD_PARAM; nothing
else changes (R149, R150). That the season bank takes one byte, in the body and in the reply, is the model's reading (log 11). -/
def Obligations.ZoneSetCompletes : Prop :=
  ∀ (s : State) (p : PortId) (f : Frame), s.Serves p f → f.code = 0x0C →
    (readZoneSet f.body = none → s.Refuses .zoneSet p f .badLength) ∧
    ∀ q, readZoneSet f.body = some q →
      let inRange := q.zone < 16 ∧ (∀ n ∈ q.mode, n = 0 ∨ n = 1) ∧ (∀ n ∈ q.seasonBank, n = 0 ∨ n = 1)
      (f.requester ≠ 0 → s.Refuses .zoneSet p f .notPermitted) ∧
      (f.requester = 0 → ¬ inRange → s.Refuses .zoneSet p f .badParam) ∧
      (f.requester = 0 → inRange → ∀ i : Fin 16, i.val = q.zone →
        let old := s.tables.zones[i]
        let new : Zone := {
          mode := match q.mode with
            | none => old.mode
            | some n => if n = 0 then .run else .hold
          seasonBank := match q.seasonBank with
            | none => old.seasonBank
            | some n => if n = 0 then 0 else 1
          owners := match q.owners with
            | none => old.owners
            | some n => BitVec.ofNat 8 n }
        s.Answers .zoneSet p f .done
          (be8 (if old.mode = .run then 0 else 1) ++ be8 old.seasonBank ++ be8 old.owners.toNat ++
            be8 (if new.mode = .run then 0 else 1) ++ be8 new.seasonBank ++ be8 new.owners.toNat)
          { s.tables with zones := s.tables.zones.set i new })

/-- PROFILE_SET from the administrator, its six values within the four conditions of R135, replaces profile 4 and answers
the values before and after; another requester is refused NOT_PERMITTED and other values BAD_PARAM; nothing else changes
(R135 to R137). -/
def Obligations.ProfileSetCompletes : Prop :=
  ∀ (s : State) (p : PortId) (f : Frame), s.Serves p f → f.code = 0x0D →
    (readProfile f.body = none → s.Refuses .profileSet p f .badLength) ∧
    ∀ q, readProfile f.body = some q →
      let meets := 1 ≤ q.rise ∧ q.rise ≤ 255 ∧ q.fall ≤ 255 ∧ 1 ≤ q.onWatch ∧ q.onWatch < q.onSuspect ∧
        q.onSuspect < q.onConfirmed ∧ q.onConfirmed ≤ 255 ∧ q.hyst < q.onWatch
      let values := fun v : Profile =>
        be8 v.rise ++ be8 v.fall ++ be8 v.onWatch ++ be8 v.onSuspect ++ be8 v.onConfirmed ++ be8 v.hyst
      (f.requester ≠ 0 → s.Refuses .profileSet p f .notPermitted) ∧
      (f.requester = 0 → ¬ meets → s.Refuses .profileSet p f .badParam) ∧
      (f.requester = 0 → meets →
        s.Answers .profileSet p f .done (values s.tables.profile4 ++ values q) { s.tables with profile4 := q })

/-- PORT_SET from the administrator, its settings valid as they would stand, writes each setting it carries into the port
named and tests that port's HOLD against them; ATTN follows; the reply is DONE with the four settings before and after. Another
requester is refused NOT_PERMITTED and other settings BAD_PARAM (R160, R161, R166, R170). The widths of the four settings are
the model's reading (log 10). -/
def Obligations.PortSetCompletes : Prop :=
  ∀ (s : State) (p : PortId) (f : Frame), s.Serves p f → f.code = 0x0E →
    (readPortSet f.body = none → s.Refuses .portSet p f .badLength) ∧
    ∀ q, readPortSet f.body = some q →
      (f.requester ≠ 0 → s.Refuses .portSet p f .notPermitted) ∧
      (f.requester = 0 → 2 ≤ q.port → s.Refuses .portSet p f .badParam) ∧
      (f.requester = 0 → ∀ x : PortId, q.port = (if x = .a then 0 else 1) →
        let old := (s.port x).settings
        let new : PortSettings := { holdOn := q.holdOn.getD old.holdOn, holdOff := q.holdOff.getD old.holdOff,
                                    trigger := q.trigger.getD old.trigger, delay := q.delay.getD old.delay }
        let inRange := (∀ n ∈ q.holdOn, 4 ≤ n ∧ n ≤ 16) ∧ (∀ n ∈ q.trigger, n = 1 ∨ n = 2 ∨ n = 4 ∨ n = 8) ∧
          (∀ n ∈ q.delay, n ≤ 255) ∧ new.holdOff < new.holdOn
        let values := fun v : PortSettings => be8 v.holdOn ++ be8 v.holdOff ++ be8 v.trigger ++ be16 v.delay
        (¬ inRange → s.Refuses .portSet p f .badParam) ∧
        (inRange → ∃ t, exec .portSet s = .next t ∧
          (∀ o, (t.port o).settings = if o = x then new else (s.port o).settings) ∧
          (∀ o, (t.port o).requests = if o = p then s.queueAfter p else (s.port o).requests) ∧
          (∀ o, let before := if o = p then s.holdAfter p else (s.port o).hold
            (t.port o).hold = if o = x then holdAt new (t.port o).requests.length before else before) ∧
          (t.port p).replies = (s.port p).replies ++
            [{ tag := f.tag, code := f.code, completion := .done, body := values old ++ values new }] ∧
          (t.port (otherPort p)).replies = (s.port (otherPort p)).replies ∧
          (∀ o, (s.port o).SameLink (t.port o) ∧ (t.port o).restarted = (s.port o).restarted) ∧
          t.AttnOk ∧ t.tables = s.tables ∧ t.serving = none ∧
          t.lastServed = (if s.serving.isSome = true then s.lastServed else p) ∧ t.resetLow = false ∧
          t.restartCause = s.restartCause ∧ t.pending = s.pending))

/-- SET_TIME from the administrator sets the clock to the value it carries and answers the clock before and after; another
requester is refused NOT_PERMITTED; nothing else changes (R48). -/
def Obligations.SetTimeCompletes : Prop :=
  ∀ (s : State) (p : PortId) (f : Frame), s.Serves p f → f.code = 0x0F →
    (f.body.length ≠ 4 → s.Refuses .setTime p f .badLength) ∧
    ∀ b3 b2 b1 b0 : Byte, f.body = [b3, b2, b1, b0] →
      let new := 16777216 * b3.toNat + 65536 * b2.toNat + 256 * b1.toNat + b0.toNat
      (f.requester ≠ 0 → s.Refuses .setTime p f .notPermitted) ∧
      (f.requester = 0 →
        s.Answers .setTime p f .done (be32 s.tables.clock ++ [b3, b2, b1, b0]) { s.tables with clock := new })

/-- READ_TIME, from any requester, answers DONE with the clock's value and changes nothing (R47). -/
def Obligations.ReadTimeCompletes : Prop :=
  ∀ (s : State) (p : PortId) (f : Frame), s.Serves p f → f.code = 0x10 → f.body = [] →
    s.Answers .readTime p f .done (be32 s.tables.clock) s.tables

/-- STATUS answers the part's standing in the order of R171 and clears the restarted indication of the port it came from;
a body that is not empty is refused BAD_LENGTH (R168, R169, R171). That the HOLD level takes one byte in the body, 1 asserted
and 0 deasserted, is the model's choice (log 25). -/
def Obligations.StatusCompletes : Prop :=
  ∀ (s : State) (p : PortId) (f : Frame), s.Serves p f → f.code = 0x11 →
    (f.body ≠ [] → s.Refuses .status p f .badLength) ∧
    (f.body = [] →
      let records := s.tables.records.length
      let flag := fun b : Bool => be8 (if b then 1 else 0)
      let cause := match s.restartCause with
        | .powerOn => 0
        | .resetLine => 1
        | .restartRequest => 2
      let body := be8 cause ++ be16 records ++ be16 (512 - records) ++ be16 s.tables.couplings.length ++
        be16 s.tables.markTimes.length ++ flag (s.holdAfter p) ++ flag (s.port p).overrun ++
        flag (s.port p).frameError ++ be32 s.tables.clock
      ∃ t, exec .status s = .next t ∧
        (t.port p).replies = (s.port p).replies ++
          [{ tag := f.tag, code := f.code, completion := .done, body := body }] ∧
        (t.port p).restarted = false ∧ (t.port p).requests = s.queueAfter p ∧ (t.port p).hold = s.holdAfter p ∧
        (s.port p).SameLink (t.port p) ∧ (t.port p).settings = (s.port p).settings ∧
        (s.port (otherPort p)).SameButAttn (t.port (otherPort p)) ∧ t.AttnOk ∧ t.tables = s.tables ∧
        t.serving = none ∧ t.lastServed = (if s.serving.isSome = true then s.lastServed else p) ∧
        t.resetLow = false ∧ t.restartCause = s.restartCause ∧ t.pending = s.pending)

/-- RESTART from the administrator carries out the warm restart with cause RESTART_REQUEST, and its DONE reply with an empty
body is then the sole one on its port; a body that is not empty is refused BAD_LENGTH and another requester NOT_PERMITTED
(R172, R173). -/
def Obligations.RestartCompletes : Prop :=
  ∀ (s : State) (p : PortId) (f : Frame), s.Serves p f → f.code = 0x12 →
    (f.body ≠ [] → s.Refuses .restart p f .badLength) ∧
    (f.body = [] → f.requester ≠ 0 → s.Refuses .restart p f .notPermitted) ∧
    (f.body = [] → f.requester = 0 → ∃ t, exec .restart s = .next t ∧ s.tables.Restarted t.tables ∧
      (∃ q, (s.port p).Restarted q ∧
        t.port p = { q with replies := [{ tag := f.tag, code := f.code, completion := .done, body := [] }] }) ∧
      (s.port (otherPort p)).Restarted (t.port (otherPort p)) ∧ t.AttnOk ∧ t.serving = none ∧ t.lastServed = .b ∧
      t.resetLow = false ∧ t.restartCause = .restartRequest ∧ t.pending = s.pending)

/-! ### Layouts (section 10.6) -/

/-- Every request body a gateway lays out by section 10.6, whatever its operands, is read back whole: no bit is dropped. The
numbers it and the replies are made of are sent most significant byte first, signed ones in two's complement. The widths
that section 10.6 does not name (the port settings, log 10, the season bank and others, log 11) are the model's reading. -/
def Obligations.LayoutsReadBack : Prop :=
  (∀ q : DefineReq, q.key.Fits → fits8 q.zone → (∀ n ∈ q.sense, fits8 n) → (∀ x ∈ q.params, x.Fits) →
    (∀ n ∈ q.lag, fits16 n) → (∀ z ∈ q.offset, fits16s z) → readDefine q.bytes = some q) ∧
  (∀ q : LookupReq, q.name.Fits → fits8 q.view → fits8 q.keep → readLookup q.bytes = some q) ∧
  (∀ q : EnumerateReq, fits8 q.zone → (∀ n ∈ q.cursor, fits16 n) → readEnumerate q.bytes = some q) ∧
  (∀ q : AmendReq, q.name.Fits → fits16 q.expected → (∀ x ∈ q.params, x.Fits) → (∀ n ∈ q.zone, fits8 n) →
    readAmend q.bytes = some q) ∧
  (∀ q : RetireReq, q.name.Fits → fits16 q.expected → readRetire q.bytes = some q) ∧
  (∀ q : ObserveReq, q.name.Fits → fits16 q.expected → fits8 q.count → q.samples.length = q.count →
    (∀ x ∈ q.samples, x.Fits) → readObserve q.bytes = some q) ∧
  (∀ q : CalibrateReq, q.name.Fits → fits16 q.expected → fits16 q.duration → readCalibrate q.bytes = some q) ∧
  (∀ q : AcquitReq, q.name.Fits → fits8 q.tracker → fits16 q.expected →
    (q.name.isCoupling = true → q.expected = 0) → readAcquit q.bytes = some q) ∧
  (∀ q : CoupleReq, q.lead.Fits → q.follower.Fits → (∀ x ∈ q.params, x.Fits) → readCouple q.bytes = some q) ∧
  (∀ h, fits16 h → readUncouple (be16 h) = some h) ∧
  (∀ q : ZoneSetReq, fits8 q.zone → (∀ n ∈ q.mode, fits8 n) → (∀ n ∈ q.seasonBank, fits8 n) →
    (∀ n ∈ q.owners, fits8 n) → readZoneSet q.bytes = some q) ∧
  (∀ q : Profile, q.Fits → readProfile q.bytes = some q) ∧
  (∀ q : PortSetReq, fits8 q.port → (∀ n ∈ q.holdOn, fits8 n) → (∀ n ∈ q.holdOff, fits8 n) →
    (∀ n ∈ q.trigger, fits8 n) → (∀ n ∈ q.delay, fits16 n) → readPortSet q.bytes = some q) ∧
  (∀ n, fits32 n → readSetTime (be32 n) = some n) ∧
  (∀ n : Nat, be8 n = [BitVec.ofNat 8 n] ∧ be16 n = [BitVec.ofNat 8 (n / 256), BitVec.ofNat 8 n] ∧
    be32 n = [BitVec.ofNat 8 (n / 16777216), BitVec.ofNat 8 (n / 65536), BitVec.ofNat 8 (n / 256), BitVec.ofNat 8 n] ∧
    be40 n = BitVec.ofNat 8 (n / 4294967296) :: be32 n) ∧
  (∀ z : Int, (∃ n : Nat, be16s z = be16 n ∧ (n : Int) = z % 65536) ∧
    ∃ n : Nat, be32s z = be32 n ∧ (n : Int) = z % 4294967296)

/-! ### Samples (R51 to R57) -/

/-- Each sample of an accepted OBSERVE gets one result, in the order listed, against the record as the earlier samples left
it: LATE, else FUTURE, else ACCEPTED and then applied conditioned; a refused sample changes nothing (R51, R52). -/
def Obligations.SampleResults : Prop :=
  (∀ (T : Tables) (slot : Nat) (r : Record) (x : RawSample) (rest : List RawSample),
    Table.get T.records slot = some r →
    let late := ∃ l, r.last = some l ∧ x.time ≤ l.time
    let after := T.applySample slot r x.condition
    (late → T.applySamples slot (x :: rest) =
      ((T.applySamples slot rest).1, .late :: (T.applySamples slot rest).2)) ∧
    (¬ late → T.clock + 60 < x.time → T.applySamples slot (x :: rest) =
      ((T.applySamples slot rest).1, .future :: (T.applySamples slot rest).2)) ∧
    (¬ late → x.time ≤ T.clock + 60 → after.clock = T.clock ∧ (∃ r', Table.get after.records slot = some r') ∧
      T.applySamples slot (x :: rest) =
        ((after.applySamples slot rest).1, .accepted :: (after.applySamples slot rest).2))) ∧
  (∀ (T : Tables) (slot : Nat), T.applySamples slot [] = (T, [])) ∧
  (∀ x : RawSample,
    let temperature := fun z : Option Int =>
      match z with
      | some z => if z < -4000 ∨ 8000 < z then none else some z
      | none => none
    x.condition = { time := x.time, command := if 1000 < x.command then 1000 else x.command,
                    feedback := x.feedback.map fun n => if 1000 < n then 1000 else n,
                    entering := temperature x.entering, leaving := temperature x.leaving,
                    fanOn := x.fan.map fun n => decide (n = 1) })

/-- The six stages of an accepted sample and where each part of the record and of the couplings takes its value (R54, R57,
R117, R118): the window stage, the step watch, the accumulation, the reversal tracker under the deadband the window stage
left, the calibration, and the sample as the last one; key, zone, revision, coupling count and coil sense stand. -/
def Obligations.SampleWritesByStage : Prop :=
  ∀ (T : Tables) (slot : Nat) (r : Record) (x : Sample), Table.get T.records slot = some r →
    let r1 := T.stageWindow x r
    let r2 := r1.stageWatch x
    let r3 := r2.stageAccumulate x
    let turn := r.reversal.take r1.active.wide.reversalDeadband x.command
    let r5 := ({ r3 with reversal := turn.1 } : Record).stageCalibration T.clock x
    let T' := T.applySample slot r x
    ∃ r', Table.get T'.records slot = some r' ∧ r' = { r5 with last := some ⟨x.time, x.command, x.feedback⟩ } ∧
      (r'.key = r.key ∧ r'.zone = r.zone ∧ r'.revision = r.revision ∧ r'.couplingCount = r.couplingCount ∧
        r'.valve.map (·.sense) = r.valve.map (·.sense)) ∧
      (r'.state = r1.state ∧ r'.settleCount = r1.settleCount ∧ r'.active = r1.active ∧ r'.bank = r1.bank ∧
        r'.pendingSet = r1.pendingSet ∧ r'.stuck = r1.stuck ∧ r'.flatline = r1.flatline ∧
        r'.valve.map (·.leak) = r1.valve.map (·.leak)) ∧
      (r'.watch = r2.watch ∧ r'.lag = r2.lag) ∧ (r'.window = r3.window ∧ r'.closedRun = r3.closedRun) ∧
      r'.reversal = turn.1 ∧
      (∀ j, j ≠ slot → Table.get T'.records j = Table.get T.records j) ∧
      (∀ i, Table.get T'.couplings i =
        (Table.get (T.stageFights slot x r) i).map (Coupling.memberSample slot (r.state == .stale) x turn.2)) ∧
      T' = { T with records := T'.records, couplings := T'.couplings }

/-- The window stage (R9 to R11, R13, R32, R35 to R37, R55, R58 to R60): a STALE record latches, leaves STALE with a mark
and opens a window; a record without a window opens one without a latch; a sample below start plus W joins the window; one
at or above it closes the window, whose trackers are updated, then every coupling the record leads is evaluated, then come
the settle step, the latch and a new window. -/
def Obligations.WindowStage : Prop :=
  ∀ (T : Tables) (slot : Nat) (r : Record) (x : Sample),
    let season := T.zones[r.zone].seasonBank
    let fresh : Window := {
      start := x.time, samples := 0, commandTravel := 0, feedbackTravel := 0, feedbackMin := none, feedbackMax := none,
      feedbackCount := 0, stepExpiry := false, leak := if r.valve = none then none else some { count := 0, sum := 0 } }
    let set := r.pendingSet.getD r.active
    let brought := set.wide.settleWindows ≠ r.active.wide.settleWindows
    (r.state = .stale →
      let settled := if brought then min r.settleCount set.wide.settleWindows else r.settleCount
      T.stageWindow x r = { r with
        active := set, pendingSet := none, bank := season, settleCount := settled,
        state := if settled < set.wide.settleWindows then .settling else .live,
        mark := some (r.mark.getD T.clock), window := some fresh } ∧ T.stageFights slot x r = T.couplings) ∧
    (r.state ≠ .stale → r.window = none →
      T.stageWindow x r = { r with window := some fresh } ∧ T.stageFights slot x r = T.couplings) ∧
    (∀ w, r.state ≠ .stale → r.window = some w → x.time < w.start + r.active.wide.windowLength →
      T.stageWindow x r = r ∧ T.stageFights slot x r = T.couplings) ∧
    (∀ w, r.state ≠ .stale → r.window = some w → w.start + r.active.wide.windowLength ≤ x.time →
      let judged := r.evaluateWindow T.clock (T.profile r.activeBank.profile) T.zones[r.zone].mode w
      let advances := r.active.wide.minSamples ≤ w.samples ∧ r.settleCount < r.active.wide.settleWindows
      let count := if advances then r.settleCount + 1 else r.settleCount
      let state := if advances ∧ count = r.active.wide.settleWindows ∧ r.state = .settling then .live else r.state
      let settled := if brought then min count set.wide.settleWindows else count
      T.stageWindow x r = { judged with
        active := set, pendingSet := none, bank := season, settleCount := settled,
        state := if brought ∧ state = .settling ∧ settled = set.wide.settleWindows then .live else state,
        window := some fresh } ∧
      ∀ i, Table.get (T.stageFights slot x r) i = (Table.get T.couplings i).map fun c =>
        if c.leadSlot = slot then T.evaluateFight judged w c else c)

/-- The accumulation (R56, R91, R93 to R95): the sample is counted, its travel paired with the previous sample of the same
window when both carry feedback; the closed run starts, continues or ends by the command; and a qualifying sample adds its
clamped residual to the window's leakage figures. Nothing else of the record changes. That the previous sample lies in
the window when its time does is the model's reading (log 21). -/
def Obligations.WindowFigures : Prop :=
  ∀ (r : Record) (x : Sample) (w : Window), r.window = some w →
    let run := if r.valve = none then none
      else if x.command ≤ r.activeBank.closedLevel then some (r.closedRun.getD x.time) else none
    ∃ w' : Window, r.stageAccumulate x = { r with window := some w', closedRun := run } ∧
      w'.start = w.start ∧ w'.stepExpiry = w.stepExpiry ∧ w'.samples = w.samples + 1 ∧
      (x.feedback = none → w'.feedbackCount = w.feedbackCount ∧ w'.feedbackMin = w.feedbackMin ∧
        w'.feedbackMax = w.feedbackMax) ∧
      (∀ fb, x.feedback = some fb → w'.feedbackCount = w.feedbackCount + 1 ∧
        w'.feedbackMin = some (match w.feedbackMin with
          | some m => min m fb
          | none => fb) ∧
        w'.feedbackMax = some (match w.feedbackMax with
          | some m => max m fb
          | none => fb)) ∧
      (∀ fb l before, x.feedback = some fb → r.last = some l → l.feedback = some before → w.start ≤ l.time →
        w'.commandTravel = w.commandTravel + ((x.command : Int) - l.command).natAbs ∧
        w'.feedbackTravel = w.feedbackTravel + ((fb : Int) - before).natAbs) ∧
      (x.feedback = none ∨ (∀ l, r.last = some l → l.feedback = none ∨ l.time < w.start) →
        w'.commandTravel = w.commandTravel ∧ w'.feedbackTravel = w.feedbackTravel) ∧
      (∀ v started entering leaving figures, r.valve = some v → run = some started →
        started + r.active.wide.closedSettle ≤ x.time → x.fanOn = some true → x.entering = some entering →
        x.leaving = some leaving → w.leak = some figures →
        let raw := (if v.sense = .heat then leaving - entering else entering - leaving) - v.offset
        w'.leak = some { count := figures.count + 1,
                         sum := figures.sum + (if raw < -2000 then -2000 else if 2000 < raw then 2000 else raw) }) ∧
      ((r.valve = none ∨ (∀ started, run = some started → x.time < started + r.active.wide.closedSettle) ∨
          x.fanOn ≠ some true ∨ x.entering = none ∨ x.leaving = none) → w'.leak = w.leak)

/-- The step watch at a sample, in the order of R83: expiry at or above the deadline sets the window's flag and ends the watch
(R84); else completion at half the step total ends it and learns the lag (R85, R86); then step detection (R77), which opens a
watch (R79, R80), extends one in its own direction (R81) or replaces one in the other (R82). -/
def Obligations.StepWatchStage : Prop :=
  ∀ (r : Record) (x : Sample),
    (∀ w, r.watch = some w → w.deadline ≤ x.time → r.stageWatch x =
      ({ r with watch := none, window := r.window.map fun o => { o with stepExpiry := true } } : Record).detectStep x) ∧
    (∀ w, r.watch = some w → x.time < w.deadline →
      let moved := ∃ fb, x.feedback = some fb ∧
        ((w.direction = .up ∧ w.startFeedback + w.total / 2 ≤ fb) ∨
         (w.direction = .down ∧ fb + w.total / 2 ≤ w.startFeedback))
      let lag := x.time - w.start
      (moved → r.stageWatch x =
        ({ r with watch := none, lag := if r.lag = 0 then lag else (3 * r.lag + lag) / 4 } : Record).detectStep x) ∧
      (¬ moved → r.stageWatch x = r.detectStep x)) ∧
    (r.watch = none → r.stageWatch x = r.detectStep x) ∧
    (∀ fb l before, x.feedback = some fb → r.last = some l → l.feedback = some before → 1 ≤ r.activeBank.stepSize →
      r.activeBank.stepSize ≤ ((x.command : Int) - l.command).natAbs →
      let direction : Direction := if l.command < x.command then .up else .down
      let opened : StepWatch := {
        start := x.time, startCommand := l.command, startFeedback := before, direction := direction,
        total := ((x.command : Int) - l.command).natAbs,
        deadline := x.time + min 600 (max r.activeBank.stepTimeout (2 * r.lag)) }
      (r.watch = none → r.detectStep x = { r with watch := some opened }) ∧
      (∀ w, r.watch = some w → w.direction = direction → r.detectStep x =
        { r with watch := some { w with total := ((x.command : Int) - w.startCommand).natAbs } }) ∧
      (∀ w, r.watch = some w → w.direction ≠ direction → r.detectStep x = { r with watch := some opened })) ∧
    ((x.feedback = none ∨ (∀ l, r.last = some l →
        l.feedback = none ∨ ((x.command : Int) - l.command).natAbs < r.activeBank.stepSize)) → r.detectStep x = r)

/-- The running calibration at a sample, in the order of R100: a sample before the start does nothing; a command above the
closed level fails it (R101); a qualifying sample adds its raw residual; and at or beyond the end it completes by R102, each
end marking the record (R155). -/
def Obligations.CalibrationStage : Prop :=
  ∀ (clock : Nat) (r : Record) (x : Sample),
    ((∀ run, r.cal ≠ .running run) → r.stageCalibration clock x = r) ∧
    ∀ run v, r.cal = .running run → r.valve = some v →
      let ended := fun (c : Calibration) (offset : Int) =>
        ({ r with cal := c, valve := some { v with offset := offset }, mark := some (r.mark.getD clock) } : Record)
      (x.time < run.start → r.stageCalibration clock x = r) ∧
      (run.start ≤ x.time → r.activeBank.closedLevel < x.command →
        r.stageCalibration clock x = ended (.failed .disturbed) v.offset) ∧
      (run.start ≤ x.time → x.command ≤ r.activeBank.closedLevel →
        ∃ count sum,
          (∀ started entering leaving, r.closedRun = some started →
            started + r.active.wide.closedSettle ≤ x.time → x.fanOn = some true → x.entering = some entering →
            x.leaving = some leaving →
            let raw := if v.sense = .heat then leaving - entering else entering - leaving
            count = run.count + 1 ∧
            sum = run.sum + (if raw < -2000 then -2000 else if 2000 < raw then 2000 else raw)) ∧
          ((r.closedRun = none ∨ (∀ started, r.closedRun = some started →
              x.time < started + r.active.wide.closedSettle) ∨
            x.fanOn ≠ some true ∨ x.entering = none ∨ x.leaving = none) → count = run.count ∧ sum = run.sum) ∧
          (x.time < run.start + run.duration → r.stageCalibration clock x =
            { r with cal := .running { run with count := count, sum := sum } }) ∧
          (run.start + run.duration ≤ x.time →
            let mean := sum.tdiv count
            (count < 10 → r.stageCalibration clock x = ended (.failed .insufficient) v.offset) ∧
            (10 ≤ count → -200 ≤ mean → mean ≤ 200 → r.stageCalibration clock x = ended .done mean) ∧
            (10 ≤ count → mean < -200 → r.stageCalibration clock x = ended .doneClamped (-200)) ∧
            (10 ≤ count → 200 < mean → r.stageCalibration clock x = ended .doneClamped 200)))

/-- The reversal tracker takes a command by the table of R117. -/
def Obligations.ReversalTracked : Prop :=
  ∀ (deadband command e : Nat), 1 ≤ deadband →
    let from_ := fun (d : Option Direction) => ReversalTracker.take deadband command { direction := d, extreme := some e }
    let to_ := fun (d : Option Direction) (extreme : Nat) =>
      ({ direction := d, extreme := some extreme } : ReversalTracker)
    ReversalTracker.take deadband command { direction := none, extreme := none } = (to_ none command, none) ∧
    from_ none = (if e + deadband ≤ command then (to_ (some .up) command, none)
      else if command + deadband ≤ e then (to_ (some .down) command, none) else (to_ none e, none)) ∧
    from_ (some .up) = (if e < command then (to_ (some .up) command, none)
      else if command + deadband ≤ e then (to_ (some .down) command, some .down) else (to_ (some .up) e, none)) ∧
    from_ (some .down) = (if command < e then (to_ (some .down) command, none)
      else if e + deadband ≤ command then (to_ (some .up) command, some .up) else (to_ (some .down) e, none))

/-- A member's sample at a coupling, in the order of R118: a reopening lead starts the measurement afresh (R124) and a
follower ends follower-stale (R123); the overlap takes the seconds since u, at most 300, while both stored commands stood at
or above the overlap level, and the command is stored (R119); and a reversal pairs or is held unpaired (R120). A coupling that
does not name the record is not reached. -/
def Obligations.CouplingTakesSample : Prop :=
  ∀ (c : Coupling) (slot : Nat) (reopening : Bool) (x : Sample) (turn : Option Direction),
    let gap := fun c : Coupling =>
      match c.lastUpdate, c.leadCommand, c.followerCommand with
      | some u, some a, some b =>
        if u < x.time ∧ c.params.overlapLevel ≤ a ∧ c.params.overlapLevel ≤ b then min (x.time - u) 300 else 0
      | _, _, _ => 0
    let updated := fun c : Coupling => ({ c with
      overlap := min 65535 (c.overlap + gap c),
      lastUpdate := some (match c.lastUpdate with
        | some u => if u < x.time then x.time else u
        | none => x.time) } : Coupling)
    let pairs := fun (other : Option Reversal) (d : Direction) => ∃ y : Reversal, other = some y ∧
      ((x.time : Int) - y.time).natAbs ≤ c.params.pairWindow ∧ y.direction ≠ d
    (c.names slot = false → c.memberSample slot reopening x turn = c) ∧
    (c.leadSlot = slot →
      let opened : Coupling := if reopening then
        { c with overlap := 0, antiphase := 0, leadReversal := none, followerReversal := none, leadCommand := none }
        else c
      let c1 : Coupling := { updated opened with leadCommand := some x.command }
      (turn = none → c.memberSample slot reopening x turn = c1) ∧
      ∀ d, turn = some d →
        (pairs opened.followerReversal d → c.memberSample slot reopening x turn =
          { c1 with antiphase := min 255 (c1.antiphase + 1), followerReversal := none }) ∧
        (¬ pairs opened.followerReversal d → c.memberSample slot reopening x turn =
          { c1 with leadReversal := some { time := x.time, direction := d } })) ∧
    (c.leadSlot ≠ slot → c.followerSlot = slot →
      let c1 : Coupling := { updated c with followerCommand := some x.command, followerStale := false }
      (turn = none → c.memberSample slot reopening x turn = c1) ∧
      ∀ d, turn = some d →
        (pairs c.leadReversal d → c.memberSample slot reopening x turn =
          { c1 with antiphase := min 255 (c1.antiphase + 1), leadReversal := none }) ∧
        (¬ pairs c.leadReversal d → c.memberSample slot reopening x turn =
          { c1 with followerReversal := some { time := x.time, direction := d } }))

/-! ### Evidence and verdicts -/

/-- The trackers of a record at a window close (R60, R61, R73 to R76, R97, R128, R134): neutral for all of them where the
window holds too few samples, the zone is in HOLD or the record is not LIVE; else FLATLINE, STUCK and LEAK by their figures.
A changed verdict marks the record; nothing else of it changes. -/
def Obligations.WindowEvidence : Prop :=
  ∀ (clock : Nat) (p : Profile) (mode : ZoneMode) (w : Window) (r : Record),
    let k := r.activeBank
    let moved := k.minTravel ≤ w.commandTravel
    let flat := moved ∧ 2 ≤ w.feedbackCount ∧ w.feedbackMax = w.feedbackMin
    let ratio := min 4000 (w.feedbackTravel * 1000 / w.commandTravel)
    let flatline : Evidence := if ¬ moved then .neutral else if flat then .evidence else .clean
    let stuck : Evidence :=
      if r.flatline.verdict = .suspect ∨ r.flatline.verdict = .confirmed ∨ flat then .neutral
      else if moved then (if ratio < k.stuckRatio ∨ w.stepExpiry = true then .evidence else .clean)
      else if w.stepExpiry = true then .evidence else .neutral
    let leak : Evidence :=
      match w.leak with
      | none => .neutral
      | some g =>
        if g.count < r.active.wide.leakMinSamples ∨ r.cal.isRunning = true then .neutral
        else if (k.leakThreshold : Int) < g.sum.tdiv g.count then .evidence else .clean
    let passed := r.active.wide.minSamples ≤ w.samples ∧ mode = .run ∧ r.state = .live
    (¬ passed → r.evaluateWindow clock p mode w = r) ∧
    (passed → ∃ mark,
      r.evaluateWindow clock p mode w = { r with
        stuck := r.stuck.update p stuck, flatline := r.flatline.update p flatline,
        valve := r.valve.map fun v => { v with leak := v.leak.update p leak }, mark := mark } ∧
      let changed := (r.stuck.update p stuck).verdict ≠ r.stuck.verdict ∨
        (r.flatline.update p flatline).verdict ≠ r.flatline.verdict ∨
        ∃ v, r.valve = some v ∧ (v.leak.update p leak).verdict ≠ v.leak.verdict
      (changed → mark = some (r.mark.getD clock)) ∧ (¬ changed → mark = r.mark))

/-- One update of a tracker (R129 to R133): neutral changes nothing; evidence and clean move the score within 0 to 255; then
the verdict rises to the highest level above it whose on-threshold the score meets, or, where none is met, drops level by
level while the score lies below the level's on-threshold less the hysteresis; CONFIRMED does not drop. -/
def Obligations.TrackerUpdates : Prop :=
  ∀ (p : Profile) (t : Tracker),
    t.update p .neutral = t ∧
    ((t.update p .evidence).score = if t.score + p.rise ≤ 255 then t.score + p.rise else 255) ∧
    ((t.update p .clean).score = if p.fall ≤ t.score then t.score - p.fall else 0) ∧
    ∀ e, e ≠ .neutral →
      let score := (t.update p e).score
      let after := (t.update p e).verdict
      let meets := fun v : Verdict => t.verdict.level < v.level ∧ p.on v ≤ score
      ((∃ v, meets v) → meets after ∧ ∀ v, meets v → v.level ≤ after.level) ∧
      ((∀ v, ¬ meets v) →
        (t.verdict = .clear → after = .clear) ∧
        (t.verdict = .watch → after = if score < p.onWatch - p.hyst then .clear else .watch) ∧
        (t.verdict = .suspect → after =
          if p.onSuspect - p.hyst ≤ score then .suspect
          else if p.onWatch - p.hyst ≤ score then .watch else .clear) ∧
        (t.verdict = .confirmed → after = .confirmed))

/-- The evaluation of a coupling at its lead's close (R121, R122, R134): neutral where one of the six conditions holds, else
evidence by the overlap fraction or the antiphase count, else clean; the overlap and the antiphase count are cleared, a
changed verdict marks the coupling, and nothing else of it changes. -/
def Obligations.FightEvaluated : Prop :=
  ∀ (T : Tables) (lead follower : Record) (w : Window) (c : Coupling),
    Table.get T.records c.followerSlot = some follower →
    let confirmed := fun r : Record => r.stuck.verdict = .confirmed ∨ r.flatline.verdict = .confirmed
    let neutral := w.samples < lead.active.wide.minSamples ∨ (lead.state = .settling ∨ follower.state = .settling) ∨
      (T.zones[lead.zone].mode = .hold ∨ T.zones[follower.zone].mode = .hold) ∨ c.followerStale = true ∨
      c.followerCommand = none ∨ (confirmed lead ∨ confirmed follower)
    let fought := c.params.overlapFraction ≤ min 1000 (c.overlap * 1000 / lead.active.wide.windowLength) ∨
      c.params.huntCount ≤ c.antiphase
    ∃ (e : Evidence) (mark : Option Nat),
      (neutral → e = .neutral) ∧ (¬ neutral → fought → e = .evidence) ∧ (¬ neutral → ¬ fought → e = .clean) ∧
      (let fight := c.fight.update (T.profile c.params.profile) e
      T.evaluateFight lead w c = { c with fight := fight, overlap := 0, antiphase := 0, mark := mark } ∧
      (fight.verdict ≠ c.fight.verdict → mark = some (c.mark.getD T.clock)) ∧
      (fight.verdict = c.fight.verdict → mark = c.mark))

/-! ### What every step keeps -/

/-- After power-on every invariant below holds. -/
def Obligations.ResetSatisfiesTheInvariants : Prop :=
  State.reset.PortsOk ∧ State.reset.AttnOk ∧ State.reset.tables.RecordsOk ∧ State.reset.tables.CouplingsOk ∧
  State.reset.tables.FollowersOk ∧ State.reset.tables.RecordsShaped ∧ State.reset.tables.WindowsOk ∧
  State.reset.tables.profile4.Valid ∧ State.reset.tables.clock ≤ 4294967295

/-- Every step keeps the ports within their limits, HOLD at its hysteresis, room for the reply of a request in service, and
both ATTN outputs at the level of their tests (R160, R161, R165 to R167, R172). -/
def Obligations.PortsKept : Prop :=
  ∀ s t : State, s.PortsOk → s.AttnOk → step s = .next t → t.PortsOk ∧ t.AttnOk

/-- Every step keeps the record table in its slots, its keys distinct and its directory one entry for each record (R1 to R5);
profile 4 within its conditions (R135); and the clock in its range (R46). -/
def Obligations.RecordsKept : Prop :=
  ∀ s t : State, s.tables.RecordsOk → step s = .next t →
    t.tables.RecordsOk ∧ (s.tables.profile4.Valid → t.tables.profile4.Valid) ∧
    (s.tables.clock ≤ 4294967295 → t.tables.clock ≤ 4294967295)

/-- Every step keeps the couplings: two distinct present members each, no pair twice, each record's coupling count the number
of couplings naming it and at most 4 (R107 to R109, R113), follower-stale exactly while the follower is STALE (R123). -/
def Obligations.CouplingsKept : Prop :=
  ∀ s t : State, s.tables.RecordsOk → s.tables.CouplingsOk → s.tables.FollowersOk → step s = .next t →
    t.tables.CouplingsOk ∧ t.tables.FollowersOk

/-- Every step keeps each record's parts by its kind and in their ranges, a SETTLING record below its settle windows, a STALE
record with nothing in flight (R7 to R13, R30, R69, R78, R89, R96, R129), and each open window within its bounds (R56, R59,
R95). -/
def Obligations.RecordShapesKept : Prop :=
  ∀ s t : State, s.tables.RecordsOk → s.tables.RecordsShaped → s.tables.WindowsOk → step s = .next t →
    t.tables.RecordsShaped ∧ t.tables.WindowsOk

/-- A CONFIRMED verdict is left only through ACQUIT, removal of its entry or power-on: no other step lowers it (R132). -/
def Obligations.ConfirmedStands : Prop :=
  ∀ (s t : State) (c : Instr) (rest : List Instr), s.pending = c :: rest → step s = .next t → c ≠ .powerOn →
    c ≠ .acquit →
    (c ≠ .retire → ∀ i r, Table.get s.tables.records i = some r → ∃ r', Table.get t.tables.records i = some r' ∧
      (r.stuck.verdict = .confirmed → r'.stuck.verdict = .confirmed) ∧
      (r.flatline.verdict = .confirmed → r'.flatline.verdict = .confirmed) ∧
      (∀ v, r.valve = some v → v.leak.verdict = .confirmed →
        ∃ v', r'.valve = some v' ∧ v'.leak.verdict = .confirmed)) ∧
    (c ≠ .uncouple → ∀ i d, Table.get s.tables.couplings i = some d → ∃ d', Table.get t.tables.couplings i = some d' ∧
      (d.fight.verdict = .confirmed → d'.fight.verdict = .confirmed))

/-- What a record keeps for life: until it is retired or power goes, its key and its coil sense (R1, R7); its zone but at an
AMEND (R145); its revision but at an AMEND, ACQUIT or CALIBRATE, where it advances by one at most (R8); its coupling count
but at a COUPLE or UNCOUPLE (R113). -/
def Obligations.RecordStandingKept : Prop :=
  ∀ (s t : State) (c : Instr) (rest : List Instr), s.pending = c :: rest → step s = .next t → c ≠ .powerOn →
    c ≠ .retire → ∀ i r, Table.get s.tables.records i = some r →
      ∃ r', Table.get t.tables.records i = some r' ∧ r'.key = r.key ∧
        r'.valve.map (·.sense) = r.valve.map (·.sense) ∧ (c ≠ .amend → r'.zone = r.zone) ∧
        (c ≠ .amend → c ≠ .acquit → c ≠ .calibrate → r'.revision = r.revision) ∧
        (r'.revision = r.revision ∨ r'.revision = if r.revision < 65535 then r.revision + 1 else 1) ∧
        (c ≠ .couple → c ≠ .uncouple → r'.couplingCount = r.couplingCount)

/-- A requester outside a zone's owner mask, and not the administrator, changes nothing of the zone's records by any request,
but for removing a mark by LOOKUP and lowering a coupling count by uncoupling another zone's lead (R20, R114, R147, R148). -/
def Obligations.ZonesIsolateRequesters : Prop :=
  ∀ (s t : State) (p : PortId) (f : Frame) (c : Instr) (code : Nat), (c, code) ∈ requestCommands → s.Serves p f →
    f.code.toNat = code → exec c s = .next t → ∀ i r, Table.get s.tables.records i = some r →
      ¬ s.tables.MayChange f.requester r.zone →
      ∃ r', Table.get t.tables.records i = some r' ∧
        r' = { r with mark := r'.mark, couplingCount := r'.couplingCount } ∧
        (c ≠ .lookup → r'.mark = r.mark) ∧ (c ≠ .uncouple → r'.couplingCount = r.couplingCount)
end

