-- ==== Sys2Proof/Laws/State.lean ====
section
/-! SUPPORT. One lemma per field per update of the state's shared setters, all by rfl or a case on the port, so that later
proofs unfold no record update. -/

namespace Sys2Proof.Machine

@[simp] theorem otherPort_otherPort (p : PortId) : otherPort (otherPort p) = p := by cases p <;> rfl

theorem otherPort_ne (p : PortId) : otherPort p ≠ p := by cases p <;> decide

theorem eq_or_eq_otherPort (p q : PortId) : q = p ∨ q = otherPort p := by cases p <;> cases q <;> simp [otherPort]

/-! ### setPort -/

@[simp] theorem setPort_port_self (s : State) (p : PortId) (q : Port) : (s.setPort p q).port p = q := by
  cases p <;> rfl

@[simp] theorem setPort_port_other (s : State) (p : PortId) (q : Port) :
    (s.setPort p q).port (otherPort p) = s.port (otherPort p) := by cases p <;> rfl

@[simp] theorem setPort_tables (s : State) (p : PortId) (q : Port) : (s.setPort p q).tables = s.tables := by
  cases p <;> rfl

@[simp] theorem setPort_serving (s : State) (p : PortId) (q : Port) : (s.setPort p q).serving = s.serving := by
  cases p <;> rfl

@[simp] theorem setPort_lastServed (s : State) (p : PortId) (q : Port) : (s.setPort p q).lastServed = s.lastServed := by
  cases p <;> rfl

@[simp] theorem setPort_resetLow (s : State) (p : PortId) (q : Port) : (s.setPort p q).resetLow = s.resetLow := by
  cases p <;> rfl

@[simp] theorem setPort_restartCause (s : State) (p : PortId) (q : Port) :
    (s.setPort p q).restartCause = s.restartCause := by cases p <;> rfl

@[simp] theorem setPort_pending (s : State) (p : PortId) (q : Port) : (s.setPort p q).pending = s.pending := by
  cases p <;> rfl

@[simp] theorem setPort_port (s : State) (p : PortId) : s.setPort p (s.port p) = s := by cases p <;> rfl

/-! ### driveAttn -/

@[simp] theorem driveAttn_tables (s : State) : s.driveAttn.tables = s.tables := rfl

@[simp] theorem driveAttn_serving (s : State) : s.driveAttn.serving = s.serving := rfl

@[simp] theorem driveAttn_lastServed (s : State) : s.driveAttn.lastServed = s.lastServed := rfl

@[simp] theorem driveAttn_resetLow (s : State) : s.driveAttn.resetLow = s.resetLow := rfl

@[simp] theorem driveAttn_restartCause (s : State) : s.driveAttn.restartCause = s.restartCause := rfl

@[simp] theorem driveAttn_pending (s : State) : s.driveAttn.pending = s.pending := rfl

theorem driveAttn_port (s : State) (p : PortId) : s.driveAttn.port p = { s.port p with attn := s.attnLevel p } := by
  cases p <;> rfl

@[simp] theorem driveAttn_port_attn (s : State) (p : PortId) : (s.driveAttn.port p).attn = s.attnLevel p := by
  cases p <;> rfl

@[simp] theorem driveAttn_port_settings (s : State) (p : PortId) :
    (s.driveAttn.port p).settings = (s.port p).settings := by cases p <;> rfl

/-- The pins drive themselves to levels that do not depend on the pins. -/
@[simp] theorem driveAttn_attnLevel (s : State) (p : PortId) : s.driveAttn.attnLevel p = s.attnLevel p := by
  cases p <;> rfl

/-! ### placeReply -/

@[simp] theorem placeReply_tables (s : State) (p : PortId) (r : Reply) : (s.placeReply p r).tables = s.tables := by
  simp [State.placeReply]

@[simp] theorem placeReply_serving (s : State) (p : PortId) (r : Reply) : (s.placeReply p r).serving = s.serving := by
  simp [State.placeReply]

@[simp] theorem placeReply_lastServed (s : State) (p : PortId) (r : Reply) :
    (s.placeReply p r).lastServed = s.lastServed := by simp [State.placeReply]

@[simp] theorem placeReply_resetLow (s : State) (p : PortId) (r : Reply) : (s.placeReply p r).resetLow = s.resetLow := by
  simp [State.placeReply]

@[simp] theorem placeReply_restartCause (s : State) (p : PortId) (r : Reply) :
    (s.placeReply p r).restartCause = s.restartCause := by simp [State.placeReply]

@[simp] theorem placeReply_pending (s : State) (p : PortId) (r : Reply) : (s.placeReply p r).pending = s.pending := by
  simp [State.placeReply]

@[simp] theorem placeReply_port_self (s : State) (p : PortId) (r : Reply) :
    (s.placeReply p r).port p = { s.port p with replies := (s.port p).replies ++ [r] } := by simp [State.placeReply]

@[simp] theorem placeReply_port_other (s : State) (p : PortId) (r : Reply) :
    (s.placeReply p r).port (otherPort p) = s.port (otherPort p) := by simp [State.placeReply]

/-! ### Ports -/

@[simp] theorem withRequests_requests (q : Port) (fs : List Frame) : (q.withRequests fs).requests = fs := rfl

@[simp] theorem withRequests_replies (q : Port) (fs : List Frame) : (q.withRequests fs).replies = q.replies := rfl

@[simp] theorem withRequests_hold (q : Port) (fs : List Frame) :
    (q.withRequests fs).hold = holdLevel q.settings fs.length q.hold := rfl

@[simp] theorem withRequests_settings (q : Port) (fs : List Frame) : (q.withRequests fs).settings = q.settings := rfl

@[simp] theorem withRequests_restarted (q : Port) (fs : List Frame) : (q.withRequests fs).restarted = q.restarted := rfl

/-- Tested at its own words, HOLD is what the model computes (R166). -/
theorem holdAt_eq (set : PortSettings) (n : Nat) (b : Bool) : holdAt set n b = holdLevel set n b := rfl

theorem Port.SameLink.refl (q : Port) : q.SameLink q := ⟨rfl, rfl, rfl, rfl, rfl, rfl, rfl⟩

theorem Port.SameButAttn.refl (q : Port) : q.SameButAttn q := ⟨.refl q, rfl, rfl, rfl, rfl, rfl⟩

/-- Driving the ATTN outputs changes nothing else of a port. -/
theorem driveAttn_sameButAttn (s : State) (p : PortId) : (s.port p).SameButAttn (s.driveAttn.port p) := by
  rw [driveAttn_port]; exact ⟨⟨rfl, rfl, rfl, rfl, rfl, rfl, rfl⟩, rfl, rfl, rfl, rfl, rfl⟩

end Sys2Proof.Machine
end

