-- ==== Sys2Proof/Laws/Tables.lean ====
section
/-! SUPPORT. The laws of tables held by slot: reading after each operation, the canonical form kept, the lowest empty slot. -/

namespace Sys2Proof.Machine

variable {α β : Type}

/-! ### Reading after an operation -/

@[simp] theorem Table.get_nil (i : Nat) : Table.get ([] : Table α) i = none := rfl

theorem Table.get_put_self (t : Table α) (i : Nat) (v : α) : Table.get (Table.put t i v) i = some v := by
  induction t with
  | nil => simp [Table.put, Table.get]
  | cons e rest ih =>
    simp only [Table.put]
    split_ifs with h1 h2
    · simp [Table.get]
    · simp [Table.get]
    · simp [Table.get, Ne.symm h2, ih]

theorem Table.get_put_ne (t : Table α) {i j : Nat} (v : α) (h : j ≠ i) :
    Table.get (Table.put t i v) j = Table.get t j := by
  induction t with
  | nil => simp [Table.put, Table.get, Ne.symm h]
  | cons e rest ih =>
    simp only [Table.put]
    split_ifs with h1 h2
    · simp [Table.get, Ne.symm h]
    · subst h2; simp [Table.get, Ne.symm h]
    · simp [Table.get, ih]

theorem Table.get_erase_self (t : Table α) (i : Nat) : Table.get (Table.erase t i) i = none := by
  induction t with
  | nil => rfl
  | cons e rest ih =>
    simp only [Table.erase, List.filter_cons]
    split_ifs with h
    · simp only [Table.get]
      rw [if_neg (by simpa using h)]
      exact ih
    · exact ih

theorem Table.get_erase_ne (t : Table α) {i j : Nat} (h : j ≠ i) :
    Table.get (Table.erase t i) j = Table.get t j := by
  induction t with
  | nil => rfl
  | cons e rest ih =>
    simp only [Table.erase, List.filter_cons]
    split_ifs with h'
    · simp only [Table.get]; split_ifs
      · rfl
      · exact ih
    · have : e.1 = i := by simpa using h'
      simp only [Table.get, this, if_neg (Ne.symm h)]
      exact ih

theorem Table.get_replace (t : Table α) (i j : Nat) (v : α) :
    Table.get (Table.replace t i v) j = if j = i then (Table.get t i).map (fun _ => v) else Table.get t j := by
  induction t with
  | nil => simp [Table.replace, Table.get]
  | cons e rest ih =>
    simp only [Table.replace] at ih
    simp only [Table.replace, List.map_cons, Table.get]
    rcases e with ⟨k, w⟩
    by_cases h : k = i
    · subst h
      by_cases hj : j = k
      · subst hj; simp
      · have hj' : ¬ k = j := fun h => hj h.symm
        simp [hj, hj', ih]
    · by_cases hj : j = i
      · subst hj; simp [h, ih]
      · simp [h, hj, ih]

theorem Table.get_replace_self {t : Table α} {i : Nat} {w : α} (v : α) (h : Table.get t i = some w) :
    Table.get (Table.replace t i v) i = some v := by rw [Table.get_replace]; simp [h]

theorem Table.get_replace_ne (t : Table α) {i j : Nat} (v : α) (h : j ≠ i) :
    Table.get (Table.replace t i v) j = Table.get t j := by rw [Table.get_replace, if_neg h]

theorem Table.get_mapValues (t : Table α) (f : α → β) (i : Nat) :
    Table.get (Table.mapValues t f) i = (Table.get t i).map f := by
  induction t with
  | nil => rfl
  | cons e rest ih =>
    simp only [Table.mapValues] at ih
    simp only [Table.mapValues, List.map_cons, Table.get, ih]
    split_ifs <;> rfl

/-! ### Members -/

theorem Table.mem_of_get {t : Table α} {i : Nat} {v : α} (h : Table.get t i = some v) : (i, v) ∈ t := by
  induction t with
  | nil => simp [Table.get] at h
  | cons e rest ih =>
    simp only [Table.get] at h
    split_ifs at h with hi
    · obtain ⟨a, b⟩ := e
      simp_all
    · exact List.mem_cons_of_mem _ (ih h)

theorem Table.get_isSome_of_mem {t : Table α} {e : Nat × α} (h : e ∈ t) : (Table.get t e.1).isSome := by
  induction t with
  | nil => simp at h
  | cons d rest ih =>
    simp only [Table.get]
    split_ifs with hd
    · rfl
    · rcases List.mem_cons.mp h with rfl | h
      · exact absurd rfl hd
      · exact ih h

/-- In a table in canonical form a listed entry is what its slot holds. -/
theorem Table.get_of_mem {t : Table α} {e : Nat × α} (hs : (t.map Prod.fst).Pairwise (· < ·)) (h : e ∈ t) :
    Table.get t e.1 = some e.2 := by
  induction t with
  | nil => simp at h
  | cons d rest ih =>
    simp only [List.map_cons, List.pairwise_cons] at hs
    simp only [Table.get]
    rcases List.mem_cons.mp h with rfl | h
    · simp
    · have : d.1 < e.1 := hs.1 _ (List.mem_map_of_mem h)
      rw [if_neg (by omega)]
      exact ih hs.2 h

theorem Table.mem_put {t : Table α} {i : Nat} {v : α} {e : Nat × α} (h : e ∈ Table.put t i v) :
    e = (i, v) ∨ e ∈ t := by
  induction t with
  | nil => simp_all [Table.put]
  | cons d rest ih =>
    simp only [Table.put] at h
    split_ifs at h with h1 h2 <;> simp only [List.mem_cons] at h ⊢
    · tauto
    · tauto
    · rcases h with h | h
      · exact .inr (.inl h)
      · rcases ih h with h | h
        · exact .inl h
        · exact .inr (.inr h)

theorem Table.mem_erase {t : Table α} {i : Nat} {e : Nat × α} : e ∈ Table.erase t i ↔ e ∈ t ∧ e.1 ≠ i := by
  simp [Table.erase]

theorem Table.mem_replace {t : Table α} {i : Nat} {v : α} {e : Nat × α} (h : e ∈ Table.replace t i v) :
    e = (i, v) ∨ (e ∈ t ∧ e.1 ≠ i) := by
  simp only [Table.replace, List.mem_map] at h
  obtain ⟨d, hd, rfl⟩ := h
  by_cases hi : d.1 = i
  · left; simp [hi]
  · right; simp [hi, hd]

theorem Table.mem_mapValues {t : Table α} {f : α → β} {e : Nat × β} (h : e ∈ Table.mapValues t f) :
    ∃ v, (e.1, v) ∈ t ∧ e.2 = f v := by
  simp only [Table.mapValues, List.mem_map] at h
  obtain ⟨d, hd, rfl⟩ := h
  exact ⟨d.2, hd, rfl⟩

/-! ### The canonical form -/

@[simp] theorem Table.replace_keys (t : Table α) (i : Nat) (v : α) :
    (Table.replace t i v).map Prod.fst = t.map Prod.fst := by
  simp only [Table.replace, List.map_map]
  refine List.map_congr_left fun e _ => ?_
  simp only [Function.comp]; split_ifs <;> rfl

@[simp] theorem Table.mapValues_keys (t : Table α) (f : α → β) :
    (Table.mapValues t f).map Prod.fst = t.map Prod.fst := by
  simp [Table.mapValues, Function.comp_def]

theorem Table.wf_iff (t : Table α) (n : Nat) :
    Table.Wf t n ↔ (t.map Prod.fst).Pairwise (· < ·) ∧ ∀ i ∈ t.map Prod.fst, i < n := by
  simp [Table.Wf]

theorem Table.wf_replace {t : Table α} {n : Nat} (h : Table.Wf t n) (i : Nat) (v : α) :
    Table.Wf (Table.replace t i v) n := by
  rw [Table.wf_iff] at h ⊢; simpa using h

theorem Table.wf_mapValues {t : Table α} {n : Nat} (h : Table.Wf t n) (f : α → β) :
    Table.Wf (Table.mapValues t f) n := by
  rw [Table.wf_iff] at h ⊢; simpa using h

theorem Table.wf_erase {t : Table α} {n : Nat} (h : Table.Wf t n) (i : Nat) : Table.Wf (Table.erase t i) n :=
  ⟨h.1.sublist (List.filter_sublist.map _), fun e he => h.2 e (Table.mem_erase.mp he).1⟩

theorem Table.put_keys_sorted {t : Table α} (h : (t.map Prod.fst).Pairwise (· < ·)) (i : Nat) (v : α) :
    ((Table.put t i v).map Prod.fst).Pairwise (· < ·) := by
  induction t with
  | nil => simp [Table.put]
  | cons d rest ih =>
    simp only [List.map_cons, List.pairwise_cons] at h
    simp only [Table.put]
    split_ifs with h1 h2
    · simp only [List.map_cons, List.pairwise_cons, List.mem_cons]
      refine ⟨?_, h⟩
      rintro a (rfl | ha)
      · exact h1
      · exact lt_trans h1 (h.1 a ha)
    · subst h2; exact List.pairwise_cons.mpr h
    · simp only [List.map_cons, List.pairwise_cons]
      refine ⟨?_, ih h.2⟩
      intro a ha
      obtain ⟨e, he, rfl⟩ := List.mem_map.mp ha
      rcases Table.mem_put he with rfl | he
      · show d.1 < i
        omega
      · exact h.1 _ (List.mem_map_of_mem he)

theorem Table.wf_put {t : Table α} {n i : Nat} (h : Table.Wf t n) (hi : i < n) (v : α) :
    Table.Wf (Table.put t i v) n := by
  refine ⟨Table.put_keys_sorted h.1 i v, fun e he => ?_⟩
  rcases Table.mem_put he with rfl | he
  · exact hi
  · exact h.2 e he

/-- Two tables that agree on what every listed value maps to keep agreeing after a replacement that maps alike. -/
theorem Table.mapValues_replace (t : Table α) (f : α → β) {i : Nat} {v w : α}
    (hs : (t.map Prod.fst).Pairwise (· < ·)) (h : Table.get t i = some w) (hv : f v = f w) :
    Table.mapValues (Table.replace t i v) f = Table.mapValues t f := by
  simp only [Table.mapValues, Table.replace, List.map_map]
  refine List.map_congr_left fun e he => ?_
  simp only [Function.comp]
  split_ifs with hi
  · have := Table.get_of_mem hs he
    rw [hi, h] at this
    simp only [Option.some.injEq] at this
    rw [← this, hv]
  · rfl

theorem Table.mapValues_put (t : Table α) (f : α → β) (i : Nat) (v : α) :
    Table.mapValues (Table.put t i v) f = Table.put (Table.mapValues t f) i (f v) := by
  induction t with
  | nil => rfl
  | cons e rest ih =>
    simp only [Table.mapValues] at ih
    simp only [Table.put, Table.mapValues, List.map_cons]
    split_ifs <;> simp [ih]

theorem Table.mapValues_erase (t : Table α) (f : α → β) (i : Nat) :
    Table.mapValues (Table.erase t i) f = Table.erase (Table.mapValues t f) i := by
  simp [Table.mapValues, Table.erase, List.filter_map, Function.comp_def]

theorem Table.mapValues_mapValues {γ : Type} (t : Table α) (f : α → β) (g : β → γ) :
    Table.mapValues (Table.mapValues t f) g = Table.mapValues t (fun x => g (f x)) := by
  simp [Table.mapValues, Function.comp_def]

/-! ### The lowest empty slot (R3, R107) -/

/-- The slot found is below the capacity and empty, and every slot below it is occupied. -/
theorem Table.lowestFree_some {t : Table α} {n i : Nat} (h : Table.lowestFree t n = some i) :
    i < n ∧ Table.get t i = none ∧ ∀ j < i, (Table.get t j).isSome := by
  unfold Table.lowestFree at h
  rw [List.find?_range_eq_some] at h
  obtain ⟨h1, h2, h3⟩ := h
  refine ⟨by simpa using h2, by simpa using h1, fun j hj => ?_⟩
  have := h3 j hj
  cases hg : Table.get t j <;> simp_all

/-- No slot is found only when every slot below the capacity is occupied. -/
theorem Table.lowestFree_none {t : Table α} {n : Nat} (h : Table.lowestFree t n = none) :
    ∀ j < n, (Table.get t j).isSome := by
  intro j hj
  unfold Table.lowestFree at h
  rw [List.find?_eq_none] at h
  have := h j (List.mem_range.mpr hj)
  cases hg : Table.get t j <;> simp_all

/-! ### Generations (R4, R108) -/

theorem generationOf_lt {gens : Table Nat} {n : Nat} (h : generationsOk gens n) (i : Nat) : generationOf gens i < 64 := by
  unfold generationOf
  cases hg : Table.get gens i with
  | none => simp
  | some g => exact (h.2 _ (Table.mem_of_get hg)).2

theorem generationOf_advance_self (gens : Table Nat) (i : Nat) :
    generationOf (advanceGeneration gens i) i = (generationOf gens i + 1) % 64 := by
  simp only [advanceGeneration]
  split_ifs with h
  · simp [generationOf, Table.get_erase_self] at h ⊢; omega
  · simp [generationOf, Table.get_put_self]

theorem generationOf_advance_ne (gens : Table Nat) {i j : Nat} (h : j ≠ i) :
    generationOf (advanceGeneration gens i) j = generationOf gens j := by
  simp only [advanceGeneration]
  split_ifs
  · simp [generationOf, Table.get_erase_ne _ h]
  · simp [generationOf, Table.get_put_ne _ _ h]

theorem generationsOk_advance {gens : Table Nat} {n i : Nat} (h : generationsOk gens n) (hi : i < n) :
    generationsOk (advanceGeneration gens i) n := by
  simp only [advanceGeneration]
  split_ifs with hg
  · exact ⟨Table.wf_erase h.1 i, fun e he => h.2 e (Table.mem_erase.mp he).1⟩
  · refine ⟨Table.wf_put h.1 hi _, fun e he => ?_⟩
    rcases Table.mem_put he with rfl | he
    · exact ⟨Nat.pos_of_ne_zero hg, Nat.mod_lt _ (by decide)⟩
    · exact h.2 e he

theorem recordSlotOf_recordHandle {slot g : Nat} (h : g < 64) : recordSlotOf (recordHandle slot g) = slot := by
  unfold recordSlotOf recordHandle; omega

end Sys2Proof.Machine
end

