-- ==== Sys2Proof/Laws/Checks.lean ====
section
/-! SUPPORT. The laws of the checks a request makes: what a chain of them accepts and what it refuses. -/

namespace Sys2Proof.Machine

variable {α β : Type}

theorem except_bind_ok {x : Except Refused α} {k : α → Except Refused β} {b : β} :
    (x >>= k) = .ok b ↔ ∃ a, x = .ok a ∧ k a = .ok b := by
  cases x <;> simp [bind, Except.bind]

theorem except_bind_error {x : Except Refused α} {k : α → Except Refused β} {r : Refused} :
    (x >>= k) = .error r ↔ x = .error r ∨ ∃ a, x = .ok a ∧ k a = .error r := by
  cases x <;> simp [bind, Except.bind]

theorem orRefuse_ok {x : Option α} {c : Completion} {a : α} : orRefuse x c = .ok a ↔ x = some a := by
  cases x <;> simp [orRefuse, refuse]

theorem orRefuse_error {x : Option α} {c : Completion} {r : Refused} :
    orRefuse x c = .error r ↔ x = none ∧ r = { completion := c, body := [] } := by
  cases x <;> simp [orRefuse, refuse, eq_comm]

theorem parsed_ok {x : Option α} {a : α} : parsed x = .ok a ↔ x = some a := orRefuse_ok

theorem parsed_error {x : Option α} {r : Refused} :
    parsed x = .error r ↔ x = none ∧ r = { completion := .badLength, body := [] } := orRefuse_error

theorem require_ok {p : Prop} [Decidable p] {c : Completion} {u : Unit} : require p c = .ok u ↔ p := by
  unfold require; split_ifs with h <;> simp [h, refuse]

theorem require_error {p : Prop} [Decidable p] {c : Completion} {r : Refused} :
    require p c = .error r ↔ ¬ p ∧ r = { completion := c, body := [] } := by
  unfold require; split_ifs with h <;> simp [h, refuse, eq_comm]

theorem checkRevision_ok {T : Tables} {slot : Nat} {r : Record} {expected : Nat} {u : Unit} :
    T.checkRevision slot r expected = .ok u ↔ expected = 0 ∨ expected = r.revision := by
  unfold Tables.checkRevision; split_ifs with h <;> simp [h]

theorem checkRevision_error {T : Tables} {slot : Nat} {r : Record} {expected : Nat} {e : Refused} :
    T.checkRevision slot r expected = .error e ↔ ¬ (expected = 0 ∨ expected = r.revision) ∧
      e = { completion := .revisionMismatch, body := be16 (T.recordHandle slot) ++ be16 r.revision } := by
  unfold Tables.checkRevision; split_ifs with h <;> simp [h, eq_comm]

/-! ### Resolution (R6, R108) -/

theorem recordOfHandle_some {T : Tables} {h slot : Nat} {r : Record} :
    T.recordOfHandle h = some (slot, r) ↔
      h < 32768 ∧ slot = h / 64 ∧ h % 64 = generationOf T.recordGens slot ∧ Table.get T.records slot = some r := by
  unfold Tables.recordOfHandle isCouplingHandle
  by_cases h1 : 32768 ≤ h
  · simp only [h1, decide_true, if_true, reduceCtorEq, false_iff]; omega
  · by_cases h2 : h % 64 = generationOf T.recordGens (recordSlotOf h)
    · simp only [h1, h2, decide_false, if_true, Option.map_eq_some_iff, Prod.mk.injEq, Bool.false_eq_true, if_false]
      constructor
      · rintro ⟨r', hr, rfl, rfl⟩; exact ⟨by omega, rfl, rfl, hr⟩
      · rintro ⟨_, rfl, _, hr⟩; exact ⟨r, hr, rfl, rfl⟩
    · simp only [h1, h2, decide_false, if_false, Bool.false_eq_true, reduceCtorEq, false_iff]
      rintro ⟨_, rfl, hg, _⟩; exact h2 hg

theorem couplingOfHandle_some {T : Tables} {h slot : Nat} {c : Coupling} :
    T.couplingOfHandle h = some (slot, c) ↔
      32768 ≤ h ∧ h < 49152 ∧ slot = (h - 32768) / 64 ∧ h % 64 = generationOf T.couplingGens slot ∧
      Table.get T.couplings slot = some c := by
  simp only [Tables.couplingOfHandle, isCouplingHandle, decide_eq_true_eq]
  by_cases h1 : 32768 ≤ h ∧ h < 49152
  · by_cases h2 : h % 64 = generationOf T.couplingGens ((h - 32768) / 64)
    · rw [if_pos h1, if_pos h2]
      simp only [Option.map_eq_some_iff, Prod.mk.injEq]
      constructor
      · rintro ⟨r', hr, rfl, rfl⟩; exact ⟨h1.1, h1.2, rfl, h2, hr⟩
      · rintro ⟨_, _, rfl, _, hr⟩; exact ⟨c, hr, rfl, rfl⟩
    · rw [if_pos h1, if_neg h2]
      simp only [reduceCtorEq, false_iff, not_and]
      rintro _ _ rfl hg; exact absurd hg h2
  · rw [if_neg h1]
    simp only [reduceCtorEq, false_iff, not_and]
    intro a b; exact absurd ⟨a, b⟩ h1

/-- A record that resolves stands in the slot named. -/
theorem resolveRecord_get {T : Tables} {n : RequestName} {slot : Nat} {r : Record}
    (h : T.resolveRecord n = .ok (slot, r)) : Table.get T.records slot = some r := by
  cases n with
  | key raw =>
    simp only [Tables.resolveRecord, except_bind_ok, orRefuse_ok] at h
    obtain ⟨k, _, i, _, r', hr, he⟩ := h
    simp only [pure, Except.pure, Except.ok.injEq, Prod.mk.injEq] at he
    obtain ⟨rfl, rfl⟩ := he
    exact hr
  | handle n =>
    simp only [Tables.resolveRecord, orRefuse_ok] at h
    exact (recordOfHandle_some.mp h).2.2.2

theorem resolveCoupling_get {T : Tables} {h slot : Nat} {c : Coupling} (hc : T.resolveCoupling h = .ok (slot, c)) :
    Table.get T.couplings slot = some c := by
  simp only [Tables.resolveCoupling, orRefuse_ok] at hc
  exact (couplingOfHandle_some.mp hc).2.2.2.2

/-! ### Walking a chain of checks -/

theorem ok_bind (a : α) (k : α → Except Refused β) : ((.ok a : Except Refused α) >>= k) = k a := rfl

theorem error_bind (r : Refused) (k : α → Except Refused β) : ((.error r : Except Refused α) >>= k) = .error r := rfl

theorem refuse_bind (c : Completion) (k : α → Except Refused β) : ((refuse c : Except Refused α) >>= k) = refuse c := rfl

theorem parsed_some (a : α) : parsed (some a) = .ok a := rfl

theorem parsed_none : (parsed none : Except Refused α) = refuse .badLength := rfl

theorem orRefuse_some (a : α) (c : Completion) : orRefuse (some a) c = .ok a := rfl

theorem orRefuse_none (c : Completion) : (orRefuse none c : Except Refused α) = refuse c := rfl

theorem require_pos {p : Prop} [Decidable p] (h : p) (c : Completion) : require p c = .ok () := if_pos h

theorem require_neg {p : Prop} [Decidable p] (h : ¬ p) (c : Completion) : require p c = refuse c := if_neg h

theorem checkRevision_pass {T : Tables} {slot : Nat} {r : Record} {expected : Nat} (h : r.Expects expected) :
    T.checkRevision slot r expected = .ok () := if_pos h

theorem checkRevision_fail {T : Tables} {slot : Nat} {r : Record} {expected : Nat} (h : ¬ r.Expects expected) :
    T.checkRevision slot r expected =
      .error { completion := .revisionMismatch,
               body := be16 (64 * slot + generationOf T.recordGens slot) ++ be16 r.revision } := if_neg h

/-! ### What the checks say in the words of the rules -/

theorem permits_iff (T : Tables) (requester : Byte) (zone : Fin 16) :
    T.permits requester zone = true ↔ T.MayChange requester zone := by
  simp only [Tables.permits, isAdmin, Bool.or_eq_true, beq_iff_eq, Tables.MayChange]
  refine or_congr_right ⟨fun h => ⟨?_, h⟩, fun h => h.2⟩
  by_contra hn
  rw [BitVec.getLsbD_of_ge _ _ (by omega)] at h
  cases h

theorem isAdmin_iff (requester : Byte) : isAdmin requester = true ↔ requester = 0 := by simp [isAdmin]

theorem permitsLead_iff {T : Tables} {requester : Byte} {c : Coupling} {lead : Record}
    (h : Table.get T.records c.leadSlot = some lead) :
    T.permitsLead requester c = true ↔ T.MayChange requester lead.zone := by
  simp only [Tables.permitsLead, Tables.leadZone, h, Option.map_some, permits_iff]

theorem zoneOfNat_some {n : Nat} {z : Fin 16} : zoneOfNat n = some z ↔ z.val = n := by
  unfold zoneOfNat; split_ifs with h
  · simp only [Option.some.injEq]; exact ⟨fun e => by rw [← e], fun e => by ext; exact e.symm⟩
  · simp only [false_iff]; omega

theorem zoneOfNat_none {n : Nat} : zoneOfNat n = none ↔ 16 ≤ n := by
  unfold zoneOfNat; split_ifs with h <;> simp <;> omega

/-- A key's four numbers judge back to the key. -/
theorem judge_raw (k : Key) : k.raw.judge = some k := by
  obtain ⟨b, u, kind, n⟩ := k
  have hb := b.isLt; have hu := u.isLt; have hn := n.isLt
  cases kind <;>
    simp [RawKey.judge, Key.raw, ElementKind.code, hb, hu, hn]

/-- A judged key's four numbers are those carried. -/
theorem raw_of_judge {raw : RawKey} {k : Key} (h : raw.judge = some k) : k.raw = raw := by
  unfold RawKey.judge at h
  obtain ⟨b, u, kind, n⟩ := raw
  split_ifs at h with hr hk <;> obtain ⟨h1, h2, h3, h4⟩ := hr <;> simp only at h1 h2 h3 h4 hk <;>
    simp only [Option.some.injEq] at h <;> subst h <;>
    simp only [Key.raw, RawKey.mk.injEq, BitVec.toNat_ofNat, ElementKind.code] <;>
    exact ⟨Nat.mod_eq_of_lt h1, Nat.mod_eq_of_lt h2, by omega, Nat.mod_eq_of_lt h3⟩

theorem judge_none {raw : RawKey} :
    raw.judge = none ↔ 64 ≤ raw.building ∨ 256 ≤ raw.unit ∨ 16 ≤ raw.number ∨ 2 ≤ raw.kind := by
  unfold RawKey.judge; split_ifs with h <;> simp <;> omega

/-- The lowest-numbered empty slot, in the words of R3. -/
theorem lowestFree_eq {α : Type} {t : Table α} {n slot : Nat} (h : slot < n) (he : Table.get t slot = none)
    (hb : ∀ j < slot, (Table.get t j).isSome = true) : Table.lowestFree t n = some slot := by
  unfold Table.lowestFree
  rw [List.find?_range_eq_some]
  refine ⟨by simp [he], by simpa using h, fun j hj => ?_⟩
  have := hb j hj
  cases hg : Table.get t j <;> simp_all

theorem lowestFree_eq_none {α : Type} {t : Table α} {n : Nat} (hb : ∀ j < n, (Table.get t j).isSome = true) :
    Table.lowestFree t n = none := by
  unfold Table.lowestFree
  rw [List.find?_eq_none]
  intro j hj
  have := hb j (List.mem_range.mp hj)
  cases hg : Table.get t j <;> simp_all

/-- A key the directory does not hold has no slot. -/
theorem slotOfKey_none {T : Tables} {k : Key} : T.slotOfKey k = none ↔ ∀ e ∈ T.directory, e.2 ≠ k := by
  simp [Tables.slotOfKey]

theorem resolveRecord_handle {T : Tables} {h : Nat} :
    T.resolveRecord (.handle h) = orRefuse (T.recordOfHandle h) .notFound := rfl

end Sys2Proof.Machine
end

