-- ==== Sys2Proof/Laws/Engine.lean ====
section
/-! SUPPORT. The laws of the engine: what taking a request does, what serving one leaves, and the ATTN level. -/

namespace Sys2Proof.Machine

/-! ### ATTN (R160) -/

theorem delayTest_iff (set : PortSettings) (T : Tables) :
    delayTest set T = true ↔
      0 < set.delay ∧ ∃ m, m ∈ T.markTimes ∧ (∀ n ∈ T.markTimes, m ≤ n) ∧ m ≤ T.clock ∧ set.delay ≤ T.clock - m := by
  unfold delayTest Tables.oldestMark
  cases h : T.markTimes.min? with
  | none =>
    rw [List.min?_eq_none_iff] at h
    simp [h]
  | some m =>
    rw [List.min?_eq_some_iff] at h
    simp only [Bool.and_eq_true, decide_eq_true_eq]
    constructor
    · rintro ⟨⟨h1, h2⟩, h3⟩
      exact ⟨h1, m, h.1, h.2, h2, h3⟩
    · rintro ⟨h1, n, hn, hle, h2, h3⟩
      have : m = n := le_antisymm (h.2 n hn) (hle m h.1)
      subst this
      exact ⟨⟨h1, h2⟩, h3⟩

theorem attnLevel_iff (s : State) (p : PortId) :
    s.attnLevel p = true ↔
      s.resetLow = false ∧
      ((s.port p).settings.trigger ≤ s.tables.attentionCount ∨
        (0 < (s.port p).settings.delay ∧
          ∃ m, m ∈ s.tables.markTimes ∧ (∀ n ∈ s.tables.markTimes, m ≤ n) ∧ m ≤ s.tables.clock ∧
            (s.port p).settings.delay ≤ s.tables.clock - m)) := by
  simp only [State.attnLevel, Bool.and_eq_true, Bool.or_eq_true, Bool.not_eq_true', countTest, decide_eq_true_eq,
    delayTest_iff]

/-- The level a port's ATTN takes depends on its settings, the tables and the RESET line alone. -/
theorem attnLevel_congr {s t : State} {p : PortId} (h1 : t.resetLow = s.resetLow) (h2 : t.tables = s.tables)
    (h3 : (t.port p).settings = (s.port p).settings) : t.attnLevel p = s.attnLevel p := by
  simp only [State.attnLevel, h1, h2, h3]

theorem attnAt_iff (s : State) (p : PortId) : s.AttnAt p ↔ (s.port p).attn = s.attnLevel p := by
  unfold State.AttnAt
  rw [← attnLevel_iff]
  cases (s.port p).attn <;> cases s.attnLevel p <;> simp

theorem driveAttn_attnOk (s : State) : s.driveAttn.AttnOk := by
  have h (p : PortId) : s.driveAttn.AttnAt p := by
    rw [attnAt_iff, driveAttn_port_attn, driveAttn_attnLevel]
  exact ⟨h .a, h .b⟩

/-! ### Taking a request (R167) -/

theorem eligible_iff (q : Port) : q.eligible = true ↔ q.requests ≠ [] ∧ q.replies.length < 16 := by
  unfold Port.eligible Config.queueDepth
  cases q.requests <;> simp

/-- The idle engine with RESET high takes the frame R167 names. -/
theorem takeRequest_eq {s : State} {p : PortId} {f : Frame} (hr : s.resetLow = false) (h : s.TakesNext p f) :
    s.takeRequest =
      { s.setPort p ((s.port p).withRequests (s.port p).requests.tail) with
        serving := some { port := p, frame := f }, lastServed := p } := by
  obtain ⟨hi, hh, hroom, hturn⟩ := h
  obtain ⟨rest, hreq⟩ : ∃ rest, (s.port p).requests = f :: rest := by
    cases hq : (s.port p).requests with
    | nil => simp [hq] at hh
    | cons a l => simp [hq] at hh; exact ⟨l, by rw [hh]⟩
  have hel : (s.port p).eligible = true := by rw [eligible_iff]; exact ⟨by simp [hreq], hroom⟩
  have harb : s.arbiter = some p := by
    unfold State.arbiter
    cases p with
    | a =>
      have hel' : s.portA.eligible = true := hel
      rw [if_pos hel']
      by_cases hb : s.portB.eligible = true
      · rw [if_pos hb]
        have := hturn ((eligible_iff _).mp hb)
        cases hl : s.lastServed with
        | a => exact absurd hl this
        | b => rfl
      · rw [if_neg hb]
    | b =>
      have hel' : s.portB.eligible = true := hel
      rw [if_pos hel']
      by_cases ha : s.portA.eligible = true
      · rw [if_pos ha]
        have := hturn ((eligible_iff _).mp ha)
        cases hl : s.lastServed with
        | a => rfl
        | b => exact absurd hl this
      · rw [if_neg ha]; simp [hel']
  unfold State.takeRequest
  simp only [hr, hi, Option.isSome_none, Bool.or_self, Bool.false_eq_true, if_false, harb, hreq, List.tail_cons]

theorem takeRequest_serving {s : State} {p : PortId} {f : Frame} (h : s.Serves p f) :
    s.takeRequest.serving = some { port := p, frame := f } := by
  obtain ⟨hr, h | h⟩ := h
  · unfold State.takeRequest; simp [h]
  · rw [takeRequest_eq hr h]

/-- Taking a request touches no table and not the RESET line, whatever the state. -/
theorem takeRequest_keeps (s : State) :
    s.takeRequest.tables = s.tables ∧ s.takeRequest.resetLow = s.resetLow ∧
    s.takeRequest.restartCause = s.restartCause ∧ s.takeRequest.pending = s.pending := by
  unfold State.takeRequest
  split_ifs
  · simp
  · split
    · simp
    · split <;> simp

@[simp] theorem takeRequest_tables (s : State) : s.takeRequest.tables = s.tables := (takeRequest_keeps s).1

@[simp] theorem takeRequest_resetLow (s : State) : s.takeRequest.resetLow = s.resetLow := (takeRequest_keeps s).2.1

@[simp] theorem takeRequest_restartCause (s : State) : s.takeRequest.restartCause = s.restartCause :=
  (takeRequest_keeps s).2.2.1

@[simp] theorem takeRequest_pending (s : State) : s.takeRequest.pending = s.pending := (takeRequest_keeps s).2.2.2

/-- Taking a request changes a port's request queue and HOLD alone, and those of the port it comes from alone. -/
theorem takeRequest_port {s : State} {p : PortId} {f : Frame} (h : s.Serves p f) :
    s.takeRequest.port p = { s.port p with requests := s.queueAfter p, hold := s.holdAfter p } ∧
    s.takeRequest.port (otherPort p) = s.port (otherPort p) ∧
    s.takeRequest.lastServed = if s.serving.isSome then s.lastServed else p := by
  obtain ⟨hr, h | h⟩ := h
  · have : s.takeRequest = s := by unfold State.takeRequest; simp [h]
    rw [this]
    simp [State.queueAfter, State.holdAfter, h]
  · have hi : s.serving = none := h.idle
    rw [takeRequest_eq hr h]
    simp only [State.queueAfter, State.holdAfter, hi, Option.isSome_none, Bool.false_eq_true, if_false]
    refine ⟨?_, ?_, trivial⟩
    · cases p <;> rfl
    · cases p <;> rfl

/-- The engine serves the frame R167 names. -/
theorem servedRequest_eq {s : State} {p : PortId} {f : Frame} {isCode : Byte → Bool} (h : s.Serves p f)
    (hc : isCode f.code = true) :
    s.servedRequest isCode = some (s.takeRequest, { port := p, frame := f }) := by
  unfold State.servedRequest
  rw [takeRequest_serving h]
  simp [h.1, hc]

/-! ### Completion (R26) -/

/-- A request that leaves the ports alone leaves what `Completed` says. -/
theorem completed_of_tables {s : State} {p : PortId} {f : Frame} (h : s.Serves p f) (T : Tables) (c : Completion)
    (body : List Byte) :
    s.Completed
      ({ state := { s.takeRequest with tables := T }, completion := c, body := body : Answer }.complete
        { port := p, frame := f }) p f c body T := by
  obtain ⟨h1, h2, h3⟩ := takeRequest_port h
  have ho : otherPort p ≠ p := otherPort_ne p
  constructor
  case attn => exact driveAttn_attnOk _
  case other =>
    simp only [Answer.complete, State.placeReply, driveAttn_port, setPort_port_other]
    cases p <;> simp_all [State.port, otherPort] <;> constructor <;> first | rfl | constructor <;> rfl
  all_goals cases p <;> simp_all [Answer.complete, State.placeReply, State.port, State.setPort, State.driveAttn]
  all_goals constructor <;> rfl

theorem serveTables_ok {s : State} {p : PortId} {f : Frame} {code : Byte}
    {run : Frame → Tables → Except Refused Accepted} {a : Accepted} (h : s.Serves p f) (hc : f.code = code)
    (hr : run f s.tables = .ok a) :
    ∃ t, s.serveTables code run = .next t ∧ s.Completed t p f a.completion a.body a.tables := by
  refine ⟨_, ?_, completed_of_tables h a.tables a.completion a.body⟩
  unfold State.serveTables State.serve
  rw [servedRequest_eq h (by simp [hc])]
  simp [answerTables, hr]

theorem serveTables_error {s : State} {p : PortId} {f : Frame} {code : Byte}
    {run : Frame → Tables → Except Refused Accepted} {r : Refused} (h : s.Serves p f) (hc : f.code = code)
    (hr : run f s.tables = .error r) :
    ∃ t, s.serveTables code run = .next t ∧ s.Completed t p f r.completion r.body s.tables := by
  have key := completed_of_tables h s.tables r.completion r.body
  have same : ({ s.takeRequest with tables := s.tables } : State) = s.takeRequest := by rw [← takeRequest_tables s]
  rw [same] at key
  refine ⟨_, ?_, key⟩
  unfold State.serveTables State.serve
  rw [servedRequest_eq h (by simp [hc])]
  simp [answerTables, hr]

/-- Whatever stands in the queues, serving a request changes the tables only by that request, run on the tables as they
stand. -/
theorem serveTables_tables {s t : State} {code : Byte} {run : Frame → Tables → Except Refused Accepted}
    (h : s.serveTables code run = .next t) :
    t.tables = s.tables ∨ ∃ f a, run f s.tables = .ok a ∧ t.tables = a.tables := by
  unfold State.serveTables State.serve at h
  cases hs : s.servedRequest (fun c => c == code) with
  | none => rw [hs] at h; simp at h; left; rw [← h]
  | some x =>
    obtain ⟨u, job⟩ := x
    rw [hs] at h
    have hu : u = s.takeRequest := by
      unfold State.servedRequest at hs
      split_ifs at hs
      split at hs
      · simp at hs
      · split_ifs at hs; simp at hs; exact hs.1.symm
    simp only [Host.Outcome.next.injEq] at h
    subst h
    simp only [Answer.complete, driveAttn_tables, State.placeReply, setPort_tables]
    unfold answerTables
    cases hrun : run job.frame u.tables with
    | error r => left; simp [hu]
    | ok a => right; exact ⟨job.frame, a, by rw [← hrun, hu, takeRequest_tables], rfl⟩

end Sys2Proof.Machine
end

