-- ==== Sys2Proof/Laws/Requests.lean ====
section
/-! SUPPORT. What each request accepts, and what it then leaves: one lemma per request, both ways. -/

namespace Sys2Proof.Machine

theorem define_ok {f : Frame} {T : Tables} {a : Accepted} :
    define f T = .ok a ↔ ∃ q key zone sense slot,
      readDefine f.body = some q ∧ q.key.judge = some key ∧ zoneOfNat q.zone = some zone ∧
      judgeSense key.kind q.sense = some sense ∧ T.permits f.requester zone = true ∧
      ((∀ p ∈ q.params, p.InRange) ∧ learnedValid key.kind q.lag q.offset) ∧ T.slotOfKey key = none ∧
      Table.lowestFree T.records Config.recordSlots = some slot ∧
      a = (let r := newRecord key zone sense (q.params.getD ParamSet.default) T.zones[zone].seasonBank (q.lag.getD 0)
            (q.offset.getD 0)
           { tables := { T with records := Table.put T.records slot r, directory := Table.put T.directory slot key },
             completion := .done,
             body := be16 (T.recordHandle slot) ++ be16 r.revision ++ be8 r.state.code }) := by
  simp only [define, except_bind_ok, parsed_ok, orRefuse_ok, require_ok, pure, Except.pure, Except.ok.injEq,
    exists_and_left, exists_const]
  constructor
  · rintro ⟨q, h1, key, h2, zone, h3, sense, h4, h5, h6, h7, slot, h8, rfl⟩
    exact ⟨q, h1, key, h2, zone, h3, sense, h4, h5, h6, h7, slot, h8, rfl⟩
  · rintro ⟨q, h1, key, h2, zone, h3, sense, h4, h5, h6, h7, slot, h8, rfl⟩
    exact ⟨q, h1, key, h2, zone, h3, sense, h4, h5, h6, h7, slot, h8, rfl⟩

theorem amend_ok {f : Frame} {T : Tables} {a : Accepted} :
    amend f T = .ok a ↔ ∃ q slot r newZone,
      readAmend f.body = some q ∧ T.resolveRecord q.name = .ok (slot, r) ∧ (q.params.isSome ∨ q.zone.isSome) ∧
      judgeNewZone q.zone = some newZone ∧
      (T.permits f.requester r.zone ∧ ∀ z ∈ newZone, z ≠ r.zone → T.permits f.requester z) ∧
      (q.expected = 0 ∨ q.expected = r.revision) ∧ (∀ p ∈ q.params, p.InRange) ∧
      a = (let r' := { r with
            pendingSet := if q.params.isSome then q.params else r.pendingSet
            zone := newZone.getD r.zone
            revision := nextRevision r.revision }
           { tables := { T with records := Table.replace T.records slot r' }, completion := .done,
             body := be16 (T.recordHandle slot) ++ be16 r'.revision ++ flagByte r'.pendingSet.isSome }) := by
  simp only [amend, except_bind_ok, parsed_ok, orRefuse_ok, require_ok, checkRevision_ok, pure, Except.pure,
    Except.ok.injEq, exists_const, Prod.exists]
  constructor
  · rintro ⟨q, h1, slot, r, h2, h3, z, h4, h5, h6, h7, rfl⟩
    exact ⟨q, slot, r, z, h1, h2, h3, h4, h5, h6, h7, rfl⟩
  · rintro ⟨q, slot, r, z, h1, h2, h3, h4, h5, h6, h7, rfl⟩
    exact ⟨q, h1, slot, r, h2, h3, z, h4, h5, h6, h7, rfl⟩

theorem retire_ok {f : Frame} {T : Tables} {a : Accepted} :
    retire f T = .ok a ↔ ∃ q slot r,
      readRetire f.body = some q ∧ T.resolveRecord q.name = .ok (slot, r) ∧ T.permits f.requester r.zone = true ∧
      (q.expected = 0 ∨ q.expected = r.revision) ∧ r.couplingCount = 0 ∧
      a = { tables := { T with records := Table.erase T.records slot, directory := Table.erase T.directory slot,
                               recordGens := advanceGeneration T.recordGens slot },
            completion := .done, body := be16 (T.recordHandle slot) } := by
  simp only [retire, except_bind_ok, parsed_ok, require_ok, checkRevision_ok, pure, Except.pure,
    Except.ok.injEq, exists_const, Prod.exists]
  constructor
  · rintro ⟨q, h1, slot, r, h2, h3, h4, h5, rfl⟩
    exact ⟨q, slot, r, h1, h2, h3, h4, h5, rfl⟩
  · rintro ⟨q, slot, r, h1, h2, h3, h4, h5, rfl⟩
    exact ⟨q, h1, slot, r, h2, h3, h4, h5, rfl⟩

theorem observe_ok {f : Frame} {T : Tables} {a : Accepted} :
    observe f T = .ok a ↔ ∃ q slot r,
      readObserve f.body = some q ∧ T.resolveRecord q.name = .ok (slot, r) ∧
      (1 ≤ q.count ∧ q.count ≤ 8 ∧ ∀ x ∈ q.samples, ∀ fan ∈ x.fan, fan ≤ 1) ∧ T.permits f.requester r.zone = true ∧
      (q.expected = 0 ∨ q.expected = r.revision) ∧
      a = (let out := T.applySamples slot q.samples
           { tables := out.1, completion := .done,
             body := out.1.observeBody slot ((Table.get out.1.records slot).getD r) out.2 }) := by
  simp only [observe, except_bind_ok, parsed_ok, require_ok, checkRevision_ok, pure, Except.pure,
    Except.ok.injEq, exists_const, Prod.exists]
  constructor
  · rintro ⟨q, h1, slot, r, h2, h3, h4, h5, rfl⟩
    exact ⟨q, slot, r, h1, h2, h3, h4, h5, rfl⟩
  · rintro ⟨q, slot, r, h1, h2, h3, h4, h5, rfl⟩
    exact ⟨q, h1, slot, r, h2, h3, h4, h5, rfl⟩

theorem calibrate_ok {f : Frame} {T : Tables} {a : Accepted} :
    calibrate f T = .ok a ↔ ∃ q slot r,
      readCalibrate f.body = some q ∧ T.resolveRecord q.name = .ok (slot, r) ∧
      (300 ≤ q.duration ∧ q.duration ≤ 3600) ∧ T.permits f.requester r.zone = true ∧
      (q.expected = 0 ∨ q.expected = r.revision) ∧ r.valve.isSome = true ∧ r.state ≠ .stale ∧
      T.zones[r.zone].mode ≠ .hold ∧ r.cal.isRunning = false ∧
      a = (let r' := { r with
            cal := .running { start := T.clock, duration := q.duration, count := 0, sum := 0 },
            revision := nextRevision r.revision }
           { tables := { T with records := Table.replace T.records slot r' }, completion := .started,
             body := be16 (T.recordHandle slot) ++ be16 r'.revision ++ be32 T.clock ++ be16 q.duration }) := by
  simp only [calibrate, except_bind_ok, parsed_ok, require_ok, checkRevision_ok, pure, Except.pure,
    Except.ok.injEq, exists_const, Prod.exists, Bool.not_eq_eq_eq_not, Bool.not_true]
  constructor
  · rintro ⟨q, h1, slot, r, h2, h3, h4, h5, h6, h7, h8, h9, rfl⟩
    exact ⟨q, slot, r, h1, h2, h3, h4, h5, h6, h7, h8, h9, rfl⟩
  · rintro ⟨q, slot, r, h1, h2, h3, h4, h5, h6, h7, h8, h9, rfl⟩
    exact ⟨q, h1, slot, r, h2, h3, h4, h5, h6, h7, h8, h9, rfl⟩

theorem acquitRecord_ok {requester : Byte} {q : AcquitReq} {T : Tables} {a : Accepted} :
    acquitRecord requester q T = .ok a ↔ ∃ slot r before,
      T.resolveRecord q.name = .ok (slot, r) ∧ q.tracker ≤ 2 ∧ T.permits requester r.zone = true ∧
      (q.expected = 0 ∨ q.expected = r.revision) ∧ r.tracker q.tracker = some before ∧
      a = (let r' := { r.acquitTracker q.tracker with mark := none, revision := nextRevision r.revision }
           { tables := { T with records := Table.replace T.records slot r' }, completion := .done,
             body := acquitBody (T.recordHandle slot) q.tracker before (some r'.revision) }) := by
  simp only [acquitRecord, except_bind_ok, orRefuse_ok, require_ok, checkRevision_ok, pure, Except.pure,
    Except.ok.injEq, exists_const, Prod.exists]
  constructor
  · rintro ⟨slot, r, h2, h3, h4, h5, b, h6, rfl⟩
    exact ⟨slot, r, b, h2, h3, h4, h5, h6, rfl⟩
  · rintro ⟨slot, r, b, h2, h3, h4, h5, h6, rfl⟩
    exact ⟨slot, r, h2, h3, h4, h5, b, h6, rfl⟩

theorem acquitCoupling_ok {requester : Byte} {h tracker : Nat} {T : Tables} {a : Accepted} :
    acquitCoupling requester h tracker T = .ok a ↔ ∃ slot c,
      T.couplingOfHandle h = some (slot, c) ∧ tracker = 3 ∧ T.permitsLead requester c = true ∧
      a = (let c' := { c with fight := Tracker.fresh, mark := none }
           { tables := { T with couplings := Table.replace T.couplings slot c' }, completion := .done,
             body := acquitBody (T.couplingHandle slot) tracker c.fight none }) := by
  simp only [acquitCoupling, Tables.resolveCoupling, except_bind_ok, orRefuse_ok, require_ok, pure, Except.pure,
    Except.ok.injEq, exists_const, Prod.exists]
  constructor
  · rintro ⟨slot, c, h1, h2, h3, rfl⟩
    exact ⟨slot, c, h1, h2, h3, rfl⟩
  · rintro ⟨slot, c, h1, h2, h3, rfl⟩
    exact ⟨slot, c, h1, h2, h3, rfl⟩

theorem acquit_ok {f : Frame} {T : Tables} {a : Accepted} :
    acquit f T = .ok a ↔ ∃ q, readAcquit f.body = some q ∧
      ((q.name.isCoupling = false ∧ acquitRecord f.requester q T = .ok a) ∨
       (∃ h, q.name = .handle h ∧ isCouplingHandle h = true ∧ acquitCoupling f.requester h q.tracker T = .ok a)) := by
  simp only [acquit, except_bind_ok, parsed_ok]
  refine exists_congr fun q => and_congr_right fun _ => ?_
  cases hn : q.name with
  | key k => simp [RequestName.isCoupling]
  | handle h =>
    by_cases hc : isCouplingHandle h = true <;> simp [RequestName.isCoupling, hc]

theorem couple_ok {f : Frame} {T : Tables} {a : Accepted} :
    couple f T = .ok a ↔ ∃ q i lead j follower slot,
      readCouple f.body = some q ∧ T.resolveRecord q.lead = .ok (i, lead) ∧
      T.resolveRecord q.follower = .ok (j, follower) ∧ i ≠ j ∧ (∀ p ∈ q.params, p.InRange) ∧
      (T.permits f.requester lead.zone = true ∧ T.permits f.requester follower.zone = true) ∧ T.coupled i j = false ∧
      (lead.couplingCount < 4 ∧ follower.couplingCount < 4) ∧
      Table.lowestFree T.couplings Config.couplingSlots = some slot ∧
      a = (let c := newCoupling (T.recordHandle i) (T.recordHandle j) (q.params.getD CouplingParams.default)
            (follower.state == .stale)
           let T' := (T.modifyRecord i Record.raiseCount).modifyRecord j Record.raiseCount
           { tables := { T' with couplings := Table.put T.couplings slot c }, completion := .done,
             body := be16 (T.couplingHandle slot) }) := by
  simp only [couple, except_bind_ok, parsed_ok, orRefuse_ok, require_ok, pure, Except.pure, Except.ok.injEq,
    exists_const, Prod.exists, Bool.and_eq_true, Bool.not_eq_eq_eq_not, Bool.not_true]
  constructor
  · rintro ⟨q, h1, i, l, h2, j, fo, h3, h4, h5, h6, h7, h8, slot, h9, rfl⟩
    exact ⟨q, i, l, j, fo, slot, h1, h2, h3, h4, h5, h6, h7, h8, h9, rfl⟩
  · rintro ⟨q, i, l, j, fo, slot, h1, h2, h3, h4, h5, h6, h7, h8, h9, rfl⟩
    exact ⟨q, h1, i, l, h2, j, fo, h3, h4, h5, h6, h7, h8, slot, h9, rfl⟩

theorem uncouple_ok {f : Frame} {T : Tables} {a : Accepted} :
    uncouple f T = .ok a ↔ ∃ h slot c,
      readUncouple f.body = some h ∧ T.couplingOfHandle h = some (slot, c) ∧ T.permitsLead f.requester c = true ∧
      a = (let T' := (T.modifyRecord c.leadSlot Record.lowerCount).modifyRecord c.followerSlot Record.lowerCount
           { tables := { T' with couplings := Table.erase T.couplings slot,
                                 couplingGens := advanceGeneration T.couplingGens slot },
             completion := .done, body := be16 h }) := by
  simp only [uncouple, Tables.resolveCoupling, except_bind_ok, parsed_ok, orRefuse_ok, require_ok, pure, Except.pure,
    Except.ok.injEq, exists_const, Prod.exists]
  constructor
  · rintro ⟨h, h1, slot, c, h2, h3, rfl⟩
    exact ⟨h, slot, c, h1, h2, h3, rfl⟩
  · rintro ⟨h, slot, c, h1, h2, h3, rfl⟩
    exact ⟨h, h1, slot, c, h2, h3, rfl⟩

theorem lookup_ok {f : Frame} {T : Tables} {a : Accepted} :
    lookup f T = .ok a ↔ ∃ q, readLookup f.body = some q ∧ (q.view ≤ 2 ∧ q.keep ≤ 1) ∧
      ((q.name.isCoupling = false ∧ ∃ slot r, T.resolveRecord q.name = .ok (slot, r) ∧
          a = lookupRecord slot r q.view q.keep T) ∨
       (∃ h slot c, q.name = .handle h ∧ isCouplingHandle h = true ∧ T.couplingOfHandle h = some (slot, c) ∧
          a = lookupCoupling slot c q.keep T)) := by
  simp only [lookup, except_bind_ok, parsed_ok, require_ok, exists_const]
  refine exists_congr fun q => and_congr_right fun _ => and_congr_right fun _ => ?_
  cases hn : q.name with
  | key k =>
    simp only [RequestName.isCoupling, except_bind_ok, pure, Except.pure, Except.ok.injEq, Prod.exists, true_and,
      reduceCtorEq, false_and, exists_false, or_false]
    constructor <;> (rintro ⟨slot, r, h1, rfl⟩; exact ⟨slot, r, h1, rfl⟩)
  | handle h =>
    by_cases hc : isCouplingHandle h = true
    · simp only [hc, if_true, RequestName.isCoupling, Tables.resolveCoupling, except_bind_ok, orRefuse_ok, pure,
        Except.pure, Except.ok.injEq, Prod.exists, Bool.true_eq_false, false_and, false_or, RequestName.handle.injEq]
      constructor
      · rintro ⟨slot, c, h1, rfl⟩; exact ⟨h, slot, c, rfl, hc, h1, rfl⟩
      · rintro ⟨h', slot, c, rfl, _, h1, rfl⟩; exact ⟨slot, c, h1, rfl⟩
    · have hc' : isCouplingHandle h = false := by simpa using hc
      simp only [hc', if_false, RequestName.isCoupling, except_bind_ok, pure, Except.pure, Except.ok.injEq,
        Prod.exists, true_and, RequestName.handle.injEq, Bool.false_eq_true]
      constructor
      · rintro ⟨slot, r, h1, rfl⟩; exact .inl ⟨slot, r, h1, rfl⟩
      · rintro (⟨slot, r, h1, rfl⟩ | ⟨h', slot, c, rfl, hx, _⟩)
        · exact ⟨slot, r, h1, rfl⟩
        · rw [hx] at hc'; cases hc'

theorem enumerate_ok {f : Frame} {T : Tables} {a : Accepted} :
    enumerate f T = .ok a ↔ ∃ q zone,
      readEnumerate f.body = some q ∧ zoneOfNat q.zone = some zone ∧ (∀ c ∈ q.cursor, isCouplingHandle c = false) ∧
      a = { tables := T, completion := .done,
            body := ((T.enumerated zone q.cursor).take 16).flatMap T.enumerateEntry ++
              flagByte (decide (16 < (T.enumerated zone q.cursor).length)) } := by
  simp only [enumerate, except_bind_ok, parsed_ok, orRefuse_ok, require_ok, pure, Except.pure, Except.ok.injEq,
    exists_const]
  constructor
  · rintro ⟨q, h1, z, h2, h3, rfl⟩; exact ⟨q, z, h1, h2, h3, rfl⟩
  · rintro ⟨q, z, h1, h2, h3, rfl⟩; exact ⟨q, h1, z, h2, h3, rfl⟩

theorem scan_ok {f : Frame} {T : Tables} {a : Accepted} :
    scan f T = .ok a ↔ f.body = [] ∧
      a = { tables := T, completion := .done,
            body := be16 T.attentionCount ++ be8 ((sortMarks T.markEntries).take 8).length ++
              ((sortMarks T.markEntries).take 8).flatMap MarkEntry.bytes } := by
  simp only [scan, except_bind_ok, parsed_ok, readEmpty, readEnd, pure, Except.pure, Except.ok.injEq]
  by_cases hb : f.body = [] <;> simp [hb, eq_comm]

theorem readTime_ok {f : Frame} {T : Tables} {a : Accepted} :
    readTime f T = .ok a ↔ f.body = [] ∧ a = { tables := T, completion := .done, body := be32 T.clock } := by
  simp only [readTime, except_bind_ok, parsed_ok, readEmpty, readEnd, pure, Except.pure, Except.ok.injEq]
  by_cases hb : f.body = [] <;> simp [hb, eq_comm]

theorem setTime_ok {f : Frame} {T : Tables} {a : Accepted} :
    setTime f T = .ok a ↔ ∃ n, readSetTime f.body = some n ∧ isAdmin f.requester = true ∧
      a = { tables := { T with clock := n }, completion := .done, body := be32 T.clock ++ be32 n } := by
  simp only [setTime, except_bind_ok, parsed_ok, require_ok, pure, Except.pure, Except.ok.injEq, exists_const]
  constructor <;> (rintro ⟨n, h1, h2, rfl⟩; exact ⟨n, h1, h2, rfl⟩)

theorem profileSet_ok {f : Frame} {T : Tables} {a : Accepted} :
    profileSet f T = .ok a ↔ ∃ p, readProfile f.body = some p ∧ isAdmin f.requester = true ∧ p.Valid ∧
      a = { tables := { T with profile4 := p }, completion := .done, body := T.profile4.bytes ++ p.bytes } := by
  simp only [profileSet, except_bind_ok, parsed_ok, require_ok, pure, Except.pure, Except.ok.injEq, exists_const]
  constructor <;> (rintro ⟨n, h1, h2, h3, rfl⟩; exact ⟨n, h1, h2, h3, rfl⟩)

theorem zoneSet_ok {f : Frame} {T : Tables} {a : Accepted} :
    zoneSet f T = .ok a ↔ ∃ q i new, readZoneSet f.body = some q ∧ isAdmin f.requester = true ∧
      zoneOfNat q.zone = some i ∧ T.zones[i].write q.mode q.seasonBank q.owners = some new ∧
      a = { tables := { T with zones := T.zones.set i new }, completion := .done,
            body := T.zones[i].bytes ++ new.bytes } := by
  simp only [zoneSet, except_bind_ok, parsed_ok, orRefuse_ok, require_ok, pure, Except.pure, Except.ok.injEq,
    exists_const]
  constructor
  · rintro ⟨q, h1, h2, i, h3, new, h4, rfl⟩; exact ⟨q, i, new, h1, h2, h3, h4, rfl⟩
  · rintro ⟨q, i, new, h1, h2, h3, h4, rfl⟩; exact ⟨q, h1, h2, i, h3, new, h4, rfl⟩

end Sys2Proof.Machine
end

