-- ==== Sys2Proof/Laws/Steps.lean ====
section
/-! SUPPORT. Everything a step can do to the tables, said once. -/

namespace Sys2Proof.Machine

/-- The ways a step changes the tables. -/
inductive TablesChange (T : Tables) : Tables → Prop where
  | same : TablesChange T T
  | powerOn : TablesChange T Tables.reset
  | warmRestart : TablesChange T T.warmRestart
  | tick : TablesChange T { T with clock := nextClock T.clock }
  | expiry (slot : Nat) (r : Record) (hget : Table.get T.records slot = some r)
      (due : r.expiryDue T.clock = true) : TablesChange T (T.expire slot r)
  | define (f : Frame) (a : Accepted) (h : define f T = .ok a) : TablesChange T a.tables
  | lookup (f : Frame) (a : Accepted) (h : lookup f T = .ok a) : TablesChange T a.tables
  | amend (f : Frame) (a : Accepted) (h : amend f T = .ok a) : TablesChange T a.tables
  | retire (f : Frame) (a : Accepted) (h : retire f T = .ok a) : TablesChange T a.tables
  | observe (f : Frame) (a : Accepted) (h : observe f T = .ok a) : TablesChange T a.tables
  | calibrate (f : Frame) (a : Accepted) (h : calibrate f T = .ok a) : TablesChange T a.tables
  | acquit (f : Frame) (a : Accepted) (h : acquit f T = .ok a) : TablesChange T a.tables
  | couple (f : Frame) (a : Accepted) (h : couple f T = .ok a) : TablesChange T a.tables
  | uncouple (f : Frame) (a : Accepted) (h : uncouple f T = .ok a) : TablesChange T a.tables
  | zoneSet (f : Frame) (a : Accepted) (h : zoneSet f T = .ok a) : TablesChange T a.tables
  | profileSet (f : Frame) (a : Accepted) (h : profileSet f T = .ok a) : TablesChange T a.tables
  | setTime (f : Frame) (a : Accepted) (h : setTime f T = .ok a) : TablesChange T a.tables

theorem clockByte_tables (s : State) (p : PortId) (b : Byte) : (s.clockByte p b).tables = s.tables := by
  unfold State.clockByte; split_ifs <;> simp

theorem clockBytes_tables (s : State) (p : PortId) (bytes : List Byte) : (s.clockBytes p bytes).tables = s.tables := by
  unfold State.clockBytes
  have h (l : List Byte) (u : State) : (l.foldl (fun t b => t.clockByte p b) u).tables = u.tables := by
    induction l generalizing u with
    | nil => rfl
    | cons b rest ih => simp [List.foldl_cons, ih, clockByte_tables]
  rw [h]; simp

/-- A served request of any kind: the engine took it, and the answer is what `run` makes of it. -/
theorem serve_next {s t : State} {isCode : Byte → Bool} {run : InService → State → Answer}
    (h : s.serve isCode run = .next t) :
    t = s ∨ ∃ job, s.resetLow = false ∧ s.takeRequest.serving = some job ∧ isCode job.frame.code = true ∧
      t = (run job s.takeRequest).complete job := by
  unfold State.serve at h
  cases hs : s.servedRequest isCode with
  | none => rw [hs] at h; simp at h; exact .inl h.symm
  | some x =>
    obtain ⟨u, job⟩ := x
    rw [hs] at h
    simp only [Host.Outcome.next.injEq] at h
    unfold State.servedRequest at hs
    split_ifs at hs with hr
    split at hs
    · simp at hs
    · rename_i job' hj
      split_ifs at hs with hc
      simp only [Option.some.injEq, Prod.mk.injEq] at hs
      obtain ⟨rfl, rfl⟩ := hs
      exact .inr ⟨job', by simpa using hr, hj, hc, h.symm⟩

@[simp] theorem complete_tables (a : Answer) (job : InService) : (a.complete job).tables = a.state.tables := by
  simp [Answer.complete]

/-- A command that runs answers a next state, unless it is the expiry of a slot the part has not. -/
theorem exec_tables {c : Instr} {s t : State} (h : exec c s = .next t) : TablesChange s.tables t.tables := by
  cases c with
  | powerOn => simp [exec, execPowerOn] at h; subst h; exact .powerOn
  | resetLineLow => simp [exec, execResetLineLow] at h; subst h; exact .same
  | warmRestart => simp [exec, execWarmRestart] at h; subst h; exact .warmRestart
  | clockTick => simp [exec, execClockTick] at h; subst h; exact .tick
  | stalenessExpiry slot =>
    simp only [exec, execStalenessExpiry] at h
    split_ifs at h
    split at h
    · simp at h; subst h; exact .same
    · rename_i r hr
      split_ifs at h with hd
      · simp at h; subst h
        exact .expiry slot r hr (by simp at hd; exact hd.2)
      · simp at h; subst h; exact .same
  | attnDelayElapsed p =>
    simp only [exec, execAttnDelayElapsed] at h
    split_ifs at h
    · simp at h; subst h; rw [setPort_tables]; exact .same
    · simp at h; subst h; exact .same
  | requestFrame p bytes =>
    simp [exec, execRequestFrame] at h; subst h; rw [clockBytes_tables]; exact .same
  | selectRaised p =>
    simp only [exec, execSelectRaised] at h
    split_ifs at h
    · simp at h; subst h; rw [setPort_tables]; exact .same
    · simp at h; subst h; exact .same
  | replyShiftedOut p filler =>
    simp only [exec, execReplyShiftedOut] at h
    split_ifs at h
    · simp at h; subst h; exact .same
    · simp at h; subst h; rw [clockBytes_tables]; exact .same
  | unknownRequest =>
    rcases serve_next h with rfl | ⟨job, _, _, _, rfl⟩
    · exact .same
    · rw [complete_tables]; simp only [answerTables, refuse, takeRequest_tables]; exact .same
  | portSet =>
    rcases serve_next h with rfl | ⟨job, _, _, _, rfl⟩
    · exact .same
    · rw [complete_tables]; unfold portSet; split <;> simp only [setPort_tables, takeRequest_tables] <;> exact .same
  | status =>
    rcases serve_next h with rfl | ⟨job, _, _, _, rfl⟩
    · exact .same
    · rw [complete_tables]; unfold statusAnswer
      split <;> simp only [setPort_tables, takeRequest_tables] <;> exact .same
  | restart =>
    rcases serve_next h with rfl | ⟨job, _, _, _, rfl⟩
    · exact .same
    · rw [complete_tables]; unfold restartAnswer
      split
      · simp only [takeRequest_tables]; exact .same
      · show TablesChange s.tables (s.takeRequest.warmRestart .restartRequest).tables
        simp only [State.warmRestart, driveAttn_tables, takeRequest_tables]; exact .warmRestart
  | define => rcases serveTables_tables h with h | ⟨f, a, hr, h⟩ <;> rw [h]; exacts [.same, .define f a hr]
  | lookup => rcases serveTables_tables h with h | ⟨f, a, hr, h⟩ <;> rw [h]; exacts [.same, .lookup f a hr]
  | enumerate =>
    rcases serveTables_tables h with h | ⟨f, a, hr, h⟩ <;> rw [h]
    · exact .same
    · obtain ⟨_, _, _, _, _, rfl⟩ := enumerate_ok.mp hr; exact .same
  | amend => rcases serveTables_tables h with h | ⟨f, a, hr, h⟩ <;> rw [h]; exacts [.same, .amend f a hr]
  | retire => rcases serveTables_tables h with h | ⟨f, a, hr, h⟩ <;> rw [h]; exacts [.same, .retire f a hr]
  | observe => rcases serveTables_tables h with h | ⟨f, a, hr, h⟩ <;> rw [h]; exacts [.same, .observe f a hr]
  | calibrate => rcases serveTables_tables h with h | ⟨f, a, hr, h⟩ <;> rw [h]; exacts [.same, .calibrate f a hr]
  | acquit => rcases serveTables_tables h with h | ⟨f, a, hr, h⟩ <;> rw [h]; exacts [.same, .acquit f a hr]
  | couple => rcases serveTables_tables h with h | ⟨f, a, hr, h⟩ <;> rw [h]; exacts [.same, .couple f a hr]
  | uncouple => rcases serveTables_tables h with h | ⟨f, a, hr, h⟩ <;> rw [h]; exacts [.same, .uncouple f a hr]
  | scan =>
    rcases serveTables_tables h with h | ⟨f, a, hr, h⟩ <;> rw [h]
    · exact .same
    · obtain ⟨_, rfl⟩ := scan_ok.mp hr; exact .same
  | zoneSet => rcases serveTables_tables h with h | ⟨f, a, hr, h⟩ <;> rw [h]; exacts [.same, .zoneSet f a hr]
  | profileSet => rcases serveTables_tables h with h | ⟨f, a, hr, h⟩ <;> rw [h]; exacts [.same, .profileSet f a hr]
  | setTime => rcases serveTables_tables h with h | ⟨f, a, hr, h⟩ <;> rw [h]; exacts [.same, .setTime f a hr]
  | readTime =>
    rcases serveTables_tables h with h | ⟨f, a, hr, h⟩ <;> rw [h]
    · exact .same
    · obtain ⟨_, rfl⟩ := readTime_ok.mp hr; exact .same

theorem step_tables {s t : State} (h : step s = .next t) : TablesChange s.tables t.tables := by
  unfold step at h
  split at h
  · simp at h; subst h; rw [takeRequest_tables]; exact .same
  · have := exec_tables h; exact this

end Sys2Proof.Machine
end

