-- ==== Sys2Proof/Laws/Samples.lean ====
section
/-! SUPPORT. What an accepted sample leaves alone in its record, stage by stage, and how the samples of one request run. -/

namespace Sys2Proof.Machine

/-- What no sample, window close, expiry or restart changes: key, zone, revision, coupling count and coil sense. -/
structure Record.SameStanding (r r' : Record) : Prop where
  key : r'.key = r.key
  zone : r'.zone = r.zone
  revision : r'.revision = r.revision
  couplingCount : r'.couplingCount = r.couplingCount
  sense : r'.valve.map (·.sense) = r.valve.map (·.sense)

theorem Record.SameStanding.refl (r : Record) : r.SameStanding r := ⟨rfl, rfl, rfl, rfl, rfl⟩

theorem Record.SameStanding.trans {a b c : Record} (h : a.SameStanding b) (h' : b.SameStanding c) :
    a.SameStanding c :=
  ⟨h'.key.trans h.key, h'.zone.trans h.zone, h'.revision.trans h.revision,
   h'.couplingCount.trans h.couplingCount, h'.sense.trans h.sense⟩

theorem Record.SameStanding.valve {r r' : Record} (h : r.SameStanding r') : r'.valve.isSome = r.valve.isSome := by
  have := congrArg Option.isSome h.sense
  simpa using this

theorem marked_standing (clock : Nat) (r : Record) : r.SameStanding (r.marked clock) := ⟨rfl, rfl, rfl, rfl, rfl⟩

theorem openWindow_standing (t : Nat) (r : Record) : r.SameStanding (r.openWindow t) := ⟨rfl, rfl, rfl, rfl, rfl⟩

theorem evaluateWindow_standing (clock : Nat) (p : Profile) (mode : ZoneMode) (w : Window) (r : Record) :
    r.SameStanding (r.evaluateWindow clock p mode w) := by
  have h : r.SameStanding (r.updateTrackers p mode w) :=
    ⟨rfl, rfl, rfl, rfl, by simp only [Record.updateTrackers, Option.map_map]; rfl⟩
  unfold Record.evaluateWindow
  dsimp only
  split_ifs
  · exact h.trans (marked_standing _ _)
  · exact h

theorem settleStep_standing (w : Window) (r : Record) : r.SameStanding (r.settleStep w) := by
  unfold Record.settleStep; split_ifs <;> exact ⟨rfl, rfl, rfl, rfl, rfl⟩

theorem latch_standing (season : Fin 2) (r : Record) : r.SameStanding (r.latch season) := by
  unfold Record.latch
  split
  · exact ⟨rfl, rfl, rfl, rfl, rfl⟩
  · dsimp only; split_ifs <;> exact ⟨rfl, rfl, rfl, rfl, rfl⟩

theorem leaveStale_standing (r : Record) : r.SameStanding r.leaveStale := ⟨rfl, rfl, rfl, rfl, rfl⟩

theorem stageWindow_standing (T : Tables) (x : Sample) (r : Record) : r.SameStanding (T.stageWindow x r) := by
  unfold Tables.stageWindow
  dsimp only
  split_ifs
  · exact (((latch_standing _ _).trans (leaveStale_standing _)).trans (marked_standing _ _)).trans
      (openWindow_standing _ _)
  · split
    · exact openWindow_standing _ _
    · split
      · exact .refl r
      · exact (((evaluateWindow_standing _ _ _ _ _).trans (settleStep_standing _ _)).trans (latch_standing _ _)).trans
          (openWindow_standing _ _)

theorem expireWatch_standing (x : Sample) (r : Record) : r.SameStanding (r.expireWatch x) := by
  unfold Record.expireWatch; split
  · split_ifs <;> exact ⟨rfl, rfl, rfl, rfl, rfl⟩
  · exact .refl r

theorem completeWatch_standing (x : Sample) (r : Record) : r.SameStanding (r.completeWatch x) := by
  unfold Record.completeWatch; split
  · split_ifs <;> exact ⟨rfl, rfl, rfl, rfl, rfl⟩
  · exact .refl r

theorem detectStep_standing (x : Sample) (r : Record) : r.SameStanding (r.detectStep x) := by
  unfold Record.detectStep
  dsimp only
  repeat' split
  all_goals exact ⟨rfl, rfl, rfl, rfl, rfl⟩

theorem stageWatch_standing (x : Sample) (r : Record) : r.SameStanding (r.stageWatch x) := by
  unfold Record.stageWatch
  split_ifs
  · exact (expireWatch_standing x r).trans (detectStep_standing x _)
  · exact (completeWatch_standing x r).trans (detectStep_standing x _)

theorem stageAccumulate_standing (x : Sample) (r : Record) : r.SameStanding (r.stageAccumulate x) := by
  unfold Record.stageAccumulate Record.stageLeak Record.accumulateLeak
  split
  · split_ifs <;> exact ⟨rfl, rfl, rfl, rfl, rfl⟩
  · exact ⟨rfl, rfl, rfl, rfl, rfl⟩

theorem stageReversal_standing (x : Sample) (r : Record) : r.SameStanding (r.stageReversal x) := ⟨rfl, rfl, rfl, rfl, rfl⟩

theorem stageCalibration_standing (clock : Nat) (x : Sample) (r : Record) :
    r.SameStanding (r.stageCalibration clock x) := by
  unfold Record.stageCalibration
  split
  · rename_i v _ hv
    dsimp only
    split_ifs
    · exact .refl r
    · exact ⟨rfl, rfl, rfl, rfl, rfl⟩
    · exact ⟨rfl, rfl, rfl, rfl, by simp [Record.marked, hv]⟩
    · exact ⟨rfl, rfl, rfl, rfl, rfl⟩
  · exact .refl r

theorem stageLast_standing (x : Sample) (r : Record) : r.SameStanding (r.stageLast x) := ⟨rfl, rfl, rfl, rfl, rfl⟩

theorem sampledRecord_standing (T : Tables) (x : Sample) (r : Record) : r.SameStanding (T.sampledRecord x r) := by
  unfold Tables.sampledRecord
  exact (((((stageWindow_standing T x r).trans (stageWatch_standing x _)).trans (stageAccumulate_standing x _)).trans
    (stageReversal_standing x _)).trans (stageCalibration_standing T.clock x _)).trans (stageLast_standing x _)

/-! ### The couplings at a sample -/

/-- What nothing but COUPLE gives a coupling: its members and its parameters (R109, R110). -/
structure Coupling.SamePair (c c' : Coupling) : Prop where
  lead : c'.lead = c.lead
  follower : c'.follower = c.follower
  params : c'.params = c.params

theorem Coupling.SamePair.refl (c : Coupling) : c.SamePair c := ⟨rfl, rfl, rfl⟩

theorem Coupling.SamePair.trans {a b c : Coupling} (h : a.SamePair b) (h' : b.SamePair c) : a.SamePair c :=
  ⟨h'.lead.trans h.lead, h'.follower.trans h.follower, h'.params.trans h.params⟩

theorem evaluateFight_pair (T : Tables) (lead : Record) (w : Window) (c : Coupling) :
    c.SamePair (T.evaluateFight lead w c) := by
  unfold Tables.evaluateFight; dsimp only; split_ifs <;> exact ⟨rfl, rfl, rfl⟩

theorem takeSample_pair (role : Role) (reopening : Bool) (x : Sample) (turn : Option Direction) (c : Coupling) :
    c.SamePair (c.takeSample role reopening x turn) := by
  have h1 : c.SamePair (c.reopen role reopening) := by
    unfold Coupling.reopen; split
    · split_ifs <;> exact ⟨rfl, rfl, rfl⟩
    · exact ⟨rfl, rfl, rfl⟩
  have h2 (d : Coupling) : d.SamePair (d.overlapStep role x.time x.command) := by
    unfold Coupling.overlapStep; cases role <;> exact ⟨rfl, rfl, rfl⟩
  have h3 (d : Coupling) (u : Direction) : d.SamePair (d.antiphaseStep role x.time u) := by
    unfold Coupling.antiphaseStep; split <;> split_ifs <;> exact ⟨rfl, rfl, rfl⟩
  unfold Coupling.takeSample
  cases turn with
  | none => exact h1.trans (h2 _)
  | some u => exact (h1.trans (h2 _)).trans (h3 _ _)

theorem memberSample_pair (slot : Nat) (reopening : Bool) (x : Sample) (turn : Option Direction) (c : Coupling) :
    c.SamePair (c.memberSample slot reopening x turn) := by
  unfold Coupling.memberSample; split_ifs <;> first | exact takeSample_pair _ _ _ _ _ | exact .refl c

/-- Every coupling after a sample is what one function made of the coupling that stood in its slot, members and parameters
kept. -/
theorem sampledCouplings_eq (T : Tables) (slot : Nat) (x : Sample) (r : Record) :
    ∃ g : Coupling → Coupling, (∀ c, Coupling.SamePair c (g c)) ∧ T.sampledCouplings slot x r = Table.mapValues T.couplings g := by
  unfold Tables.sampledCouplings Tables.stageFights Tables.evaluateLed
  split
  · exact ⟨_, fun c => memberSample_pair _ _ _ _ c, rfl⟩
  · rw [Table.mapValues_mapValues]
    refine ⟨_, fun c => ?_, rfl⟩
    refine Coupling.SamePair.trans ?_ (memberSample_pair _ _ _ _ _)
    split_ifs
    · exact evaluateFight_pair _ _ _ _
    · exact .refl c

/-! ### The samples of one request -/

/-- What holds before the samples of a request and is kept by each accepted one holds after them. -/
theorem applySamples_induct {P : Tables → Prop} {slot : Nat} {T : Tables} (xs : List RawSample) (h0 : P T)
    (hstep : ∀ (T : Tables) (r : Record) (x : RawSample), P T → Table.get T.records slot = some r →
      sampleResult T.clock r x.time = .accepted → P (T.applySample slot r x.condition)) :
    P (T.applySamples slot xs).1 := by
  induction xs generalizing T with
  | nil => exact h0
  | cons x rest ih =>
    simp only [Tables.applySamples]
    split
    · exact h0
    · rename_i r hr
      dsimp only
      split_ifs with hx
      · exact ih (hstep T r x h0 hr hx)
      · exact ih h0

/-- The tables an OBSERVE leaves differ in the record it names and in the couplings naming it. -/
structure Tables.SampledAt (slot : Nat) (T T' : Tables) : Prop where
  directory : T'.directory = T.directory
  recordGens : T'.recordGens = T.recordGens
  couplingGens : T'.couplingGens = T.couplingGens
  zones : T'.zones = T.zones
  profile4 : T'.profile4 = T.profile4
  clock : T'.clock = T.clock
  slots : T'.records.map Prod.fst = T.records.map Prod.fst
  others : ∀ j, j ≠ slot → Table.get T'.records j = Table.get T.records j
  record : ∀ r, Table.get T.records slot = some r → ∃ r', Table.get T'.records slot = some r' ∧ r.SameStanding r'
  couplings : ∃ g : Coupling → Coupling, (∀ c, Coupling.SamePair c (g c)) ∧ T'.couplings = Table.mapValues T.couplings g

theorem applySample_at (T : Tables) (slot : Nat) (r : Record) (x : Sample) (h : Table.get T.records slot = some r) :
    Tables.SampledAt slot T (T.applySample slot r x) where
  directory := rfl
  recordGens := rfl
  couplingGens := rfl
  zones := rfl
  profile4 := rfl
  clock := rfl
  slots := Table.replace_keys _ _ _
  others j hj := Table.get_replace_ne _ _ hj
  record q hq := by
    rw [h] at hq; cases hq
    exact ⟨_, Table.get_replace_self _ h, sampledRecord_standing T x r⟩
  couplings := sampledCouplings_eq T slot x r

theorem Tables.SampledAt.refl (slot : Nat) (T : Tables) : Tables.SampledAt slot T T :=
  ⟨rfl, rfl, rfl, rfl, rfl, rfl, rfl, fun _ _ => rfl, fun r h => ⟨r, h, .refl r⟩,
   ⟨id, fun c => .refl c, by simp [Table.mapValues]⟩⟩

theorem Tables.SampledAt.trans {slot : Nat} {A B C : Tables} (h : Tables.SampledAt slot A B)
    (h' : Tables.SampledAt slot B C) : Tables.SampledAt slot A C where
  directory := h'.directory.trans h.directory
  recordGens := h'.recordGens.trans h.recordGens
  couplingGens := h'.couplingGens.trans h.couplingGens
  zones := h'.zones.trans h.zones
  profile4 := h'.profile4.trans h.profile4
  clock := h'.clock.trans h.clock
  slots := h'.slots.trans h.slots
  others j hj := (h'.others j hj).trans (h.others j hj)
  record r hr := by
    obtain ⟨r1, h1, s1⟩ := h.record r hr
    obtain ⟨r2, h2, s2⟩ := h'.record r1 h1
    exact ⟨r2, h2, s1.trans s2⟩
  couplings := by
    obtain ⟨g, hg, e⟩ := h.couplings
    obtain ⟨g', hg', e'⟩ := h'.couplings
    exact ⟨fun c => g' (g c), fun c => (hg c).trans (hg' _), by rw [e', e, Table.mapValues_mapValues]⟩

theorem applySamples_at (T : Tables) (slot : Nat) (xs : List RawSample) :
    Tables.SampledAt slot T (T.applySamples slot xs).1 :=
  applySamples_induct (P := fun U => Tables.SampledAt slot T U) xs (.refl slot T)
    fun U r x h hr _ => h.trans (applySample_at U slot r x.condition hr)

end Sys2Proof.Machine
end

