-- ==== Sys2Proof/Laws/Links.lean ====
section
/-! SUPPORT. The laws of a port's link: what the byte carried out leaves alone, how a frame is collected, and the layout of
frames read back. -/

namespace Sys2Proof.Machine

/-! ### The byte carried out -/

/-- A byte carried out changes the reply queue, the shifter and what stands on data out; it sets no flag and touches nothing
else of the port. -/
structure Port.Shifted (q q' : Port) : Prop where
  requests : q'.requests = q.requests
  receiver : q'.receiver = q.receiver
  selected : q'.selected = q.selected
  hold : q'.hold = q.hold
  attn : q'.attn = q.attn
  restarted : q'.restarted = q.restarted
  settings : q'.settings = q.settings
  overrun : q'.overrun = true → q.overrun = true
  frameError : q'.frameError = true → q.frameError = true
  sdo : q'.sdo.length = q.sdo.length + 1

theorem shiftByte_shifted (s : State) (p : PortId) : (s.port p).Shifted (s.shiftByte p) := by
  unfold State.shiftByte
  dsimp only
  split
  · exact ⟨rfl, rfl, rfl, rfl, rfl, rfl, rfl, id, id, by simp [Port.emit]⟩
  · split_ifs
    all_goals
      refine ⟨rfl, rfl, rfl, rfl, rfl, rfl, rfl, ?_, ?_, ?_⟩ <;>
        simp +contextual [Port.emit, Port.popReply]

/-- With no reply queued the byte carried out is filler. -/
theorem shiftByte_filler (s : State) (p : PortId) (h : (s.port p).replies = []) :
    s.shiftByte p = { s.port p with sdo := (s.port p).sdo ++ [0x00] } := by
  unfold State.shiftByte; simp [h, Port.emit]

theorem clockByte_eq (s : State) (p : PortId) (b : Byte) (h : s.resetLow = false) :
    s.clockByte p b = s.setPort p ({ s.shiftByte p with selected := true }.receiveByte b) := by
  unfold State.clockByte; simp [h]

@[simp] theorem setPort_setPort (s : State) (p : PortId) (q q' : Port) : (s.setPort p q).setPort p q' = s.setPort p q' := by
  cases p <;> rfl

@[simp] theorem clockByte_resetLow (s : State) (p : PortId) (b : Byte) : (s.clockByte p b).resetLow = s.resetLow := by
  unfold State.clockByte; split_ifs <;> simp

/-- A byte clocked touches its own port alone. -/
theorem clockByte_setPort (s : State) (p : PortId) (b : Byte) : s.clockByte p b = s.setPort p ((s.clockByte p b).port p) := by
  unfold State.clockByte; split_ifs <;> simp

/-! ### The bytes taken in -/

/-- A port while bytes come in that complete no frame: nothing but the link moves, and no flag is set. -/
structure Port.Collecting (q q' : Port) : Prop where
  requests : q'.requests = q.requests
  hold : q'.hold = q.hold
  attn : q'.attn = q.attn
  restarted : q'.restarted = q.restarted
  settings : q'.settings = q.settings
  overrun : q'.overrun = true → q.overrun = true
  frameError : q'.frameError = true → q.frameError = true

theorem Port.Collecting.trans {a b c : Port} (h : a.Collecting b) (h' : b.Collecting c) : a.Collecting c :=
  ⟨h'.requests.trans h.requests, h'.hold.trans h.hold, h'.attn.trans h.attn, h'.restarted.trans h.restarted,
   h'.settings.trans h.settings, fun x => h.overrun (h'.overrun x), fun x => h.frameError (h'.frameError x)⟩

/-- A byte that does not complete the frame in progress is added to it. -/
theorem clockByte_collects {s : State} {p : PortId} {b : Byte} {received : List Byte} (hr : s.resetLow = false)
    (hi : (s.port p).receiver = .inFrame received) (h1 : 4 ≤ ((received ++ [b]).headD 0).toNat)
    (h2 : ((received ++ [b]).headD 0).toNat ≤ 250)
    (h3 : (received ++ [b]).length < ((received ++ [b]).headD 0).toNat + 3) :
    ∃ q, s.clockByte p b = s.setPort p q ∧ (s.port p).Collecting q ∧ q.receiver = .inFrame (received ++ [b]) ∧
      q.selected = true ∧ q.sdo.length = (s.port p).sdo.length + 1 := by
  have hs := shiftByte_shifted s p
  refine ⟨_, clockByte_eq s p b hr, ?_⟩
  have hrec : ({ s.shiftByte p with selected := true } : Port).receiver = .inFrame received := by
    rw [← hi]; exact hs.receiver
  unfold Port.receiveByte
  rw [hrec]
  dsimp only
  rw [if_neg (by omega), if_pos h3]
  exact ⟨⟨hs.requests, hs.hold, hs.attn, hs.restarted, hs.settings, hs.overrun, hs.frameError⟩, rfl, rfl, hs.sdo⟩

/-- Bytes that do not complete the frame in progress are added to it. -/
theorem clockList_collects {p : PortId} {length : Byte} (h1 : 4 ≤ length.toNat) (h2 : length.toNat ≤ 250)
    (l : List Byte) : ∀ {s : State} {rest : List Byte}, s.resetLow = false →
    (s.port p).receiver = .inFrame (length :: rest) → rest.length + l.length < length.toNat + 2 →
    (s.port p).selected = true →
    ∃ q, l.foldl (fun t b => t.clockByte p b) s = s.setPort p q ∧ (s.port p).Collecting q ∧
      q.receiver = .inFrame (length :: (rest ++ l)) ∧ q.selected = true ∧
      q.sdo.length = (s.port p).sdo.length + l.length := by
  induction l with
  | nil =>
    intro s rest hr hi _ hsel
    exact ⟨s.port p, by simp, ⟨rfl, rfl, rfl, rfl, rfl, id, id⟩, by simpa using hi, hsel, by simp⟩
  | cons b l ih =>
    intro s rest hr hi hlen _
    simp only [List.length_cons] at hlen
    obtain ⟨q, e1, c1, r1, s1, d1⟩ := clockByte_collects (b := b) hr hi (by simpa using h1) (by simpa using h2)
      (by simp; omega)
    have hr' : (s.clockByte p b).resetLow = false := by simpa using hr
    have hp : (s.clockByte p b).port p = q := by rw [e1]; simp
    obtain ⟨q', e2, c2, r2, s2, d2⟩ := ih (s := s.clockByte p b) (rest := rest ++ [b]) hr'
      (by rw [hp]; simpa using r1) (by simp; omega) (by rw [hp]; exact s1)
    rw [hp] at c2 d2
    refine ⟨q', ?_, c1.trans c2, by simpa using r2, s2, by simp [d1, d2]; omega⟩
    rw [List.foldl_cons, e2, e1, setPort_setPort]

/-- The request marker puts a hunting receiver in a frame. -/
theorem clockByte_marker {s : State} {p : PortId} (hr : s.resetLow = false) (hi : (s.port p).receiver = .hunting) :
    ∃ q, s.clockByte p requestMarker = s.setPort p q ∧ (s.port p).Collecting q ∧ q.receiver = .inFrame [] ∧
      q.selected = true ∧ q.sdo.length = (s.port p).sdo.length + 1 := by
  have hs := shiftByte_shifted s p
  refine ⟨_, clockByte_eq s p _ hr, ?_⟩
  have hrec : ({ s.shiftByte p with selected := true } : Port).receiver = .hunting := by rw [← hi]; exact hs.receiver
  unfold Port.receiveByte
  rw [hrec]
  dsimp only
  rw [if_pos rfl]
  exact ⟨⟨hs.requests, hs.hold, hs.attn, hs.restarted, hs.settings, hs.overrun, hs.frameError⟩, rfl, rfl, hs.sdo⟩

/-- The bytes of a frame after its marker, in order: all but the last are collected. -/
theorem clockFrame_collects {s : State} {p : PortId} {length : Byte} {body : List Byte} (hr : s.resetLow = false)
    (hi : (s.port p).receiver = .hunting) (h1 : 4 ≤ length.toNat) (h2 : length.toNat ≤ 250)
    (hlen : body.length < length.toNat + 2) :
    ∃ q, (requestMarker :: length :: body).foldl (fun t b => t.clockByte p b) s = s.setPort p q ∧
      (s.port p).Collecting q ∧ q.receiver = .inFrame (length :: body) ∧ q.selected = true ∧
      q.sdo.length = (s.port p).sdo.length + body.length + 2 := by
  obtain ⟨q, e1, c1, r1, s1, d1⟩ := clockByte_marker hr hi
  have hr1 : (s.clockByte p requestMarker).resetLow = false := by simpa using hr
  have hp1 : (s.clockByte p requestMarker).port p = q := by rw [e1]; simp
  obtain ⟨q2, e2, c2, r2, s2, d2⟩ := clockByte_collects (s := s.clockByte p requestMarker) (b := length) hr1
    (by rw [hp1]; exact r1) (by simpa using h1) (by simpa using h2) (by simp)
  have hp2 : ((s.clockByte p requestMarker).clockByte p length).port p = q2 := by rw [e2]; simp
  obtain ⟨q3, e3, c3, r3, s3, d3⟩ := clockList_collects h1 h2 body
    (s := (s.clockByte p requestMarker).clockByte p length) (rest := []) (by simpa using hr)
    (by rw [hp2]; simpa using r2) (by simpa using hlen) (by rw [hp2]; exact s2)
  rw [hp1] at c2 d2
  rw [hp2] at c3 d3
  refine ⟨q3, ?_, (c1.trans c2).trans c3, by simpa using r3, s3, by omega⟩
  rw [List.foldl_cons, List.foldl_cons, e3, e2, e1]; simp

/-! ### Layouts -/

@[simp] theorem be8_length (n : Nat) : (be8 n).length = 1 := rfl

@[simp] theorem be16_length (n : Nat) : (be16 n).length = 2 := rfl

@[simp] theorem crcBytes_length (l : List Byte) : (crcBytes l).length = 2 := rfl

theorem be16_value (n : Nat) (h : n < 65536) :
    256 * (BitVec.ofNat 8 (n / 256)).toNat + (BitVec.ofNat 8 n).toNat = n := by
  simp only [BitVec.toNat_ofNat]; omega

/-- A frame's bytes after the marker make the frame again. -/
theorem frameOf_afterMarker (f : Frame) : frameOf f.afterMarker = some f := by
  have hl : f.afterMarker.length - 2 =
      (be8 (4 + f.body.length) ++ [f.requester, f.code] ++ be16 f.tag.toNat ++ f.body).length := by
    simp [Frame.afterMarker]; omega
  unfold frameOf
  dsimp only
  rw [hl]
  simp only [Frame.afterMarker, List.take_left', List.drop_left', if_true]
  simp only [be8, be16, List.cons_append, List.nil_append]
  have ht : BitVec.ofNat 16 (256 * (BitVec.ofNat 8 (f.tag.toNat / 256)).toNat +
      (BitVec.ofNat 8 f.tag.toNat).toNat) = f.tag := by
    rw [be16_value _ f.tag.isLt]; simp
  simp only [ht]


/-! ### The byte out and the byte in, each apart from the other -/

theorem Reply.bytes_length (r : Reply) (status : Byte) : (r.bytes status).length = r.wireLength := by
  simp [Reply.bytes, Reply.wireLength]; omega

/-- The bytes of a reply before its status byte do not depend on it. -/
theorem Reply.bytes_take (r : Reply) (status other : Byte) {n : Nat} (h : n ≤ 6) :
    (r.bytes status).take n = (r.bytes other).take n := by
  have : (r.bytes status).take 6 = (r.bytes other).take 6 := rfl
  have := congrArg (List.take n) this
  simpa [List.take_take, h] using this

/-- The status byte reads the port's flags and levels alone. -/
theorem portStatus_congr {s : State} {p : PortId} {q : Port} (h1 : q.hold = (s.port p).hold)
    (h2 : q.overrun = (s.port p).overrun) (h3 : q.frameError = (s.port p).frameError)
    (h4 : q.restarted = (s.port p).restarted) : (s.setPort p q).portStatus p = s.portStatus p := by
  unfold State.portStatus; simp [h1, h2, h3, h4]

/-- The byte out does not depend on the receiver, and leaves it alone. -/
theorem shiftByte_withReceiver (s : State) (p : PortId) (x : Receiver) :
    (s.setPort p { s.port p with receiver := x }).shiftByte p = { s.shiftByte p with receiver := x } := by
  unfold State.shiftByte
  rw [portStatus_congr (q := { s.port p with receiver := x }) rfl rfl rfl rfl]
  simp only [setPort_port_self]
  split
  · rfl
  · split_ifs <;> rfl

/-- The byte out is added to what stands on data out, whatever stands there. -/
theorem shiftByte_withSdo (s : State) (p : PortId) (out : List Byte) :
    (s.setPort p { s.port p with sdo := out ++ (s.port p).sdo }).shiftByte p =
      { s.shiftByte p with sdo := out ++ (s.shiftByte p).sdo } := by
  unfold State.shiftByte
  rw [portStatus_congr (q := { s.port p with sdo := out ++ (s.port p).sdo }) rfl rfl rfl rfl]
  simp only [setPort_port_self]
  split
  · simp [Port.emit]
  · split_ifs <;> simp [Port.emit, Port.popReply]

/-- The byte out with a reply queued: its next byte, the status byte formed as it goes out (R169); at the last byte the reply
leaves its queue and the flags its status byte reported are cleared. -/
theorem shiftByte_reply {s : State} {p : PortId} {r : Reply} {rest : List Reply} (hq : (s.port p).replies = r :: rest) :
    let q := s.port p
    let status := if q.shiftPos = 6 then s.portStatus p else q.statusByte
    let sent := q.sdo ++ [(r.bytes status).getD q.shiftPos 0]
    s.shiftByte p =
      if q.shiftPos + 1 < r.body.length + 9 then
        { q with sdo := sent, shiftPos := q.shiftPos + 1, statusByte := status }
      else
        { q with sdo := sent, replies := rest, shiftPos := 0, statusByte := 0,
                 overrun := q.overrun && !status.getLsbD 1, frameError := q.frameError && !status.getLsbD 2 } := by
  intro q status sent
  unfold State.shiftByte
  dsimp only
  rw [hq]
  by_cases h : q.shiftPos + 1 < r.body.length + 9
  · rw [if_pos h]
    show (if q.shiftPos + 1 < r.wireLength then _ else _) = _
    rw [if_pos (show _ < r.wireLength from h)]
    simp only [Port.emit, hq, q, sent, status]; rfl
  · rw [if_neg h]
    show (if q.shiftPos + 1 < r.wireLength then _ else _) = _
    rw [if_neg (show ¬ _ < r.wireLength from h)]; rfl

/-- Everything the receiver can do to a port: the reply queue, the shifter and data out stand. -/
theorem receiveByte_keeps (q : Port) (b : Byte) :
    (q.receiveByte b).replies = q.replies ∧ (q.receiveByte b).shiftPos = q.shiftPos ∧
    (q.receiveByte b).statusByte = q.statusByte ∧ (q.receiveByte b).sdo = q.sdo ∧
    (q.receiveByte b).selected = q.selected := by
  unfold Port.receiveByte
  split
  · split_ifs <;> exact ⟨rfl, rfl, rfl, rfl, rfl⟩
  · dsimp only
    split_ifs
    · exact ⟨rfl, rfl, rfl, rfl, rfl⟩
    · exact ⟨rfl, rfl, rfl, rfl, rfl⟩
    · split
      · unfold Port.enqueue; split_ifs <;> exact ⟨rfl, rfl, rfl, rfl, rfl⟩
      · exact ⟨rfl, rfl, rfl, rfl, rfl⟩

/-- The receiver does not read what stands on data out. -/
theorem receiveByte_withSdo (q : Port) (b : Byte) (out : List Byte) :
    { q with sdo := out }.receiveByte b = { q.receiveByte b with sdo := out } := by
  unfold Port.receiveByte
  dsimp only
  split
  · split_ifs <;> rfl
  · split_ifs
    · rfl
    · rfl
    · split
      · unfold Port.enqueue; dsimp only; split_ifs <;> rfl
      · rfl

/-- A byte clocked adds to what stands on data out, and does not read it. -/
theorem clockByte_withSdo (s : State) (p : PortId) (b : Byte) (out : List Byte) :
    (s.setPort p { s.port p with sdo := out ++ (s.port p).sdo }).clockByte p b =
      (s.clockByte p b).setPort p { (s.clockByte p b).port p with sdo := out ++ ((s.clockByte p b).port p).sdo } := by
  unfold State.clockByte
  simp only [setPort_resetLow]
  split_ifs
  · simp [Port.emit]
  · rw [shiftByte_withSdo]
    simp only [setPort_setPort, setPort_port_self]
    rw [(receiveByte_keeps _ b).2.2.2.1,
      ← receiveByte_withSdo { s.shiftByte p with selected := true } b (out ++ (s.shiftByte p).sdo)]

theorem clockList_withSdo (p : PortId) (out : List Byte) (l : List Byte) : ∀ s : State,
    l.foldl (fun t b => t.clockByte p b) (s.setPort p { s.port p with sdo := out ++ (s.port p).sdo }) =
      (l.foldl (fun t b => t.clockByte p b) s).setPort p { (l.foldl (fun t b => t.clockByte p b) s).port p with
        sdo := out ++ ((l.foldl (fun t b => t.clockByte p b) s).port p).sdo } := by
  induction l with
  | nil => intro s; rfl
  | cons b l ih => intro s; simp only [List.foldl_cons]; rw [clockByte_withSdo, ih]

/-- Bytes clocked one after another are a clocking of their own, data out shown behind what stood there. -/
theorem clockList_eq (t : State) (p : PortId) (ys : List Byte) :
    ys.foldl (fun t b => t.clockByte p b) t = (t.clockBytes p ys).setPort p
      { (t.clockBytes p ys).port p with sdo := (t.port p).sdo ++ ((t.clockBytes p ys).port p).sdo } := by
  have h := clockList_withSdo p (t.port p).sdo ys (t.setPort p { t.port p with sdo := [] })
  have e : (t.setPort p { t.port p with sdo := [] }).setPort p
      { (t.setPort p { t.port p with sdo := [] }).port p with
        sdo := (t.port p).sdo ++ ((t.setPort p { t.port p with sdo := [] }).port p).sdo } = t := by
    rw [setPort_setPort, setPort_port_self]
    simp only [List.append_nil]
    exact setPort_port t p
  rw [e] at h
  exact h

/-- Bytes clocked together do what they do one after another; data out shows all of them. -/
theorem clockBytes_append (s : State) (p : PortId) (xs ys : List Byte) :
    s.clockBytes p (xs ++ ys) = ((s.clockBytes p xs).clockBytes p ys).setPort p
      { ((s.clockBytes p xs).clockBytes p ys).port p with
        sdo := ((s.clockBytes p xs).port p).sdo ++ (((s.clockBytes p xs).clockBytes p ys).port p).sdo } := by
  rw [← clockList_eq]
  unfold State.clockBytes
  rw [List.foldl_append]

/-- A byte clocked from a state whose data out is empty, taken apart. -/
theorem clockBytes_one (s : State) (p : PortId) (b : Byte) (h : s.resetLow = false) :
    s.clockBytes p [b] = s.setPort p
      ({ (s.setPort p { s.port p with sdo := [] }).shiftByte p with selected := true }.receiveByte b) := by
  unfold State.clockBytes
  rw [List.foldl_cons, List.foldl_nil, clockByte_eq _ _ _ (by simpa using h), setPort_setPort]

/-- A filler byte at a hunting receiver is nothing but a byte out. -/
theorem clockByte_ignored {s : State} {p : PortId} {b : Byte} (hr : s.resetLow = false)
    (hi : (s.port p).receiver = .hunting) (hb : b ≠ 0x5A) :
    s.clockByte p b = s.setPort p { s.shiftByte p with selected := true } := by
  have hrec : ({ s.shiftByte p with selected := true } : Port).receiver = .hunting := by
    rw [← hi]; exact (shiftByte_shifted s p).receiver
  rw [clockByte_eq s p b hr]
  unfold Port.receiveByte
  rw [hrec]
  dsimp only
  rw [if_neg (show b ≠ requestMarker from hb)]

/-- Filler clocked at a hunting receiver sets nothing but the link's own fields, and leaves it hunting. -/
theorem clockList_ignored {p : PortId} {b : Byte} (hb : b ≠ 0x5A) (n : Nat) : ∀ {s : State}, s.resetLow = false →
    (s.port p).receiver = .hunting → ∃ q,
      (List.replicate n b).foldl (fun t b => t.clockByte p b) s = s.setPort p q ∧ (s.port p).Collecting q ∧
      q.receiver = .hunting ∧ (q.selected = true ∨ n = 0) ∧ q.sdo.length = (s.port p).sdo.length + n := by
  induction n with
  | zero =>
    intro s _ hi
    exact ⟨s.port p, by simp, ⟨rfl, rfl, rfl, rfl, rfl, id, id⟩, hi, .inr rfl, by simp⟩
  | succ n ih =>
    intro s hr hi
    have hs := shiftByte_shifted s p
    have e := clockByte_ignored hr hi hb
    have hp : (s.clockByte p b).port p = { s.shiftByte p with selected := true } := by rw [e]; simp
    obtain ⟨q, e2, c2, r2, s2, d2⟩ := ih (s := s.clockByte p b) (by simpa using hr) (by rw [hp, ← hi]; exact hs.receiver)
    rw [hp] at c2 d2
    refine ⟨q, ?_, ?_, r2, .inl ?_, ?_⟩
    · rw [List.replicate_succ, List.foldl_cons, e2, e, setPort_setPort]
    · exact Port.Collecting.trans (b := { s.shiftByte p with selected := true })
        ⟨hs.requests, hs.hold, hs.attn, hs.restarted, hs.settings, hs.overrun, hs.frameError⟩ c2
    · rcases s2 with h | rfl
      · exact h
      · rw [List.replicate_zero, List.foldl_nil] at e2
        have := congrArg (fun t => State.port t p) e2
        simp only [setPort_port_self, hp] at this
        rw [← this]
    · rw [d2]; simp only [hs.sdo]; omega

/-- Bytes that complete no frame go in as filler does: the port differs from one that took filler in its receiver alone. -/
theorem clockList_asFiller {p : PortId} {b0 : Byte} (hb0 : b0 ≠ 0x5A) {length : Byte} (h1 : 4 ≤ length.toNat)
    (h2 : length.toNat ≤ 250) (l : List Byte) : ∀ {s : State} {rest : List Byte}, s.resetLow = false →
    (s.port p).receiver = .hunting → rest.length + l.length < length.toNat + 2 →
    l.foldl (fun t b => t.clockByte p b) (s.setPort p { s.port p with receiver := .inFrame (length :: rest) }) =
      ((List.replicate l.length b0).foldl (fun t b => t.clockByte p b) s).setPort p
        { ((List.replicate l.length b0).foldl (fun t b => t.clockByte p b) s).port p with
          receiver := .inFrame (length :: (rest ++ l)) } := by
  induction l with
  | nil => intro s rest _ _ _; simp
  | cons b l ih =>
    intro s rest hr hi hlen
    simp only [List.length_cons] at hlen
    have e := clockByte_ignored hr hi hb0
    have hstep : (s.setPort p { s.port p with receiver := .inFrame (length :: rest) }).clockByte p b =
        (s.clockByte p b0).setPort p { (s.clockByte p b0).port p with receiver := .inFrame (length :: (rest ++ [b])) } := by
      rw [clockByte_eq _ _ _ (by simpa using hr), shiftByte_withReceiver, e]
      unfold Port.receiveByte
      dsimp only
      rw [if_neg (by simp; omega), if_pos (by simp; omega)]
      simp
    rw [List.foldl_cons, hstep, ih (s := s.clockByte p b0) (by simpa using hr)
      (by rw [e]; simp only [setPort_port_self]; rw [← hi]; exact (shiftByte_shifted s p).receiver)
      (by simp; omega)]
    simp [List.replicate_succ]

/-- The marker, the length and bytes that complete no frame go in as filler does. -/
theorem clockFrame_asFiller {s : State} {p : PortId} {b0 : Byte} (hb0 : b0 ≠ 0x5A) {length : Byte}
    (hr : s.resetLow = false) (hi : (s.port p).receiver = .hunting) (h1 : 4 ≤ length.toNat) (h2 : length.toNat ≤ 250)
    {body : List Byte} (hlen : body.length < length.toNat + 2) :
    (requestMarker :: length :: body).foldl (fun t b => t.clockByte p b) s =
      ((List.replicate (body.length + 2) b0).foldl (fun t b => t.clockByte p b) s).setPort p
        { ((List.replicate (body.length + 2) b0).foldl (fun t b => t.clockByte p b) s).port p with
          receiver := .inFrame (length :: body) } := by
  have e := clockByte_ignored hr hi hb0
  have hi1 : ((s.clockByte p b0).port p).receiver = .hunting := by
    rw [e]; simp only [setPort_port_self]; rw [← hi]; exact (shiftByte_shifted s p).receiver
  have hr1 : (s.clockByte p b0).resetLow = false := by simpa using hr
  have e1 : s.clockByte p requestMarker =
      (s.clockByte p b0).setPort p { (s.clockByte p b0).port p with receiver := .inFrame [] } := by
    rw [clockByte_eq _ _ _ hr, e]
    have hrec : ({ s.shiftByte p with selected := true } : Port).receiver = .hunting := by
      rw [← hi]; exact (shiftByte_shifted s p).receiver
    unfold Port.receiveByte
    rw [hrec]
    dsimp only
    rw [if_pos rfl]
    simp
  have e' := clockByte_ignored hr1 hi1 hb0
  have e2 : ((s.clockByte p b0).setPort p { (s.clockByte p b0).port p with receiver := .inFrame [] }).clockByte p length =
      ((s.clockByte p b0).clockByte p b0).setPort p
        { ((s.clockByte p b0).clockByte p b0).port p with receiver := .inFrame [length] } := by
    rw [clockByte_eq _ _ _ (by simpa using hr), shiftByte_withReceiver, e']
    unfold Port.receiveByte
    dsimp only
    rw [if_neg (by simp; omega), if_pos (by simp)]
    simp
  rw [List.foldl_cons, List.foldl_cons, e1, e2, clockList_asFiller hb0 h1 h2 body (by simpa using hr)
    (by rw [e']; simp only [setPort_port_self]; rw [← hi1]; exact (shiftByte_shifted _ p).receiver) (by simpa using hlen)]
  simp [List.replicate_succ]

end Sys2Proof.Machine
end

