-- ==== Sys2Proof/Tests/Slice0.lean ====
section
/-! SUPPORT. The author's tests: the well-formedness smoke, values of the spec's worked examples, one reply of each request,
and for each obligation with hypotheses a state and operands that meet them. -/

namespace Sys2Proof.Tests

open Sys2Proof Sys2Proof.Machine

/-! ### A small part (the worked example of file 01 and a coupling) -/

def damperKey : Key := { building := 12, unit := 3, kind := .damper, number := 0 }

def valveKey : Key := { building := 12, unit := 3, kind := .valve, number := 1 }

def newKey : Key := { building := 12, unit := 5, kind := .valve, number := 0 }

def damper : Record := { newRecord damperKey 2 none ParamSet.default 0 0 0 with state := .live, settleCount := 2 }

def valve : Record :=
  { newRecord valveKey 2 (some .heat) ParamSet.default 0 0 0 with state := .live, settleCount := 2, revision := 4 }

/-- Two records; slot 1 was retired from twice. -/
def two : Tables :=
  { Tables.reset with
    records := [(0, damper), (1, valve)], directory := [(0, damperKey), (1, valveKey)], recordGens := [(1, 2)],
    clock := 20000 }

/-- The record in slot 1 alone in its table, changed. -/
def alone (r : Record) : Tables := { two with records := [(0, damper), (1, r)] }

def pair : Coupling := newCoupling 0 66 CouplingParams.default false

/-- Two records, the first leading a coupling to the second. -/
def coupled : Tables :=
  { two with
    records := [(0, damper.raiseCount), (1, valve.raiseCount)], couplings := [(0, pair)], couplingGens := [(3, 7)] }

/-- Every slot of both tables occupied. -/
def full : Tables :=
  { two with
    records := (0, damper) :: (1, valve) :: (List.range 510).map fun i => (i + 2, damper)
    couplings := (List.range 256).map fun i => (i, newCoupling 128 192 CouplingParams.default false) }

def frame (code requester : Byte) (body : List Byte) : Frame :=
  { requester := requester, code := code, tag := 0x0102, body := body }

/-- The part with these tables, a request in service on Port A. -/
def serving (f : Frame) (T : Tables) : State := { State.reset with tables := T, serving := some { port := .a, frame := f } }

theorem serves (f : Frame) (T : Tables) : (serving f T).Serves .a f := ⟨rfl, .inl rfl⟩

theorem may {T : Tables} {r : Byte} {z : Fin 16} (h : T.permits r z = true) : T.MayChange r z := (permits_iff T r z).mp h

theorem mayNot {T : Tables} {r : Byte} {z : Fin 16} (h : T.permits r z = false) : ¬ T.MayChange r z := fun h' => by
  rw [(permits_iff T r z).mpr h'] at h; cases h

theorem wrongRevision : ¬ valve.Expects 5 := fun h => h.elim (by decide) (by decide)

/-- The completion code and body of the last reply on Port A. -/
def answer (o : Host.Outcome State Fault Refusal) : Option (Completion × List Byte) :=
  match o with
  | .next t => t.portA.replies.getLast?.map fun r => (r.completion, r.body)
  | _ => none

def byKey (k : Key) : RequestName := .key k.raw

/-! ### Well-formedness refuses an ill-formed command -/

theorem test_no_slot_512 : ¬ Instr.WellFormed (.stalenessExpiry 512) := by decide

theorem test_no_empty_clocking : ¬ Instr.WellFormed (.requestFrame .a []) := by decide

theorem test_wellformed : Instr.WellFormed (.stalenessExpiry 511) ∧ Instr.WellFormed (.requestFrame .b [0]) := by decide

/-! ### Values of the worked examples -/

/-- File 07, a STUCK tracker under STANDARD: windows 1, 3 and 6, and the two-level drop. -/
theorem test_tracker_values :
    Tracker.update Profile.standard .evidence { score := 0, verdict := .clear } = { score := 40, verdict := .watch } ∧
    Tracker.update Profile.standard .evidence { score := 80, verdict := .watch } = { score := 120, verdict := .suspect } ∧
    Tracker.update Profile.standard .clean { score := 80, verdict := .suspect } = { score := 60, verdict := .watch } ∧
    Tracker.update { rise := 255, fall := 255, onWatch := 40, onSuspect := 100, onConfirmed := 220, hyst := 20 } .clean
      { score := 120, verdict := .suspect } = { score := 0, verdict := .clear } := by decide

/-- File 04, lag learning. -/
theorem test_lag_values : learnLag 40 70 = 47 ∧ learnLag 47 60 = 50 ∧ watchAllowance Bank.default 47 = 120 := by decide

/-- File 04, a damper window: the ratio of 26 over 790. -/
theorem test_ratio_value :
    movementRatio { start := 20000, samples := 8, commandTravel := 790, feedbackTravel := 26, feedbackMin := some 306,
                    feedbackMax := some 324, feedbackCount := 8, stepExpiry := true, leak := none } = 32 := by decide

/-- File 05, a leak window: 2530 over 12; file 06, the overlap of 240 s in a window of 900 s. -/
theorem test_mean_values : truncatedMean 2530 12 = 210 ∧ overlapFraction 240 900 = 266 := by decide

/-- The check of section 10.6 over the digits 1 to 9. -/
theorem test_crc_value : crc16 [0x31, 0x32, 0x33, 0x34, 0x35, 0x36, 0x37, 0x38, 0x39] = 0x29B1 := by decide +kernel

/-! ### One reply of each request -/

/-- File 01, steps 1 and 4 of the worked example: RETIRE by handle 66, then DEFINE takes handle 67. -/
theorem test_retire_reply :
    answer (exec .retire (serving (frame 0x05 3 [2, 0, 66, 0, 4]) two)) = some (.done, [0, 66]) := by decide

theorem test_define_reply :
    answer (exec .define (serving (frame 0x01 4 [12, 5, 0x10, 5, 1, 1])
      { two with records := [(0, damper)], directory := [(0, damperKey)], recordGens := [(1, 3)] })) =
      some (.done, [0, 67, 0, 1, 0]) := by decide +kernel

theorem test_define_duplicate :
    answer (exec .define (serving (frame 0x01 3 [12, 3, 0, 2, 0]) two)) = some (.duplicateKey, []) := by decide

theorem test_lookup_settings_reply :
    answer (exec .lookup (serving (frame 0x02 9 [2, 0, 0, 1, 1]) two)) =
      some (.done, [0, 0, 0, 1, 0,
        3, 132, 5, 2, 0, 0, 7, 8, 1, 44, 10, 30,
        0, 250, 0, 200, 0, 150, 0, 120, 20, 0, 150, 1,
        0, 250, 0, 200, 0, 150, 0, 120, 20, 0, 150, 1, 0]) := by decide

theorem test_enumerate_reply :
    answer (exec .enumerate (serving (frame 0x03 9 [2, 1, 0, 0]) two)) =
      some (.done, [0, 66, 12, 3, 0x11, 1, 0, 4, 0, 0]) := by decide

theorem test_amend_reply :
    answer (exec .amend (serving (frame 0x04 3 [1, 12, 3, 0, 0, 1, 2, 5]) two)) = some (.done, [0, 0, 0, 2, 0]) := by
  decide

theorem test_observe_reply :
    answer (exec .observe (serving (frame 0x06 3 [2, 0, 0, 0, 0, 1, 0, 0, 0x4E, 0x20, 1, 1, 44, 1, 50]) two)) =
      some (.done, [0, 0, 0, 1, 1, 1, 0, 1, 0, 0, 0x4E, 0x20]) := by decide

theorem test_calibrate_reply :
    answer (exec .calibrate (serving (frame 0x07 3 [2, 0, 66, 0, 4, 1, 44]) two)) =
      some (.started, [0, 66, 0, 5, 0, 0, 0x4E, 0x20, 1, 44]) := by decide

theorem test_acquit_reply :
    answer (exec .acquit (serving (frame 0x08 3 [2, 0, 66, 2, 0, 4])
      (alone { valve with valve := some { sense := .heat, offset := 0, leak := { score := 9, verdict := .confirmed } } }))) =
      some (.done, [0, 66, 2, 9, 3, 1, 0, 5]) := by decide

theorem test_couple_reply :
    answer (exec .couple (serving (frame 0x09 3 [2, 0, 0, 2, 0, 66, 0]) two)) = some (.done, [128, 0]) := by decide

theorem test_uncouple_reply :
    answer (exec .uncouple (serving (frame 0x0A 3 [128, 0]) coupled)) = some (.done, [128, 0]) := by decide

theorem test_scan_reply :
    answer (exec .scan (serving (frame 0x0B 9 []) (alone { valve with mark := some 7 }))) =
      some (.done, [0, 1, 1, 0, 66, 0, 0, 0, 0, 7]) := by decide

theorem test_zone_set_reply :
    answer (exec .zoneSet (serving (frame 0x0C 0 [2, 3, 1, 1]) two)) = some (.done, [0, 0, 255, 1, 1, 255]) := by decide

theorem test_profile_set_reply :
    answer (exec .profileSet (serving (frame 0x0D 0 [40, 20, 100, 130, 160, 30]) two)) =
      some (.done, [40, 20, 40, 100, 200, 20, 40, 20, 100, 130, 160, 30]) := by decide

theorem test_port_set_reply :
    answer (exec .portSet (serving (frame 0x0E 0 [1, 15, 16, 15, 8, 0, 255]) two)) =
      some (.done, [12, 4, 1, 0, 0, 16, 15, 8, 0, 255]) := by decide

theorem test_set_time_reply :
    answer (exec .setTime (serving (frame 0x0F 0 [0xFF, 0xFF, 0xFF, 0xFF]) two)) =
      some (.done, [0, 0, 0x4E, 0x20, 0xFF, 0xFF, 0xFF, 0xFF]) := by decide

theorem test_read_time_reply :
    answer (exec .readTime (serving (frame 0x10 9 []) two)) = some (.done, [0, 0, 0x4E, 0x20]) := by decide

theorem test_status_reply :
    answer (exec .status (serving (frame 0x11 9 []) two)) =
      some (.done, [0, 0, 2, 1, 254, 0, 0, 0, 0, 0, 0, 0, 0, 0, 0x4E, 0x20]) := by decide

theorem test_restart_reply : answer (exec .restart (serving (frame 0x12 0 []) two)) = some (.done, []) := by decide

theorem test_unknown_reply :
    answer (exec .unknownRequest (serving (frame 0x13 0 [1]) two)) = some (.unknownRequest, []) := by decide

/-! ### One step of each other command -/

/-- A STATUS request, sent whole, is queued and answered by nothing yet. -/
theorem test_frame_queued :
    (match exec (.requestFrame .a (frame 0x11 9 []).bytes) State.reset with
      | .next t => t.portA.requests
      | _ => []) = [frame 0x11 9 []] := by decide +kernel

/-- The bytes of that frame, written out from section 10.6. -/
theorem test_frame_bytes :
    (frame 0x11 9 []).bytes = 0x5A :: 4 :: 9 :: 0x11 :: 1 :: 2 :: crcBytes [4, 9, 0x11, 1, 2] := by decide +kernel

theorem test_tick_stops_at_top :
    (match exec .clockTick (serving (frame 0 0 []) { two with clock := 4294967295 }) with
      | .next t => t.tables.clock
      | _ => 0) = 4294967295 := by decide

theorem test_fetch_word_spells_nothing : State.reset.withFetchWord 8 0 = State.reset := rfl

/-! ### States and operands that meet the hypotheses of each obligation -/

def aReply : Reply := { tag := 0, code := 0x10, completion := .done, body := [] }

/-- Both ports eligible, Port A with room for one reply, Port B served last. -/
def bothEligible : State :=
  { State.reset with
    portA := { Port.reset with requests := [frame 0x11 9 []], replies := List.replicate 15 aReply }
    portB := { Port.reset with requests := [frame 0x12 0 []] } }

theorem test_meets_step : ∃ (s : State) (c : Instr) (rest : List Instr), s.pending = c :: rest :=
  ⟨{ State.reset with pending := [.clockTick] }, .clockTick, [], rfl⟩

theorem test_meets_idle :
    (bothEligible.pending = [] ∧ bothEligible.resetLow = false ∧ bothEligible.TakesNext .a (frame 0x11 9 [])) ∧
    (let s := { bothEligible with lastServed := .a }
     s.pending = [] ∧ s.resetLow = false ∧ s.TakesNext .b (frame 0x12 0 [])) ∧
    (State.reset.pending = [] ∧ ¬ State.reset.portA.CanServe ∧ ¬ State.reset.portB.CanServe) :=
  ⟨⟨rfl, rfl, ⟨rfl, rfl, by decide, fun _ => by decide⟩⟩, ⟨rfl, rfl, ⟨rfl, rfl, by decide, fun _ => by decide⟩⟩,
   rfl, fun h => h.1 rfl, fun h => h.1 rfl⟩

theorem test_meets_nothing_served :
    (({ State.reset with resetLow := true } : State).resetLow = true ∧ (Instr.define, 0x01) ∈ requestCommands ∧
      ([0x5A] : List Byte) ≠ []) ∧
    ((serving (frame 0x12 0 []) two).Serves .a (frame 0x12 0 []) ∧ (frame 0x12 0 []).code.toNat ≠ 0x01) ∧
    (∀ code ∈ ([0x01, 0x12] : List Byte), (serving (frame code 0 []) two).Serves .a (frame code 0 []) ∧
      1 ≤ code.toNat ∧ code.toNat ≤ 0x12) ∧
    (State.reset.resetLow = false ∧ State.reset.serving = none ∧ ¬ State.reset.portA.CanServe ∧
      ¬ State.reset.portB.CanServe) :=
  ⟨⟨rfl, by decide, by decide⟩, ⟨serves _ _, by decide⟩, fun code h => ⟨serves _ _, by revert code; decide⟩,
   rfl, rfl, fun h => h.1 rfl, fun h => h.1 rfl⟩

/-- The delay test holds at its boundary of 255 s, and fails at the delay 0 that switches it off. -/
theorem test_meets_delay :
    (∃ m, m ∈ (alone { valve with mark := some 19745 }).markTimes ∧
      (∀ n ∈ (alone { valve with mark := some 19745 }).markTimes, m ≤ n) ∧ m ≤ two.clock ∧ 255 ≤ two.clock - m) ∧
    ¬ (0 < State.reset.portA.settings.delay) := ⟨⟨19745, by decide, by decide, by decide, by decide⟩, by decide⟩

/-- An expiry due exactly at the deadline, one a second short of it, and the first slot there is not. -/
theorem test_meets_expiry :
    (∃ l, ({ valve with last := some ⟨18200, 10, none⟩ } : Record).last = some l ∧
      l.time + valve.active.wide.staleAfter ≤ two.clock) ∧
    (∀ l, ({ valve with last := some ⟨18201, 10, none⟩ } : Record).last = some l →
      two.clock < l.time + valve.active.wide.staleAfter) ∧
    Table.get two.records 1 = some valve ∧ 512 ≤ 512 := by
  refine ⟨⟨_, rfl, by decide⟩, fun l h => ?_, by decide, le_refl _⟩
  cases h; decide

/-- A body of the greatest length, on a queue with one place left and on a full one, with no reply queued and with one. -/
theorem test_meets_frame_received :
    State.reset.resetLow = false ∧ State.reset.portA.receiver = .hunting ∧
    (frame 0x11 9 (List.replicate 246 0)).body.length ≤ 246 ∧
    ({ Port.reset with requests := List.replicate 15 (frame 0x11 9 []) } : Port).requests.length < 16 ∧
    16 ≤ ({ Port.reset with requests := List.replicate 16 (frame 0x11 9 []), replies := [aReply] } : Port).requests.length ∧
    Port.reset.replies = [] :=
  ⟨rfl, rfl, le_of_eq List.length_replicate, by decide, by decide, rfl⟩

theorem another_check (sum : List Byte) : ∃ check : List Byte, check.length = 2 ∧ check ≠ sum := by
  by_cases h : [0, 0] = sum
  · exact ⟨[0, 1], rfl, by rw [← h]; decide⟩
  · exact ⟨[0, 0], rfl, h⟩

/-- A length just below and just above those allowed, and a wrong check on a frame of the least and the greatest length. -/
theorem test_meets_bad_frames :
    (3 : Byte).toNat < 4 ∧ 250 < (251 : Byte).toNat ∧
    ∀ length ∈ ([4, 250] : List Byte), 4 ≤ length.toNat ∧ length.toNat ≤ 250 ∧
      ∃ inner check : List Byte, inner.length = length.toNat ∧ check.length = 2 ∧ check ≠ crcBytes (length :: inner) := by
  refine ⟨by decide, by decide, fun length h => ⟨by revert length; decide, by revert length; decide,
    List.replicate length.toNat 0, ?_⟩⟩
  obtain ⟨check, h1, h2⟩ := another_check (crcBytes (length :: List.replicate length.toNat 0))
  exact ⟨check, List.length_replicate, h1, h2⟩

theorem test_meets_select :
    ({ Port.reset with selected := true } : Port).selected = true ∧ Port.reset.selected = false := ⟨rfl, rfl⟩

/-- A reply at its marker, at its status byte, past it and at its last byte. -/
theorem test_meets_reply :
    State.reset.resetLow = false ∧ ({ Port.reset with replies := [aReply] } : Port).replies = aReply :: [] ∧
    Port.reset.shiftPos < 0 + 9 ∧ ({ Port.reset with shiftPos := 6 } : Port).shiftPos = 6 ∧
    6 < ({ Port.reset with shiftPos := 7 } : Port).shiftPos ∧ aReply.body.length + 9 ≤ 8 + 1 ∧
    ([1, 2] : List Byte).length = aReply.body.length + 9 - 7 ∧
    Port.reset.receiver = .hunting ∧ (0 : Byte) ≠ 0x5A ∧ Port.reset.replies = [] :=
  ⟨rfl, rfl, by decide, rfl, by decide, by decide, rfl, rfl, by decide, rfl⟩

/-- A receiver at the length byte, one byte short of the end of a frame, and at the end of one whose check is wrong. -/
theorem test_meets_receiver :
    ({ Port.reset with receiver := .inFrame [] } : Port).receiver = .inFrame [] ∧
    (∃ received b, (frame 0x11 9 []).bytes = 0x5A :: 4 :: received ++ [b] ∧ received.length + 1 = (4 : Byte).toNat + 2) ∧
    (([9, 0x11, 1, 2, 0] : List Byte).length + 1 = (4 : Byte).toNat + 2 ∧
      (([9, 0x11, 1, 2, 0] : List Byte) ++ [0]).drop 4 ≠ crcBytes (4 :: ([9, 0x11, 1, 2, 0] ++ [0]).take 4)) := by
  refine ⟨rfl, ⟨((frame 0x11 9 []).bytes.drop 2).take 5, (frame 0x11 9 []).bytes.getD 7 0, ?_⟩, ?_⟩ <;> decide +kernel

/-- OVERRUN set after the status byte was sent stays set when the reply leaves; reported by it, it is cleared. -/
theorem test_flag_after_status :
    let port : Port := { Port.reset with replies := [aReply], shiftPos := 7, overrun := true }
    (match exec (.replyShiftedOut .a 0) { State.reset with portA := port } with
      | .next t => (t.portA.overrun, t.portA.replies.length)
      | _ => (false, 9)) = (true, 0) ∧
    (match exec (.replyShiftedOut .a 0) { State.reset with portA := { port with statusByte := 2 } } with
      | .next t => (t.portA.overrun, t.portA.replies.length)
      | _ => (true, 9)) = (false, 0) := by decide +kernel

theorem test_meets_unknown :
    (serving (frame 0 0 []) two).Serves .a (frame 0 0 []) ∧ (frame 0 0 []).code = 0 ∧ 0x12 < (frame 0x13 0 []).code.toNat :=
  ⟨serves _ _, rfl, by decide⟩

theorem coupled_recordsOk : coupled.RecordsOk := ⟨by decide, ⟨by decide, by decide⟩, by decide, by decide⟩

theorem test_meets_names :
    coupled.RecordsOk ∧ 64 ≤ (RawKey.mk 64 0 0 0).building ∧ 256 ≤ (RawKey.mk 0 256 0 0).unit ∧
    16 ≤ (RawKey.mk 0 0 0 16).number ∧ 2 ≤ (RawKey.mk 0 0 2 0).kind ∧ (∀ e ∈ coupled.directory, e.2 ≠ newKey) ∧
    Table.get coupled.records 0 = some damper.raiseCount ∧
    (32768 ≤ 32768 ∧ Table.get coupled.records (32767 / 64) = none ∧ 64 % 64 ≠ generationOf coupled.recordGens (64 / 64)) ∧
    coupled.couplingOfHandle 32768 = some (0, pair) := by
  refine ⟨coupled_recordsOk, ?_⟩; decide

/-- A DEFINE of a VALVE with every optional field, its values at the ends of their ranges. -/
def defineReq : DefineReq :=
  { key := newKey.raw, zone := 5, sense := some 1, params := some ParamSet.default, lag := some 600, offset := some (-200) }

theorem defineReq_form : defineReq.FormOk :=
  ⟨by decide, by decide, by decide, by decide, by decide, by decide, by decide⟩

theorem defineReq_values : defineReq.ValuesOk :=
  ⟨by decide, .inr ⟨600, rfl, by decide, .inr ⟨rfl, -200, rfl, by decide, by decide⟩⟩⟩

theorem test_meets_define :
    (serving (frame 0x01 4 defineReq.bytes) two).Serves .a (frame 0x01 4 defineReq.bytes) ∧
    readDefine defineReq.bytes = some defineReq ∧ defineReq.FormOk ∧ defineReq.ValuesOk ∧ newKey.raw = defineReq.key ∧
    (5 : Fin 16).val = defineReq.zone ∧ two.MayChange 4 5 ∧ (∀ e ∈ two.directory, e.2 ≠ newKey) ∧
    Table.get two.records 2 = none ∧ (∀ j < 2, (Table.get two.records j).isSome = true) :=
  ⟨serves _ _, by decide, defineReq_form, defineReq_values, rfl, rfl, may (by decide), by decide, by decide, by decide⟩

theorem test_meets_define_refused :
    readDefine [] = none ∧
    (readDefine ({ defineReq with zone := 16 } : DefineReq).bytes = some { defineReq with zone := 16 } ∧
      ¬ ({ defineReq with zone := 16 } : DefineReq).FormOk) ∧
    ¬ two.MayChange 8 5 ∧
    (readDefine ({ defineReq with lag := some 601 } : DefineReq).bytes = some { defineReq with lag := some 601 } ∧
      ({ defineReq with lag := some 601 } : DefineReq).FormOk ∧
      ¬ ({ defineReq with lag := some 601 } : DefineReq).ValuesOk) ∧
    (1, valveKey) ∈ two.directory ∧
    ((∀ slot < 512, (Table.get full.records slot).isSome = true) ∧ ∀ e ∈ full.directory, e.2 ≠ newKey) := by
  refine ⟨rfl, ⟨by decide, fun h => absurd h.zone (by decide)⟩, mayNot (by decide),
    ⟨by decide, ⟨by decide, by decide, by decide, by decide, by decide, by decide, by decide⟩, fun h => ?_⟩, by decide,
    by decide +kernel, by decide⟩
  rcases h.learned with ⟨h, _⟩ | ⟨n, h, h', _⟩ <;> cases h
  exact absurd h' (by decide)

theorem test_meets_lookup :
    (readLookup (LookupReq.mk (byKey damperKey) 2 1).bytes = some ⟨byKey damperKey, 2, 1⟩ ∧
      (byKey damperKey).isCoupling = false ∧ two.resolveRecord (byKey damperKey) = .ok (0, damper)) ∧
    (readLookup (LookupReq.mk (.handle 32768) 0 0).bytes = some ⟨.handle 32768, 0, 0⟩ ∧
      coupled.couplingOfHandle 32768 = some (0, pair) ∧
      Table.get coupled.records pair.leadSlot = some damper.raiseCount ∧
      Table.get coupled.records pair.followerSlot = some valve.raiseCount) := ⟨⟨by decide, rfl, rfl⟩, by decide⟩

theorem test_meets_enumerate :
    readEnumerate (EnumerateReq.mk 15 (some 32767)).bytes = some ⟨15, some 32767⟩ ∧ (15 : Fin 16).val = 15 ∧
    (∀ c ∈ some 32767, c < 32768) := by decide

theorem test_meets_readers_refused :
    readLookup [] = none ∧
    (readLookup (LookupReq.mk (byKey damperKey) 3 0).bytes = some ⟨byKey damperKey, 3, 0⟩ ∧
      readLookup (LookupReq.mk (byKey damperKey) 2 2).bytes = some ⟨byKey damperKey, 2, 2⟩) ∧
    two.resolveRecord (byKey newKey) = .error { completion := .notFound, body := [] } ∧
    two.couplingOfHandle 32768 = none ∧ readEnumerate [] = none ∧
    readEnumerate (EnumerateReq.mk 16 none).bytes = some ⟨16, none⟩ ∧
    readEnumerate (EnumerateReq.mk 15 (some 32768)).bytes = some ⟨15, some 32768⟩ ∧ (frame 0x0B 0 [0]).body ≠ [] :=
  ⟨rfl, by decide, rfl, by decide, rfl, by decide, by decide, by decide⟩

def amendReq : AmendReq := { name := byKey valveKey, expected := 4, params := some ParamSet.default, zone := some 15 }

def badSet : ParamSet := { ParamSet.default with wide := { ParamSet.default.wide with windowLength := 59 } }

theorem test_meets_amend :
    readAmend amendReq.bytes = some amendReq ∧ two.resolveRecord amendReq.name = .ok (1, valve) ∧
    (amendReq.params ≠ none ∨ amendReq.zone ≠ none) ∧ (∀ n ∈ amendReq.zone, n < 16) ∧ two.MayChange 3 valve.zone ∧
    (∀ z : Fin 16, amendReq.zone = some z.val → z ≠ valve.zone → two.MayChange 3 z) ∧ valve.Expects amendReq.expected ∧
    (∀ set ∈ amendReq.params, set.InRange) ∧ (15 : Fin 16).val = amendReq.zone.getD valve.zone.val :=
  ⟨by decide, rfl, by decide, by decide, may (by decide), fun z _ _ => may (by revert z; decide), .inr rfl, by decide,
   rfl⟩

theorem test_meets_amend_refused :
    readAmend [] = none ∧ two.resolveRecord (byKey newKey) = .error { completion := .notFound, body := [] } ∧
    (({ amendReq with params := none, zone := none } : AmendReq).params = none ∧ (∃ n ∈ some 16, 16 ≤ n)) ∧
    ¬ two.MayChange 8 valve.zone ∧ ¬ valve.Expects 5 ∧ (∃ set ∈ some badSet, ¬ set.InRange) ∧ valve.Expects 0 :=
  ⟨rfl, rfl, ⟨rfl, 16, rfl, by decide⟩, mayNot (by decide), wrongRevision,
   ⟨badSet, rfl, by decide⟩, .inl rfl⟩

theorem test_meets_retire :
    readRetire (RetireReq.mk (.handle 66) 4).bytes = some ⟨.handle 66, 4⟩ ∧
    two.resolveRecord (.handle 66) = .ok (1, valve) ∧ two.MayChange 3 valve.zone ∧ valve.Expects 4 ∧
    valve.couplingCount = 0 := ⟨by decide, rfl, may (by decide), .inr rfl, rfl⟩

theorem test_meets_removals_refused :
    readRetire [] = none ∧ two.resolveRecord (.handle 65) = .error { completion := .notFound, body := [] } ∧
    ¬ two.MayChange 8 valve.zone ∧ ¬ valve.Expects 5 ∧
    (coupled.resolveRecord (.handle 66) = .ok (1, valve.raiseCount) ∧ valve.raiseCount.couplingCount ≠ 0) ∧
    readUncouple [] = none ∧ coupled.couplingOfHandle 32769 = none ∧
    (coupled.couplingOfHandle 32768 = some (0, pair) ∧ Table.get coupled.records pair.leadSlot = some damper.raiseCount ∧
      ¬ coupled.MayChange 8 damper.raiseCount.zone) :=
  ⟨rfl, rfl, mayNot (by decide), wrongRevision, ⟨rfl, by decide⟩, rfl, by decide, by decide,
   by decide, mayNot (by decide)⟩

def aSample (t : Nat) : RawSample :=
  { time := t, command := 10, feedback := some 12, entering := some 0, leaving := some (-1), fan := some 1 }

def observeReq : ObserveReq :=
  { name := byKey valveKey, expected := 4, count := 8, samples := (List.range 8).map aSample }

theorem test_meets_observe :
    readObserve observeReq.bytes = some observeReq ∧ two.resolveRecord observeReq.name = .ok (1, valve) ∧
    1 ≤ observeReq.count ∧ observeReq.count ≤ 8 ∧ (∀ x ∈ observeReq.samples, ∀ fan ∈ x.fan, fan ≤ 1) ∧
    two.MayChange 3 valve.zone ∧ valve.Expects observeReq.expected :=
  ⟨by decide +kernel, rfl, by decide, by decide, by decide, may (by decide), .inr rfl⟩

theorem test_meets_observe_refused :
    readObserve [] = none ∧
    (let q : ObserveReq := { observeReq with count := 0, samples := [] }
     readObserve q.bytes = some q ∧ ¬ 1 ≤ q.count) ∧
    (let q : ObserveReq := { observeReq with count := 9, samples := (List.range 9).map aSample }
     readObserve q.bytes = some q ∧ ¬ q.count ≤ 8) ∧
    (let q : ObserveReq := { observeReq with count := 1, samples := [{ aSample 0 with fan := some 2 }] }
     readObserve q.bytes = some q ∧ ¬ ∀ x ∈ q.samples, ∀ fan ∈ x.fan, fan = 0 ∨ fan = 1) ∧
    ¬ two.MayChange 8 valve.zone ∧ ¬ valve.Expects 5 :=
  ⟨rfl, by decide, by decide +kernel, by decide, mayNot (by decide), wrongRevision⟩

theorem test_meets_calibrate :
    (∀ d ∈ [300, 3600], readCalibrate (CalibrateReq.mk (.handle 66) 4 d).bytes = some ⟨.handle 66, 4, d⟩ ∧ 300 ≤ d ∧
      d ≤ 3600) ∧
    two.resolveRecord (.handle 66) = .ok (1, valve) ∧ two.MayChange 3 valve.zone ∧ valve.Expects 4 ∧ valve.valve ≠ none ∧
    valve.state ≠ .stale ∧ two.zones[valve.zone].mode = .run ∧ (∀ run, valve.cal ≠ .running run) :=
  ⟨by decide, rfl, may (by decide), .inr rfl, by decide, by decide, by decide, fun _ h => by cases h⟩

def aRun : CalRun := { start := 20000, duration := 300, count := 9, sum := 0 }

def heldZone : Zone := { Zone.reset with mode := .hold }

theorem test_meets_calibrate_refused :
    readCalibrate [] = none ∧ two.resolveRecord (.handle 65) = .error { completion := .notFound, body := [] } ∧
    (299 < 300 ∧ 3600 < 3601) ∧ ¬ two.MayChange 8 valve.zone ∧ ¬ valve.Expects 5 ∧ damper.valve = none ∧
    ({ valve with state := .stale } : Record).state = .stale ∧
    ({ two with zones := two.zones.set 2 heldZone } : Tables).zones[valve.zone].mode = .hold ∧
    (∃ run, ({ valve with cal := .running aRun } : Record).cal = .running run) :=
  ⟨rfl, rfl, by decide, mayNot (by decide), wrongRevision, rfl, rfl, by decide, _, rfl⟩

theorem test_meets_acquit :
    (∀ n ∈ [0, 1, 2], readAcquit (AcquitReq.mk (.handle 66) n 4).bytes = some ⟨.handle 66, n, 4⟩) ∧
    (RequestName.handle 66).isCoupling = false ∧ two.resolveRecord (.handle 66) = .ok (1, valve) ∧
    two.MayChange 3 valve.zone ∧ valve.Expects 4 ∧ valve.valve.isSome = true ∧
    (readAcquit (AcquitReq.mk (.handle 32768) 3 0).bytes = some ⟨.handle 32768, 3, 0⟩ ∧
      coupled.couplingOfHandle 32768 = some (0, pair) ∧ Table.get coupled.records pair.leadSlot = some damper.raiseCount ∧
      coupled.MayChange 3 damper.raiseCount.zone) :=
  ⟨by decide, rfl, rfl, may (by decide), .inr rfl, rfl, by decide, by decide, by decide, may (by decide)⟩

theorem test_meets_acquit_refused :
    readAcquit [] = none ∧ two.resolveRecord (.handle 65) = .error { completion := .notFound, body := [] } ∧ 3 ≤ 3 ∧
    ¬ two.MayChange 8 valve.zone ∧ ¬ valve.Expects 5 ∧ damper.valve = none ∧ damper.Expects 0 ∧
    (32768 ≤ 32768 ∧ two.couplingOfHandle 32768 = none) ∧
    (coupled.couplingOfHandle 32768 = some (0, pair) ∧ 2 ≠ 3 ∧ ¬ coupled.MayChange 8 damper.raiseCount.zone) :=
  ⟨rfl, rfl, le_refl _, mayNot (by decide), wrongRevision, rfl, .inl rfl, by decide,
   by decide, by decide, mayNot (by decide)⟩

def coupleReq : CoupleReq :=
  { lead := byKey damperKey, follower := .handle 66, params := some { CouplingParams.default with huntCount := 32 } }

theorem test_meets_couple :
    readCouple coupleReq.bytes = some coupleReq ∧ two.resolveRecord coupleReq.lead = .ok (0, damper) ∧
    two.resolveRecord coupleReq.follower = .ok (1, valve) ∧ 0 ≠ 1 ∧ (∀ c ∈ coupleReq.params, c.InRange) ∧
    two.MayChange 3 damper.zone ∧ two.MayChange 3 valve.zone ∧
    (∀ e ∈ two.couplings, ¬ (e.2.names 0 = true ∧ e.2.names 1 = true)) ∧ damper.couplingCount < 4 ∧
    valve.couplingCount < 4 ∧ Table.get two.couplings 0 = none ∧ (∀ j < 0, (Table.get two.couplings j).isSome = true) :=
  ⟨by decide, rfl, rfl, by decide, by decide, may (by decide), may (by decide), by decide, by decide, by decide, by decide,
   by decide⟩

theorem test_meets_couple_refused :
    readCouple [] = none ∧ two.resolveRecord (byKey newKey) = .error { completion := .notFound, body := [] } ∧
    two.resolveRecord (.handle 0) = two.resolveRecord (byKey damperKey) ∧
    (∃ c ∈ some { CouplingParams.default with huntCount := 33 }, ¬ c.InRange) ∧ ¬ two.MayChange 8 damper.zone ∧
    (¬ ∀ e ∈ coupled.couplings, ¬ (e.2.names 0 = true ∧ e.2.names 1 = true)) ∧
    4 ≤ ({ damper with couplingCount := 4 } : Record).couplingCount ∧
    ((∀ j < 256, (Table.get full.couplings j).isSome = true) ∧
      ∀ e ∈ full.couplings, ¬ (e.2.names 0 = true ∧ e.2.names 1 = true)) :=
  ⟨rfl, rfl, rfl, ⟨_, rfl, by decide⟩, mayNot (by decide), by decide, by decide, by decide +kernel⟩

theorem test_meets_uncouple :
    readUncouple (be16 32768) = some 32768 ∧ coupled.couplingOfHandle 32768 = some (0, pair) ∧
    pair.leadSlot ≠ pair.followerSlot ∧ Table.get coupled.records pair.leadSlot = some damper.raiseCount ∧
    Table.get coupled.records pair.followerSlot = some valve.raiseCount ∧
    coupled.MayChange 3 damper.raiseCount.zone :=
  ⟨by decide, by decide, by decide, by decide, by decide, may (by decide)⟩

theorem test_meets_zone_set :
    readZoneSet [] = none ∧ (frame 0x0C 1 []).requester ≠ 0 ∧
    (let q : ZoneSetReq := { zone := 15, mode := some 1, seasonBank := some 1, owners := some 255 }
     readZoneSet q.bytes = some q ∧ q.zone < 16 ∧ (∀ n ∈ q.mode, n = 0 ∨ n = 1) ∧ (∀ n ∈ q.seasonBank, n = 0 ∨ n = 1)) ∧
    (∀ q ∈ [ZoneSetReq.mk 16 none none none, ZoneSetReq.mk 0 (some 2) none none, ZoneSetReq.mk 0 none (some 2) none],
      readZoneSet q.bytes = some q ∧
      ¬ (q.zone < 16 ∧ (∀ n ∈ q.mode, n = 0 ∨ n = 1) ∧ (∀ n ∈ q.seasonBank, n = 0 ∨ n = 1))) := by decide

theorem test_meets_profile_set :
    readProfile [] = none ∧ (frame 0x0D 1 []).requester ≠ 0 ∧
    (∀ q ∈ [Profile.mk 1 0 1 2 3 0, Profile.mk 255 255 253 254 255 252], readProfile q.bytes = some q ∧ q.Valid) ∧
    (∀ q ∈ [Profile.mk 0 0 1 2 3 0, Profile.mk 1 0 1 2 3 1, Profile.mk 1 0 2 2 3 0],
      readProfile q.bytes = some q ∧ ¬ q.Valid) := by decide

theorem test_meets_port_set :
    readPortSet [] = none ∧ (frame 0x0E 1 []).requester ≠ 0 ∧ readPortSet [2, 0] = some ⟨2, none, none, none, none⟩ ∧
    (∀ q ∈ [PortSetReq.mk 0 (some 16) (some 15) (some 8) (some 255), PortSetReq.mk 1 (some 4) (some 3) none none],
      readPortSet q.bytes = some q ∧ q.InRange ∧
      (PortSettings.reset.write q).holdOff < (PortSettings.reset.write q).holdOn) ∧
    (∀ q ∈ [PortSetReq.mk 0 (some 17) none none none, PortSetReq.mk 0 (some 3) (some 0) none none,
            PortSetReq.mk 0 none none (some 3) none, PortSetReq.mk 0 none (some 12) none none,
            PortSetReq.mk 0 none none none (some 256)],
      readPortSet q.bytes = some q ∧
      ¬ (q.InRange ∧ (PortSettings.reset.write q).holdOff < (PortSettings.reset.write q).holdOn)) := by decide

/-- SCAN, SET_TIME, READ_TIME, STATUS and RESTART: bodies that match and bodies that do not. -/
theorem test_meets_short_bodies :
    (frame 0x0B 9 []).body = [] ∧ (frame 0x0F 0 [1, 2, 3]).body.length ≠ 4 ∧
    (frame 0x0F 0 [1, 2, 3, 4]).body = [1, 2, 3, 4] ∧ (frame 0x0F 1 [1, 2, 3, 4]).requester ≠ 0 ∧
    (frame 0x12 0 [0]).body ≠ [] ∧ (serving (frame 0x12 0 []) two).Serves .a (frame 0x12 0 []) :=
  ⟨rfl, by decide, rfl, by decide, by decide, serves _ _⟩

/-- Every layout at the ends of its fields. -/
theorem test_meets_layouts :
    (DefineReq.mk ⟨255, 255, 15, 15⟩ 255 (some 255) none (some 65535) (some (-32768))).key.Fits ∧ fits16s (-32768) ∧
    fits16s 32767 ∧ ParamSet.default.Fits ∧ (RequestName.handle 65535).Fits ∧ (aSample 4294967295).Fits ∧
    CouplingParams.default.Fits ∧ (Profile.mk 255 255 255 255 255 255).Fits ∧ fits32 4294967295 ∧
    ((RequestName.handle 65535).isCoupling = true ∧ (AcquitReq.mk (.handle 65535) 3 0).expected = 0) ∧
    observeReq.samples.length = observeReq.count := by decide

/-- LATE at the last sample's time, FUTURE 61 s ahead of the clock, ACCEPTED 60 s ahead. -/
theorem test_meets_sample_results :
    (∃ l, ({ valve with last := some ⟨100, 10, none⟩ } : Record).last = some l ∧ 100 ≤ l.time) ∧
    (¬ (∃ l, valve.last = some l ∧ 20061 ≤ l.time) ∧ two.clock + 60 < 20061) ∧ 20060 ≤ two.clock + 60 ∧
    Table.get two.records 1 = some valve :=
  ⟨⟨_, rfl, by decide⟩, ⟨fun ⟨_, h, _⟩ => (by cases h), by decide⟩, by decide, by decide⟩

def aWindow : Window :=
  { start := 1000, samples := 5, commandTravel := 200, feedbackTravel := 49, feedbackMin := some 10,
    feedbackMax := some 10, feedbackCount := 2, stepExpiry := false, leak := some { count := 10, sum := 1510 } }

def cond (t command : Nat) (feedback : Option Nat) : Sample :=
  { time := t, command := command, feedback := feedback, entering := some 100, leaving := some 260, fanOn := some true }

theorem test_meets_window_stage :
    ({ valve with state := .stale } : Record).state = .stale ∧ (valve.state ≠ .stale ∧ valve.window = none) ∧
    (({ valve with window := some aWindow } : Record).window = some aWindow ∧
      (cond 1899 0 none).time < aWindow.start + valve.active.wide.windowLength ∧
      aWindow.start + valve.active.wide.windowLength ≤ (cond 1900 0 none).time) := by decide

/-- Each clause of the accumulation: the pairing at the window's start, the closed run settled and not. -/
theorem test_meets_figures :
    (cond 1700 20 (some 15)).feedback = some 15 ∧ (cond 1700 20 none).feedback = none ∧
    (aWindow.start ≤ (LastSample.mk 1000 5 (some 4)).time ∧ (LastSample.mk 999 5 (some 4)).time < aWindow.start) ∧
    (20 ≤ valve.activeBank.closedLevel ∧ some ((some 1400).getD 1700) = some 1400 ∧
      1400 + valve.active.wide.closedSettle ≤ (cond 1700 20 none).time ∧
      (cond 1699 20 none).time < 1400 + valve.active.wide.closedSettle) ∧
    damper.valve = none := by decide

def aWatch : StepWatch :=
  { start := 1000, startCommand := 300, startFeedback := 306, direction := .up, total := 200, deadline := 1120 }

theorem test_meets_step_watch :
    (aWatch.deadline ≤ 1120 ∧ 1119 < aWatch.deadline) ∧ aWatch.startFeedback + aWatch.total / 2 ≤ 406 ∧
    ¬ aWatch.startFeedback + aWatch.total / 2 ≤ 405 ∧ valve.watch = none ∧ 1 ≤ valve.activeBank.stepSize ∧
    (valve.activeBank.stepSize ≤ ((450 : Int) - 300).natAbs ∧ ((449 : Int) - 300).natAbs < valve.activeBank.stepSize) ∧
    aWatch.direction = .up ∧ aWatch.direction ≠ .down := by decide

/-- Each clause of the running calibration, the tenth qualifying sample and each end of the mean. -/
theorem test_meets_calibration :
    (∀ run, valve.cal ≠ .running run) ∧ ({ valve with cal := .running aRun } : Record).cal = .running aRun ∧
    (19999 < aRun.start ∧ aRun.start ≤ 20000) ∧ valve.activeBank.closedLevel < 21 ∧ 20 ≤ valve.activeBank.closedLevel ∧
    (20299 < aRun.start + aRun.duration ∧ aRun.start + aRun.duration ≤ 20300) ∧ (9 < 10 ∧ 10 ≤ aRun.count + 1) ∧
    (-200 ≤ (-2009 : Int).tdiv 10 ∧ (2009 : Int).tdiv 10 ≤ 200) ∧
    ((-2010 : Int).tdiv 10 < -200 ∧ 200 < (2010 : Int).tdiv 10) :=
  ⟨fun _ h => (by cases h), by decide⟩

theorem test_meets_reversal : 1 ≤ 1 ∧ 100 + 30 ≤ 130 ∧ ¬ 100 + 30 ≤ 129 := by decide

theorem test_meets_member_sample :
    pair.names 5 = false ∧ pair.leadSlot = 0 ∧ (pair.leadSlot ≠ 1 ∧ pair.followerSlot = 1) ∧
    (∃ y : Reversal, some (Reversal.mk 1000 .up) = some y ∧ ((1120 : Int) - y.time).natAbs ≤ pair.params.pairWindow ∧
      y.direction ≠ .down) ∧
    ¬ (∃ y : Reversal, some (Reversal.mk 1000 .up) = some y ∧ ((1121 : Int) - y.time).natAbs ≤ pair.params.pairWindow ∧
      y.direction ≠ .down) :=
  ⟨by decide, by decide, by decide, ⟨_, rfl, by decide, by decide⟩, fun ⟨y, h, h', _⟩ => by cases h; revert h'; decide⟩

theorem test_meets_window_evidence :
    (valve.active.wide.minSamples ≤ aWindow.samples ∧ ZoneMode.run = .run ∧ valve.state = .live) ∧
    ¬ valve.active.wide.minSamples ≤ ({ aWindow with samples := 4 } : Window).samples := by decide

/-- Some level is met; none is, from each verdict. -/
theorem test_meets_tracker :
    (∃ v : Verdict, Verdict.clear.level < v.level ∧ Profile.standard.on v ≤ 40) ∧
    (¬ ∃ v : Verdict, Verdict.clear.level < v.level ∧ Profile.standard.on v ≤ 39) ∧
    (¬ ∃ v : Verdict, Verdict.watch.level < v.level ∧ Profile.standard.on v ≤ 19) ∧
    (¬ ∃ v : Verdict, Verdict.suspect.level < v.level ∧ Profile.standard.on v ≤ 80) ∧
    (¬ ∃ v : Verdict, Verdict.confirmed.level < v.level ∧ Profile.standard.on v ≤ 255) := by
  refine ⟨⟨.watch, by decide⟩, ?_, ?_, ?_, ?_⟩ <;> rintro ⟨v, h⟩ <;> revert h <;> cases v <;> decide

def fed : Coupling := { pair with followerCommand := some 250, overlap := 180 }

theorem test_meets_fight :
    Table.get coupled.records fed.followerSlot = some valve.raiseCount ∧ coupled.fightNeutral damper aWindow fed = false ∧
    coupled.fightNeutral damper aWindow pair = true ∧
    fed.params.overlapFraction ≤ min 1000 (180 * 1000 / damper.active.wide.windowLength) ∧
    ¬ fed.params.overlapFraction ≤ min 1000 (179 * 1000 / damper.active.wide.windowLength) := by decide

/-- A part with records, a coupling, an open window and a CONFIRMED verdict, in which every invariant holds. -/
def lived : Tables :=
  { coupled with
    records := [(0, { damper.raiseCount with stuck := { score := 220, verdict := .confirmed } }),
      (1, { valve.raiseCount with
            last := some ⟨1060, 10, none⟩
            window := some { aWindow with samples := 2, commandTravel := 0, feedbackTravel := 0, feedbackCount := 0,
                                          feedbackMin := none, feedbackMax := none, leak := some ⟨1, 5⟩ } })]
    couplings := [(0, { pair with fight := { score := 220, verdict := .confirmed } })] }

theorem lived_recordsOk : lived.RecordsOk := ⟨by decide, ⟨by decide, by decide⟩, by decide, by decide⟩

theorem lived_couplingsOk : lived.CouplingsOk := ⟨by decide, ⟨by decide, by decide⟩, by decide, by decide, by decide⟩

theorem lived_followersOk : lived.FollowersOk := by
  intro e he f hf
  simp only [lived, List.mem_singleton] at he
  subst he
  have : f = { valve.raiseCount with
            last := some ⟨1060, 10, none⟩
            window := some { aWindow with samples := 2, commandTravel := 0, feedbackTravel := 0, feedbackCount := 0,
                                          feedbackMin := none, feedbackMax := none, leak := some ⟨1, 5⟩ } } :=
    Option.some.inj (hf.symm.trans (by decide))
  subst this
  decide

theorem lived_shaped : lived.RecordsShaped := by
  intro e he
  simp only [lived, List.mem_cons, List.not_mem_nil, or_false] at he
  rcases he with rfl | rfl <;> constructor <;> decide

theorem lived_windows : lived.WindowsOk := by
  intro e he
  simp only [lived, List.mem_cons, List.not_mem_nil, or_false] at he
  rcases he with rfl | rfl
  · exact ⟨by decide, by decide⟩
  · refine ⟨by decide, fun w hw => ⟨⟨1060, 10, none⟩, rfl, ?_⟩⟩
    cases hw; decide

theorem test_meets_invariants :
    lived.RecordsOk ∧ lived.CouplingsOk ∧ lived.FollowersOk ∧ lived.RecordsShaped ∧ lived.WindowsOk ∧
    lived.profile4.Valid ∧ lived.clock ≤ 4294967295 ∧
    (∃ t, step { State.reset with tables := lived, pending := [.clockTick] } = .next t) :=
  ⟨lived_recordsOk, lived_couplingsOk, lived_followersOk, lived_shaped, lived_windows, by decide, by decide, _, rfl⟩

theorem reset_attnAt (p : PortId) : State.reset.AttnAt p := by
  rw [attnAt_iff]; cases p <;> rfl

theorem reset_portOk (p : PortId) : (State.reset.port p).Within ∧ (State.reset.port p).HoldOk := by
  cases p <;> exact ⟨⟨by decide, by decide, by decide, fun _ _ h => (by cases h), .inl rfl⟩, by decide, by decide⟩

theorem test_meets_ports_invariant :
    State.reset.PortsOk ∧ State.reset.AttnOk ∧ ∃ t, step { State.reset with pending := [.clockTick] } = .next t :=
  ⟨⟨(reset_portOk .a).1, (reset_portOk .b).1, fun _ => ⟨(reset_portOk .a).2, (reset_portOk .b).2⟩, fun h => (by cases h),
    fun _ h => (by cases h)⟩, ⟨reset_attnAt .a, reset_attnAt .b⟩, _, rfl⟩

theorem test_meets_standing :
    ({ State.reset with tables := lived, pending := [.clockTick] } : State).pending = .clockTick :: [] ∧
    (∃ t, step { State.reset with tables := lived, pending := [.clockTick] } = .next t) ∧
    Instr.clockTick ≠ .powerOn ∧ Instr.clockTick ≠ .acquit ∧ Instr.clockTick ≠ .retire ∧
    (∃ r, Table.get lived.records 0 = some r ∧ r.stuck.verdict = .confirmed) ∧
    (∃ d, Table.get lived.couplings 0 = some d ∧ d.fight.verdict = .confirmed) :=
  ⟨rfl, ⟨_, rfl⟩, by decide, by decide, by decide, ⟨_, rfl, rfl⟩, _, rfl, rfl⟩

theorem test_meets_isolation :
    (Instr.lookup, 0x02) ∈ requestCommands ∧
    (serving (frame 0x02 8 (LookupReq.mk (byKey damperKey) 0 0).bytes) two).Serves .a
      (frame 0x02 8 (LookupReq.mk (byKey damperKey) 0 0).bytes) ∧
    (∃ t, exec .lookup (serving (frame 0x02 8 (LookupReq.mk (byKey damperKey) 0 0).bytes) two) = .next t) ∧
    Table.get two.records 0 = some damper ∧ ¬ two.MayChange 8 damper.zone := by
  refine ⟨by decide, serves _ _, ?_, by decide, mayNot (by decide)⟩
  show ∃ t, execLookup _ = .next t
  unfold execLookup State.serveTables State.serve
  split <;> exact ⟨_, rfl⟩

end Sys2Proof.Tests
end

section
/-! SUPPORT. What a step can do to a record, said once: the edits of a record, and for each command the edit it makes. The
statements about what every step keeps, what a record keeps for life and what a requester cannot change rest on it. -/

namespace Sys2Proof.Machine

section
variable {α β : Type}

/-! ### Tables by slot -/

theorem Table.get_isSome_iff (t : Table α) (i : Nat) : (Table.get t i).isSome ↔ i ∈ t.map Prod.fst := by
  constructor
  · intro h
    obtain ⟨v, hv⟩ := Option.isSome_iff_exists.mp h
    exact List.mem_map_of_mem (Table.mem_of_get hv)
  · intro h
    obtain ⟨e, he, rfl⟩ := List.mem_map.mp h
    exact Table.get_isSome_of_mem he

/-- Two tables that list the same slots in rising order and hold the same in each are one table. -/
theorem Table.eq_of_get {t t' : Table α} (hs : (t.map Prod.fst).Pairwise (· < ·))
    (hk : t'.map Prod.fst = t.map Prod.fst) (hg : ∀ i, Table.get t' i = Table.get t i) : t' = t := by
  have hs' : (t'.map Prod.fst).Pairwise (· < ·) := hk ▸ hs
  have read {u : Table α} (hu : (u.map Prod.fst).Pairwise (· < ·)) :
      u.map (fun e => (e.1, some e.2)) = (u.map Prod.fst).map fun i => (i, Table.get u i) := by
    rw [List.map_map]
    exact List.map_congr_left fun e he => by simp [Table.get_of_mem hu he]
  have hpair : Function.Injective fun e : Nat × α => (e.1, some e.2) := fun a b h =>
    Prod.ext (Prod.mk.inj h).1 (Option.some.inj (Prod.mk.inj h).2)
  refine List.map_injective_iff.mpr hpair ?_
  rw [read hs', read hs, hk]
  exact List.map_congr_left fun i _ => by rw [hg]

/-- Filling an empty slot lists one entry more. -/
theorem Table.put_perm {t : Table α} {i : Nat} (v : α) (h : Table.get t i = none) :
    (Table.put t i v).Perm ((i, v) :: t) := by
  induction t with
  | nil => exact List.Perm.refl _
  | cons e rest ih =>
    by_cases he : e.1 = i
    · simp [Table.get, he] at h
    · simp only [Table.get, if_neg he] at h
      simp only [Table.put, if_neg (Ne.symm he)]
      split_ifs
      · exact List.Perm.refl _
      · exact ((ih h).cons e).trans (List.Perm.swap _ _ _)

/-! ### modifyRecord -/

theorem modifyRecord_get (T : Tables) (i j : Nat) (f : Record → Record) :
    Table.get (T.modifyRecord i f).records j = if j = i then (Table.get T.records i).map f else Table.get T.records j := by
  simp only [Tables.modifyRecord]
  induction T.records with
  | nil => simp
  | cons e rest ih =>
    obtain ⟨k, w⟩ := e
    simp only [List.map_cons, Table.get]
    by_cases hk : k = i <;> by_cases hj : j = i <;> by_cases hkj : k = j <;> simp_all

theorem modifyRecord_slots (T : Tables) (i : Nat) (f : Record → Record) :
    (T.modifyRecord i f).records.map Prod.fst = T.records.map Prod.fst := by
  simp only [Tables.modifyRecord, List.map_map]
  refine List.map_congr_left fun e _ => ?_
  simp only [Function.comp]
  split_ifs <;> rfl

end

/-! ### The edits of a record -/

/-- The record after some accepted samples, applied one after another (R51, R54). -/
inductive Record.SampledFrom (r : Record) : Record → Prop where
  | refl : SampledFrom r r
  | step {r1 : Record} (T : Tables) (x : RawSample) (h : SampledFrom r r1)
      (accepted : sampleResult T.clock r1 x.time = .accepted) : SampledFrom r (T.sampledRecord x.condition r1)

theorem Record.SampledFrom.standing {r r' : Record} (h : r.SampledFrom r') : r.SameStanding r' := by
  induction h with
  | refl => exact .refl r
  | step T x _ _ ih => exact ih.trans (sampledRecord_standing T x.condition _)

/-- Everything a command but POWER_ON, DEFINE and RETIRE does to one record. The access check a request made of the
record's zone stands in `may`. -/
inductive RecordEdit (may : Fin 16 → Prop) (r : Record) : Instr → Record → Prop where
  | same (c : Instr) : RecordEdit may r c r
  | restarted (c : Instr) (clock : Nat) (hc : c = .warmRestart ∨ c = .restart ∧ ∀ z, may z) :
      RecordEdit may r c (r.warmRestart clock)
  | expired (slot clock : Nat) : RecordEdit may r (.stalenessExpiry slot) (r.expire clock)
  | unmarked : RecordEdit may r .lookup { r with mark := none }
  | amended (set : Option ParamSet) (zone : Fin 16) (hmay : may r.zone)
      (hset : ∀ p ∈ set, p ∈ r.pendingSet ∨ p.InRange) :
      RecordEdit may r .amend { r with pendingSet := set, zone := zone, revision := nextRevision r.revision }
  | observed (r' : Record) (hmay : may r.zone) (h : r.SampledFrom r') : RecordEdit may r .observe r'
  | calibrated (start duration : Nat) (hmay : may r.zone) (valve : r.valve.isSome = true) (live : r.state ≠ .stale) :
      RecordEdit may r .calibrate
        { r with cal := .running { start := start, duration := duration, count := 0, sum := 0 },
                 revision := nextRevision r.revision }
  | acquitted (tracker : Nat) (hmay : may r.zone) :
      RecordEdit may r .acquit { r.acquitTracker tracker with mark := none, revision := nextRevision r.revision }
  | raised (hmay : may r.zone) : RecordEdit may r .couple r.raiseCount
  | counted (n : Nat) : RecordEdit may r .uncouple { r with couplingCount := n }

/-- Tables whose records were edited in their slots, the directory and the generations standing. -/
structure Tables.Edited (may : Fin 16 → Prop) (c : Instr) (T T' : Tables) : Prop where
  slots : T'.records.map Prod.fst = T.records.map Prod.fst
  record : ∀ i r, Table.get T.records i = some r → ∃ r', Table.get T'.records i = some r' ∧ RecordEdit may r c r'
  directory : T'.directory = T.directory
  recordGens : T'.recordGens = T.recordGens

section
variable {may : Fin 16 → Prop} {c : Instr} {T T' : Tables}

theorem Tables.Edited.of_records (h : T'.records = T.records) (hd : T'.directory = T.directory)
    (hg : T'.recordGens = T.recordGens) : Tables.Edited may c T T' :=
  ⟨by rw [h], fun _ r hr => ⟨r, by rw [h]; exact hr, .same c⟩, hd, hg⟩

/-- One record replaced by an edit of it. -/
theorem Tables.Edited.of_replace {slot : Nat} {r r' : Record} (hr : Table.get T.records slot = some r)
    (he : RecordEdit may r c r') : Tables.Edited may c T { T with records := Table.replace T.records slot r' } where
  slots := Table.replace_keys _ _ _
  record i q hq := by
    by_cases hi : i = slot
    · subst hi
      cases hr.symm.trans hq
      exact ⟨r', Table.get_replace_self r' hr, he⟩
    · exact ⟨q, (Table.get_replace_ne _ _ hi).trans hq, .same c⟩
  directory := rfl
  recordGens := rfl

/-- Every record replaced by the same edit of it. -/
theorem Tables.Edited.of_mapValues {g : Record → Record} (hT : T'.records = Table.mapValues T.records g)
    (hd : T'.directory = T.directory) (hg : T'.recordGens = T.recordGens) (he : ∀ r, RecordEdit may r c (g r)) :
    Tables.Edited may c T T' where
  slots := by rw [hT, Table.mapValues_keys]
  record i r hr := ⟨g r, by rw [hT, Table.get_mapValues, hr]; rfl, he r⟩
  directory := hd
  recordGens := hg

/-! ### The edit each command makes -/

theorem warmRestart_edited (hc : c = .warmRestart ∨ c = .restart ∧ ∀ z, may z) :
    Tables.Edited may c T T.warmRestart :=
  .of_mapValues rfl rfl rfl fun _ => .restarted c T.clock hc

theorem expire_edited {slot : Nat} {r : Record} (hr : Table.get T.records slot = some r) :
    Tables.Edited may (.stalenessExpiry slot) T (T.expire slot r) := by
  have h := Tables.Edited.of_replace (may := may) hr (.expired slot T.clock)
  exact ⟨h.slots, h.record, h.directory, h.recordGens⟩

end

section
variable {f : Frame} {T : Tables} {a : Accepted}

/-- The access check a request makes of a zone (R147). -/
def Frame.may (f : Frame) (T : Tables) (zone : Fin 16) : Prop := T.permits f.requester zone = true

theorem lookup_edited (h : lookup f T = .ok a) : Tables.Edited (f.may T) .lookup T a.tables := by
  obtain ⟨q, _, _, ⟨_, slot, r, hr, rfl⟩ | ⟨_, slot, c, _, _, _, rfl⟩⟩ := lookup_ok.mp h
  · unfold lookupRecord
    dsimp only
    split_ifs
    · exact .of_replace (resolveRecord_get hr) .unmarked
    · exact .of_records rfl rfl rfl
  · unfold lookupCoupling
    dsimp only
    split_ifs <;> exact .of_records rfl rfl rfl

theorem amend_edited (h : amend f T = .ok a) : Tables.Edited (f.may T) .amend T a.tables := by
  obtain ⟨q, slot, r, newZone, _, hr, _, _, ⟨hmay, _⟩, _, hp, rfl⟩ := amend_ok.mp h
  refine .of_replace (resolveRecord_get hr) (.amended _ _ hmay fun p hset => ?_)
  split_ifs at hset
  · exact .inr (hp p hset)
  · exact .inl hset

theorem calibrate_edited (h : calibrate f T = .ok a) : Tables.Edited (f.may T) .calibrate T a.tables := by
  obtain ⟨q, slot, r, _, hr, _, hmay, _, hv, hs, _, _, rfl⟩ := calibrate_ok.mp h
  exact .of_replace (resolveRecord_get hr) (.calibrated _ _ hmay hv hs)

theorem acquit_edited (h : acquit f T = .ok a) : Tables.Edited (f.may T) .acquit T a.tables := by
  obtain ⟨q, _, ⟨_, h⟩ | ⟨n, _, _, h⟩⟩ := acquit_ok.mp h
  · obtain ⟨slot, r, before, hr, _, hmay, _, _, rfl⟩ := acquitRecord_ok.mp h
    exact .of_replace (resolveRecord_get hr) (.acquitted _ hmay)
  · obtain ⟨slot, c, _, _, _, rfl⟩ := acquitCoupling_ok.mp h
    exact .of_records rfl rfl rfl

theorem couple_edited (h : couple f T = .ok a) : Tables.Edited (f.may T) .couple T a.tables := by
  obtain ⟨q, i, lead, j, follower, slot, _, hi, hj, hne, _, ⟨hl, hf⟩, _, _, _, rfl⟩ := couple_ok.mp h
  refine ⟨by simp only [modifyRecord_slots], fun k r hr => ?_, rfl, rfl⟩
  simp only [modifyRecord_get]
  by_cases hkj : k = j
  · subst hkj
    cases (resolveRecord_get hj).symm.trans hr
    exact ⟨_, by rw [if_pos rfl, if_neg (Ne.symm hne), hr]; rfl, .raised hf⟩
  · by_cases hki : k = i
    · subst hki
      cases (resolveRecord_get hi).symm.trans hr
      exact ⟨_, by rw [if_neg hkj, if_pos rfl, hr]; rfl, .raised hl⟩
    · exact ⟨r, by rw [if_neg hkj, if_neg hki, hr], .same _⟩

theorem uncouple_edited (h : uncouple f T = .ok a) : Tables.Edited (f.may T) .uncouple T a.tables := by
  obtain ⟨n, slot, c, _, _, _, rfl⟩ := uncouple_ok.mp h
  refine ⟨by simp only [modifyRecord_slots], fun k r hr => ?_, rfl, rfl⟩
  have lowered (U : Tables) (i : Nat) {n : Nat} (hU : Table.get U.records k = some { r with couplingCount := n }) :
      ∃ m, Table.get (U.modifyRecord i Record.lowerCount).records k = some { r with couplingCount := m } := by
    rw [modifyRecord_get]
    split_ifs with hk
    · subst hk
      exact ⟨n - 1, by rw [hU]; rfl⟩
    · exact ⟨n, hU⟩
  obtain ⟨m, hm⟩ := lowered T c.leadSlot hr
  obtain ⟨m', hm'⟩ := lowered _ c.followerSlot hm
  exact ⟨_, hm', .counted m'⟩

/-- The record an OBSERVE names took the samples accepted, one after another. -/
theorem applySamples_sampledFrom {slot : Nat} {r : Record} (xs : List RawSample) (hr : Table.get T.records slot = some r) :
    ∃ r', Table.get (T.applySamples slot xs).1.records slot = some r' ∧ r.SampledFrom r' :=
  applySamples_induct (P := fun U => ∃ r', Table.get U.records slot = some r' ∧ r.SampledFrom r') xs ⟨r, hr, .refl⟩
    fun U r1 x hP hr1 hx => by
      obtain ⟨r2, hr2, hs⟩ := hP
      cases hr1.symm.trans hr2
      exact ⟨_, Table.get_replace_self _ hr1, hs.step U x hx⟩

theorem observe_edited (h : observe f T = .ok a) : Tables.Edited (f.may T) .observe T a.tables := by
  obtain ⟨q, slot, r, _, hr, _, hmay, _, rfl⟩ := observe_ok.mp h
  have hat := applySamples_at T slot q.samples
  have hr := resolveRecord_get hr
  refine ⟨hat.slots, fun i r1 hr1 => ?_, hat.directory, hat.recordGens⟩
  by_cases hi : i = slot
  · subst hi
    cases hr.symm.trans hr1
    obtain ⟨r', hr', hs⟩ := applySamples_sampledFrom q.samples hr
    exact ⟨r', hr', .observed r' hmay hs⟩
  · exact ⟨r1, (hat.others i hi).trans hr1, .same _⟩

theorem zoneSet_edited (h : zoneSet f T = .ok a) : Tables.Edited (f.may T) .zoneSet T a.tables := by
  obtain ⟨_, _, _, _, _, _, _, rfl⟩ := zoneSet_ok.mp h
  exact .of_records rfl rfl rfl

theorem profileSet_edited (h : profileSet f T = .ok a) : Tables.Edited (f.may T) .profileSet T a.tables := by
  obtain ⟨_, _, _, _, rfl⟩ := profileSet_ok.mp h
  exact .of_records rfl rfl rfl

theorem setTime_edited (h : setTime f T = .ok a) : Tables.Edited (f.may T) .setTime T a.tables := by
  obtain ⟨_, _, _, rfl⟩ := setTime_ok.mp h
  exact .of_records rfl rfl rfl

/-- DEFINE fills an empty slot, so it leaves every record that stands. -/
theorem define_keeps (h : define f T = .ok a) {i : Nat} {r : Record} (hr : Table.get T.records i = some r) :
    Table.get a.tables.records i = some r := by
  obtain ⟨q, key, zone, sense, slot, _, _, _, _, _, _, _, hslot, rfl⟩ := define_ok.mp h
  have hne : i ≠ slot := by
    rintro rfl
    rw [(Table.lowestFree_some hslot).2.1] at hr
    cases hr
  exact (Table.get_put_ne _ _ hne).trans hr

end

/-- A step leaves the tables of power-on, those of a DEFINE or a RETIRE, or edited records. -/
theorem tablesChange_inv {T T' : Tables} (h : TablesChange T T') :
    T' = Tables.reset ∨ (∃ f a, define f T = .ok a ∧ T' = a.tables) ∨ (∃ f a, retire f T = .ok a ∧ T' = a.tables) ∨
    ∃ may c, Tables.Edited may c T T' := by
  cases h with
  | powerOn => exact .inl rfl
  | define f a h => exact .inr (.inl ⟨f, a, h, rfl⟩)
  | retire f a h => exact .inr (.inr (.inl ⟨f, a, h, rfl⟩))
  | same => exact .inr (.inr (.inr ⟨fun _ => True, .clockTick, .of_records rfl rfl rfl⟩))
  | tick => exact .inr (.inr (.inr ⟨fun _ => True, .clockTick, .of_records rfl rfl rfl⟩))
  | warmRestart => exact .inr (.inr (.inr ⟨fun _ => True, _, warmRestart_edited (.inl rfl)⟩))
  | expiry slot r hr _ => exact .inr (.inr (.inr ⟨fun _ => True, _, expire_edited hr⟩))
  | lookup f a h => exact .inr (.inr (.inr ⟨_, _, lookup_edited h⟩))
  | amend f a h => exact .inr (.inr (.inr ⟨_, _, amend_edited h⟩))
  | observe f a h => exact .inr (.inr (.inr ⟨_, _, observe_edited h⟩))
  | calibrate f a h => exact .inr (.inr (.inr ⟨_, _, calibrate_edited h⟩))
  | acquit f a h => exact .inr (.inr (.inr ⟨_, _, acquit_edited h⟩))
  | couple f a h => exact .inr (.inr (.inr ⟨_, _, couple_edited h⟩))
  | uncouple f a h => exact .inr (.inr (.inr ⟨_, _, uncouple_edited h⟩))
  | zoneSet f a h => exact .inr (.inr (.inr ⟨_, _, zoneSet_edited h⟩))
  | profileSet f a h => exact .inr (.inr (.inr ⟨_, _, profileSet_edited h⟩))
  | setTime f a h => exact .inr (.inr (.inr ⟨_, _, setTime_edited h⟩))

end Sys2Proof.Machine
end

section
/-! SUPPORT. Every step keeps the record table, the key directory, profile 4 and the clock well formed. -/

namespace Sys2Proof.Machine

/-! ### The record table (R1 to R5) -/

theorem acquitTracker_standing (r : Record) (n : Nat) : r.SameStanding (r.acquitTracker n) := by
  unfold Record.acquitTracker
  split
  · exact ⟨rfl, rfl, rfl, rfl, rfl⟩
  · exact ⟨rfl, rfl, rfl, rfl, rfl⟩
  · exact ⟨rfl, rfl, rfl, rfl, by simp only [Option.map_map]; rfl⟩
  · exact .refl r

theorem failCalibration_standing (clock : Nat) (reason : CalFailure) (r : Record) :
    r.SameStanding (r.failCalibration clock reason) := by
  unfold Record.failCalibration
  split_ifs
  · exact ⟨rfl, rfl, rfl, rfl, rfl⟩
  · exact .refl r

theorem restarted_standing (clock : Nat) (r : Record) : r.SameStanding (r.warmRestart clock) :=
  (failCalibration_standing clock .restart r).trans ⟨rfl, rfl, rfl, rfl, rfl⟩

theorem expire_standing (clock : Nat) (r : Record) : r.SameStanding (r.expire clock) :=
  (failCalibration_standing clock .stale r).trans ⟨rfl, rfl, rfl, rfl, rfl⟩

/-- No edit of a record changes its key. -/
theorem RecordEdit.key {may : Fin 16 → Prop} {c : Instr} {r r' : Record} (h : RecordEdit may r c r') : r'.key = r.key := by
  cases h with
  | restarted c clock _ => exact (restarted_standing clock r).key
  | expired slot clock => exact (expire_standing clock r).key
  | observed r' _ h => exact h.standing.key
  | acquitted n _ => exact (acquitTracker_standing r n).key
  | _ => rfl

/-- Tables with the same key in each slot, the same directory and the same generations are well formed together. -/
theorem recordsOk_of_keys {T T' : Tables} (h : T.RecordsOk)
    (hk : Table.mapValues T'.records Record.key = Table.mapValues T.records Record.key)
    (hd : T'.directory = T.directory) (hg : T'.recordGens = T.recordGens) : T'.RecordsOk := by
  have slots : T'.records.map Prod.fst = T.records.map Prod.fst := by
    rw [← Table.mapValues_keys T'.records Record.key, hk, Table.mapValues_keys]
  have keys (U : Tables) : (U.records.map fun e => e.2.key) = (Table.mapValues U.records Record.key).map Prod.snd := by
    simp [Table.mapValues, Function.comp_def]
  refine ⟨?_, hg ▸ h.generations, ?_, by rw [hd, hk, h.directory]⟩
  · rw [Table.wf_iff, slots, ← Table.wf_iff]
    exact h.records
  · rw [keys, hk, ← keys]
    exact h.keys

theorem Tables.Edited.recordsOk {may : Fin 16 → Prop} {c : Instr} {T T' : Tables} (h : Tables.Edited may c T T')
    (hT : T.RecordsOk) : T'.RecordsOk := by
  refine recordsOk_of_keys hT (Table.eq_of_get ?_ ?_ fun i => ?_) h.directory h.recordGens
  · rw [Table.mapValues_keys]
    exact hT.records.1
  · rw [Table.mapValues_keys, Table.mapValues_keys, h.slots]
  · rw [Table.get_mapValues, Table.get_mapValues]
    cases hr : Table.get T.records i with
    | some r =>
      obtain ⟨r', hr', he⟩ := h.record i r hr
      rw [hr']
      exact congrArg some he.key
    | none =>
      have : Table.get T'.records i = none := by
        rw [← Option.not_isSome_iff_eq_none, Table.get_isSome_iff, h.slots, ← Table.get_isSome_iff, hr]
        exact Bool.false_ne_true
      rw [this]

theorem define_recordsOk {f : Frame} {T : Tables} {a : Accepted} (h : define f T = .ok a) (hT : T.RecordsOk) :
    a.tables.RecordsOk := by
  obtain ⟨q, key, zone, sense, slot, _, _, _, _, _, _, hkey, hslot, rfl⟩ := define_ok.mp h
  obtain ⟨hlt, hfree, _⟩ := Table.lowestFree_some hslot
  refine ⟨Table.wf_put hT.records hlt _, hT.generations, ?_, ?_⟩
  · refine (((Table.put_perm _ hfree).map fun e => e.2.key).nodup_iff).mpr (List.nodup_cons.mpr ⟨fun hmem => ?_, hT.keys⟩)
    obtain ⟨e, he, hek⟩ := List.mem_map.mp hmem
    refine slotOfKey_none.mp hkey (e.1, e.2.key) ?_ hek
    rw [hT.directory]
    exact List.mem_map.mpr ⟨e, he, rfl⟩
  · dsimp only
    rw [hT.directory, Table.mapValues_put]
    rfl

theorem retire_recordsOk {f : Frame} {T : Tables} {a : Accepted} (h : retire f T = .ok a) (hT : T.RecordsOk) :
    a.tables.RecordsOk := by
  obtain ⟨q, slot, r, _, hr, _, _, _, rfl⟩ := retire_ok.mp h
  have hlt : slot < 512 := hT.records.2 _ (Table.mem_of_get (resolveRecord_get hr))
  exact ⟨Table.wf_erase hT.records _, generationsOk_advance hT.generations hlt,
    hT.keys.sublist (List.filter_sublist.map _),
    (congrArg (Table.erase · slot) hT.directory).trans (Table.mapValues_erase T.records Record.key slot).symm⟩

theorem reset_recordsOk : Tables.reset.RecordsOk := ⟨by decide, ⟨by decide, by decide⟩, by decide, rfl⟩

theorem tablesChange_recordsOk {T T' : Tables} (h : TablesChange T T') (hT : T.RecordsOk) : T'.RecordsOk := by
  obtain rfl | ⟨f, a, hd, rfl⟩ | ⟨f, a, hr, rfl⟩ | ⟨may, c, he⟩ := tablesChange_inv h
  · exact reset_recordsOk
  · exact define_recordsOk hd hT
  · exact retire_recordsOk hr hT
  · exact he.recordsOk hT

/-! ### Profile 4 and the clock (R46, R135) -/

theorem readU16_le {b rest : List Byte} {n : Nat} (h : readU16 b = some (n, rest)) : n ≤ 65535 := by
  match b, h with
  | x :: y :: _, h =>
    obtain ⟨rfl, _⟩ := Prod.mk.inj (Option.some.inj h)
    have := x.isLt
    have := y.isLt
    omega

theorem readSetTime_le {b : List Byte} {n : Nat} (h : readSetTime b = some n) : n ≤ 4294967295 := by
  simp only [readSetTime, readU32, Option.bind_eq_bind, Option.bind_eq_some_iff, readEnd, Prod.exists] at h
  obtain ⟨t, rest, ⟨hi, b1, h1, lo, b2, h2, he⟩, hn⟩ := h
  obtain ⟨rfl, _⟩ := Prod.mk.inj (Option.some.inj he)
  split_ifs at hn
  have := readU16_le h1
  have := readU16_le h2
  have := Option.some.inj hn
  omega

/-- What a step does to profile 4 and to the clock. -/
theorem tablesChange_profile4_clock {T T' : Tables} (h : TablesChange T T') :
    (T'.profile4 = T.profile4 ∨ T'.profile4.Valid) ∧ (T'.clock = T.clock ∨ T'.clock ≤ 4294967295) := by
  cases h with
  | powerOn => exact ⟨.inr (by decide), .inr (by decide)⟩
  | tick =>
    refine ⟨.inl rfl, ?_⟩
    by_cases hc : T.clock < 4294967295
    · exact .inr (by simp only [nextClock, Config.maxTime, if_pos hc]; omega)
    · exact .inl (by simp only [nextClock, Config.maxTime, if_neg hc])
  | setTime f a h =>
    obtain ⟨n, hn, _, rfl⟩ := setTime_ok.mp h
    exact ⟨.inl rfl, .inr (readSetTime_le hn)⟩
  | profileSet f a h =>
    obtain ⟨p, _, _, hp, rfl⟩ := profileSet_ok.mp h
    exact ⟨.inr hp, .inl rfl⟩
  | same | warmRestart | expiry => exact ⟨.inl rfl, .inl rfl⟩
  | define f a h =>
    obtain ⟨q, key, zone, sense, slot, _, _, _, _, _, _, _, _, rfl⟩ := define_ok.mp h
    exact ⟨.inl rfl, .inl rfl⟩
  | lookup f a h =>
    obtain ⟨q, _, _, ⟨_, slot, r, _, rfl⟩ | ⟨_, slot, c, _, _, _, rfl⟩⟩ := lookup_ok.mp h
    · simp only [lookupRecord]
      split_ifs <;> exact ⟨.inl rfl, .inl rfl⟩
    · simp only [lookupCoupling]
      split_ifs <;> exact ⟨.inl rfl, .inl rfl⟩
  | amend f a h =>
    obtain ⟨q, slot, r, z, _, _, _, _, _, _, _, rfl⟩ := amend_ok.mp h
    exact ⟨.inl rfl, .inl rfl⟩
  | retire f a h =>
    obtain ⟨q, slot, r, _, _, _, _, _, rfl⟩ := retire_ok.mp h
    exact ⟨.inl rfl, .inl rfl⟩
  | observe f a h =>
    obtain ⟨q, slot, r, _, _, _, _, _, rfl⟩ := observe_ok.mp h
    have hat := applySamples_at T slot q.samples
    exact ⟨.inl hat.profile4, .inl hat.clock⟩
  | calibrate f a h =>
    obtain ⟨q, slot, r, _, _, _, _, _, _, _, _, _, rfl⟩ := calibrate_ok.mp h
    exact ⟨.inl rfl, .inl rfl⟩
  | acquit f a h =>
    obtain ⟨q, _, ⟨_, h⟩ | ⟨n, _, _, h⟩⟩ := acquit_ok.mp h
    · obtain ⟨slot, r, before, _, _, _, _, _, rfl⟩ := acquitRecord_ok.mp h
      exact ⟨.inl rfl, .inl rfl⟩
    · obtain ⟨slot, c, _, _, _, rfl⟩ := acquitCoupling_ok.mp h
      exact ⟨.inl rfl, .inl rfl⟩
  | couple f a h =>
    obtain ⟨q, i, l, j, fo, slot, _, _, _, _, _, _, _, _, _, rfl⟩ := couple_ok.mp h
    exact ⟨.inl rfl, .inl rfl⟩
  | uncouple f a h =>
    obtain ⟨n, slot, c, _, _, _, rfl⟩ := uncouple_ok.mp h
    exact ⟨.inl rfl, .inl rfl⟩
  | zoneSet f a h =>
    obtain ⟨q, i, new, _, _, _, _, rfl⟩ := zoneSet_ok.mp h
    exact ⟨.inl rfl, .inl rfl⟩

/-- Settles O55: every step keeps the keys and slots of the records (each edit keeps the key, DEFINE brings a key the
directory lacks, RETIRE takes one away), profile 4 and the clock. -/
theorem recordsKept : Obligations.RecordsKept := by
  intro s t hok hstep
  have hchange := step_tables hstep
  obtain ⟨hprofile, hclock⟩ := tablesChange_profile4_clock hchange
  refine ⟨tablesChange_recordsOk hchange hok, fun hv => ?_, fun hc => ?_⟩
  · exact hprofile.elim (fun h => h ▸ hv) id
  · exact hclock.elim (fun h => h ▸ hc) id

end Sys2Proof.Machine
end

section
/-! SUPPORT. The edit of a record each command makes, what a record keeps for life, and what a requester outside a zone's
owner mask cannot change. -/

namespace Sys2Proof.Machine

/-! ### The edit each command makes -/

/-- The requester of the request the engine serves now passes the access check of a zone. -/
def State.may (s : State) (zone : Fin 16) : Prop :=
  ∃ job, s.takeRequest.serving = some job ∧ job.frame.may s.tables zone

theorem may_of_serving {s : State} {job : InService} (h : s.takeRequest.serving = some job) :
    s.may = job.frame.may s.tables := by
  funext zone
  simp [State.may, h]

/-- Serving a request of the tables edits the records as the request does. -/
theorem serveTables_edited {s t : State} {code : Byte} {run : Frame → Tables → Except Refused Accepted} {c : Instr}
    (h : s.serveTables code run = .next t)
    (hrun : ∀ f a, run f s.tables = .ok a → Tables.Edited (f.may s.tables) c s.tables a.tables) :
    Tables.Edited s.may c s.tables t.tables := by
  obtain rfl | ⟨job, _, hjob, _, rfl⟩ := serve_next h
  · exact .of_records rfl rfl rfl
  · rw [complete_tables, may_of_serving hjob]
    unfold answerTables
    cases hr : run job.frame s.takeRequest.tables with
    | error e =>
      dsimp only
      rw [takeRequest_tables]
      exact .of_records rfl rfl rfl
    | ok a => exact hrun _ a (takeRequest_tables s ▸ hr)

/-- Serving a request that leaves the tables edits no record. -/
theorem serve_edited_of_same {s t : State} {isCode : Byte → Bool} {run : InService → State → Answer} {c : Instr}
    (h : s.serve isCode run = .next t) (hrun : ∀ job, (run job s.takeRequest).state.tables = s.tables) :
    Tables.Edited s.may c s.tables t.tables := by
  obtain rfl | ⟨job, _, _, _, rfl⟩ := serve_next h
  · exact .of_records rfl rfl rfl
  · rw [complete_tables, hrun]
    exact .of_records rfl rfl rfl

theorem restartChecked_ok {f : Frame} {u : Unit} (h : restartChecked f = .ok u) : isAdmin f.requester = true := by
  obtain ⟨_, _, h⟩ := except_bind_ok.mp h
  exact require_ok.mp h

theorem restart_edited {s t : State} (h : execRestart s = .next t) : Tables.Edited s.may .restart s.tables t.tables := by
  obtain rfl | ⟨job, _, hjob, _, rfl⟩ := serve_next h
  · exact .of_records rfl rfl rfl
  · rw [complete_tables, may_of_serving hjob]
    unfold restartAnswer
    split
    · simp only [takeRequest_tables]
      exact .of_records rfl rfl rfl
    · rename_i hok
      simp only [State.warmRestart, driveAttn_tables, takeRequest_tables]
      exact warmRestart_edited (.inr ⟨rfl, fun z => by simp [Frame.may, Tables.permits, restartChecked_ok hok]⟩)

theorem portSet_tables (job : InService) (s : State) : (portSet job s).state.tables = s.tables := by
  unfold portSet
  split <;> simp

theorem statusAnswer_tables (job : InService) (s : State) : (statusAnswer job s).state.tables = s.tables := by
  unfold statusAnswer
  split <;> simp

/-- Every command but POWER_ON, DEFINE and RETIRE edits the records in their slots. -/
theorem exec_edited {c : Instr} {s t : State} (h : exec c s = .next t) (hp : c ≠ .powerOn) (hd : c ≠ .define)
    (hr : c ≠ .retire) : Tables.Edited s.may c s.tables t.tables := by
  cases c with
  | powerOn => exact absurd rfl hp
  | define => exact absurd rfl hd
  | retire => exact absurd rfl hr
  | resetLineLow => cases h; exact .of_records rfl rfl rfl
  | clockTick => cases h; exact .of_records rfl rfl rfl
  | warmRestart => cases h; exact warmRestart_edited (.inl rfl)
  | stalenessExpiry slot =>
    simp only [exec, execStalenessExpiry] at h
    split_ifs at h
    split at h
    · cases h; exact .of_records rfl rfl rfl
    · rename_i r hget
      split_ifs at h
      · cases h; exact expire_edited hget
      · cases h; exact .of_records rfl rfl rfl
  | attnDelayElapsed p =>
    simp only [exec, execAttnDelayElapsed] at h
    split_ifs at h <;> cases h
    · rw [setPort_tables]; exact .of_records rfl rfl rfl
    · exact .of_records rfl rfl rfl
  | requestFrame p bytes =>
    cases h
    rw [clockBytes_tables]; exact .of_records rfl rfl rfl
  | selectRaised p =>
    simp only [exec, execSelectRaised] at h
    split_ifs at h <;> cases h
    · rw [setPort_tables]; exact .of_records rfl rfl rfl
    · exact .of_records rfl rfl rfl
  | replyShiftedOut p filler =>
    simp only [exec, execReplyShiftedOut] at h
    split_ifs at h <;> cases h
    · exact .of_records rfl rfl rfl
    · rw [clockBytes_tables]; exact .of_records rfl rfl rfl
  | unknownRequest => exact serve_edited_of_same h fun job => takeRequest_tables s
  | portSet => exact serve_edited_of_same h fun job => (portSet_tables job _).trans (takeRequest_tables s)
  | status => exact serve_edited_of_same h fun job => (statusAnswer_tables job _).trans (takeRequest_tables s)
  | restart => exact restart_edited h
  | lookup => exact serveTables_edited h fun _ _ => lookup_edited
  | amend => exact serveTables_edited h fun _ _ => amend_edited
  | observe => exact serveTables_edited h fun _ _ => observe_edited
  | calibrate => exact serveTables_edited h fun _ _ => calibrate_edited
  | acquit => exact serveTables_edited h fun _ _ => acquit_edited
  | couple => exact serveTables_edited h fun _ _ => couple_edited
  | uncouple => exact serveTables_edited h fun _ _ => uncouple_edited
  | zoneSet => exact serveTables_edited h fun _ _ => zoneSet_edited
  | profileSet => exact serveTables_edited h fun _ _ => profileSet_edited
  | setTime => exact serveTables_edited h fun _ _ => setTime_edited
  | enumerate =>
    refine serveTables_edited h fun _ _ hok => ?_
    obtain ⟨_, _, _, _, _, rfl⟩ := enumerate_ok.mp hok
    exact .of_records rfl rfl rfl
  | scan =>
    refine serveTables_edited h fun _ _ hok => ?_
    obtain ⟨_, rfl⟩ := scan_ok.mp hok
    exact .of_records rfl rfl rfl
  | readTime =>
    refine serveTables_edited h fun _ _ hok => ?_
    obtain ⟨_, rfl⟩ := readTime_ok.mp hok
    exact .of_records rfl rfl rfl

/-- Every command but POWER_ON and RETIRE leaves an edit of each record; DEFINE leaves the record itself. -/
theorem exec_record {c : Instr} {s t : State} (h : exec c s = .next t) (hp : c ≠ .powerOn) (hr : c ≠ .retire) {i : Nat}
    {r : Record} (hget : Table.get s.tables.records i = some r) :
    ∃ r', Table.get t.tables.records i = some r' ∧ RecordEdit s.may r c r' := by
  by_cases hd : c = .define
  · subst hd
    refine ⟨r, ?_, .same _⟩
    obtain ht | ⟨f, a, hok, ht⟩ := serveTables_tables h
    · rw [ht]; exact hget
    · rw [ht]; exact define_keeps hok hget
  · exact (exec_edited h hp hd hr).record i r hget

/-! ### What a record keeps for life (R1, R7, R8, R113, R145) -/

/-- The standing of a record through one command. -/
structure Record.KeptThrough (c : Instr) (r r' : Record) : Prop where
  key : r'.key = r.key
  sense : r'.valve.map (·.sense) = r.valve.map (·.sense)
  zone : c ≠ .amend → r'.zone = r.zone
  revision : c ≠ .amend → c ≠ .acquit → c ≠ .calibrate → r'.revision = r.revision
  advance : r'.revision = r.revision ∨ r'.revision = nextRevision r.revision
  couplingCount : c ≠ .couple → c ≠ .uncouple → r'.couplingCount = r.couplingCount

theorem Record.SameStanding.keptThrough {r r' : Record} (h : r.SameStanding r') (c : Instr) : r.KeptThrough c r' :=
  ⟨h.key, h.sense, fun _ => h.zone, fun _ _ _ => h.revision, .inl h.revision, fun _ _ => h.couplingCount⟩

theorem RecordEdit.keptThrough {may : Fin 16 → Prop} {c : Instr} {r r' : Record} (h : RecordEdit may r c r') :
    r.KeptThrough c r' := by
  cases h with
  | same => exact (Record.SameStanding.refl r).keptThrough _
  | restarted _ clock _ => exact (restarted_standing clock r).keptThrough _
  | expired slot clock => exact (expire_standing clock r).keptThrough _
  | observed r' _ h => exact h.standing.keptThrough _
  | unmarked => exact ⟨rfl, rfl, fun _ => rfl, fun _ _ _ => rfl, .inl rfl, fun _ _ => rfl⟩
  | amended set zone _ _ =>
    exact ⟨rfl, rfl, fun h => absurd rfl h, fun h => absurd rfl h, .inr rfl, fun _ _ => rfl⟩
  | calibrated _ _ _ _ _ =>
    exact ⟨rfl, rfl, fun _ => rfl, fun _ _ h => absurd rfl h, .inr rfl, fun _ _ => rfl⟩
  | acquitted n _ =>
    have hs := acquitTracker_standing r n
    exact ⟨hs.key, hs.sense, fun _ => hs.zone, fun _ h => absurd rfl h, .inr rfl, fun _ _ => hs.couplingCount⟩
  | raised _ => exact ⟨rfl, rfl, fun _ => rfl, fun _ _ _ => rfl, .inl rfl, fun h => absurd rfl h⟩
  | counted n => exact ⟨rfl, rfl, fun _ => rfl, fun _ _ _ => rfl, .inl rfl, fun _ h => absurd rfl h⟩

theorem step_of_pending {s : State} {c : Instr} {rest : List Instr} (h : s.pending = c :: rest) :
    step s = exec c { s with pending := rest } := by
  unfold step
  rw [h]

/-- Settles O59, by the edit each command makes of a record. -/
theorem recordStandingKept : Obligations.RecordStandingKept := by
  intro s t c rest hpending hstep hp hr i r hget
  rw [step_of_pending hpending] at hstep
  obtain ⟨r', hget', he⟩ := exec_record hstep hp hr hget
  obtain ⟨key, sense, zone, revision, advance, couplingCount⟩ := he.keptThrough
  exact ⟨r', hget', key, sense, zone, revision, advance, couplingCount⟩

/-! ### Zones isolate requesters (R20, R114, R147, R148) -/

/-- An edit whose requester fails the access check of the record's zone changes the mark, by LOOKUP, or the coupling count, by
UNCOUPLE, and no more. -/
theorem RecordEdit.isolated {may : Fin 16 → Prop} {c : Instr} {r r' : Record} (h : RecordEdit may r c r')
    (hmay : ¬ may r.zone) (hdevice : c ≠ .warmRestart ∧ ∀ slot, c ≠ .stalenessExpiry slot) :
    r' = { r with mark := r'.mark, couplingCount := r'.couplingCount } ∧ (c ≠ .lookup → r'.mark = r.mark) ∧
    (c ≠ .uncouple → r'.couplingCount = r.couplingCount) := by
  cases h with
  | same => exact ⟨rfl, fun _ => rfl, fun _ => rfl⟩
  | restarted _ clock hc => exact (hc.elim (absurd · hdevice.1) fun h => absurd (h.2 _) hmay)
  | expired slot clock => exact absurd rfl (hdevice.2 slot)
  | unmarked => exact ⟨rfl, fun h => absurd rfl h, fun _ => rfl⟩
  | counted n => exact ⟨rfl, fun _ => rfl, fun h => absurd rfl h⟩
  | amended _ _ h _ | observed _ h _ | calibrated _ _ h _ _ | acquitted _ h | raised h => exact absurd h hmay

/-- A RETIRE whose requester fails the access check of a record's zone leaves the record. -/
theorem retire_keeps {f : Frame} {T : Tables} {a : Accepted} (h : retire f T = .ok a) {i : Nat} {r : Record}
    (hr : Table.get T.records i = some r) (hmay : ¬ f.may T r.zone) : Table.get a.tables.records i = some r := by
  obtain ⟨q, slot, r1, _, hres, hpermits, _, _, rfl⟩ := retire_ok.mp h
  have hne : i ≠ slot := by
    rintro rfl
    cases (resolveRecord_get hres).symm.trans hr
    exact hmay hpermits
  exact (Table.get_erase_ne _ hne).trans hr

/-- A request served leaves the tables, or what it makes of them for the requester served. -/
theorem serveTables_served {s t : State} {code : Byte} {run : Frame → Tables → Except Refused Accepted} {p : PortId}
    {f : Frame} (hs : s.Serves p f) (h : s.serveTables code run = .next t) :
    t.tables = s.tables ∨ ∃ a, run f s.tables = .ok a ∧ t.tables = a.tables := by
  obtain rfl | ⟨job, _, hjob, hcode, _⟩ := serve_next h
  · exact .inl rfl
  · obtain rfl := Option.some.inj ((takeRequest_serving hs).symm.trans hjob)
    have hcode : f.code = code := by simpa using hcode
    cases hrun : run f s.tables with
    | ok a =>
      obtain ⟨u, hu, hdone⟩ := serveTables_ok hs hcode hrun
      cases hu.symm.trans h
      exact .inr ⟨a, rfl, hdone.tables⟩
    | error e =>
      obtain ⟨u, hu, hdone⟩ := serveTables_error hs hcode hrun
      cases hu.symm.trans h
      exact .inl hdone.tables

/-- Settles O60: RETIRE leaves the record, and every other request edits it as the access check allows. -/
theorem zonesIsolateRequesters : Obligations.ZonesIsolateRequesters := by
  intro s t p f c code hc hs _ hexec i r hget hno
  have hmay : ¬ f.may s.tables r.zone := fun h => hno ((permits_iff _ _ _).mp h)
  by_cases hretire : c = .retire
  · subst hretire
    refine ⟨r, ?_, rfl, fun _ => rfl, fun _ => rfl⟩
    obtain ht | ⟨a, hok, ht⟩ := serveTables_served hs hexec
    · rw [ht]; exact hget
    · rw [ht]; exact retire_keeps hok hget hmay
  · have hrequest : c ≠ .powerOn ∧ c ≠ .warmRestart ∧ ∀ slot, c ≠ .stalenessExpiry slot := by
      refine ⟨?_, ?_, fun slot => ?_⟩ <;> rintro rfl <;> simp [requestCommands] at hc
    obtain ⟨r', hget', he⟩ := exec_record hexec hrequest.1 hretire hget
    rw [may_of_serving (takeRequest_serving hs)] at he
    exact ⟨r', hget', he.isolated hmay hrequest.2⟩

end Sys2Proof.Machine
end

section
/-! SUPPORT. Every step keeps the shape of the records: first the parts and ranges of a record, stage by stage, then the bounds
of its open window, then the edits. -/

namespace Sys2Proof.Machine

section
variable {r : Record} {x : Sample}

/-! ### Parts and ranges outside samples -/

theorem marked_ok (clock : Nat) (h : r.Ok) : (r.marked clock).Ok := { h with }

theorem failCalibration_ok (clock : Nat) (reason : CalFailure) (h : r.Ok) : (r.failCalibration clock reason).Ok := by
  unfold Record.failCalibration
  split_ifs with hc
  · refine marked_ok clock { h with stale := fun hs => ?_, calibrating := fun hrun => (nomatch hrun) }
    obtain ⟨hw, hl, hwa, hcr, _⟩ := h.stale hs
    exact ⟨hw, hl, hwa, hcr, rfl⟩
  · exact h

theorem failCalibration_not_running (clock : Nat) (reason : CalFailure) (r : Record) :
    (r.failCalibration clock reason).cal.isRunning = false := by
  unfold Record.failCalibration
  split_ifs with hc
  · rfl
  · simpa using hc

theorem warmRestart_ok (clock : Nat) (h : r.Ok) : (r.warmRestart clock).Ok := by
  have hf := failCalibration_ok clock .restart h
  refine { hf with stale := fun hs => ?_, closedRun := fun hn => (nomatch hn), watch := fun _ hw => (nomatch hw) }
  obtain ⟨_, hl, _, _, hc⟩ := hf.stale hs
  exact ⟨rfl, hl, rfl, rfl, hc⟩

theorem expire_ok (clock : Nat) (h : r.Ok) : (r.expire clock).Ok := by
  have hf := failCalibration_ok clock .stale h
  exact marked_ok clock { hf with
    settling := fun hs => (nomatch hs)
    stale := fun _ => ⟨rfl, rfl, rfl, rfl, failCalibration_not_running clock .stale r⟩
    closedRun := fun hn => (nomatch hn)
    watch := fun _ hw => (nomatch hw) }

theorem nextRevision_range {n : Nat} (h : 1 ≤ n ∧ n ≤ 65535) : 1 ≤ nextRevision n ∧ nextRevision n ≤ 65535 := by
  unfold nextRevision
  split_ifs <;> omega

theorem acquitTracker_ok (n : Nat) (h : r.Ok) : (r.acquitTracker n).Ok := by
  obtain ⟨hstuck, hflat, hleak⟩ := h.scores
  unfold Record.acquitTracker
  split
  · exact { h with scores := ⟨Nat.zero_le _, hflat, hleak⟩ }
  · exact { h with scores := ⟨hstuck, Nat.zero_le _, hleak⟩ }
  · refine { h with
      kind := by simpa using h.kind
      offset := fun v hv => ?_
      scores := ⟨hstuck, hflat, fun v hv => ?_⟩
      calibrating := fun hc => by simpa using h.calibrating hc
      closedRun := fun hc => by simpa using h.closedRun hc }
    all_goals
      obtain ⟨v0, hv0, rfl⟩ := Option.mem_map.mp hv
    · exact h.offset v0 hv0
    · exact Nat.zero_le _
  · exact h

/-! ### Parts and ranges through a sample -/

/-- A record as it stands within a sample: well shaped, and not STALE once stage 1 has run. -/
def Record.Awake (r : Record) : Prop := r.Ok ∧ r.state ≠ .stale

theorem openWindow_awake (t : Nat) (h : r.Awake) : (r.openWindow t).Awake :=
  ⟨{ h.1 with stale := fun hs => absurd hs h.2 }, h.2⟩

theorem takeSettleWindows_settled (r : Record) :
    r.takeSettleWindows.settleCount ≤ r.takeSettleWindows.active.wide.settleWindows ∧
    (r.takeSettleWindows.state = .settling →
      r.takeSettleWindows.settleCount < r.takeSettleWindows.active.wide.settleWindows) := by
  simp only [Record.takeSettleWindows]
  refine ⟨Nat.min_le_right _ _, fun h => ?_⟩
  split_ifs at h with hn
  have hne : min r.settleCount r.active.wide.settleWindows ≠ r.active.wide.settleWindows := fun he => hn ⟨h, he⟩
  omega

theorem takeSettleWindows_stale (r : Record) : r.takeSettleWindows.state = .stale ↔ r.state = .stale := by
  simp only [Record.takeSettleWindows]
  split_ifs with h
  · simp [h.1]
  · rfl

theorem latch_ok (season : Fin 2) (h : r.Ok) : (r.latch season).Ok := by
  unfold Record.latch
  split
  · exact { h with }
  · rename_i p hp
    have hp := h.waiting p hp
    dsimp only
    split_ifs with hsame
    · exact { h with
        active := hp, waiting := fun _ hq => (nomatch hq), settled := hsame ▸ h.settled,
        settling := fun hs => hsame ▸ h.settling hs }
    · obtain ⟨hle, hlt⟩ := takeSettleWindows_settled { r with active := p, pendingSet := none, bank := season }
      have hstale := takeSettleWindows_stale { r with active := p, pendingSet := none, bank := season }
      exact { h with
        active := hp, waiting := fun _ hq => (nomatch hq), settled := hle, settling := hlt,
        stale := fun hs => h.stale (hstale.mp hs) }

theorem latch_stale (season : Fin 2) (r : Record) : (r.latch season).state = .stale ↔ r.state = .stale := by
  unfold Record.latch
  split
  · rfl
  · dsimp only
    split_ifs
    · rfl
    · exact takeSettleWindows_stale _

theorem latch_awake (season : Fin 2) (h : r.Awake) : (r.latch season).Awake :=
  ⟨latch_ok season h.1, fun hs => h.2 ((latch_stale season r).mp hs)⟩

theorem leaveStale_awake (h : r.Ok) : r.leaveStale.Awake := by
  have hne : r.leaveStale.state ≠ .stale := by
    simp only [Record.leaveStale]
    split_ifs <;> decide
  refine ⟨{ h with settling := fun hs => ?_, stale := fun hs => absurd hs hne }, hne⟩
  simp only [Record.leaveStale] at hs
  split_ifs at hs with hlt
  exact hlt

theorem settleStep_awake (w : Window) (h : r.Awake) : (r.settleStep w).Awake := by
  unfold Record.settleStep
  by_cases hs : r.active.wide.minSamples ≤ w.samples ∧ r.settleCount < r.active.wide.settleWindows
  · rw [if_pos hs]
    have hne : (if r.settleCount + 1 = r.active.wide.settleWindows ∧ r.state = .settling then Lifecycle.live
        else r.state) ≠ .stale := by
      split_ifs
      · decide
      · exact h.2
    refine ⟨{ h.1 with settled := hs.2, settling := fun hstate => ?_, stale := fun hstate => absurd hstate hne }, hne⟩
    dsimp only at hstate ⊢
    split_ifs at hstate with hlive
    have hcount : r.settleCount + 1 ≠ r.active.wide.settleWindows := fun he => hlive ⟨he, hstate⟩
    omega
  · rw [if_neg hs]
    exact h

theorem update_score_le (p : Profile) (e : Evidence) {t : Tracker} (h : t.score ≤ 255) : (t.update p e).score ≤ 255 := by
  cases e with
  | evidence => exact Nat.min_le_left _ _
  | clean => exact (Nat.sub_le _ _).trans h
  | neutral => exact h

theorem updateTrackers_ok (p : Profile) (mode : ZoneMode) (w : Window) (h : r.Ok) : (r.updateTrackers p mode w).Ok := by
  obtain ⟨hstuck, hflat, hleak⟩ := h.scores
  refine { h with
    kind := by simpa [Record.updateTrackers] using h.kind
    offset := fun v hv => ?_
    scores := ⟨update_score_le _ _ hstuck, update_score_le _ _ hflat, fun v hv => ?_⟩
    calibrating := fun hc => by simpa [Record.updateTrackers] using h.calibrating hc
    closedRun := fun hc => by simpa [Record.updateTrackers] using h.closedRun hc }
  all_goals
    obtain ⟨v0, hv0, rfl⟩ := Option.mem_map.mp hv
  · exact h.offset v0 hv0
  · exact update_score_le _ _ (hleak v0 hv0)

theorem evaluateWindow_awake (clock : Nat) (p : Profile) (mode : ZoneMode) (w : Window) (h : r.Awake) :
    (r.evaluateWindow clock p mode w).Awake := by
  have hu := updateTrackers_ok p mode w h.1
  unfold Record.evaluateWindow
  dsimp only
  split_ifs
  · exact ⟨marked_ok clock hu, h.2⟩
  · exact ⟨hu, h.2⟩

theorem stageWindow_awake (T : Tables) (x : Sample) (h : r.Ok) : (T.stageWindow x r).Awake := by
  unfold Tables.stageWindow
  dsimp only
  split_ifs with hs
  · obtain ⟨hok, hne⟩ := leaveStale_awake (latch_ok T.zones[r.zone].seasonBank h)
    exact openWindow_awake _ ⟨marked_ok T.clock hok, hne⟩
  · split
    · exact openWindow_awake _ ⟨h, hs⟩
    · split
      · exact ⟨h, hs⟩
      · exact openWindow_awake _ (latch_awake _ (settleStep_awake _ (evaluateWindow_awake _ _ _ _ ⟨h, hs⟩)))

theorem expireWatch_awake (h : r.Awake) : (r.expireWatch x).Awake := by
  unfold Record.expireWatch
  split
  · split_ifs
    · exact ⟨{ h.1 with stale := fun hs => absurd hs h.2, watch := fun _ hw => (nomatch hw) }, h.2⟩
    · exact h
  · exact h

theorem learnLag_le {old lag : Nat} (ho : old ≤ 600) (hl : lag ≤ 600) : learnLag old lag ≤ 600 := by
  unfold learnLag
  split_ifs <;> omega

theorem completeWatch_awake (h : r.Awake) (hopen : r.watchExpires x = false) : (r.completeWatch x).Awake := by
  unfold Record.completeWatch
  split
  · rename_i w fb hw _
    have hdeadline : x.time < w.deadline := by simpa [Record.watchExpires, hw] using hopen
    have hallowed := (h.1.watch w hw).2
    split_ifs
    · exact ⟨{ h.1 with
        lag := learnLag_le h.1.lag (by omega), stale := fun hs => absurd hs h.2, watch := fun _ hq => (nomatch hq) }, h.2⟩
    · exact h
  · exact h

theorem activeBank_inRange (h : r.Ok) : r.activeBank.InRange := by
  unfold Record.activeBank
  split_ifs
  · exact h.active.2.1
  · exact h.active.2.2

theorem newWatch_within (h : r.Ok) (c fb : Nat) (d : Direction) :
    (r.newWatch x c fb d).start + 30 ≤ (r.newWatch x c fb d).deadline ∧
    (r.newWatch x c fb d).deadline ≤ (r.newWatch x c fb d).start + 600 := by
  obtain ⟨_, _, _, ⟨hlo, hhi⟩, _⟩ := activeBank_inRange h
  simp only [Record.newWatch, watchAllowance]
  omega

theorem withWatch_awake (h : r.Awake) {w : StepWatch} (hw : w.start + 30 ≤ w.deadline ∧ w.deadline ≤ w.start + 600) :
    Record.Awake { r with watch := some w } :=
  ⟨{ h.1 with stale := fun hs => absurd hs h.2, watch := fun q hq => by cases hq; exact hw }, h.2⟩

theorem detectStep_awake (h : r.Awake) : (r.detectStep x).Awake := by
  unfold Record.detectStep
  split
  · rename_i prev _ _
    split
    · dsimp only
      generalize (if prev.command < x.command then Direction.up else Direction.down) = d
      split_ifs
      · split
        · exact withWatch_awake h (newWatch_within h.1 _ _ _)
        · rename_i w hw
          split_ifs
          · exact withWatch_awake h (h.1.watch w hw)
          · exact withWatch_awake h (newWatch_within h.1 _ _ _)
      · exact h
    · exact h
  · exact h

theorem stageWatch_awake (h : r.Awake) : (r.stageWatch x).Awake := by
  unfold Record.stageWatch
  split_ifs with he
  · exact detectStep_awake (expireWatch_awake h)
  · exact detectStep_awake (completeWatch_awake h (by simpa using he))

theorem withWindow_awake (h : r.Awake) (w : Option Window) : Record.Awake { r with window := w } :=
  ⟨{ h.1 with stale := fun hs => absurd hs h.2 }, h.2⟩

theorem closedRunAfter_valve (hc : (r.closedRunAfter x).isSome = true) : r.valve.isSome = true := by
  unfold Record.closedRunAfter at hc
  cases hv : r.valve with
  | none => simp [hv] at hc
  | some v => rfl

theorem stageAccumulate_awake (h : r.Awake) : (r.stageAccumulate x).Awake := by
  have hrun : ∀ {q : Record}, q.Awake → Record.Awake { q with closedRun := q.closedRunAfter x } := fun hq =>
    ⟨{ hq.1 with stale := fun hs => absurd hs hq.2, closedRun := closedRunAfter_valve }, hq.2⟩
  unfold Record.stageAccumulate Record.stageLeak Record.accumulateLeak
  split
  · split_ifs
    · exact withWindow_awake (hrun (withWindow_awake h _)) _
    · exact hrun (withWindow_awake h _)
  · exact hrun (withWindow_awake h _)

theorem stageReversal_awake (h : r.Awake) : (r.stageReversal x).Awake := ⟨{ h.1 with }, h.2⟩

theorem calOutcome_offset (run : CalRun) {offset : Int} (h : -200 ≤ offset ∧ offset ≤ 200) :
    -200 ≤ (calOutcome run offset).2 ∧ (calOutcome run offset).2 ≤ 200 := by
  unfold calOutcome
  dsimp only
  split_ifs <;> simp only <;> omega

theorem stageCalibration_awake (clock : Nat) (h : r.Awake) : (r.stageCalibration clock x).Awake := by
  unfold Record.stageCalibration
  split
  · rename_i run v hrun hv
    have hvalve : r.valve.isSome = true := by rw [hv]; rfl
    dsimp only
    split_ifs
    · exact h
    · exact ⟨marked_ok clock { h.1 with
        stale := fun hs => absurd hs h.2, calibrating := fun hc => (nomatch hc) }, h.2⟩
    · refine ⟨marked_ok clock { h.1 with
        kind := by simpa [hv] using h.1.kind
        offset := fun u hu => ?_
        scores := ⟨h.1.scores.1, h.1.scores.2.1, fun u hu => ?_⟩
        stale := fun hs => absurd hs h.2
        calibrating := fun _ => rfl
        closedRun := fun _ => rfl }, h.2⟩
      all_goals
        cases hu
      · exact calOutcome_offset _ (h.1.offset v hv)
      · exact h.1.scores.2.2 v hv
    · exact ⟨{ h.1 with stale := fun hs => absurd hs h.2, calibrating := fun _ => hvalve }, h.2⟩
  · exact h

theorem stageLast_awake (h : r.Awake) : (r.stageLast x).Awake :=
  ⟨{ h.1 with stale := fun hs => absurd hs h.2 }, h.2⟩

theorem sampledRecord_ok (T : Tables) (x : Sample) (h : r.Ok) : (T.sampledRecord x r).Ok :=
  (stageLast_awake (stageCalibration_awake T.clock (stageReversal_awake (stageAccumulate_awake
    (stageWatch_awake (stageWindow_awake T x h)))))).1

end

end Sys2Proof.Machine
end

section
/-! SUPPORT. The bounds of an open window through a sample, and the shape of the records through every step. -/

namespace Sys2Proof.Machine

/-! ### The bounds of a window (R56, R59, R95) -/

/-- Leakage figures within a count of samples. -/
structure LeakFigures.Within (n : Nat) (f : LeakFigures) : Prop where
  count : f.count ≤ n
  low : -(2000 * (f.count : Int)) ≤ f.sum
  high : f.sum ≤ 2000 * (f.count : Int)

/-- The figures of a window within its count of samples. -/
structure Window.Figures (w : Window) : Prop where
  commandTravel : w.commandTravel ≤ 1000 * (w.samples - 1)
  feedbackTravel : w.feedbackTravel ≤ 1000 * (w.samples - 1)
  feedbackCount : w.feedbackCount ≤ w.samples
  leak : ∀ f ∈ w.leak, f.Within w.samples

/-- A window of this length before the sample at this time is counted: it holds none, and starts at the sample, or fewer
than the seconds since its start. -/
structure Window.Ready (time length : Nat) (w : Window) : Prop where
  start_le : w.start ≤ time
  time_lt : time < w.start + length
  samples_le : w.samples ≤ time - w.start
  fresh : w.samples = 0 → w.start = time
  figures : w.Figures

/-- A window of this length after the sample at this time is counted. -/
structure Window.Counted (time length : Nat) (w : Window) : Prop where
  start_le : w.start ≤ time
  time_lt : time < w.start + length
  samples_pos : 1 ≤ w.samples
  samples_le : w.samples ≤ time - w.start + 1
  figures : w.Figures

/-- The open window, if any, is ready for the sample at this time. -/
def Record.Ready (time : Nat) (r : Record) : Prop := ∀ w ∈ r.window, w.Ready time r.active.wide.windowLength

/-- The open window, if any, has counted the sample at this time. -/
def Record.Counted (time : Nat) (r : Record) : Prop := ∀ w ∈ r.window, w.Counted time r.active.wide.windowLength

/-- The last sample, if any, came before this time and carries positions in range. -/
def Record.LastBefore (time : Nat) (r : Record) : Prop :=
  ∀ l ∈ r.last, l.time < time ∧ l.command ≤ 1000 ∧ ∀ fb ∈ l.feedback, fb ≤ 1000

/-- A sample with positions in range, as conditioning leaves it (R52). -/
def Sample.InRange (x : Sample) : Prop := x.command ≤ 1000 ∧ ∀ fb ∈ x.feedback, fb ≤ 1000

theorem condition_inRange (x : RawSample) : x.condition.InRange := by
  refine ⟨Nat.min_le_right _ _, fun fb hfb => ?_⟩
  obtain ⟨n, _, rfl⟩ := Option.mem_map.mp hfb
  exact Nat.min_le_right _ _

theorem sampleResult_accepted {clock time : Nat} {r : Record} (h : sampleResult clock r time = .accepted) :
    ∀ l ∈ r.last, l.time < time := by
  intro l hl
  unfold sampleResult at h
  rw [hl] at h
  dsimp only at h
  split_ifs at h with hlate
  omega

theorem windowOk_iff {r : Record} :
    r.WindowOk ↔ (∀ l ∈ r.last, l.command ≤ 1000 ∧ ∀ fb ∈ l.feedback, fb ≤ 1000) ∧
      ∀ w ∈ r.window, ∃ l, r.last = some l ∧ w.Counted l.time r.active.wide.windowLength := by
  unfold Record.WindowOk
  refine and_congr_right fun _ => forall₂_congr fun w _ => exists_congr fun l => and_congr_right fun _ => ?_
  constructor
  · rintro ⟨hs, ht, hp, hn, hc, hf, hfc, hl⟩
    exact ⟨hs, ht, hp, hn, hc, hf, hfc, fun f h => ⟨(hl f h).1, (hl f h).2.1, (hl f h).2.2⟩⟩
  · rintro ⟨hs, ht, hp, hn, hc, hf, hfc, hl⟩
    exact ⟨hs, ht, hp, hn, hc, hf, hfc, fun f h => ⟨(hl f h).count, (hl f h).low, (hl f h).high⟩⟩

/-! ### The stages of a sample -/

section
variable {r : Record} {x : Sample} {time : Nat}

/-- A window just opened is ready for the sample that opened it. -/
theorem openWindow_ready (h : 1 ≤ r.active.wide.windowLength) : (r.openWindow time).Ready time := by
  intro w hw
  cases hw
  refine ⟨le_rfl, Nat.lt_add_of_pos_right h, Nat.zero_le _, fun _ => rfl,
    Nat.zero_le _, Nat.zero_le _, Nat.zero_le _, fun f hf => ?_⟩
  obtain ⟨_, _, rfl⟩ := Option.mem_map.mp hf
  exact ⟨le_rfl, le_rfl, le_rfl⟩

theorem settleStep_last (w : Window) (r : Record) : (r.settleStep w).last = r.last := by
  unfold Record.settleStep
  split_ifs <;> rfl

theorem latch_last (season : Fin 2) (r : Record) : (r.latch season).last = r.last := by
  unfold Record.latch
  split
  · rfl
  · dsimp only
    split_ifs <;> rfl

theorem evaluateWindow_last (clock : Nat) (p : Profile) (mode : ZoneMode) (w : Window) (r : Record) :
    (r.evaluateWindow clock p mode w).last = r.last := by
  unfold Record.evaluateWindow
  dsimp only
  split_ifs <;> rfl

theorem stageWindow_last (T : Tables) (x : Sample) (r : Record) : (T.stageWindow x r).last = r.last := by
  unfold Tables.stageWindow
  dsimp only
  split_ifs
  · exact latch_last _ r
  · split
    · rfl
    · split
      · rfl
      · exact ((latch_last _ _).trans (settleStep_last _ _)).trans (evaluateWindow_last _ _ _ _ r)

/-- After stage 1 the open window is a new one, or the one that stood and that the sample joins. -/
theorem stageWindow_ready (T : Tables) (hok : r.Ok) (hw : r.WindowOk) (hlast : r.LastBefore x.time) :
    (T.stageWindow x r).Ready x.time := by
  have hlength : 60 ≤ (T.stageWindow x r).active.wide.windowLength := (stageWindow_awake T x hok).1.active.1.1.1
  have hopen (q : Record) (hq : T.stageWindow x r = q.openWindow x.time) : (T.stageWindow x r).Ready x.time := by
    rw [hq] at hlength ⊢
    exact openWindow_ready (le_trans (by decide) hlength)
  by_cases hs : r.state = .stale
  · exact hopen _ (by unfold Tables.stageWindow; rw [if_pos hs])
  · cases hwin : r.window with
    | none => exact hopen r (by unfold Tables.stageWindow; rw [if_neg hs, hwin])
    | some w =>
      by_cases hclose : w.start + r.active.wide.windowLength ≤ x.time
      · have : r.closingWindow x = some w := by simp [Record.closingWindow, hs, hwin, hclose]
        exact hopen _ (by unfold Tables.stageWindow; rw [if_neg hs, hwin]; dsimp only; rw [this])
      · have : r.closingWindow x = none := by simp [Record.closingWindow, hs, hwin, hclose]
        have hstand : T.stageWindow x r = r := by
          unfold Tables.stageWindow
          rw [if_neg hs, hwin]
          dsimp only
          rw [this]
        rw [hstand]
        intro q hq
        obtain rfl : w = q := Option.some.inj (hwin.symm.trans hq)
        obtain ⟨l, hl, hc⟩ := (windowOk_iff.mp hw).2 w hwin
        have hbefore := (hlast l hl).1
        have hstart := hc.start_le
        have hsamples := hc.samples_le
        have hpos := hc.samples_pos
        exact ⟨by omega, by omega, by omega, fun h0 => by omega, hc.figures⟩

/-- Two records with the same open window, window length and last sample. -/
structure Record.SameWindow (r r' : Record) : Prop where
  active : r'.active = r.active
  window : r'.window = r.window
  last : r'.last = r.last

theorem Record.SameWindow.ready {r' : Record} (h : r.SameWindow r') (hr : r.Ready time) : r'.Ready time := by
  unfold Record.Ready
  rw [h.active, h.window]
  exact hr

theorem Record.SameWindow.counted {r' : Record} (h : r.SameWindow r') (hr : r.Counted time) : r'.Counted time := by
  unfold Record.Counted
  rw [h.active, h.window]
  exact hr

theorem expireWatch_last (x : Sample) (r : Record) : (r.expireWatch x).last = r.last := by
  unfold Record.expireWatch
  split
  · split_ifs <;> rfl
  · rfl

theorem expireWatch_ready (h : r.Ready time) : (r.expireWatch x).Ready time := by
  unfold Record.expireWatch
  split
  · split_ifs
    · intro w hw
      obtain ⟨w0, hw0, rfl⟩ := Option.mem_map.mp hw
      have hready := h w0 hw0
      exact { hready with figures := { hready.figures with } }
    · exact h
  · exact h

theorem completeWatch_sameWindow (x : Sample) (r : Record) : r.SameWindow (r.completeWatch x) := by
  unfold Record.completeWatch
  split
  · split_ifs <;> exact ⟨rfl, rfl, rfl⟩
  · exact ⟨rfl, rfl, rfl⟩

theorem detectStep_sameWindow (x : Sample) (r : Record) : r.SameWindow (r.detectStep x) := by
  unfold Record.detectStep
  dsimp only
  repeat' split
  all_goals exact ⟨rfl, rfl, rfl⟩

theorem stageWatch_last (x : Sample) (r : Record) : (r.stageWatch x).last = r.last := by
  unfold Record.stageWatch
  rw [(detectStep_sameWindow x _).last]
  split_ifs
  · exact expireWatch_last x r
  · exact (completeWatch_sameWindow x r).last

theorem stageWatch_ready (h : r.Ready time) : (r.stageWatch x).Ready time := by
  unfold Record.stageWatch
  refine (detectStep_sameWindow x _).ready ?_
  split_ifs
  · exact expireWatch_ready h
  · exact (completeWatch_sameWindow x r).ready h

theorem distance_le {a b n : Nat} (ha : a ≤ n) (hb : b ≤ n) : distance a b ≤ n := by
  unfold distance
  omega

theorem pairedPrevious_some {w : Window} {p : Nat × Nat} (h : r.pairedPrevious w = some p) :
    ∃ l, r.last = some l ∧ l.feedback = some p.2 ∧ l.command = p.1 ∧ w.start ≤ l.time := by
  unfold Record.pairedPrevious at h
  split at h
  · rename_i l hl
    split at h
    · rename_i fb hfb
      split_ifs at h with hstart
      cases h
      exact ⟨l, hl, hfb, rfl, hstart⟩
    · cases h
  · cases h

/-- Leakage figures within a count are within a higher one. -/
theorem LeakFigures.Within.mono {m n : Nat} {f : LeakFigures} (h : f.Within m) (hmn : m ≤ n) : f.Within n :=
  { h with count := h.count.trans hmn }

theorem LeakFigures.Within.add {n : Nat} {f : LeakFigures} (h : f.Within n) {z : Int} (hz : -2000 ≤ z ∧ z ≤ 2000) :
    LeakFigures.Within (n + 1) { count := f.count + 1, sum := f.sum + z } := by
  obtain ⟨hcount, hlow, hhigh⟩ := h
  constructor <;> dsimp only <;> push_cast <;> omega

@[simp] theorem count_leak (x : Sample) (p : Option (Nat × Nat)) (w : Window) : (w.count x p).leak = w.leak := by
  unfold Window.count
  split <;> rfl

@[simp] theorem count_samples (x : Sample) (p : Option (Nat × Nat)) (w : Window) :
    (w.count x p).samples = w.samples + 1 := by
  unfold Window.count
  split <;> rfl

/-- A sample counted into a window that was ready for it. The pair it makes with the previous sample travels at most 1000,
and the first sample of a window makes none. -/
theorem count_counted {length : Nat} {w : Window} (hw : w.Ready x.time length) (hx : x.InRange)
    (hlast : r.LastBefore x.time) : (w.count x (r.pairedPrevious w)).Counted x.time length := by
  obtain ⟨hstart, htime, hsamples, hfresh, hcommand, hfeedback, hcount, hleak⟩ := hw
  have hleak' : ∀ f ∈ (w.count x (r.pairedPrevious w)).leak, f.Within (w.count x (r.pairedPrevious w)).samples := by
    rw [count_leak, count_samples]
    exact fun f hf => (hleak f hf).mono (Nat.le_succ _)
  have hpair : ∀ c f, r.pairedPrevious w = some (c, f) → 1 ≤ w.samples ∧ c ≤ 1000 ∧ f ≤ 1000 := by
    intro c f h
    obtain ⟨l, hl, hfb, rfl, hin⟩ := pairedPrevious_some h
    obtain ⟨hbefore, hc, hf⟩ := hlast l hl
    refine ⟨Nat.pos_of_ne_zero fun h0 => ?_, hc, hf _ hfb⟩
    have := hfresh h0
    omega
  revert hleak'
  unfold Window.count
  cases hxf : x.feedback with
  | none =>
    intro hleak'
    exact ⟨hstart, htime, by simp, by simpa using hsamples, by dsimp only; omega, by dsimp only; omega,
      by dsimp only; omega, hleak'⟩
  | some fb =>
    have hfb := hx.2 fb hxf
    cases hp : r.pairedPrevious w with
    | none =>
      intro hleak'
      exact ⟨hstart, htime, by simp, by simpa using hsamples, by dsimp only; omega, by dsimp only; omega,
        by dsimp only; omega, hleak'⟩
    | some p =>
      intro hleak'
      obtain ⟨hpos, hc, hf⟩ := hpair p.1 p.2 hp
      have hcommands := distance_le hx.1 hc
      have hfeedbacks := distance_le hfb hf
      exact ⟨hstart, htime, by simp, by simpa using hsamples, by dsimp only; omega, by dsimp only; omega,
        by dsimp only; omega, hleak'⟩

theorem residual_range (sense : CoilSense) (offset : Int) (x : Sample) :
    -2000 ≤ residual sense offset x ∧ residual sense offset x ≤ 2000 := by
  unfold residual
  split
  · unfold clampResidual
    omega
  · decide

theorem stageAccumulate_counted (h : r.Ready x.time) (hx : x.InRange) (hlast : r.LastBefore x.time) :
    (r.stageAccumulate x).Counted x.time := by
  have hcounted : ∀ w ∈ r.window.map fun w => w.count x (r.pairedPrevious w),
      w.Counted x.time r.active.wide.windowLength ∧
      ∀ f ∈ w.leak, ∀ z, -2000 ≤ z ∧ z ≤ 2000 → LeakFigures.Within w.samples { count := f.count + 1, sum := f.sum + z } := by
    intro w hw
    obtain ⟨w0, hw0, rfl⟩ := Option.mem_map.mp hw
    refine ⟨count_counted (h w0 hw0) hx hlast, fun f hf z hz => ?_⟩
    rw [count_leak] at hf
    rw [count_samples]
    exact ((h w0 hw0).figures.leak f hf).add hz
  unfold Record.stageAccumulate Record.stageLeak Record.accumulateLeak
  split
  · rename_i v w hv hw
    obtain ⟨hc, hleak⟩ := hcounted w hw
    split_ifs
    · intro q hq
      cases hq
      refine { hc with figures := { hc.figures with leak := fun f hf => ?_ } }
      obtain ⟨f0, hf0, rfl⟩ := Option.mem_map.mp hf
      exact hleak f0 hf0 _ (residual_range _ _ _)
    · exact fun q hq => (hcounted q hq).1
  · exact fun q hq => (hcounted q hq).1

theorem stageReversal_sameWindow (x : Sample) (r : Record) : r.SameWindow (r.stageReversal x) := ⟨rfl, rfl, rfl⟩

theorem stageCalibration_sameWindow (clock : Nat) (x : Sample) (r : Record) :
    r.SameWindow (r.stageCalibration clock x) := by
  unfold Record.stageCalibration
  split
  · dsimp only
    split_ifs <;> exact ⟨rfl, rfl, rfl⟩
  · exact ⟨rfl, rfl, rfl⟩

theorem stageLast_windowOk (h : r.Counted x.time) (hx : x.InRange) : (r.stageLast x).WindowOk := by
  refine windowOk_iff.mpr ⟨fun l hl => ?_, fun w hw => ⟨_, rfl, h w hw⟩⟩
  cases hl
  exact hx

/-! ### A well-shaped record -/

/-- A record as the manual says it stays, its open window within its bounds. -/
structure Record.Shaped (r : Record) : Prop where
  ok : r.Ok
  window : r.WindowOk

theorem sampledRecord_shaped (T : Tables) {x : RawSample} (h : r.Shaped)
    (accepted : sampleResult T.clock r x.time = .accepted) : (T.sampledRecord x.condition r).Shaped := by
  have hx := condition_inRange x
  have hlast : r.LastBefore x.time := fun l hl =>
    ⟨sampleResult_accepted accepted l hl, (windowOk_iff.mp h.window).1 l hl⟩
  have hready := stageWatch_ready (x := x.condition) (stageWindow_ready T (x := x.condition) h.ok h.window hlast)
  have hbefore : ((T.stageWindow x.condition r).stageWatch x.condition).LastBefore x.time := by
    unfold Record.LastBefore
    rw [stageWatch_last, stageWindow_last]
    exact hlast
  have hcounted := stageAccumulate_counted hready hx hbefore
  exact ⟨sampledRecord_ok T _ h.ok, stageLast_windowOk
    ((stageCalibration_sameWindow T.clock _ _).counted ((stageReversal_sameWindow _ _).counted hcounted)) hx⟩

theorem Record.SampledFrom.shaped {r' : Record} (hs : r.SampledFrom r') (h : r.Shaped) : r'.Shaped := by
  induction hs with
  | refl => exact h
  | step T x _ accepted ih => exact sampledRecord_shaped T ih accepted

/-- A record whose window, window length and last sample are kept keeps its window within its bounds. -/
theorem Record.SameWindow.windowOk {r' : Record} (h : r.SameWindow r') (hw : r.WindowOk) : r'.WindowOk := by
  unfold Record.WindowOk
  rw [h.active, h.window, h.last]
  exact hw

theorem failCalibration_last (clock : Nat) (reason : CalFailure) (r : Record) :
    (r.failCalibration clock reason).last = r.last := by
  unfold Record.failCalibration
  split_ifs <;> rfl

theorem warmRestart_shaped (clock : Nat) (h : r.Shaped) : (r.warmRestart clock).Shaped := by
  refine ⟨warmRestart_ok clock h.ok, windowOk_iff.mpr ⟨?_, fun w hw => (nomatch hw)⟩⟩
  have : (r.warmRestart clock).last = r.last := failCalibration_last clock .restart r
  rw [this]
  exact (windowOk_iff.mp h.window).1

theorem expire_shaped (clock : Nat) (h : r.Shaped) : (r.expire clock).Shaped :=
  ⟨expire_ok clock h.ok, windowOk_iff.mpr ⟨fun _ hl => (nomatch hl), fun _ hw => (nomatch hw)⟩⟩

theorem acquitTracker_sameWindow (r : Record) (n : Nat) : r.SameWindow (r.acquitTracker n) := by
  unfold Record.acquitTracker
  split <;> exact ⟨rfl, rfl, rfl⟩

/-- Every edit keeps the shape of a record. -/
theorem RecordEdit.shaped {may : Fin 16 → Prop} {c : Instr} {r' : Record} (he : RecordEdit may r c r') (h : r.Shaped) :
    r'.Shaped := by
  cases he with
  | same => exact h
  | restarted _ clock _ => exact warmRestart_shaped clock h
  | expired slot clock => exact expire_shaped clock h
  | unmarked => exact ⟨{ h.ok with }, Record.SameWindow.windowOk ⟨rfl, rfl, rfl⟩ h.window⟩
  | amended set zone _ hset =>
    refine ⟨{ h.ok with waiting := fun p hp => ?_, revision := nextRevision_range h.ok.revision },
      Record.SameWindow.windowOk ⟨rfl, rfl, rfl⟩ h.window⟩
    exact (hset p hp).elim (h.ok.waiting p) id
  | observed _ _ hs => exact hs.shaped h
  | calibrated start duration _ hv hlive =>
    exact ⟨{ h.ok with
      revision := nextRevision_range h.ok.revision, stale := fun hs => absurd hs hlive, calibrating := fun _ => hv },
      Record.SameWindow.windowOk ⟨rfl, rfl, rfl⟩ h.window⟩
  | acquitted n _ =>
    have hok := acquitTracker_ok n h.ok
    have hw := acquitTracker_sameWindow r n
    exact ⟨{ hok with revision := nextRevision_range h.ok.revision },
      Record.SameWindow.windowOk ⟨hw.active, hw.window, hw.last⟩ h.window⟩
  | raised _ => exact ⟨{ h.ok with }, Record.SameWindow.windowOk ⟨rfl, rfl, rfl⟩ h.window⟩
  | counted n => exact ⟨{ h.ok with }, Record.SameWindow.windowOk ⟨rfl, rfl, rfl⟩ h.window⟩

/-! ### A new record (R16) -/

theorem judgeSense_some {kind : ElementKind} {sense : Option Nat} {s : Option CoilSense}
    (h : judgeSense kind sense = some s) : s.isSome = true ↔ kind = .valve := by
  unfold judgeSense at h
  split at h
  · cases h
    decide
  · obtain ⟨c, _, rfl⟩ := Option.map_eq_some_iff.mp h
    simp
  · cases h

theorem default_inRange : ParamSet.default.InRange := by decide

theorem newRecord_shaped {key : Key} {zone : Fin 16} {sense : Option CoilSense} {set : ParamSet} {season : Fin 2}
    {lag : Nat} {offset : Int} (hsense : sense.isSome = true ↔ key.kind = .valve) (hset : set.InRange) (hlag : lag ≤ 600)
    (hoffset : -200 ≤ offset ∧ offset ≤ 200) : (newRecord key zone sense set season lag offset).Shaped := by
  have hstate : (newRecord key zone sense set season lag offset).state ≠ .stale := by
    simp only [newRecord]
    split_ifs <;> decide
  refine ⟨⟨by simpa [newRecord] using hsense, hset, fun _ hp => (nomatch hp), by simp [newRecord], Nat.zero_le _,
    fun hs => ?_, hlag, fun v hv => ?_, ⟨Nat.zero_le _, Nat.zero_le _, fun v hv => ?_⟩, fun hs => absurd hs hstate,
    fun hc => (nomatch hc), fun hc => (nomatch hc), fun _ hw => (nomatch hw)⟩,
    windowOk_iff.mpr ⟨fun _ hl => (nomatch hl), fun _ hw => (nomatch hw)⟩⟩
  · simp only [newRecord] at hs
    split_ifs at hs with h0
    exact Nat.pos_of_ne_zero h0
  · obtain ⟨_, _, rfl⟩ := Option.mem_map.mp hv
    exact hoffset
  · obtain ⟨_, _, rfl⟩ := Option.mem_map.mp hv
    exact Nat.zero_le _

end

/-! ### Every step -/

/-- Every record of the tables is well shaped. -/
def Tables.Shaped (T : Tables) : Prop := ∀ e ∈ T.records, e.2.Shaped

theorem shaped_iff {T : Tables} : T.Shaped ↔ T.RecordsShaped ∧ T.WindowsOk :=
  ⟨fun h => ⟨fun e he => (h e he).ok, fun e he => (h e he).window⟩, fun h e he => ⟨h.1 e he, h.2 e he⟩⟩

theorem Tables.Edited.shaped {may : Fin 16 → Prop} {c : Instr} {T T' : Tables} (h : Tables.Edited may c T T')
    (hT : T.RecordsOk) (hshaped : T.Shaped) : T'.Shaped := by
  intro e he
  obtain ⟨r, hr⟩ : ∃ r, Table.get T.records e.1 = some r := by
    rw [← Option.isSome_iff_exists, Table.get_isSome_iff, ← h.slots]
    exact List.mem_map_of_mem he
  obtain ⟨r', hr', hedit⟩ := h.record e.1 r hr
  obtain rfl : e.2 = r' := Option.some.inj ((Table.get_of_mem (h.recordsOk hT).records.1 he).symm.trans hr')
  exact hedit.shaped (hshaped _ (Table.mem_of_get hr))

theorem define_shaped {f : Frame} {T : Tables} {a : Accepted} (h : define f T = .ok a) (hT : T.Shaped) :
    a.tables.Shaped := by
  obtain ⟨q, key, zone, sense, slot, _, _, _, hsense, _, ⟨hset, _, hlag, hoffset⟩, _, _, rfl⟩ := define_ok.mp h
  intro e he
  obtain rfl | he := Table.mem_put he
  · refine newRecord_shaped (judgeSense_some hsense) ?_ ?_ ?_
    · cases hp : q.params with
      | none => exact default_inRange
      | some p => exact hset p hp
    · cases hl : q.lag with
      | none => exact Nat.zero_le _
      | some n => exact hlag n hl
    · cases ho : q.offset with
      | none => decide
      | some z => exact hoffset z ho
  · exact hT e he

theorem retire_shaped {f : Frame} {T : Tables} {a : Accepted} (h : retire f T = .ok a) (hT : T.Shaped) :
    a.tables.Shaped := by
  obtain ⟨q, slot, r, _, _, _, _, _, rfl⟩ := retire_ok.mp h
  exact fun e he => hT e (Table.mem_erase.mp he).1

/-- Settles O57: DEFINE brings a well-shaped record, RETIRE takes one away, and every edit keeps the shape of the others. -/
theorem recordShapesKept : Obligations.RecordShapesKept := by
  intro s t hok hrecords hwindows hstep
  have hshaped : s.tables.Shaped := shaped_iff.mpr ⟨hrecords, hwindows⟩
  rw [← shaped_iff]
  obtain ht | ⟨f, a, hd, ht⟩ | ⟨f, a, hr, ht⟩ | ⟨may, c, he⟩ := tablesChange_inv (step_tables hstep)
  · rw [ht]
    exact fun _ he => (nomatch he)
  · rw [ht]
    exact define_shaped hd hshaped
  · rw [ht]
    exact retire_shaped hr hshaped
  · exact he.shaped hok hshaped

end Sys2Proof.Machine
end

section
/-! SUPPORT. Power-on, the warm restart, how names resolve, and the window stage of a sample. -/

namespace Sys2Proof.Machine

/-! ### Power-on (R27, R172) -/

/-- Settles O3, field by field from the state of the restart tables. -/
theorem powerOnStartsThePart : Obligations.PowerOnStartsThePart := by
  refine ⟨fun s => rfl, fun i => ⟨rfl, rfl, rfl, rfl⟩, rfl, rfl, fun z => ?_, rfl, fun p => ?_, rfl, rfl, rfl⟩
  · simp [State.reset, Tables.reset, Zone.reset]
  · cases p <;> exact ⟨rfl, rfl, rfl, rfl, rfl, rfl, rfl, rfl, rfl, rfl⟩

theorem reset_within (p : PortId) : (State.reset.port p).Within := by
  cases p <;> exact ⟨by decide, by decide, by decide, fun _ _ h => (nomatch h), .inl rfl⟩

theorem reset_holdOk (p : PortId) : (State.reset.port p).HoldOk := by
  cases p <;> exact ⟨by decide, by decide⟩

theorem reset_portsOk : State.reset.PortsOk where
  withinA := reset_within .a
  withinB := reset_within .b
  holdHigh _ := ⟨reset_holdOk .a, reset_holdOk .b⟩
  holdLow h := nomatch h
  room _ h := nomatch h

theorem reset_attnOk : State.reset.AttnOk := by
  have h (p : PortId) : State.reset.AttnAt p := by
    rw [attnAt_iff]
    cases p <;> decide
  exact ⟨h .a, h .b⟩

theorem reset_couplingsOk : Tables.reset.CouplingsOk where
  couplings := by decide
  generations := ⟨by decide, by decide⟩
  members _ h := nomatch h
  pairs _ h := nomatch h
  counts _ h := nomatch h

/-- Settles O53: the ports stand at their settings and the tables are empty. -/
theorem resetSatisfiesTheInvariants : Obligations.ResetSatisfiesTheInvariants :=
  ⟨reset_portsOk, reset_attnOk, reset_recordsOk, reset_couplingsOk, fun _ h => (nomatch h), fun _ h => (nomatch h),
    fun _ h => (nomatch h), by decide, by decide⟩

/-! ### The warm restart (R27, R71, R103, R126, R172) -/

theorem warmRestart_restarted (T : Tables) : T.Restarted T.warmRestart where
  records i r hr := by
    simp only [Tables.warmRestart, Table.get_mapValues, hr, Option.map_some, Option.some.injEq]
    cases hcal : r.cal <;> simp [Record.warmRestart, Record.failCalibration, hcal, Calibration.isRunning,
      Record.marked, setMark]
  noRecord i hr := by simp only [Tables.warmRestart, Table.get_mapValues, hr, Option.map_none]
  couplings i c hc := by
    simp only [Tables.warmRestart, Table.get_mapValues, hc, Option.map_some, Coupling.warmRestart]
  noCoupling i hc := by simp only [Tables.warmRestart, Table.get_mapValues, hc, Option.map_none]
  directory := rfl
  recordGens := rfl
  couplingGens := rfl
  zones := rfl
  profile4 := rfl
  clock := rfl

/-- Settles O6, by what a warm restart does to the tables and to each port. -/
theorem warmRestartCarriedOut : Obligations.WarmRestartCarriedOut := fun s =>
  ⟨s.warmRestart .resetLine, rfl, warmRestart_restarted s.tables, rfl, rfl, driveAttn_attnOk _, rfl, rfl, rfl, rfl, rfl⟩

/-! ### How names resolve (R1, R2, R6, R108) -/

/-- In a well-formed record table the directory gives a record's key the record's slot. -/
theorem slotOfKey_of_get {T : Tables} (hT : T.RecordsOk) {slot : Nat} {r : Record}
    (hr : Table.get T.records slot = some r) : T.slotOfKey r.key = some slot := by
  have hmem := Table.mem_of_get hr
  unfold Tables.slotOfKey
  cases hfind : T.directory.find? fun e => decide (e.2 = r.key) with
  | none =>
    have hentry : (slot, r.key) ∈ T.directory := by
      rw [hT.directory]
      exact List.mem_map_of_mem (f := fun e : Nat × Record => (e.1, e.2.key)) hmem
    have hno := List.find?_eq_none.mp hfind _ hentry
    simp at hno
  | some d =>
    have hkey : d.2 = r.key := by simpa using List.find?_some hfind
    have hd := List.mem_of_find?_eq_some hfind
    rw [hT.directory] at hd
    obtain ⟨r1, hr1, hd2⟩ := Table.mem_mapValues hd
    have hsame := List.inj_on_of_nodup_map hT.keys hr1 hmem (hd2.symm.trans hkey)
    exact congrArg some (Prod.mk.inj hsame).1

theorem resolveRecord_key_of_judge_none {T : Tables} {raw : RawKey} (h : raw.judge = none) :
    T.resolveRecord (.key raw) = refuse .badParam := by
  simp only [Tables.resolveRecord, h, orRefuse_none, refuse_bind]

theorem resolveRecord_key_unlisted {T : Tables} {k : Key} (h : T.slotOfKey k = none) :
    T.resolveRecord (.key k.raw) = refuse .notFound := by
  simp only [Tables.resolveRecord, judge_raw, orRefuse_some, ok_bind, h, orRefuse_none, refuse_bind]

theorem resolveRecord_key_of_slot {T : Tables} {k : Key} {slot : Nat} {r : Record} (h : T.slotOfKey k = some slot)
    (hr : Table.get T.records slot = some r) : T.resolveRecord (.key k.raw) = .ok (slot, r) := by
  simp only [Tables.resolveRecord, judge_raw, orRefuse_some, ok_bind, h, hr]
  rfl

/-- Settles O14, form by form of the name. -/
theorem namesResolve : Obligations.NamesResolve := by
  intro T hT
  refine ⟨fun raw h => resolveRecord_key_of_judge_none (judge_none.mpr h),
    fun k h => resolveRecord_key_unlisted (slotOfKey_none.mpr h), fun slot r hr => ?_, fun h hno => ?_,
    fun _ _ _ => couplingOfHandle_some⟩
  · have hslot : slot < 512 := hT.records.2 _ (Table.mem_of_get hr)
    have hgen := generationOf_lt hT.generations slot
    refine ⟨resolveRecord_key_of_slot (slotOfKey_of_get hT hr) hr, ?_, by omega⟩
    rw [resolveRecord_handle, orRefuse_ok, recordOfHandle_some]
    exact ⟨by omega, by omega, by omega, hr⟩
  · have hnone : T.recordOfHandle h = none := by
      rw [Option.eq_none_iff_forall_ne_some]
      rintro ⟨slot, r⟩ hsome
      obtain ⟨hlt, rfl, hgen, hr⟩ := recordOfHandle_some.mp hsome
      obtain hno | hno | hno := hno
      · omega
      · rw [hno] at hr
        cases hr
      · exact hno hgen
    rw [resolveRecord_handle, hnone, orRefuse_none]

/-! ### The window stage (R9 to R11, R13, R32, R35 to R37, R55, R58 to R60) -/

/-- The parameter set a latch leaves active: the pending one, if any (R32). -/
def Record.latchedSet (r : Record) : ParamSet := r.pendingSet.getD r.active

/-- A latch brings in another settle windows value (R11). -/
abbrev Record.latchBrings (r : Record) : Prop := r.latchedSet.wide.settleWindows ≠ r.active.wide.settleWindows

/-- The settle count after a latch (R11). -/
def Record.latchedCount (r : Record) : Nat :=
  if r.latchBrings then min r.settleCount r.latchedSet.wide.settleWindows else r.settleCount

/-- Everything a latch writes (R11, R32, R35). -/
theorem latch_eq (season : Fin 2) (r : Record) :
    r.latch season = { r with
      active := r.latchedSet, pendingSet := none, bank := season, settleCount := r.latchedCount
      state := if r.latchBrings ∧ r.state = .settling ∧ r.latchedCount = r.latchedSet.wide.settleWindows then .live
        else r.state } := by
  unfold Record.latch Record.latchedCount Record.latchBrings Record.latchedSet
  cases hp : r.pendingSet with
  | none =>
    simp only [Option.getD_none, ne_eq, not_true_eq_false, false_and, if_false]
  | some p =>
    by_cases hsame : p.wide.settleWindows = r.active.wide.settleWindows
    · simp [hsame]
    · simp [hsame, Record.takeSettleWindows]

/-- The settle step of a closing window advances the settle count (R10). -/
abbrev Record.settles (w : Window) (r : Record) : Prop :=
  r.active.wide.minSamples ≤ w.samples ∧ r.settleCount < r.active.wide.settleWindows

/-- The settle count after the settle step (R10). -/
def Record.settledCount (w : Window) (r : Record) : Nat := if r.settles w then r.settleCount + 1 else r.settleCount

/-- Everything the settle step writes (R10). -/
theorem settleStep_eq (w : Window) (r : Record) :
    r.settleStep w = { r with
      settleCount := r.settledCount w
      state := if r.settles w ∧ r.settledCount w = r.active.wide.settleWindows ∧ r.state = .settling then .live
        else r.state } := by
  unfold Record.settleStep Record.settledCount Record.settles
  by_cases hs : r.active.wide.minSamples ≤ w.samples ∧ r.settleCount < r.active.wide.settleWindows
  · simp only [hs, true_and, and_self, if_true]
  · simp only [hs, false_and, if_false]

theorem evaluateWindow_settling (clock : Nat) (p : Profile) (mode : ZoneMode) (w : Window) (r : Record) :
    (r.evaluateWindow clock p mode w).active = r.active ∧ (r.evaluateWindow clock p mode w).pendingSet = r.pendingSet ∧
    (r.evaluateWindow clock p mode w).settleCount = r.settleCount ∧
    (r.evaluateWindow clock p mode w).state = r.state := by
  unfold Record.evaluateWindow
  dsimp only
  split_ifs <;> exact ⟨rfl, rfl, rfl, rfl⟩

/-- A window opened on a record of the same kind is the same window. -/
theorem openWindow_eq (t : Nat) {r q : Record} (h : q.valve.isSome = r.valve.isSome) :
    q.openWindow t = { q with window := some {
      start := t, samples := 0, commandTravel := 0, feedbackTravel := 0, feedbackMin := none, feedbackMax := none,
      feedbackCount := 0, stepExpiry := false, leak := if r.valve = none then none else some { count := 0, sum := 0 } } } := by
  unfold Record.openWindow
  cases hq : q.valve <;> cases hr : r.valve <;> simp_all

/-- Settles O44: the four cases of stage 1, each written out by what the latch and the settle step write. -/
theorem windowStage : Obligations.WindowStage := by
  intro T slot r x season fresh set brought
  have hopen {q : Record} (h : r.SameStanding q) : q.openWindow x.time = { q with window := some fresh } :=
    openWindow_eq x.time h.valve
  refine ⟨fun hs => ⟨?_, ?_⟩, fun hs hw => ⟨?_, ?_⟩, fun w hs hw hx => ⟨?_, ?_⟩, fun w hs hw hx => ?_⟩
  · have hstage : T.stageWindow x r = ((r.latch season).leaveStale.marked T.clock).openWindow x.time := by
      unfold Tables.stageWindow
      rw [if_pos hs]
    rw [hstage, hopen (((latch_standing _ _).trans (leaveStale_standing _)).trans (marked_standing _ _)), latch_eq]
    rfl
  · have hclose : r.closingWindow x = none := by simp [Record.closingWindow, hs]
    simp only [Tables.stageFights, hclose]
  · have hstage : T.stageWindow x r = r.openWindow x.time := by
      unfold Tables.stageWindow
      rw [if_neg hs, hw]
    rw [hstage, hopen (.refl r)]
  · have hclose : r.closingWindow x = none := by simp [Record.closingWindow, hw]
    simp only [Tables.stageFights, hclose]
  · have hclose : r.closingWindow x = none := by simp [Record.closingWindow, hs, hw, hx]
    unfold Tables.stageWindow
    rw [if_neg hs, hw]
    dsimp only
    rw [hclose]
  · have hclose : r.closingWindow x = none := by simp [Record.closingWindow, hw, hx]
    simp only [Tables.stageFights, hclose]
  · intro judged advances count state settled
    have hclose : r.closingWindow x = some w := by simp [Record.closingWindow, hs, hw, hx]
    refine ⟨?_, fun i => ?_⟩
    · have hstage : T.stageWindow x r = ((judged.settleStep w).latch season).openWindow x.time := by
        unfold Tables.stageWindow
        rw [if_neg hs, hw]
        dsimp only
        rw [hclose]
      have hstanding : r.SameStanding judged := evaluateWindow_standing _ _ _ _ r
      obtain ⟨hactive, hpending, hcount, hstate⟩ : judged.active = r.active ∧ judged.pendingSet = r.pendingSet ∧
          judged.settleCount = r.settleCount ∧ judged.state = r.state := evaluateWindow_settling _ _ _ _ r
      rw [hstage, hopen ((hstanding.trans (settleStep_standing _ _)).trans (latch_standing _ _)), latch_eq, settleStep_eq]
      clear_value judged
      simp only [Record.latchedCount, Record.latchBrings, Record.latchedSet, Record.settledCount, Record.settles,
        hactive, hpending, hcount, hstate]
      rfl
    · simp only [Tables.stageFights, hclose, Tables.evaluateLed, Table.get_mapValues]
      rfl

end Sys2Proof.Machine
end

section
/-! SUPPORT. The requests of the record table: how a request that changes the tables alone completes and is refused, DEFINE,
AMEND, RETIRE, CALIBRATE and ACQUIT accepted, and the refusals of DEFINE, RETIRE and UNCOUPLE. -/

namespace Sys2Proof.Machine

/-! ### Completion and refusal (R26, R168) -/

section
variable {s : State} {p : PortId} {f : Frame} {c : Instr} {code : Byte} {run : Frame → Tables → Except Refused Accepted}

/-- A request accepted completes with what it answers. -/
theorem answers_of_ok {a : Accepted} (hc : ∀ s, exec c s = s.serveTables code run) (hs : s.Serves p f)
    (hf : f.code = code) (hrun : run f s.tables = .ok a) : s.Answers c p f a.completion a.body a.tables := by
  obtain ⟨t, ht, hdone⟩ := serveTables_ok hs hf hrun
  exact ⟨t, (hc s).trans ht, hdone⟩

/-- A request refused completes with the refusal and no effect. -/
theorem answers_of_error {r : Refused} (hc : ∀ s, exec c s = s.serveTables code run) (hs : s.Serves p f)
    (hf : f.code = code) (hrun : run f s.tables = .error r) : s.Answers c p f r.completion r.body s.tables := by
  obtain ⟨t, ht, hdone⟩ := serveTables_error hs hf hrun
  exact ⟨t, (hc s).trans ht, hdone⟩

theorem refuses_of_refuse {e : Completion} (hc : ∀ s, exec c s = s.serveTables code run) (hs : s.Serves p f)
    (hf : f.code = code) (hrun : run f s.tables = refuse e) : s.Refuses c p f e :=
  answers_of_error hc hs hf hrun

end

/-- A name that does not resolve is refused with an empty body. -/
theorem resolveRecord_refuse {T : Tables} {n : RequestName} {e : Refused} (h : T.resolveRecord n = .error e) :
    T.resolveRecord n = refuse e.completion := by
  have hbody : e.body = [] := by
    cases n with
    | handle h' =>
      obtain ⟨_, rfl⟩ := orRefuse_error.mp h
      rfl
    | key raw =>
      simp only [Tables.resolveRecord, except_bind_error, orRefuse_error, pure, Except.pure, reduceCtorEq] at h
      obtain ⟨_, rfl⟩ | ⟨_, _, ⟨_, rfl⟩ | ⟨_, _, ⟨_, rfl⟩ | ⟨_, _, h⟩⟩⟩ := h
      · rfl
      · rfl
      · rfl
      · exact h.elim
  rw [h]
  cases e
  cases hbody
  rfl

/-! ### DEFINE (R14 to R16, R30, R31) -/

section
variable {q : DefineReq} {key : Key} {zone : Fin 16}

theorem kind_of_raw (h : key.raw = q.key) : q.key.kind = key.kind.code := by rw [← h]; rfl

/-- The coil sense of a request in form is judged as R7 codes it. -/
theorem judgeSense_of_form (hq : q.FormOk) (hk : key.raw = q.key) :
    judgeSense key.kind q.sense = some (q.sense.map fun c => if c = 0 then .heat else .cool) := by
  have hpresent := hq.sensePresent
  rw [kind_of_raw hk] at hpresent
  have hcodes := hq.sense
  cases hkind : key.kind with
  | damper =>
    cases hsense : q.sense with
    | none => rfl
    | some c => simp [hkind, hsense, ElementKind.code] at hpresent
  | valve =>
    cases hsense : q.sense with
    | none => simp [hkind, hsense, ElementKind.code] at hpresent
    | some c =>
      obtain rfl | rfl := hcodes c hsense
      · rfl
      · rfl

theorem senseOfNat_some {n : Nat} {c : CoilSense} (h : senseOfNat n = some c) : n = 0 ∨ n = 1 := by
  match n, h with
  | 0, _ => exact .inl rfl
  | 1, _ => exact .inr rfl

/-- A request whose key, zone and coil sense are all judged is in form (R15, step 1). -/
theorem formOk_of_judged {sense : Option CoilSense} (hkey : q.key.judge = some key) (hzone : zoneOfNat q.zone = some zone)
    (hsense : judgeSense key.kind q.sense = some sense) : q.FormOk := by
  have hraw := raw_of_judge hkey
  have hkind := kind_of_raw hraw
  refine ⟨?_, ?_, ?_, ?_, ?_, ?_, ?_⟩
  · rw [← hraw]; exact key.building.isLt
  · rw [← hraw]; exact key.unit.isLt
  · rw [← hraw]; exact key.number.isLt
  · rw [hkind]; cases key.kind <;> simp [ElementKind.code]
  · rw [← zoneOfNat_some.mp hzone]; exact zone.isLt
  · rw [hkind]
    unfold judgeSense at hsense
    split at hsense
    · rename_i h1 h2; simp [h1, h2, ElementKind.code]
    · rename_i h1 h2; simp [h1, h2, ElementKind.code]
    · cases hsense
  · intro c hc
    unfold judgeSense at hsense
    split at hsense
    · rename_i h2; rw [h2] at hc; cases hc
    · rename_i h2
      rw [h2] at hc
      cases hc
      obtain ⟨_, hs, _⟩ := Option.map_eq_some_iff.mp hsense
      exact senseOfNat_some hs
    · cases hsense

/-- Step 3 of R15 as DEFINE checks it. -/
theorem valuesOk_iff (hk : key.raw = q.key) :
    ((∀ p ∈ q.params, p.InRange) ∧ learnedValid key.kind q.lag q.offset) ↔ q.ValuesOk := by
  have hkind := kind_of_raw hk
  have learned : learnedValid key.kind q.lag q.offset ↔ (q.lag = none ∧ q.offset = none) ∨
      ∃ n, q.lag = some n ∧ n ≤ 600 ∧
        ((q.key.kind = 0 ∧ q.offset = none) ∨ (q.key.kind = 1 ∧ ∃ z, q.offset = some z ∧ -200 ≤ z ∧ z ≤ 200)) := by
    rw [hkind]
    cases q.lag <;> cases q.offset <;> cases key.kind <;> simp [learnedValid, learnedShape, ElementKind.code]
  rw [learned]
  exact ⟨fun h => ⟨h.1, h.2⟩, fun h => ⟨h.params, h.learned⟩⟩

end

/-- The checks of DEFINE after step 1 of R15, in their order. -/
theorem define_of_judged {f : Frame} {T : Tables} {q : DefineReq} {key : Key} {zone : Fin 16} {sense : Option CoilSense}
    (hq : readDefine f.body = some q) (hkey : q.key.judge = some key) (hzone : zoneOfNat q.zone = some zone)
    (hsense : judgeSense key.kind q.sense = some sense) :
    ∃ accept : Nat → Except Refused Accepted, define f T = (do
      require (T.permits f.requester zone) .notPermitted
      require ((∀ p ∈ q.params, p.InRange) ∧ learnedValid key.kind q.lag q.offset) .badParam
      require (T.slotOfKey key = none) .duplicateKey
      let slot ← orRefuse (Table.lowestFree T.records Config.recordSlots) .tableFull
      accept slot) :=
  ⟨_, by simp only [define, hq, parsed_some, ok_bind, hkey, hzone, hsense, orRefuse_some]; rfl⟩

/-- Settles O15: every check of R15 passes, and the record made is the one R16 gives. -/
theorem defineCompletes : Obligations.DefineCompletes := by
  intro s p f q key zone slot hs hf hq hform hvalues hkey hzone hmay hfresh hlt hfree hbelow set live r
  have hok := define_ok.mpr ⟨q, key, zone, _, slot, hq, hkey ▸ judge_raw key, zoneOfNat_some.mpr hzone,
    judgeSense_of_form hform hkey, (permits_iff _ _ _).mpr hmay, (valuesOk_iff hkey).mpr hvalues,
    slotOfKey_none.mpr hfresh, lowestFree_eq hlt hfree hbelow, rfl⟩
  have hrecord : newRecord key zone (q.sense.map fun c => if c = 0 then .heat else .cool) set
      s.tables.zones[zone].seasonBank (q.lag.getD 0) (q.offset.getD 0) = r := by
    simp only [newRecord, Option.map_map]
    rfl
  have hcode : r.state.code = if live then 1 else 0 := by
    dsimp only [r]
    split_ifs <;> rfl
  have hanswer := answers_of_ok (c := .define) (fun _ => rfl) hs hf hok
  dsimp only at hanswer
  rw [hrecord, hcode] at hanswer
  exact hanswer

/-- Settles O16, check by check in the order of R15. -/
theorem defineRefused : Obligations.DefineRefused := by
  intro s p f hs hf
  have refuses {e : Completion} (hrun : define f s.tables = refuse e) : s.Refuses .define p f e :=
    refuses_of_refuse (fun _ => rfl) hs hf hrun
  refine ⟨fun hq => refuses ?_, fun q hq => ⟨fun hform => refuses ?_, fun key zone hform hkey hzone => ?_⟩⟩
  · simp only [define, hq, parsed_none, refuse_bind]
  · simp only [define, hq, parsed_some, ok_bind]
    cases hkey : q.key.judge with
    | none => rw [orRefuse_none, refuse_bind]
    | some key =>
      rw [orRefuse_some, ok_bind]
      cases hzone : zoneOfNat q.zone with
      | none => rw [orRefuse_none, refuse_bind]
      | some zone =>
        rw [orRefuse_some, ok_bind]
        cases hsense : judgeSense key.kind q.sense with
        | none => rw [orRefuse_none, refuse_bind]
        | some sense => exact absurd (formOk_of_judged hkey hzone hsense) hform
  · have hjudge : q.key.judge = some key := hkey ▸ judge_raw key
    have hzone := zoneOfNat_some.mpr hzone
    have hsense := judgeSense_of_form hform hkey
    obtain ⟨accept, hchain⟩ := define_of_judged (T := s.tables) hq hjudge hzone hsense
    refine ⟨fun hno => refuses ?_, fun hmay => ⟨fun hno => refuses ?_, fun hvalues hin => refuses ?_,
      fun hvalues hnew hfull => refuses ?_⟩⟩
    · rw [hchain, require_neg (mt (permits_iff _ _ _).mp hno), refuse_bind]
    · rw [hchain, require_pos ((permits_iff _ _ _).mpr hmay), ok_bind, require_neg (mt (valuesOk_iff hkey).mp hno),
        refuse_bind]
    · obtain ⟨slot, hin⟩ := hin
      have hlisted : ¬ s.tables.slotOfKey key = none := fun h => slotOfKey_none.mp h _ hin rfl
      rw [hchain, require_pos ((permits_iff _ _ _).mpr hmay), ok_bind, require_pos ((valuesOk_iff hkey).mpr hvalues),
        ok_bind, require_neg hlisted, refuse_bind]
    · rw [hchain, require_pos ((permits_iff _ _ _).mpr hmay), ok_bind, require_pos ((valuesOk_iff hkey).mpr hvalues),
        ok_bind, require_pos (slotOfKey_none.mpr hnew), ok_bind, lowestFree_eq_none hfull, orRefuse_none, refuse_bind]

end Sys2Proof.Machine
end

section
/-! SUPPORT. AMEND, RETIRE, CALIBRATE and ACQUIT accepted, and the refusals of RETIRE and UNCOUPLE. -/

namespace Sys2Proof.Machine

/-! ### AMEND (R8, R34, R38 to R41) -/

/-- The new zone of an AMEND in range is judged to be itself, and the record's zone follows it. -/
theorem judgeNewZone_of_lt {given : Option Nat} {old zone : Fin 16} (h : ∀ n ∈ given, n < 16)
    (hzone : zone.val = given.getD old.val) :
    ∃ newZone, judgeNewZone given = some newZone ∧ newZone.getD old = zone ∧ ∀ z ∈ newZone, given = some z.val := by
  cases given with
  | none => exact ⟨none, rfl, Fin.ext hzone.symm, fun _ hz => (nomatch hz)⟩
  | some n =>
    have hsome : zoneOfNat n = some zone := zoneOfNat_some.mpr hzone
    refine ⟨some zone, by simp [judgeNewZone, hsome], rfl, fun z hz => ?_⟩
    cases hz
    exact congrArg some hzone.symm

/-- Settles O20: the checks of R39 pass, and the record written is the one R40 gives. -/
theorem amendCompletes : Obligations.AmendCompletes := by
  intro s p f q slot r hs hf hq hres hgiven hrange hmay hmayNew hrev hsets zone hzone revision waiting
  obtain ⟨newZone, hjudge, hget, hnew⟩ := judgeNewZone_of_lt hrange hzone
  have hsome : q.params.isSome ∨ q.zone.isSome := hgiven.imp Option.isSome_iff_ne_none.mpr Option.isSome_iff_ne_none.mpr
  have hpermits : s.tables.permits f.requester r.zone ∧ ∀ z ∈ newZone, z ≠ r.zone → s.tables.permits f.requester z :=
    ⟨(permits_iff _ _ _).mpr hmay, fun z hz hne => (permits_iff _ _ _).mpr (hmayNew z (hnew z hz) hne)⟩
  have hok := amend_ok.mpr ⟨q, slot, r, newZone, hq, hres, hsome, hjudge, hpermits, hrev, hsets, rfl⟩
  have hwaiting : (if q.params.isSome then q.params else r.pendingSet) = waiting := by
    dsimp only [waiting]
    cases q.params <;> rfl
  have hanswer := answers_of_ok (c := .amend) (fun _ => rfl) hs hf hok
  dsimp only at hanswer
  rw [hwaiting, hget] at hanswer
  exact hanswer

/-! ### RETIRE and UNCOUPLE (R23, R24, R42, R114) -/

/-- Settles O22, by what emptying a slot and advancing its generation leave. -/
theorem retireCompletes : Obligations.RetireCompletes := by
  intro s p f q slot r hs hf hq hres hmay hrev hcount
  have hok := retire_ok.mpr ⟨q, slot, r, hq, hres, (permits_iff _ _ _).mpr hmay, hrev, hcount, rfl⟩
  exact ⟨_, answers_of_ok (c := .retire) (fun _ => rfl) hs hf hok, Table.get_erase_self _ _,
    fun j hj => Table.get_erase_ne _ hj, Table.get_erase_self _ _, fun j hj => Table.get_erase_ne _ hj,
    generationOf_advance_self _ _, fun j hj => generationOf_advance_ne _ hj, rfl⟩

/-- Settles O23, check by check in the order of R23 and of R114. -/
theorem removalsRefused : Obligations.RemovalsRefused := by
  intro s p f hs
  refine ⟨fun hf => ?_, fun hf => ?_⟩
  · have refuses {e : Completion} (hrun : retire f s.tables = refuse e) : s.Refuses .retire p f e :=
      refuses_of_refuse (fun _ => rfl) hs hf hrun
    refine ⟨fun hq => refuses ?_, fun q hq => ⟨fun e he => refuses ?_, fun slot r hres => ?_⟩⟩
    · simp only [retire, hq, parsed_none, refuse_bind]
    · simp only [retire, hq, parsed_some, ok_bind, resolveRecord_refuse he, refuse_bind]
    · refine ⟨fun hno => refuses ?_, fun hmay => ?_⟩
      · simp only [retire, hq, parsed_some, ok_bind, hres, require_neg (mt (permits_iff _ _ _).mp hno), refuse_bind]
      · have hpermits := (permits_iff _ _ _).mpr hmay
        refine ⟨fun hno => ?_, fun hrev hcount => refuses ?_⟩
        · refine answers_of_error (c := .retire) (run := retire) (fun _ => rfl) hs hf
            (r := ⟨.revisionMismatch, be16 (64 * slot + generationOf s.tables.recordGens slot) ++ be16 r.revision⟩) ?_
          simp only [retire, hq, parsed_some, ok_bind, hres, require_pos hpermits, checkRevision_fail hno, error_bind]
        · simp only [retire, hq, parsed_some, ok_bind, hres, require_pos hpermits, checkRevision_pass hrev,
            require_neg hcount, refuse_bind]
  · have refuses {e : Completion} (hrun : uncouple f s.tables = refuse e) : s.Refuses .uncouple p f e :=
      refuses_of_refuse (fun _ => rfl) hs hf hrun
    refine ⟨fun hq => refuses ?_, fun h hq => ⟨fun hno => refuses ?_, fun slot c lead hc hlead hno => refuses ?_⟩⟩
    · simp only [uncouple, hq, parsed_none, refuse_bind]
    · simp only [uncouple, hq, parsed_some, ok_bind, Tables.resolveCoupling, hno, orRefuse_none, refuse_bind]
    · simp only [uncouple, hq, parsed_some, ok_bind, Tables.resolveCoupling, hc, orRefuse_some,
        require_neg (mt (permitsLead_iff hlead).mp hno), refuse_bind]

/-! ### CALIBRATE (R8, R98, R99) -/

theorem isRunning_of_ne {c : Calibration} (h : ∀ run, c ≠ .running run) : c.isRunning = false := by
  cases c with
  | running run => exact absurd rfl (h run)
  | _ => rfl

/-- Settles O26: the checks of R98 pass, and the record written is the one R99 gives. -/
theorem calibrateCompletes : Obligations.CalibrateCompletes := by
  intro s p f q slot r hs hf hq hres hmin hmax hmay hrev hvalve hlive hmode hcal revision
  have hnotHeld : s.tables.zones[r.zone].mode ≠ .hold := by
    rw [hmode]
    decide
  have hok := calibrate_ok.mpr ⟨q, slot, r, hq, hres, ⟨hmin, hmax⟩, (permits_iff _ _ _).mpr hmay, hrev,
    Option.isSome_iff_ne_none.mpr hvalve, hlive, hnotHeld, isRunning_of_ne hcal, rfl⟩
  exact answers_of_ok (c := .calibrate) (fun _ => rfl) hs hf hok

/-! ### ACQUIT (R8, R138 to R140) -/

/-- ACQUIT of a record, whichever of its trackers is named. -/
theorem acquitRecord_answers {s : State} {p : PortId} {f : Frame} {q : AcquitReq} {slot tracker : Nat} {r after : Record}
    {before : Tracker} (hs : s.Serves p f) (hf : f.code = 0x08) (hq : readAcquit f.body = some q)
    (hname : q.name.isCoupling = false) (hres : s.tables.resolveRecord q.name = .ok (slot, r))
    (hmay : s.tables.MayChange f.requester r.zone) (hrev : r.Expects q.expected) (hcode : q.tracker = tracker)
    (htracker : tracker ≤ 2) (hbefore : r.tracker tracker = some before) (hafter : r.acquitTracker tracker = after) :
    s.Answers .acquit p f .done
      (be16 (64 * slot + generationOf s.tables.recordGens slot) ++ be8 q.tracker ++
        be8 before.score ++ be8 before.verdict.level ++ be8 1 ++ be16 (nextRevision r.revision))
      { s.tables with
        records := Table.replace s.tables.records slot
          { after with mark := none, revision := nextRevision r.revision } } := by
  subst hcode hafter
  have hok := acquit_ok.mpr ⟨q, hq, .inl ⟨hname, acquitRecord_ok.mpr
    ⟨slot, r, before, hres, htracker, (permits_iff _ _ _).mpr hmay, hrev, hbefore, rfl⟩⟩⟩
  exact answers_of_ok (c := .acquit) (fun _ => rfl) hs hf hok

/-- Settles O28, tracker by tracker. -/
theorem acquitCompletes : Obligations.AcquitCompletes := by
  intro s p f q hs hf hq
  refine ⟨fun slot r hname hres hmay hrev => ?_, fun h slot c lead hname hc htracker hlead hmay => ?_⟩
  · have answers {tracker : Nat} {before : Tracker} {after : Record} :=
      acquitRecord_answers (tracker := tracker) (before := before) (after := after) hs hf hq hname hres hmay hrev
    refine ⟨fun h0 => answers h0 (by decide) rfl rfl, fun h1 => answers h1 (by decide) rfl rfl, fun v h2 hv => ?_⟩
    refine answers (after := { r with valve := some { v with leak := Tracker.fresh } }) h2 (by decide) ?_ ?_
    · simp [Record.tracker, hv]
    · simp [Record.acquitTracker, hv]
  · have hkind : isCouplingHandle h = true := by
      simpa [isCouplingHandle] using (couplingOfHandle_some.mp hc).1
    have hok := acquit_ok.mpr ⟨q, hq, .inr ⟨h, hname, hkind, acquitCoupling_ok.mpr
      ⟨slot, c, hc, htracker, (permitsLead_iff hlead).mpr hmay, rfl⟩⟩⟩
    rw [htracker] at hok
    exact answers_of_ok (c := .acquit) (fun _ => rfl) hs hf hok

end Sys2Proof.Machine
end

section
/-! SUPPORT. LOOKUP and ENUMERATE accepted, and the refusals of the requests open to every requester. -/

namespace Sys2Proof.Machine

/-! ### Bytes of a view (R17 to R19, R116, R174) -/

theorem optField_map {α β : Type} (enc : β → List Byte) (g : α → β) (x : Option α) :
    optField enc (x.map g) = optField (fun a => enc (g a)) x := by
  cases x <;> rfl

/-! ### LOOKUP (R17 to R20, R116) -/

/-- Settles O17: every part of a view, as the statement writes it out, is what the model's layout writes. -/
theorem lookupCompletes : Obligations.LookupCompletes := by
  intro s p f q hs hf hq hview hkeep flag opt key state tracker direction calibration bank set handle summary settings
    window progress reversal coupling
  have hopt {α : Type} (enc : α → List Byte) (x : Option α) : opt enc x = optField enc x := by cases x <;> rfl
  have hkey (k : Key) : key k = k.bytes := by
    obtain ⟨b, u, kind, n⟩ := k
    cases kind
    · simp only [key, Key.bytes, ElementKind.code, Nat.mul_zero]
    · rfl
  have hstate (x : Lifecycle) : state x = be8 x.code := by cases x <;> rfl
  have htracker (t : Tracker) : tracker t = t.bytes := by
    obtain ⟨score, verdict⟩ := t
    cases verdict <;> rfl
  have hdirection (d : Direction) : direction d = be8 d.code := by cases d <;> rfl
  have hcal (c : Calibration) : calibration c = c.bytes := by
    cases c with
    | failed reason => cases reason <;> rfl
    | _ => rfl
  have hset (x : ParamSet) : set x = x.bytes := by
    simp only [set, bank, ParamSet.bytes, RecordWide.bytes, Bank.bytes, List.append_assoc]
  have hsummary (slot : Nat) (r : Record) : summary slot r = s.tables.summaryBody slot r := by
    -- `delta`: the equation lemma of this definition is costly to make.
    delta Tables.summaryBody
    simp only [summary, hopt, hkey, hstate, htracker, hcal, Record.deadline, optField_map]
    rfl
  have hsettings (slot : Nat) (r : Record) : settings slot r = s.tables.settingsBody slot r := by
    simp only [settings, hopt, hset, Tables.settingsBody]
    rfl
  have hwindow (w : Window) : window w = w.bytes := by
    simp only [window, hopt, Window.bytes, Window.feedbackSpan]
    cases w.feedbackMin <;> cases w.feedbackMax <;> rfl
  have hprogress (slot : Nat) (r : Record) : progress slot r = s.tables.progressBody slot r := by
    simp only [progress, hopt, hdirection, Tables.progressBody]
    rw [show window = Window.bytes from funext hwindow]
    cases r.reversal.direction <;> cases r.cal <;> rfl
  have hcoupling (slot : Nat) (c : Coupling) (lead follower : Record)
      (hlead : Table.get s.tables.records (recordSlotOf c.lead) = some lead)
      (hfollower : Table.get s.tables.records (recordSlotOf c.follower) = some follower) :
      coupling slot c lead follower = s.tables.couplingBody slot c := by
    simp only [coupling, hopt, hkey, htracker, Tables.couplingBody, Tables.memberBytes, hlead, hfollower,
      CouplingParams.bytes, List.append_assoc]
    rw [show reversal = Reversal.bytes from funext fun v => congrArg (be32 v.time ++ ·) (hdirection v.direction)]
    rfl
  refine ⟨fun slot r hname hres => ?_, fun h slot c lead follower hname hc hlead hfollower => ?_⟩
  · have hok := lookup_ok.mpr ⟨q, hq, ⟨hview, hkeep⟩, .inl ⟨hname, slot, r, hres, rfl⟩⟩
    rw [hsummary, hsettings, hprogress]
    exact answers_of_ok (c := .lookup) (fun _ => rfl) hs hf hok
  · have hkind : isCouplingHandle h = true := by
      simpa [isCouplingHandle] using (couplingOfHandle_some.mp hc).1
    have hok := (lookup_ok (T := s.tables)).mpr ⟨q, hq, ⟨hview, hkeep⟩, .inr ⟨h, slot, c, hname, hkind, hc, rfl⟩⟩
    rw [hcoupling slot c lead follower hlead hfollower]
    exact answers_of_ok (c := .lookup) (fun _ => rfl) hs hf hok

/-! ### ENUMERATE (R21, R22) -/

theorem isCouplingHandle_false {h : Nat} : isCouplingHandle h = false ↔ h < 32768 := by
  simp [isCouplingHandle]

/-- Settles O18. -/
theorem enumerateCompletes : Obligations.EnumerateCompletes := by
  intro s p f q zone hs hf hq hzone hcursor handle above
  have hok := (enumerate_ok (T := s.tables)).mpr ⟨q, zone, hq, zoneOfNat_some.mpr hzone,
    fun c hc => isCouplingHandle_false.mpr (hcursor c hc), rfl⟩
  exact answers_of_ok (c := .enumerate) (fun _ => rfl) hs hf hok

/-! ### Refusals (R6, R17, R20, R21, R116, R168, R174) -/

theorem readEmpty_none {b : List Byte} (h : b ≠ []) : readEmpty b = none := if_neg h

/-- Settles O19, request by request and check by check. -/
theorem readersRefused : Obligations.ReadersRefused := by
  intro s p f hs
  refine ⟨fun hf => ?_, fun hf => ?_, fun hbody => ⟨fun hf => ?_, fun hf => ?_⟩⟩
  · have refuses {e : Completion} (hrun : lookup f s.tables = refuse e) : s.Refuses .lookup p f e :=
      refuses_of_refuse (fun _ => rfl) hs hf hrun
    refine ⟨fun hq => refuses ?_, fun q hq => ⟨fun hbad => refuses ?_, fun hview hkeep =>
      ⟨fun e hname he => refuses ?_, fun h hname hh hno => refuses ?_⟩⟩⟩
    · simp only [lookup, hq, parsed_none, refuse_bind]
    · have hno : ¬ (q.view ≤ 2 ∧ q.keep ≤ 1) := by omega
      simp only [lookup, hq, parsed_some, ok_bind, require_neg hno, refuse_bind]
    · have hpass : q.view ≤ 2 ∧ q.keep ≤ 1 := ⟨hview, hkeep⟩
      have hres := resolveRecord_refuse he
      simp only [lookup, hq, parsed_some, ok_bind, require_pos hpass]
      cases hn : q.name with
      | key k =>
        rw [hn] at hres
        simp only [hres, refuse_bind]
      | handle h =>
        rw [hn] at hname hres
        have hkind : isCouplingHandle h = false := hname
        simp only [hkind, Bool.false_eq_true, if_false, hres, refuse_bind]
    · have hpass : q.view ≤ 2 ∧ q.keep ≤ 1 := ⟨hview, hkeep⟩
      have hkind : isCouplingHandle h = true := by simpa [isCouplingHandle] using hh
      simp only [lookup, hq, parsed_some, ok_bind, require_pos hpass, hname, hkind, if_true, Tables.resolveCoupling, hno,
        orRefuse_none, refuse_bind]
  · have refuses {e : Completion} (hrun : enumerate f s.tables = refuse e) : s.Refuses .enumerate p f e :=
      refuses_of_refuse (fun _ => rfl) hs hf hrun
    refine ⟨fun hq => refuses ?_, fun q hq => ⟨fun hzone => refuses ?_, fun hzone hcursor => refuses ?_⟩⟩
    · simp only [enumerate, hq, parsed_none, refuse_bind]
    · simp only [enumerate, hq, parsed_some, ok_bind, zoneOfNat_none.mpr hzone, orRefuse_none, refuse_bind]
    · obtain ⟨c, hc, hkind⟩ := hcursor
      have hin : zoneOfNat q.zone = some ⟨q.zone, hzone⟩ := zoneOfNat_some.mpr rfl
      have hno : ¬ ∀ c ∈ q.cursor, isCouplingHandle c = false := fun h => by
        have := isCouplingHandle_false.mp (h c hc)
        omega
      simp only [enumerate, hq, parsed_some, ok_bind, hin, orRefuse_some, require_neg hno, refuse_bind]
  · refine refuses_of_refuse (run := scan) (fun _ => rfl) hs hf ?_
    simp only [scan, readEmpty_none hbody, parsed_none, refuse_bind]
  · refine refuses_of_refuse (run := readTime) (fun _ => rfl) hs hf ?_
    simp only [readTime, readEmpty_none hbody, parsed_none, refuse_bind]

end Sys2Proof.Machine
end

section
/-! SUPPORT. The six stages of an accepted sample: what each one writes of the record. -/

namespace Sys2Proof.Machine

/-! ### What each stage writes (R54, R57) -/

theorem latch_reversal (season : Fin 2) (r : Record) : (r.latch season).reversal = r.reversal := by rw [latch_eq]

theorem settleStep_reversal (w : Window) (r : Record) : (r.settleStep w).reversal = r.reversal := by rw [settleStep_eq]

theorem evaluateWindow_reversal (clock : Nat) (p : Profile) (mode : ZoneMode) (w : Window) (r : Record) :
    (r.evaluateWindow clock p mode w).reversal = r.reversal := by
  unfold Record.evaluateWindow
  dsimp only
  split_ifs <;> rfl

/-- Stage 1 leaves the reversal tracker. -/
theorem stageWindow_reversal (T : Tables) (x : Sample) (r : Record) : (T.stageWindow x r).reversal = r.reversal := by
  unfold Tables.stageWindow
  dsimp only
  split_ifs
  · exact latch_reversal _ r
  · split
    · rfl
    · split
      · rfl
      · exact ((latch_reversal _ _).trans (settleStep_reversal _ _)).trans (evaluateWindow_reversal _ _ _ _ r)

theorem expireWatch_writes (x : Sample) (r : Record) :
    ∃ watch window, r.expireWatch x = { r with watch := watch, window := window } := by
  unfold Record.expireWatch
  split
  · split_ifs <;> exact ⟨_, _, rfl⟩
  · exact ⟨_, _, rfl⟩

theorem completeWatch_writes (x : Sample) (r : Record) :
    ∃ watch lag, r.completeWatch x = { r with watch := watch, lag := lag } := by
  unfold Record.completeWatch
  split
  · split_ifs <;> exact ⟨_, _, rfl⟩
  · exact ⟨_, _, rfl⟩

theorem detectStep_writes (x : Sample) (r : Record) : ∃ watch, r.detectStep x = { r with watch := watch } := by
  unfold Record.detectStep
  dsimp only
  repeat' split
  all_goals exact ⟨_, rfl⟩

/-- Stage 2 writes the step watch, the learned lag and the open window (its step-expiry flag) alone. -/
theorem stageWatch_writes (x : Sample) (r : Record) :
    ∃ watch lag window, r.stageWatch x = { r with watch := watch, lag := lag, window := window } := by
  unfold Record.stageWatch
  split_ifs
  · obtain ⟨_, window, hexpire⟩ := expireWatch_writes x r
    obtain ⟨watch, hdetect⟩ := detectStep_writes x (r.expireWatch x)
    exact ⟨watch, r.lag, window, by rw [hdetect, hexpire]⟩
  · obtain ⟨_, lag, hcomplete⟩ := completeWatch_writes x r
    obtain ⟨watch, hdetect⟩ := detectStep_writes x (r.completeWatch x)
    exact ⟨watch, lag, r.window, by rw [hdetect, hcomplete]⟩

/-- Stage 3 writes the open window and the closed run alone. -/
theorem stageAccumulate_writes (x : Sample) (r : Record) :
    ∃ window closedRun, r.stageAccumulate x = { r with window := window, closedRun := closedRun } := by
  unfold Record.stageAccumulate Record.stageLeak Record.accumulateLeak
  split
  · split_ifs <;> exact ⟨_, _, rfl⟩
  · exact ⟨_, _, rfl⟩

/-- Stage 5 writes the calibration status, the mark and the VALVE parts alone, and of these not the LEAK tracker. -/
theorem stageCalibration_writes (clock : Nat) (x : Sample) (r : Record) :
    ∃ cal mark valve, r.stageCalibration clock x = { r with cal := cal, mark := mark, valve := valve } ∧
      valve.map (·.leak) = r.valve.map (·.leak) := by
  unfold Record.stageCalibration
  split
  · rename_i run v _ hv
    dsimp only
    split_ifs
    · exact ⟨_, _, _, rfl, rfl⟩
    · exact ⟨_, _, _, rfl, rfl⟩
    · exact ⟨_, _, _, rfl, by rw [hv]; rfl⟩
    · exact ⟨_, _, _, rfl, rfl⟩
  · exact ⟨_, _, _, rfl, rfl⟩

/-- Settles O43: each stage writes its own parts, so what the others wrote stands; the reversal tracker comes to stage 4 as
it stood before the sample, and the deadband as stage 1 left it. -/
theorem sampleWritesByStage : Obligations.SampleWritesByStage := by
  intro T slot r x hr r1 r2 r3 turn r5 T'
  obtain ⟨watch, lag, window, h2⟩ : ∃ watch lag window, r2 = { r1 with watch := watch, lag := lag, window := window } :=
    stageWatch_writes x r1
  obtain ⟨counted, run, h3⟩ : ∃ counted run, r3 = { r2 with window := counted, closedRun := run } :=
    stageAccumulate_writes x r2
  obtain ⟨cal, mark, valve, h5, hleak⟩ : ∃ cal mark valve,
      r5 = { r3 with reversal := turn.1, cal := cal, mark := mark, valve := valve } ∧
      valve.map (·.leak) = r3.valve.map (·.leak) :=
    stageCalibration_writes T.clock x { r3 with reversal := turn.1 }
  have hturn : r3.reversal.take r3.active.wide.reversalDeadband x.command = turn := by
    rw [h3, h2]
    exact congrArg (·.take r1.active.wide.reversalDeadband x.command) (stageWindow_reversal T x r)
  have hrecord : T.sampledRecord x r = { r5 with last := some ⟨x.time, x.command, x.feedback⟩ } := by
    have hreversal : r3.stageReversal x = { r3 with reversal := turn.1 } := by rw [← hturn]; rfl
    exact congrArg (fun q => (q.stageCalibration T.clock x).stageLast x) hreversal
  have hcouplings : T'.couplings =
      Table.mapValues (T.stageFights slot x r) (Coupling.memberSample slot (r.state == .stale) x turn.2) := by
    rw [← hturn]
    rfl
  obtain ⟨hkey, hzone, hrevision, hcount, hsense⟩ := sampledRecord_standing T x r
  have hget : Table.get T'.records slot = some (T.sampledRecord x r) := Table.get_replace_self _ hr
  refine ⟨_, hget, hrecord, ⟨hkey, hzone, hrevision, hcount, hsense⟩, ?_, ?_, ?_, ?_,
    fun j hj => Table.get_replace_ne _ _ hj, fun i => by rw [hcouplings, Table.get_mapValues], rfl⟩
  · rw [hrecord, h5]
    rw [h3, h2] at hleak ⊢
    exact ⟨rfl, rfl, rfl, rfl, rfl, rfl, rfl, hleak⟩
  · rw [hrecord, h5, h3]
    exact ⟨rfl, rfl⟩
  · rw [hrecord, h5]
    exact ⟨rfl, rfl⟩
  · rw [hrecord, h5]

end Sys2Proof.Machine
end

section
/-! SUPPORT. The refusals of AMEND, OBSERVE, CALIBRATE and ACQUIT. -/

namespace Sys2Proof.Machine

/-! ### AMEND (R30, R39, R42) -/

section
variable {given : Option Nat} {newZone : Option (Fin 16)}

theorem judgeNewZone_none : judgeNewZone given = none ↔ ∃ n ∈ given, 16 ≤ n := by
  cases given with
  | none => simp [judgeNewZone]
  | some n => simp [judgeNewZone, zoneOfNat_none]

theorem mem_judgeNewZone (h : judgeNewZone given = some newZone) (z : Fin 16) : z ∈ newZone ↔ given = some z.val := by
  cases given with
  | none =>
    cases h
    simp
  | some n =>
    obtain ⟨zone, hzone, rfl⟩ := Option.map_eq_some_iff.mp h
    rw [← zoneOfNat_some.mp hzone]
    simp [Fin.ext_iff]

/-- The access checks of an AMEND, of the record's zone and of a new one, in the words of R39. -/
theorem amendPermits_iff (h : judgeNewZone given = some newZone) (T : Tables) (requester : Byte) (old : Fin 16) :
    (T.permits requester old ∧ ∀ z ∈ newZone, z ≠ old → T.permits requester z) ↔
      T.MayChange requester old ∧ ∀ z : Fin 16, given = some z.val → z ≠ old → T.MayChange requester z := by
  simp only [permits_iff, mem_judgeNewZone h]

end

/-- Settles O21, check by check in the order of R39. -/
theorem amendRefused : Obligations.AmendRefused := by
  intro s p f hs hf
  have refuses {e : Completion} (hrun : amend f s.tables = refuse e) : s.Refuses .amend p f e :=
    refuses_of_refuse (fun _ => rfl) hs hf hrun
  refine ⟨fun hq => refuses ?_, fun q hq => ⟨fun e he => refuses ?_, fun slot r hres => ⟨fun hbad => refuses ?_,
    fun hgiven hrange => ?_⟩⟩⟩
  · simp only [amend, hq, parsed_none, refuse_bind]
  · simp only [amend, hq, parsed_some, ok_bind, resolveRecord_refuse he, refuse_bind]
  · by_cases hgiven : q.params.isSome ∨ q.zone.isSome
    · have hzone : judgeNewZone q.zone = none := by
        refine judgeNewZone_none.mpr (hbad.resolve_left fun hnone => ?_)
        simp [hnone] at hgiven
      simp only [amend, hq, parsed_some, ok_bind, hres, require_pos hgiven, hzone, orRefuse_none, refuse_bind]
    · simp only [amend, hq, parsed_some, ok_bind, hres, require_neg hgiven, refuse_bind]
  · intro may
    have hgiven : q.params.isSome ∨ q.zone.isSome :=
      hgiven.imp Option.isSome_iff_ne_none.mpr Option.isSome_iff_ne_none.mpr
    obtain ⟨newZone, hzone⟩ : ∃ newZone, judgeNewZone q.zone = some newZone := by
      refine Option.ne_none_iff_exists'.mp fun hnone => ?_
      obtain ⟨n, hn, hout⟩ := judgeNewZone_none.mp hnone
      exact absurd (hrange n hn) (Nat.not_lt.mpr hout)
    have hpermits := amendPermits_iff hzone s.tables f.requester r.zone
    refine ⟨fun hno => refuses ?_, fun hmay hno => ?_, fun hmay hrev hset => refuses ?_⟩
    · simp only [amend, hq, parsed_some, ok_bind, hres, require_pos hgiven, hzone, orRefuse_some,
        require_neg (mt hpermits.mp hno), refuse_bind]
    · refine answers_of_error (run := amend) (r := ⟨_, _⟩) (fun _ => rfl) hs hf ?_
      simp only [amend, hq, parsed_some, ok_bind, hres, require_pos hgiven, hzone, orRefuse_some,
        require_pos (hpermits.mpr hmay), checkRevision_fail hno, error_bind]
    · have hout : ¬ ∀ set ∈ q.params, set.InRange := fun h => by
        obtain ⟨set, hmem, hno⟩ := hset
        exact hno (h set hmem)
      simp only [amend, hq, parsed_some, ok_bind, hres, require_pos hgiven, hzone, orRefuse_some,
        require_pos (hpermits.mpr hmay), checkRevision_pass hrev, require_neg hout, refuse_bind]

/-! ### OBSERVE (R42, R50) -/

/-- The form of an OBSERVE, in the words of R50: 1 to 8 samples, each fan state given as 0 or 1. -/
theorem observeForm_iff {q : ObserveReq} :
    (1 ≤ q.count ∧ q.count ≤ 8 ∧ ∀ x ∈ q.samples, ∀ fan ∈ x.fan, fan ≤ 1) ↔
      1 ≤ q.count ∧ q.count ≤ 8 ∧ ∀ x ∈ q.samples, ∀ fan ∈ x.fan, fan = 0 ∨ fan = 1 := by
  simp only [Nat.le_one_iff_eq_zero_or_eq_one]

/-- Settles O25, check by check in the order of R50. -/
theorem observeRefused : Obligations.ObserveRefused := by
  intro s p f hs hf
  have refuses {e : Completion} (hrun : observe f s.tables = refuse e) : s.Refuses .observe p f e :=
    refuses_of_refuse (fun _ => rfl) hs hf hrun
  refine ⟨fun hq => refuses ?_, fun q hq => ⟨fun e he => refuses ?_, fun slot r hres => ?_⟩⟩
  · simp only [observe, hq, parsed_none, refuse_bind]
  · simp only [observe, hq, parsed_some, ok_bind, resolveRecord_refuse he, refuse_bind]
  · intro form
    refine ⟨fun hbad => refuses ?_, fun hform hno => refuses ?_, fun hform hmay hno => ?_⟩
    · simp only [observe, hq, parsed_some, ok_bind, hres, require_neg (mt observeForm_iff.mp hbad), refuse_bind]
    · simp only [observe, hq, parsed_some, ok_bind, hres, require_pos (observeForm_iff.mpr hform),
        require_neg (mt (permits_iff _ _ _).mp hno), refuse_bind]
    · refine answers_of_error (run := observe) (r := ⟨_, _⟩) (fun _ => rfl) hs hf ?_
      simp only [observe, hq, parsed_some, ok_bind, hres, require_pos (observeForm_iff.mpr hform),
        require_pos ((permits_iff _ _ _).mpr hmay), checkRevision_fail hno, error_bind]

/-! ### CALIBRATE (R42, R98) -/

/-- The checks of CALIBRATE after that of the expected revision, in their order. -/
theorem calibrate_of_expected {f : Frame} {T : Tables} {q : CalibrateReq} {slot : Nat} {r : Record}
    (hq : readCalibrate f.body = some q) (hres : T.resolveRecord q.name = .ok (slot, r))
    (hduration : 300 ≤ q.duration ∧ q.duration ≤ 3600) (hpermits : T.permits f.requester r.zone = true)
    (hrev : r.Expects q.expected) :
    ∃ accept : Except Refused Accepted, calibrate f T = (do
      require (r.valve.isSome) .wrongKind
      require (r.state ≠ .stale) .recordStale
      require (T.zones[r.zone].mode ≠ .hold) .zoneHeld
      require (!r.cal.isRunning) .busy
      accept) :=
  ⟨_, by simp only [calibrate, hq, parsed_some, ok_bind, hres, require_pos hduration, require_pos hpermits,
    checkRevision_pass hrev]; rfl⟩

/-- Settles O27, check by check in the order of R98. -/
theorem calibrateRefused : Obligations.CalibrateRefused := by
  intro s p f hs hf
  have refuses {e : Completion} (hrun : calibrate f s.tables = refuse e) : s.Refuses .calibrate p f e :=
    refuses_of_refuse (fun _ => rfl) hs hf hrun
  refine ⟨fun hq => refuses ?_, fun q hq => ⟨fun e he => refuses ?_, fun slot r hres => ⟨fun hbad => refuses ?_,
    fun hmin hmax => ⟨fun hno => refuses ?_, fun hmay => ⟨fun hno => ?_, fun hrev => ?_⟩⟩⟩⟩⟩
  · simp only [calibrate, hq, parsed_none, refuse_bind]
  · simp only [calibrate, hq, parsed_some, ok_bind, resolveRecord_refuse he, refuse_bind]
  · have hout : ¬ (300 ≤ q.duration ∧ q.duration ≤ 3600) := by omega
    simp only [calibrate, hq, parsed_some, ok_bind, hres, require_neg hout, refuse_bind]
  · simp only [calibrate, hq, parsed_some, ok_bind, hres, require_pos (And.intro hmin hmax),
      require_neg (mt (permits_iff _ _ _).mp hno), refuse_bind]
  · refine answers_of_error (run := calibrate) (r := ⟨_, _⟩) (fun _ => rfl) hs hf ?_
    simp only [calibrate, hq, parsed_some, ok_bind, hres, require_pos (And.intro hmin hmax),
      require_pos ((permits_iff _ _ _).mpr hmay), checkRevision_fail hno, error_bind]
  · obtain ⟨accept, hchain⟩ := calibrate_of_expected hq hres ⟨hmin, hmax⟩ ((permits_iff _ _ _).mpr hmay) hrev
    refine ⟨fun hkind => refuses ?_, fun hkind hstale => refuses ?_, fun hkind hlive hheld => refuses ?_,
      fun hkind hlive hmode hrunning => refuses ?_⟩
    · rw [hchain, require_neg (by simp [hkind]), refuse_bind]
    · rw [hchain, require_pos (Option.isSome_iff_ne_none.mpr hkind), ok_bind, require_neg (not_not_intro hstale),
        refuse_bind]
    · rw [hchain, require_pos (Option.isSome_iff_ne_none.mpr hkind), ok_bind, require_pos hlive, ok_bind,
        require_neg (not_not_intro hheld), refuse_bind]
    · obtain ⟨run, hcal⟩ := hrunning
      have hnotHeld : s.tables.zones[r.zone].mode ≠ .hold := by
        rw [hmode]
        decide
      rw [hchain, require_pos (Option.isSome_iff_ne_none.mpr hkind), ok_bind, require_pos hlive, ok_bind,
        require_pos hnotHeld, ok_bind, require_neg (by simp [hcal, Calibration.isRunning]), refuse_bind]

/-! ### ACQUIT (R42, R138, R139) -/

section
variable {f : Frame} {T : Tables} {q : AcquitReq}

theorem acquit_of_record (hq : readAcquit f.body = some q) (hname : q.name.isCoupling = false) :
    acquit f T = acquitRecord f.requester q T := by
  simp only [acquit, hq, parsed_some, ok_bind]
  cases hn : q.name with
  | key k => rfl
  | handle h =>
    have hkind : isCouplingHandle h = false := by rwa [hn] at hname
    simp only [hkind, Bool.false_eq_true, if_false]

theorem acquit_of_coupling {h : Nat} (hq : readAcquit f.body = some q) (hname : q.name = .handle h) (hh : 32768 ≤ h) :
    acquit f T = acquitCoupling f.requester h q.tracker T := by
  have hkind : isCouplingHandle h = true := by simpa [isCouplingHandle] using hh
  simp only [acquit, hq, parsed_some, ok_bind, hname, hkind, if_true]

end

/-- Settles O29, check by check in the order of R138 for a record and of R139 for a coupling. -/
theorem acquitRefused : Obligations.AcquitRefused := by
  intro s p f hs hf
  have refuses {e : Completion} (hrun : acquit f s.tables = refuse e) : s.Refuses .acquit p f e :=
    refuses_of_refuse (fun _ => rfl) hs hf hrun
  refine ⟨fun hq => refuses ?_, fun q hq => ⟨fun hname => ⟨fun e he => refuses ?_, fun slot r hres =>
    ⟨fun hbad => refuses ?_, fun hcode hno => refuses ?_, fun hcode hmay hno => ?_,
      fun hcode hmay hrev hkind => refuses ?_⟩⟩, fun h hname hh => ?_⟩⟩
  · simp only [acquit, hq, parsed_none, refuse_bind]
  · simp only [acquit_of_record hq hname, acquitRecord, resolveRecord_refuse he, refuse_bind]
  · simp only [acquit_of_record hq hname, acquitRecord, hres, ok_bind, require_neg (Nat.not_le.mpr hbad), refuse_bind]
  · simp only [acquit_of_record hq hname, acquitRecord, hres, ok_bind, require_pos hcode,
      require_neg (mt (permits_iff _ _ _).mp hno), refuse_bind]
  · refine answers_of_error (run := acquit) (r := ⟨_, _⟩) (fun _ => rfl) hs hf ?_
    simp only [acquit_of_record hq hname, acquitRecord, hres, ok_bind, require_pos hcode,
      require_pos ((permits_iff _ _ _).mpr hmay), checkRevision_fail hno, error_bind]
  · have htracker : r.tracker q.tracker = none := by simp [hcode, Record.tracker, hkind]
    simp only [acquit_of_record hq hname, acquitRecord, hres, ok_bind, require_pos hcode.le,
      require_pos ((permits_iff _ _ _).mpr hmay), checkRevision_pass hrev, htracker, orRefuse_none, refuse_bind]
  · have hchain := acquit_of_coupling (T := s.tables) hq hname hh
    refine ⟨fun hno => refuses ?_, fun slot c lead hc hlead => ⟨fun hbad => refuses ?_, fun hcode hno => refuses ?_⟩⟩
    · simp only [hchain, acquitCoupling, Tables.resolveCoupling, hno, orRefuse_none, refuse_bind]
    · simp only [hchain, acquitCoupling, Tables.resolveCoupling, hc, orRefuse_some, ok_bind, require_neg hbad,
        refuse_bind]
    · simp only [hchain, acquitCoupling, Tables.resolveCoupling, hc, orRefuse_some, ok_bind, require_pos hcode,
        require_neg (mt (permitsLead_iff hlead).mp hno), refuse_bind]

end Sys2Proof.Machine
end

section
/-! SUPPORT. What changes nothing: the request steps that do not come about, and a port while RESET is low. Then the estate
clock: its tick, SET_TIME, READ_TIME, the ATTN delay test and the staleness expiry. -/

namespace Sys2Proof.Machine

/-! ### Request steps that do not come about (R167, R172) -/

/-- A request command serves the requests of its own code. -/
theorem requestCommand_serve {c : Instr} {code : Nat} (h : (c, code) ∈ requestCommands) :
    ∃ (b : Byte) (run : InService → State → Answer), b.toNat = code ∧ ∀ s, exec c s = s.serve (fun x => x == b) run := by
  fin_cases h
  all_goals
    refine ⟨_, _, ?_, fun _ => rfl⟩
    rfl

theorem serve_of_none {s : State} {isCode : Byte → Bool} (run : InService → State → Answer)
    (h : s.servedRequest isCode = none) : s.serve isCode run = .next s := by
  simp only [State.serve, h]

theorem servedRequest_resetLow {s : State} (isCode : Byte → Bool) (h : s.resetLow = true) :
    s.servedRequest isCode = none := if_pos h

/-- The engine's request has a code not asked for. -/
theorem servedRequest_otherCode {s : State} {p : PortId} {f : Frame} {isCode : Byte → Bool} (hs : s.Serves p f)
    (hf : isCode f.code = false) : s.servedRequest isCode = none := by
  simp [State.servedRequest, takeRequest_serving hs, hf]

/-- The idle engine has nothing to take where neither port is eligible. -/
theorem takeRequest_idle {s : State} (ha : ¬ s.portA.CanServe) (hb : ¬ s.portB.CanServe) : s.takeRequest = s := by
  have harbiter : s.arbiter = none := by
    unfold State.arbiter
    rw [if_neg (mt (eligible_iff _).mp ha), if_neg (mt (eligible_iff _).mp hb)]
  simp only [State.takeRequest, harbiter, ite_self]

theorem servedRequest_idle {s : State} (isCode : Byte → Bool) (hi : s.serving = none) (ha : ¬ s.portA.CanServe)
    (hb : ¬ s.portB.CanServe) : s.servedRequest isCode = none := by
  simp only [State.servedRequest, takeRequest_idle ha hb, hi, ite_self]

/-- The codes 0x01 to 0x12 are known, so UNKNOWN_REQUEST does not ask for them. -/
theorem knownCode_of_range {b : Byte} (hlow : 1 ≤ b.toNat) (hhigh : b.toNat ≤ 0x12) : (!knownCode b) = false := by
  simp [knownCode, hlow, hhigh]

/-! ### Bytes clocked while RESET is low (R172) -/

theorem clockByte_resetLow_eq {s : State} (p : PortId) (b : Byte) (h : s.resetLow = true) :
    s.clockByte p b = s.setPort p { s.port p with selected := true, sdo := (s.port p).sdo ++ [0] } := if_pos h

/-- Each byte clocked adds a filler byte to those carried out and does nothing else. -/
theorem foldl_clockByte_resetLow (p : PortId) (b : Byte) (rest : List Byte) {s : State} (h : s.resetLow = true) :
    (b :: rest).foldl (fun t b => t.clockByte p b) s =
      s.setPort p { s.port p with
        selected := true, sdo := (s.port p).sdo ++ List.replicate (b :: rest).length 0 } := by
  induction rest generalizing b s with
  | nil => exact clockByte_resetLow_eq p b h
  | cons c rest ih =>
    rw [List.foldl_cons, ih c ((clockByte_resetLow s p b).trans h), clockByte_resetLow_eq p b h]
    simp only [setPort_setPort, setPort_port_self, List.append_assoc, List.length_cons]
    rfl

theorem clockBytes_resetLow {s : State} (p : PortId) {bytes : List Byte} (h : s.resetLow = true) (hne : bytes ≠ []) :
    s.clockBytes p bytes =
      s.setPort p { s.port p with selected := true, sdo := List.replicate bytes.length 0 } := by
  obtain ⟨b, rest, rfl⟩ := List.exists_cons_of_ne_nil hne
  rw [State.clockBytes, foldl_clockByte_resetLow p b rest ((setPort_resetLow _ _ _).trans h)]
  simp only [setPort_setPort, setPort_port_self, List.nil_append]

/-! ### The ATTN delay test (R160) -/

theorem attnDelayElapsed_of_test {s : State} {p : PortId} (hr : s.resetLow = false)
    (h : delayTest (s.port p).settings s.tables = true) :
    exec (.attnDelayElapsed p) s = .next (s.setPort p { s.port p with attn := true }) :=
  if_pos (by simp [hr, h])

theorem attnDelayElapsed_of_not {s : State} {p : PortId}
    (h : ¬ (s.resetLow = false ∧ delayTest (s.port p).settings s.tables = true)) :
    exec (.attnDelayElapsed p) s = .next s :=
  if_neg (by simpa using h)

/-! ### The staleness expiry (R63 to R66) -/

theorem expiryDue_iff {clock : Nat} {r : Record} :
    r.expiryDue clock = true ↔ ∃ l, r.last = some l ∧ l.time + r.active.wide.staleAfter ≤ clock := by
  unfold Record.expiryDue Record.deadline
  cases r.last <;> simp

theorem stalenessExpiry_due {s : State} {slot : Nat} {r : Record} (hslot : slot < 512) (hr : s.resetLow = false)
    (hget : Table.get s.tables.records slot = some r) (hdue : r.expiryDue s.tables.clock = true) :
    exec (.stalenessExpiry slot) s = .next { s with tables := s.tables.expire slot r }.driveAttn := by
  have hin : ¬ 512 ≤ slot := Nat.not_le.mpr hslot
  simp [exec, execStalenessExpiry, Config.recordSlots, hin, hget, hr, hdue]

/-- No expiry is taken while RESET is low, nor where none is due. -/
theorem stalenessExpiry_notDue {s : State} {slot : Nat} (hslot : slot < 512)
    (h : s.resetLow = true ∨ ∀ r, Table.get s.tables.records slot = some r → r.expiryDue s.tables.clock = false) :
    exec (.stalenessExpiry slot) s = .next s := by
  have hin : ¬ 512 ≤ slot := Nat.not_le.mpr hslot
  simp only [exec, execStalenessExpiry, Config.recordSlots, if_neg hin]
  cases hget : Table.get s.tables.records slot with
  | none => rfl
  | some r =>
    refine if_neg ?_
    obtain hlow | hnot := h
    · simp [hlow]
    · simp [hnot r hget]

/-- The record at its expiry, in the words of R65: the mark of a failing calibration is the mark of the expiry. -/
theorem expire_eq (clock : Nat) (r : Record) :
    r.expire clock = { r with
      window := none, watch := none, closedRun := none, last := none, state := .stale,
      cal := match r.cal with
        | .running _ => .failed .stale
        | c => c
      mark := some (r.mark.getD clock) } := by
  unfold Record.expire Record.failCalibration
  cases hcal : r.cal with
  | running run => simp [Calibration.isRunning, Record.marked, setMark]
  | _ => simpa [Calibration.isRunning, Record.marked, setMark] using hcal

/-- Settles O5: a request step of which the engine serves nothing does not come about, and a port with RESET low carries
out filler alone. -/
theorem nothingServed : Obligations.NothingServed := by
  have request {s : State} {c : Instr} {code : Nat} (hc : (c, code) ∈ requestCommands)
      (hnone : ∀ b : Byte, b.toNat = code → s.servedRequest (fun x => x == b) = none) : exec c s = .next s := by
    obtain ⟨b, run, hb, hexec⟩ := requestCommand_serve hc
    rw [hexec, serve_of_none run (hnone b hb)]
  refine ⟨fun s hlow => ⟨fun c code hc => ?_, ?_, fun slot hslot => ?_, fun p => ?_, fun p bytes hne => ?_,
    fun p filler => ?_⟩, fun s c code hc => ⟨fun p f hs hf => ?_, fun _ hi ha hb => ?_⟩,
    fun s => ⟨fun p f hs hmin hmax => ?_, fun _ hi ha hb => ?_⟩⟩
  · exact request hc fun _ _ => servedRequest_resetLow _ hlow
  · exact serve_of_none _ (servedRequest_resetLow _ hlow)
  · exact stalenessExpiry_notDue hslot (.inl hlow)
  · exact attnDelayElapsed_of_not (by simp [hlow])
  · exact congrArg Host.Outcome.next (clockBytes_resetLow p hlow hne)
  · exact if_pos (by simp [hlow])
  · refine request hc fun b hb => servedRequest_otherCode hs (beq_eq_false_iff_ne.mpr fun he => hf ?_)
    rw [he, hb]
  · exact request hc fun _ _ => servedRequest_idle _ hi ha hb
  · exact serve_of_none _ (servedRequest_otherCode hs (knownCode_of_range hmin hmax))
  · exact serve_of_none _ (servedRequest_idle _ hi ha hb)

/-- Settles O7: the tick moves the clock and drives ATTN; the delay command asserts ATTN where the delay test holds. -/
theorem timePasses : Obligations.TimePasses := by
  refine ⟨fun s => ?_, fun s p => ?_⟩
  · exact ⟨_, rfl, rfl, driveAttn_sameButAttn { s with tables := { s.tables with clock := nextClock s.tables.clock } },
      driveAttn_attnOk _, rfl, rfl, rfl, rfl, rfl⟩
  · intro holds
    have htest : holds ↔ s.resetLow = false ∧ delayTest (s.port p).settings s.tables = true := by rw [delayTest_iff]
    refine ⟨fun h => ?_, fun h => attnDelayElapsed_of_not (mt htest.mpr h)⟩
    obtain ⟨hr, hdelay⟩ := htest.mp h
    exact attnDelayElapsed_of_test hr hdelay

/-- Settles O8, by whether the expiry is due. -/
theorem stalenessExpiryTaken : Obligations.StalenessExpiryTaken := by
  refine ⟨fun s slot r l hslot hr hget hlast hdue => ?_, fun s slot hslot hnot => ?_, fun s slot hslot => if_pos hslot⟩
  · have hexec := stalenessExpiry_due hslot hr hget (expiryDue_iff.mpr ⟨l, hlast, hdue⟩)
    refine ⟨_, hexec, ?_, fun j hj => Table.get_replace_ne _ _ hj, fun i => Table.get_mapValues _ _ i, rfl,
      driveAttn_sameButAttn { s with tables := s.tables.expire slot r }, driveAttn_attnOk _, rfl, rfl, rfl, rfl, rfl⟩
    exact (Table.get_replace_self _ hget).trans (congrArg some (expire_eq _ r))
  · refine stalenessExpiry_notDue hslot (.inr fun r hget => Bool.eq_false_iff.mpr fun hdue => ?_)
    obtain ⟨l, hlast, hle⟩ := expiryDue_iff.mp hdue
    exact absurd hle (Nat.not_le.mpr (hnot r hget l hlast))

/-! ### SET_TIME and READ_TIME (R47, R48) -/

theorem readSetTime_bytes (b3 b2 b1 b0 : Byte) :
    readSetTime [b3, b2, b1, b0] =
      some (16777216 * b3.toNat + 65536 * b2.toNat + 256 * b1.toNat + b0.toNat) := by
  have hvalue : readSetTime [b3, b2, b1, b0] =
      some (65536 * (256 * b3.toNat + b2.toNat) + (256 * b1.toNat + b0.toNat)) := rfl
  rw [hvalue]
  congr 1
  omega

theorem readSetTime_none {b : List Byte} (h : b.length ≠ 4) : readSetTime b = none := by
  match b, h with
  | [], _ => rfl
  | [_], _ => rfl
  | [_, _], _ => rfl
  | [_, _, _], _ => rfl
  | [_, _, _, _], h => exact absurd rfl h
  | _ :: _ :: _ :: _ :: _ :: _, _ => rfl

/-- The four bytes of a number are those it was read from. -/
theorem be32_bytes (b3 b2 b1 b0 : Byte) :
    be32 (16777216 * b3.toNat + 65536 * b2.toNat + 256 * b1.toNat + b0.toNat) = [b3, b2, b1, b0] := by
  have byte {n : Nat} {b : Byte} (h : n % 256 = b.toNat) : BitVec.ofNat 8 n = b := BitVec.eq_of_toNat_eq h
  have h3 := b3.isLt
  have h2 := b2.isLt
  have h1 := b1.isLt
  have h0 := b0.isLt
  unfold be32 be16
  rw [byte (b := b3), byte (b := b2), byte (b := b1), byte (b := b0)]
  · rfl
  all_goals omega

/-- Settles O37, by the body's layout and then by the requester. -/
theorem setTimeCompletes : Obligations.SetTimeCompletes := by
  intro s p f hs hf
  have refuses {e : Completion} (hrun : setTime f s.tables = refuse e) : s.Refuses .setTime p f e :=
    refuses_of_refuse (fun _ => rfl) hs hf hrun
  refine ⟨fun hlength => refuses ?_, fun b3 b2 b1 b0 hbody => ?_⟩
  · simp only [setTime, readSetTime_none hlength, parsed_none, refuse_bind]
  · intro new
    have hread : readSetTime f.body = some new := by rw [hbody, readSetTime_bytes]
    refine ⟨fun hno => refuses ?_, fun hadmin => ?_⟩
    · simp only [setTime, hread, parsed_some, ok_bind, require_neg (mt (isAdmin_iff _).mp hno), refuse_bind]
    · have hok := (setTime_ok (T := s.tables)).mpr ⟨new, hread, (isAdmin_iff _).mpr hadmin, rfl⟩
      rw [← be32_bytes b3 b2 b1 b0]
      exact answers_of_ok (c := .setTime) (fun _ => rfl) hs hf hok

/-- Settles O38. -/
theorem readTimeCompletes : Obligations.ReadTimeCompletes := fun _ _ _ hs hf hbody =>
  answers_of_ok (c := .readTime) (fun _ => rfl) hs hf (readTime_ok.mpr ⟨hbody, rfl⟩)

end Sys2Proof.Machine
end

section
/-! SUPPORT. OBSERVE accepted: the result of each of its samples, and what its samples leave alone. -/

namespace Sys2Proof.Machine

/-! ### Per-sample results (R51, R52) -/

/-- The sample does not lie above the record's last one (R51). -/
def Record.lateAt (time : Nat) (r : Record) : Prop := ∃ l, r.last = some l ∧ time ≤ l.time

theorem sampleResult_of_late {r : Record} {time : Nat} (clock : Nat) (h : r.lateAt time) :
    sampleResult clock r time = .late := by
  obtain ⟨l, hlast, hle⟩ := h
  simp only [sampleResult, hlast, if_pos hle]

theorem sampleResult_of_not_late {r : Record} {time : Nat} (clock : Nat) (h : ¬ r.lateAt time) :
    sampleResult clock r time = if clock + 60 < time then .future else .accepted := by
  unfold sampleResult
  split
  · rename_i l hlast
    exact if_neg fun hle => h ⟨l, hlast, hle⟩
  · rfl

/-- The first sample of a list gets its result, and the rest run on the tables it leaves. -/
theorem applySamples_cons {T : Tables} {slot : Nat} {r : Record} (x : RawSample) (rest : List RawSample)
    (hr : Table.get T.records slot = some r) :
    T.applySamples slot (x :: rest) =
      let res := sampleResult T.clock r x.time
      let next := (if res = .accepted then T.applySample slot r x.condition else T).applySamples slot rest
      (next.1, res :: next.2) := by
  rw [Tables.applySamples, hr]

theorem conditionTemp_eq (z : Option Int) :
    conditionTemp z = match z with
      | some z => if z < -4000 ∨ 8000 < z then none else some z
      | none => none := by
  cases z with
  | none => rfl
  | some z =>
    unfold conditionTemp
    dsimp only
    split_ifs
    · omega
    · rfl
    · rfl
    · omega

/-- Settles O42: the result of the first sample, case by case in the order of R51, and its conditioning. -/
theorem sampleResults : Obligations.SampleResults := by
  refine ⟨fun T slot r x rest hr => ?_, fun T slot => rfl, fun x => ?_⟩
  · intro late after
    rw [applySamples_cons x rest hr]
    refine ⟨fun hlate => ?_, fun hnot hfuture => ?_, fun hnot hclock => ⟨rfl, ⟨_, Table.get_replace_self _ hr⟩, ?_⟩⟩
    · rw [sampleResult_of_late T.clock hlate]
      rfl
    · rw [sampleResult_of_not_late T.clock hnot, if_pos hfuture]
      rfl
    · rw [sampleResult_of_not_late T.clock hnot, if_neg (Nat.not_lt.mpr hclock)]
      rfl
  · intro temperature
    have hfan (n : Nat) : (n == 1) = decide (n = 1) := rfl
    simp only [RawSample.condition, conditionTemp_eq, Nat.min_comm _ 1000, min_def_lt, hfan]
    rfl

/-! ### OBSERVE accepted (R49, R50, R53) -/

/-- A sample leaves a coupling that does not name its record as it was (R60, R118). -/
theorem applySample_unnamed {T : Tables} {slot j : Nat} {c : Coupling} (r : Record) (x : Sample)
    (hc : Table.get T.couplings j = some c) (hnames : c.names slot = false) :
    Table.get (T.applySample slot r x).couplings j = some c := by
  obtain ⟨hlead, hfollower⟩ : c.leadSlot ≠ slot ∧ c.followerSlot ≠ slot := by simpa [Coupling.names] using hnames
  have hfights : Table.get (T.stageFights slot x r) j = some c := by
    unfold Tables.stageFights
    split
    · exact hc
    · rw [Tables.evaluateLed, Table.get_mapValues, hc, Option.map_some, if_neg hlead]
  rw [Tables.applySample, Tables.sampledCouplings, Table.get_mapValues, hfights, Option.map_some,
    Coupling.memberSample, if_neg hlead, if_neg hfollower]

theorem applySamples_unnamed {T : Tables} {slot j : Nat} {c : Coupling} (xs : List RawSample)
    (hc : Table.get T.couplings j = some c) (hnames : c.names slot = false) :
    Table.get (T.applySamples slot xs).1.couplings j = some c :=
  applySamples_induct (P := fun U => Table.get U.couplings j = some c) xs hc
    fun _ r x hU _ _ => applySample_unnamed r x.condition hU hnames

/-- Each sample of a request that names a record gets one result. -/
theorem applySamples_results_length {T : Tables} {slot : Nat} {r : Record} (xs : List RawSample)
    (hr : Table.get T.records slot = some r) : (T.applySamples slot xs).2.length = xs.length := by
  induction xs generalizing T r with
  | nil => rfl
  | cons x rest ih =>
    rw [applySamples_cons x rest hr]
    refine congrArg Nat.succ ?_
    split_ifs
    · exact ih (Table.get_replace_self _ hr)
    · exact ih hr

theorem Tables.SampledAt.eq {slot : Nat} {T T' : Tables} (h : Tables.SampledAt slot T T') :
    T' = { T with records := T'.records, couplings := T'.couplings } := by
  obtain ⟨hdirectory, hrecordGens, hcouplingGens, hzones, hprofile, hclock, -, -, -, -⟩ := h
  rw [← hdirectory, ← hrecordGens, ← hcouplingGens, ← hzones, ← hprofile, ← hclock]

/-- Settles O24: the checks of R50 pass, and the tables are those the samples leave. -/
theorem observeCompletes : Obligations.ObserveCompletes := by
  intro s p f q slot r hs hf hq hres hmin hmax hfan hmay hrev T results
  have hget := resolveRecord_get hres
  have hat : Tables.SampledAt slot s.tables T := applySamples_at s.tables slot q.samples
  obtain ⟨r', hr', -⟩ := hat.record r hget
  have hok := observe_ok.mpr ⟨q, slot, r, hq, hres, ⟨hmin, hmax, hfan⟩, (permits_iff _ _ _).mpr hmay, hrev, rfl⟩
  have hbody : T.observeBody slot ((Table.get T.records slot).getD r) results =
      be16 (64 * slot + generationOf s.tables.recordGens slot) ++ be16 r'.revision ++ be8 r'.state.code ++
        be8 results.length ++ results.flatMap (fun x => be8 x.code) ++
        (match r'.last with
          | some l => be8 1 ++ be32 l.time
          | none => be8 0) := by
    simp only [Tables.observeBody, Tables.recordHandle, hr', Option.getD_some, hat.recordGens]
    cases r'.last <;> rfl
  refine ⟨r', hr', applySamples_results_length q.samples hget, ?_, hat.others,
    fun j c hc hnames => applySamples_unnamed q.samples hc hnames, hat.eq⟩
  have hanswer := answers_of_ok (c := .observe) (fun _ => rfl) hs hf hok
  exact hbody ▸ hanswer

end Sys2Proof.Machine
end

section
/-! SUPPORT. The figures of an open window at a sample, and the evidence a closing window gives the trackers of its record. -/

namespace Sys2Proof.Machine

/-! ### The sample counted (R56) -/

theorem distance_eq_natAbs (a b : Nat) : distance a b = ((a : Int) - b).natAbs := by
  unfold distance
  omega

/-- The previous sample is paired when it carries feedback and lies in the window. -/
theorem pairedPrevious_of_last {r : Record} {w : Window} {l : LastSample} {before : Nat} (hlast : r.last = some l)
    (hbefore : l.feedback = some before) (hin : w.start ≤ l.time) : r.pairedPrevious w = some (l.command, before) := by
  simp only [Record.pairedPrevious, hlast, hbefore, if_pos hin]

theorem pairedPrevious_none {r : Record} {w : Window}
    (h : ∀ l, r.last = some l → l.feedback = none ∨ l.time < w.start) : r.pairedPrevious w = none := by
  rw [Option.eq_none_iff_forall_ne_some]
  intro pair hpair
  obtain ⟨l, hlast, hbefore, -, hin⟩ := pairedPrevious_some hpair
  obtain hnone | hout := h l hlast
  · rw [hnone] at hbefore
    cases hbefore
  · omega

section
variable {x : Sample} (previous : Option (Nat × Nat)) (w : Window)

@[simp] theorem count_start : (w.count x previous).start = w.start := by
  unfold Window.count
  split <;> rfl

@[simp] theorem count_stepExpiry : (w.count x previous).stepExpiry = w.stepExpiry := by
  unfold Window.count
  split <;> rfl

/-- A sample without feedback is counted and adds nothing else. -/
theorem count_of_no_feedback (h : x.feedback = none) : w.count x previous = { w with samples := w.samples + 1 } := by
  simp only [Window.count, h]

/-- What a sample with feedback adds to the feedback figures does not depend on the previous sample. -/
theorem count_feedback {fb : Nat} (h : x.feedback = some fb) :
    (w.count x previous).feedbackCount = w.feedbackCount + 1 ∧
    (w.count x previous).feedbackMin = some (minWith w.feedbackMin fb) ∧
    (w.count x previous).feedbackMax = some (maxWith w.feedbackMax fb) := by
  simp only [Window.count, h, and_self]

/-- A paired sample adds the travel from the previous one. -/
theorem count_travel {fb c before : Nat} (h : x.feedback = some fb) :
    (w.count x (some (c, before))).commandTravel = w.commandTravel + distance x.command c ∧
    (w.count x (some (c, before))).feedbackTravel = w.feedbackTravel + distance fb before := by
  simp only [Window.count, h, and_self]

/-- A sample without feedback, or without a previous one to pair with, adds no travel. -/
theorem count_no_travel (h : x.feedback = none ∨ previous = none) :
    (w.count x previous).commandTravel = w.commandTravel ∧ (w.count x previous).feedbackTravel = w.feedbackTravel := by
  obtain h | rfl := h
  · rw [count_of_no_feedback previous w h]
    exact ⟨rfl, rfl⟩
  · unfold Window.count
    split <;> exact ⟨rfl, rfl⟩

end

/-! ### The leakage figures (R91, R93 to R95) -/

/-- A sample qualifies, in the words of R93. -/
theorem qualifies_iff {x : Sample} {r : Record} :
    r.qualifies x = true ↔ r.valve ≠ none ∧ x.fanOn = some true ∧ x.entering ≠ none ∧ x.leaving ≠ none ∧
      ∃ started, r.closedRun = some started ∧ started + r.active.wide.closedSettle ≤ x.time := by
  unfold Record.qualifies
  cases r.closedRun <;> simp [Option.isSome_iff_ne_none, and_assoc]

theorem clampResidual_eq (z : Int) :
    clampResidual z = if z < -2000 then -2000 else if 2000 < z then 2000 else z := by
  unfold clampResidual
  split_ifs <;> omega

theorem residual_eq (sense : CoilSense) (offset : Int) {x : Sample} {entering leaving : Int}
    (he : x.entering = some entering) (hl : x.leaving = some leaving) :
    residual sense offset x =
      let raw := (if sense = .heat then leaving - entering else entering - leaving) - offset
      if raw < -2000 then -2000 else if 2000 < raw then 2000 else raw := by
  simp only [residual, he, hl, clampResidual_eq]
  cases sense <;> rfl

/-- The record as the qualifying test of stage 3 sees it: the closed run taken, the window counted. -/
def Record.counted (x : Sample) (r : Record) : Record :=
  { r with window := r.window.map fun w => w.count x (r.pairedPrevious w), closedRun := r.closedRunAfter x }

theorem counted_qualifies_iff {x : Sample} {r : Record} :
    (r.counted x).qualifies x = true ↔ r.valve ≠ none ∧ x.fanOn = some true ∧ x.entering ≠ none ∧ x.leaving ≠ none ∧
      ∃ started, r.closedRunAfter x = some started ∧ started + r.active.wide.closedSettle ≤ x.time := qualifies_iff

theorem accumulateLeak_of_not {x : Sample} {r : Record} (h : r.qualifies x = false) : r.accumulateLeak x = r := by
  unfold Record.accumulateLeak
  split
  · rw [h]
    rfl
  · rfl

theorem accumulateLeak_of_qualifies {x : Sample} {r : Record} {v : ValveParts} {w : Window} (hv : r.valve = some v)
    (hw : r.window = some w) (h : r.qualifies x = true) :
    r.accumulateLeak x = { r with window := some { w with
      leak := w.leak.map fun g => { count := g.count + 1, sum := g.sum + residual v.sense v.offset x } } } := by
  simp only [Record.accumulateLeak, hv, hw, h, if_true]

/-- The leakage figures of the open window after a sample (R95). -/
def Record.leakAfter (x : Sample) (w : Window) (r : Record) : Option LeakFigures :=
  match r.valve with
  | some v =>
    if (r.counted x).qualifies x then
      w.leak.map fun g => { count := g.count + 1, sum := g.sum + residual v.sense v.offset x }
    else w.leak
  | none => w.leak

theorem leakAfter_of_not {x : Sample} {r : Record} (w : Window) (h : (r.counted x).qualifies x = false) :
    r.leakAfter x w = w.leak := by
  unfold Record.leakAfter
  split
  · rw [h]
    rfl
  · rfl

theorem leakAfter_of_qualifies {x : Sample} {r : Record} {v : ValveParts} (w : Window) (hv : r.valve = some v)
    (h : (r.counted x).qualifies x = true) :
    r.leakAfter x w =
      w.leak.map fun g => { count := g.count + 1, sum := g.sum + residual v.sense v.offset x } := by
  simp only [Record.leakAfter, hv, h, if_true]

/-- Everything stage 3 writes of a record with an open window. -/
theorem stageAccumulate_eq {x : Sample} {r : Record} {w : Window} (hw : r.window = some w) :
    r.stageAccumulate x = { r with
      window := some { w.count x (r.pairedPrevious w) with leak := r.leakAfter x w }
      closedRun := r.closedRunAfter x } := by
  have hstage : r.stageAccumulate x = (r.counted x).accumulateLeak x := rfl
  have hwindow : (r.counted x).window = some (w.count x (r.pairedPrevious w)) := by
    simp only [Record.counted, hw, Option.map_some]
  cases hq : (r.counted x).qualifies x with
  | false =>
    rw [hstage, accumulateLeak_of_not hq, leakAfter_of_not w hq, ← count_leak x (r.pairedPrevious w) w, ← hwindow]
    rfl
  | true =>
    obtain ⟨hvalve, -⟩ := counted_qualifies_iff.mp hq
    obtain ⟨v, hv⟩ := Option.ne_none_iff_exists'.mp hvalve
    rw [hstage, accumulateLeak_of_qualifies (r := r.counted x) hv hwindow hq, leakAfter_of_qualifies w hv hq, count_leak]
    rfl

/-- The closed run after a sample, in the words of R91. -/
theorem closedRunAfter_eq (x : Sample) (r : Record) :
    r.closedRunAfter x = if r.valve = none then none
      else if x.command ≤ r.activeBank.closedLevel then some (r.closedRun.getD x.time) else none := by
  simp only [Record.closedRunAfter, Option.isNone_iff_eq_none]

/-- Settles O45: the window is the counted one with the leakage figures after the sample, and each figure is read off. -/
theorem windowFigures : Obligations.WindowFigures := by
  intro r x w hw run
  have hrun : r.closedRunAfter x = run := closedRunAfter_eq x r
  have hstage := stageAccumulate_eq (x := x) hw
  rw [hrun] at hstage
  refine ⟨_, hstage, count_start _ _, count_stepExpiry _ _, count_samples _ _ _, fun hno => ?_, fun fb hfb => ?_,
    fun fb l before hfb hlast hbefore hin => ?_, fun hno => ?_,
    fun v started entering leaving figures hv hstarted hsettled hfan hentering hleaving hleak => ?_, fun hno => ?_⟩
  · rw [count_of_no_feedback _ _ hno]
    exact ⟨rfl, rfl, rfl⟩
  · exact count_feedback _ _ hfb
  · rw [pairedPrevious_of_last hlast hbefore hin, ← distance_eq_natAbs, ← distance_eq_natAbs]
    exact count_travel w hfb
  · exact count_no_travel _ _ (hno.imp_right pairedPrevious_none)
  · have hqualifies : (r.counted x).qualifies x = true := by
      rw [counted_qualifies_iff, hrun]
      exact ⟨by simp [hv], hfan, by simp [hentering], by simp [hleaving], started, hstarted, hsettled⟩
    have hafter := leakAfter_of_qualifies w hv hqualifies
    rw [hleak, Option.map_some, residual_eq v.sense v.offset hentering hleaving] at hafter
    exact hafter
  · refine leakAfter_of_not w (Bool.eq_false_iff.mpr fun hqualifies => ?_)
    rw [counted_qualifies_iff, hrun] at hqualifies
    obtain ⟨hvalve, hfan, hentering, hleaving, started, hstarted, hsettled⟩ := hqualifies
    obtain h | h | h | h | h := hno
    · exact hvalve h
    · exact absurd hsettled (Nat.not_le.mpr (h started hstarted))
    · exact h hfan
    · exact hentering h
    · exact hleaving h

/-! ### The evidence of a closing window (R60, R61, R73 to R76, R97) -/

/-- The gate of R61, in its words. -/
theorem judged_iff {mode : ZoneMode} {w : Window} {r : Record} :
    r.judged mode w = true ↔ r.active.wide.minSamples ≤ w.samples ∧ mode = .run ∧ r.state = .live := by
  simp [Record.judged, and_assoc]

/-- The gate is passed: one update of each tracker by its own evidence. -/
theorem updateTrackers_of_judged (p : Profile) {mode : ZoneMode} {w : Window} {r : Record} (h : r.judged mode w = true) :
    r.updateTrackers p mode w = { r with
      stuck := r.stuck.update p (stuckEvidence r.activeBank r.flatline.verdict w)
      flatline := r.flatline.update p (flatlineEvidence r.activeBank w)
      valve := r.valve.map fun v => { v with leak := v.leak.update p (r.leakEvidence w) } } := by
  simp only [Record.updateTrackers, h, gated, if_true]

/-- The gate is not passed: neutral for all trackers, which changes none of them. -/
theorem updateTrackers_of_not_judged (p : Profile) {mode : ZoneMode} {w : Window} {r : Record}
    (h : r.judged mode w = false) : r.updateTrackers p mode w = r := by
  simp only [Record.updateTrackers, h, gated, Bool.false_eq_true, if_false, Tracker.update, Option.map_id']

theorem evaluateWindow_eq (clock : Nat) (p : Profile) (mode : ZoneMode) (w : Window) (r : Record) :
    r.evaluateWindow clock p mode w = { r.updateTrackers p mode w with
      mark := if r.verdictsDiffer (r.updateTrackers p mode w) = true then some (r.mark.getD clock) else r.mark } := by
  unfold Record.evaluateWindow
  dsimp only
  split_ifs <;> rfl

theorem verdictsDiffer_self (r : Record) : r.verdictsDiffer r = false := by simp [Record.verdictsDiffer]

/-- Some verdict changes when each tracker of a record is replaced. -/
theorem verdictsDiffer_iff {r : Record} {stuck flatline : Tracker} {leak : Tracker → Tracker} :
    r.verdictsDiffer { r with
        stuck := stuck, flatline := flatline, valve := r.valve.map fun v => { v with leak := leak v.leak } } = true ↔
      stuck.verdict ≠ r.stuck.verdict ∨ flatline.verdict ≠ r.flatline.verdict ∨
        ∃ v, r.valve = some v ∧ (leak v.leak).verdict ≠ v.leak.verdict := by
  simp only [Record.verdictsDiffer, Bool.or_eq_true, bne_iff_ne, or_assoc]
  refine or_congr ne_comm (or_congr ne_comm ?_)
  cases r.valve with
  | none => simp
  | some v => simp [eq_comm]

/-- A window that flatlines: travel commanded, two feedbacks or more and all of them the same (R74). -/
abbrev Window.flat (k : Bank) (w : Window) : Prop :=
  k.minTravel ≤ w.commandTravel ∧ 2 ≤ w.feedbackCount ∧ w.feedbackMax = w.feedbackMin

/-- FLATLINE evidence, in the words of R74. -/
theorem flatlineEvidence_eq (k : Bank) (w : Window) :
    flatlineEvidence k w =
      if ¬ k.minTravel ≤ w.commandTravel then .neutral else if w.flat k then .evidence else .clean := by
  unfold flatlineEvidence Window.flat
  by_cases hmoved : k.minTravel ≤ w.commandTravel
  · simp only [hmoved, true_and, not_true_eq_false, if_false, if_neg (Nat.not_lt.mpr hmoved)]
  · simp only [hmoved, not_false_eq_true, if_true, if_pos (Nat.not_le.mp hmoved)]

theorem flatlineEvidence_evidence {k : Bank} {w : Window} : flatlineEvidence k w = .evidence ↔ w.flat k := by
  rw [flatlineEvidence_eq]
  split_ifs with hmoved hflat
  · exact iff_of_true rfl hflat
  · exact ⟨fun h => (nomatch h), fun h => absurd h hflat⟩
  · exact ⟨fun h => (nomatch h), fun ⟨h, _⟩ => absurd h hmoved⟩

theorem two_le_level {v : Verdict} : 2 ≤ v.level ↔ v = .suspect ∨ v = .confirmed := by
  cases v <;> decide

/-- STUCK evidence, in the words of R74 to R76. -/
theorem stuckEvidence_eq (k : Bank) (flatline : Verdict) (w : Window) :
    stuckEvidence k flatline w =
      if flatline = .suspect ∨ flatline = .confirmed ∨ w.flat k then .neutral
      else if k.minTravel ≤ w.commandTravel then
        (if min 4000 (w.feedbackTravel * 1000 / w.commandTravel) < k.stuckRatio ∨ w.stepExpiry = true then .evidence
          else .clean)
      else if w.stepExpiry = true then .evidence else .neutral := by
  unfold stuckEvidence movementRatio
  simp only [two_le_level, flatlineEvidence_evidence]
  by_cases hheld : flatline = .suspect ∨ flatline = .confirmed
  · rw [if_pos hheld, if_pos (or_assoc.mp (.inl hheld))]
  · by_cases hflat : w.flat k
    · rw [if_neg hheld, if_pos hflat, if_pos (.inr (.inr hflat))]
    · have hneither : ¬ (flatline = .suspect ∨ flatline = .confirmed ∨ w.flat k) := fun h =>
        (or_assoc.mpr h).elim hheld hflat
      rw [if_neg hheld, if_neg hflat, if_neg hneither]
      by_cases hmoved : k.minTravel ≤ w.commandTravel
      · rw [if_neg (Nat.not_lt.mpr hmoved), if_pos hmoved]
      · rw [if_pos (Nat.not_le.mp hmoved), if_neg hmoved]

/-- LEAK evidence, in the words of R97. -/
theorem leakEvidence_eq (r : Record) (w : Window) :
    r.leakEvidence w = match w.leak with
      | none => .neutral
      | some g =>
        if g.count < r.active.wide.leakMinSamples ∨ r.cal.isRunning = true then .neutral
        else if (r.activeBank.leakThreshold : Int) < g.sum.tdiv g.count then .evidence else .clean := by
  unfold Record.leakEvidence truncatedMean
  cases w.leak with
  | none => rfl
  | some g =>
    by_cases hfew : g.count < r.active.wide.leakMinSamples
    · simp only [hfew, true_or, if_true]
    · simp only [hfew, false_or, if_false]

/-- Settles O50: the gate decides whether the trackers are updated, each evidence is as its rule words it, and the mark
follows the verdicts. -/
theorem windowEvidence : Obligations.WindowEvidence := by
  intro clock p mode w r k moved flat ratio flatline stuck leak passed
  have hpassed : r.judged mode w = true ↔ passed := judged_iff
  refine ⟨fun hno => ?_, fun hpass => ?_⟩
  · have hsame := updateTrackers_of_not_judged p (Bool.eq_false_iff.mpr (mt hpassed.mp hno))
    rw [evaluateWindow_eq, hsame, verdictsDiffer_self]
    rfl
  · have hflatline : flatlineEvidence r.activeBank w = flatline := flatlineEvidence_eq k w
    have hstuck : stuckEvidence r.activeBank r.flatline.verdict w = stuck := stuckEvidence_eq k r.flatline.verdict w
    have hleak : r.leakEvidence w = leak := leakEvidence_eq r w
    have htrackers := updateTrackers_of_judged p (hpassed.mpr hpass)
    rw [hflatline, hstuck, hleak] at htrackers
    rw [evaluateWindow_eq, htrackers]
    refine ⟨_, rfl, fun hchanged => if_pos ?_, fun hnot => if_neg (mt ?_ hnot)⟩
    · exact verdictsDiffer_iff.mpr hchanged
    · exact verdictsDiffer_iff.mp

end Sys2Proof.Machine
end

section
/-! SUPPORT. The step watch at a sample: expiry, completion and step detection, a lemma per outcome of each test. -/

namespace Sys2Proof.Machine

variable {x : Sample} {r : Record} {w : StepWatch}

/-! ### Expiry and completion (R83 to R86) -/

/-- The displacement test of R85 in either direction, without the sign. -/
theorem le_displacement_iff {fb n : Nat} :
    (n : Int) ≤ displacement w fb ↔
      (w.direction = .up ∧ w.startFeedback + n ≤ fb) ∨ (w.direction = .down ∧ fb + n ≤ w.startFeedback) := by
  unfold displacement
  cases w.direction with
  | up => simp only [true_and, reduceCtorEq, false_and, or_false]; omega
  | down => simp only [true_and, reduceCtorEq, false_and, false_or]; omega

/-- The sample's feedback has moved half the step total in the watch's direction (R85). -/
def StepWatch.movedAt (x : Sample) (w : StepWatch) : Prop :=
  ∃ fb, x.feedback = some fb ∧
    ((w.direction = .up ∧ w.startFeedback + w.total / 2 ≤ fb) ∨
     (w.direction = .down ∧ fb + w.total / 2 ≤ w.startFeedback))

theorem expireWatch_of_due (hw : r.watch = some w) (hdue : w.deadline ≤ x.time) :
    r.expireWatch x =
      { r with watch := none, window := r.window.map fun o => { o with stepExpiry := true } } := by
  simp only [Record.expireWatch, hw, if_pos hdue]

theorem completeWatch_of_no_watch (hw : r.watch = none) : r.completeWatch x = r := by
  simp only [Record.completeWatch, hw]

theorem completeWatch_of_moved (hw : r.watch = some w) (hmoved : w.movedAt x) :
    r.completeWatch x = { r with watch := none, lag := learnLag r.lag (x.time - w.start) } := by
  obtain ⟨fb, hfb, hdisplaced⟩ := hmoved
  simp only [Record.completeWatch, hw, hfb, if_pos (le_displacement_iff.mpr hdisplaced)]

theorem completeWatch_of_not_moved (hw : r.watch = some w) (hnot : ¬ w.movedAt x) : r.completeWatch x = r := by
  cases hfb : x.feedback with
  | none => simp only [Record.completeWatch, hw, hfb]
  | some fb =>
    have hshort : ¬ ((w.total / 2 : Nat) : Int) ≤ displacement w fb := fun h =>
      hnot ⟨fb, hfb, le_displacement_iff.mp h⟩
    simp only [Record.completeWatch, hw, hfb, if_neg hshort]

theorem stageWatch_of_expires (h : r.watchExpires x = true) : r.stageWatch x = (r.expireWatch x).detectStep x := by
  rw [Record.stageWatch, if_pos h]

theorem stageWatch_of_not_expires (h : ¬ r.watchExpires x = true) :
    r.stageWatch x = (r.completeWatch x).detectStep x := by
  rw [Record.stageWatch, if_neg h]

theorem watchExpires_iff (hw : r.watch = some w) : r.watchExpires x = true ↔ w.deadline ≤ x.time := by
  simp only [Record.watchExpires, hw, decide_eq_true_eq]

theorem not_watchExpires_of_no_watch (hw : r.watch = none) : ¬ r.watchExpires x = true := by
  simp only [Record.watchExpires, hw, Bool.false_eq_true, not_false_eq_true]

/-! ### Step detection (R77, R79 to R82) -/

/-- The sample is a step from the command and the feedback of the record's previous sample (R77). -/
structure Record.StepsFrom (r : Record) (x : Sample) (l : LastSample) (before : Nat) : Prop where
  feedback : x.feedback.isSome
  last : r.last = some l
  before : l.feedback = some before
  size : r.activeBank.stepSize ≤ ((x.command : Int) - l.command).natAbs

/-- The direction of a step to this sample (R77). -/
def stepDirection (x : Sample) (l : LastSample) : Direction := if l.command < x.command then .up else .down

/-- The watch that a step leaves open: a new one (R79, R82), or the open one with its total measured again (R81). -/
def Record.watchAfterStep (x : Sample) (l : LastSample) (before : Nat) (r : Record) : StepWatch :=
  match r.watch with
  | none => r.newWatch x l.command before (stepDirection x l)
  | some w =>
    if w.direction = stepDirection x l then { w with total := distance x.command w.startCommand }
    else r.newWatch x l.command before (stepDirection x l)

section
variable {l : LastSample} {before : Nat}

theorem watchAfterStep_opens (hw : r.watch = none) :
    r.watchAfterStep x l before = r.newWatch x l.command before (stepDirection x l) := by
  simp only [Record.watchAfterStep, hw]

theorem watchAfterStep_extends (hw : r.watch = some w) (hsame : w.direction = stepDirection x l) :
    r.watchAfterStep x l before = { w with total := distance x.command w.startCommand } := by
  simp only [Record.watchAfterStep, hw, if_pos hsame]

theorem watchAfterStep_replaces (hw : r.watch = some w) (hother : w.direction ≠ stepDirection x l) :
    r.watchAfterStep x l before = r.newWatch x l.command before (stepDirection x l) := by
  simp only [Record.watchAfterStep, hw, if_neg hother]

/-- A step writes the watch alone. -/
theorem detectStep_of_step (h : r.StepsFrom x l before) :
    r.detectStep x = { r with watch := some (r.watchAfterStep x l before) } := by
  obtain ⟨hfeedback, hlast, hbefore, hsize⟩ := h
  obtain ⟨fb, hfb⟩ := Option.isSome_iff_exists.mp hfeedback
  rw [← distance_eq_natAbs] at hsize
  simp only [Record.detectStep, hfb, hlast, hbefore, if_pos hsize]
  cases hw : r.watch with
  | none => rw [watchAfterStep_opens hw]; rfl
  | some w =>
    by_cases hsame : w.direction = stepDirection x l
    · rw [watchAfterStep_extends hw hsame]
      exact if_pos hsame
    · rw [watchAfterStep_replaces hw hsame]
      exact if_neg hsame

/-- A sample that is no step leaves the record. -/
theorem detectStep_of_no_step (h : ∀ l before, ¬ r.StepsFrom x l before) : r.detectStep x = r := by
  unfold Record.detectStep
  split
  · rename_i fb l hfb hlast
    split
    · rename_i before hbefore
      have hsmall : ¬ r.activeBank.stepSize ≤ distance x.command l.command := fun hsize =>
        h l before ⟨hfb ▸ rfl, hlast, hbefore, distance_eq_natAbs _ _ ▸ hsize⟩
      rw [if_neg hsmall]
    · rfl
  · rfl

end

/-- A watch opened by a step, in the words of R79 and R80. -/
theorem newWatch_eq (x : Sample) (c before : Nat) (d : Direction) (r : Record) :
    r.newWatch x c before d = {
      start := x.time, startCommand := c, startFeedback := before, direction := d,
      total := ((x.command : Int) - c).natAbs,
      deadline := x.time + min 600 (max r.activeBank.stepTimeout (2 * r.lag)) } := by
  rw [← distance_eq_natAbs]
  rfl

/-- Settles O46: the test of expiry, then that of completion, then step detection, each outcome by its own lemma. -/
theorem stepWatchStage : Obligations.StepWatchStage := by
  intro r x
  refine ⟨fun w hw hdue => ?_, fun w hw hbefore => ?_, fun hw => ?_,
    fun fb l before hfb hlast hprev _ hsize => ?_, fun hno => ?_⟩
  · rw [stageWatch_of_expires ((watchExpires_iff hw).mpr hdue), expireWatch_of_due hw hdue]
  · intro moved lag
    rw [stageWatch_of_not_expires (mt (watchExpires_iff hw).mp (Nat.not_le.mpr hbefore))]
    refine ⟨fun hmoved => ?_, fun hnot => ?_⟩
    · rw [completeWatch_of_moved hw hmoved]
      rfl
    · rw [completeWatch_of_not_moved hw hnot]
  · rw [stageWatch_of_not_expires (not_watchExpires_of_no_watch hw), completeWatch_of_no_watch hw]
  · intro direction opened
    have hstep : r.StepsFrom x l before := ⟨hfb ▸ rfl, hlast, hprev, hsize⟩
    have hopened : r.newWatch x l.command before (stepDirection x l) = opened := newWatch_eq _ _ _ _ _
    refine ⟨fun hw => ?_, fun w hw hsame => ?_, fun w hw hother => ?_⟩
    · rw [detectStep_of_step hstep, watchAfterStep_opens hw, hopened]
    · rw [detectStep_of_step hstep, watchAfterStep_extends hw hsame, distance_eq_natAbs]
    · rw [detectStep_of_step hstep, watchAfterStep_replaces hw hother, hopened]
  · refine detectStep_of_no_step fun l before hstep => ?_
    obtain ⟨hfeedback, hlast, hbefore, hsize⟩ := hstep
    obtain hnone | hprevious := hno
    · simp [hnone] at hfeedback
    · obtain hblind | hsmall := hprevious l hlast
      · simp [hblind] at hbefore
      · omega

end Sys2Proof.Machine
end

section
/-! SUPPORT. The running calibration at a sample: what a sample feeds it, what it becomes at its end, and a lemma per outcome
of stage 5. -/

namespace Sys2Proof.Machine

/-! ### What a sample feeds (R93, R94, R100) -/

/-- The run after step 3 of R100 at this sample. -/
def Record.fedRun (x : Sample) (v : ValveParts) (run : CalRun) (r : Record) : CalRun :=
  feedRun run (r.qualifies x) (residual v.sense 0 x)

section
variable {x : Sample} {r : Record} (v : ValveParts) (run : CalRun)

theorem fedRun_of_qualifies (h : r.qualifies x = true) :
    r.fedRun x v run = { run with count := run.count + 1, sum := run.sum + residual v.sense 0 x } := by
  rw [Record.fedRun, h, feedRun, if_pos rfl]

theorem fedRun_of_not (h : ¬ r.qualifies x = true) : r.fedRun x v run = run := if_neg h

/-- A sample feeds the count and the sum alone: the start and the duration stand. -/
theorem fedRun_eq : r.fedRun x v run =
    { run with count := (r.fedRun x v run).count, sum := (r.fedRun x v run).sum } := by
  by_cases h : r.qualifies x = true
  · rw [fedRun_of_qualifies v run h]
  · rw [fedRun_of_not v run h]

end

/-- The raw residual of R100, in its words: that of R94 with no offset subtracted. -/
theorem rawResidual_eq (sense : CoilSense) {x : Sample} {entering leaving : Int} (he : x.entering = some entering)
    (hl : x.leaving = some leaving) :
    residual sense 0 x =
      let raw := if sense = .heat then leaving - entering else entering - leaving
      if raw < -2000 then -2000 else if 2000 < raw then 2000 else raw := by
  rw [residual_eq sense 0 he hl, Int.sub_zero]

/-! ### Completion (R102) -/

section
variable {run : CalRun} (offset : Int)

theorem calOutcome_of_few (h : run.count < 10) : calOutcome run offset = (.failed .insufficient, offset) :=
  if_neg (Nat.not_le.mpr h)

theorem calOutcome_of_low (h : 10 ≤ run.count) (hlow : run.sum.tdiv run.count < -200) :
    calOutcome run offset = (.doneClamped, -200) :=
  (if_pos h).trans (if_pos hlow)

theorem calOutcome_of_high (h : 10 ≤ run.count) (hhigh : 200 < run.sum.tdiv run.count) :
    calOutcome run offset = (.doneClamped, 200) := by
  have hnotLow : ¬ run.sum.tdiv run.count < -200 := by omega
  exact (if_pos h).trans ((if_neg hnotLow).trans (if_pos hhigh))

theorem calOutcome_of_within (h : 10 ≤ run.count) (hlow : -200 ≤ run.sum.tdiv run.count)
    (hhigh : run.sum.tdiv run.count ≤ 200) : calOutcome run offset = (.done, run.sum.tdiv run.count) :=
  (if_pos h).trans ((if_neg (Int.not_lt.mpr hlow)).trans (if_neg (Int.not_lt.mpr hhigh)))

end

/-! ### Stage 5 (R100 to R102, R155) -/

/-- A VALVE record at an end of its calibration: the status, the learned offset and the mark are written. -/
def Record.endCalibration (clock : Nat) (v : ValveParts) (out : Calibration × Int) (r : Record) : Record :=
  { r with cal := out.1, valve := some { v with offset := out.2 }, mark := some (r.mark.getD clock) }

section
variable {clock : Nat} {x : Sample} {r : Record} {run : CalRun} {v : ValveParts}

theorem stageCalibration_of_not_running (h : ∀ run, r.cal ≠ .running run) : r.stageCalibration clock x = r := by
  unfold Record.stageCalibration
  split
  · next run _ hcal _ => exact absurd hcal (h run)
  · rfl

/-- Stage 5 of a running calibration, the record's own parts read off. -/
theorem stageCalibration_running (hcal : r.cal = .running run) (hv : r.valve = some v) :
    r.stageCalibration clock x =
      if x.time < run.start then r
      else if r.activeBank.closedLevel < x.command then r.endCalibration clock v (.failed .disturbed, v.offset)
      else if run.start + run.duration ≤ x.time then
        r.endCalibration clock v (calOutcome (r.fedRun x v run) v.offset)
      else { r with cal := .running (r.fedRun x v run) } := by
  have hdisturbed : ({ r with cal := .failed .disturbed } : Record).marked clock =
      r.endCalibration clock v (.failed .disturbed, v.offset) := by
    simp only [Record.marked, setMark, Record.endCalibration, ← hv]
  simp only [Record.stageCalibration, hcal, hv, ← hdisturbed]
  rfl

variable (hcal : r.cal = .running run) (hv : r.valve = some v)
include hcal hv

theorem stageCalibration_before_start (h : x.time < run.start) : r.stageCalibration clock x = r := by
  rw [stageCalibration_running hcal hv, if_pos h]

theorem stageCalibration_of_disturbed (hstart : run.start ≤ x.time) (h : r.activeBank.closedLevel < x.command) :
    r.stageCalibration clock x = r.endCalibration clock v (.failed .disturbed, v.offset) := by
  rw [stageCalibration_running hcal hv, if_neg (Nat.not_lt.mpr hstart), if_pos h]

theorem stageCalibration_before_end (hstart : run.start ≤ x.time) (hclosed : x.command ≤ r.activeBank.closedLevel)
    (h : x.time < run.start + run.duration) :
    r.stageCalibration clock x = { r with cal := .running (r.fedRun x v run) } := by
  rw [stageCalibration_running hcal hv, if_neg (Nat.not_lt.mpr hstart), if_neg (Nat.not_lt.mpr hclosed),
    if_neg (Nat.not_le.mpr h)]

theorem stageCalibration_at_end (hstart : run.start ≤ x.time) (hclosed : x.command ≤ r.activeBank.closedLevel)
    (h : run.start + run.duration ≤ x.time) :
    r.stageCalibration clock x = r.endCalibration clock v (calOutcome (r.fedRun x v run) v.offset) := by
  rw [stageCalibration_running hcal hv, if_neg (Nat.not_lt.mpr hstart), if_neg (Nat.not_lt.mpr hclosed), if_pos h]

end

/-- Settles O47: time, disturbance, accumulation and completion in the order of R100, each outcome by its own lemma; the
count and the sum are those of the fed run. -/
theorem calibrationStage : Obligations.CalibrationStage := by
  intro clock r x
  refine ⟨stageCalibration_of_not_running, fun run v hcal hv => ?_⟩
  intro ended
  refine ⟨stageCalibration_before_start hcal hv, stageCalibration_of_disturbed hcal hv, fun hstart hclosed =>
    ⟨(r.fedRun x v run).count, (r.fedRun x v run).sum,
      fun started entering leaving hrun hsettled hfan hentering hleaving => ?_, fun hno => ?_, fun hbefore => ?_,
      fun hend => ?_⟩⟩
  · have hqualifies : r.qualifies x = true := qualifies_iff.mpr
      ⟨by simp [hv], hfan, by simp [hentering], by simp [hleaving], started, hrun, hsettled⟩
    rw [fedRun_of_qualifies v run hqualifies, rawResidual_eq v.sense hentering hleaving]
    exact ⟨rfl, rfl⟩
  · have hnot : ¬ r.qualifies x = true := fun hqualifies => by
      obtain ⟨-, hfan, hentering, hleaving, started, hrun, hsettled⟩ := qualifies_iff.mp hqualifies
      obtain h | h | h | h | h := hno
      · simp [h] at hrun
      · exact absurd hsettled (Nat.not_le.mpr (h started hrun))
      · exact h hfan
      · exact hentering h
      · exact hleaving h
    rw [fedRun_of_not v run hnot]
    exact ⟨rfl, rfl⟩
  · rw [← fedRun_eq, stageCalibration_before_end hcal hv hstart hclosed hbefore]
  · rw [stageCalibration_at_end hcal hv hstart hclosed hend]
    intro mean
    refine ⟨fun hfew => ?_, fun hcount hlow hhigh => ?_, fun hcount hlow => ?_, fun hcount hhigh => ?_⟩
    · rw [calOutcome_of_few v.offset hfew]
      rfl
    · rw [calOutcome_of_within v.offset hcount hlow hhigh]
      rfl
    · rw [calOutcome_of_low v.offset hcount hlow]
      rfl
    · rw [calOutcome_of_high v.offset hcount hhigh]
      rfl

end Sys2Proof.Machine
end

section
/-! SUPPORT. Loop fighting: reversals, a member's sample at a coupling, and the evaluation at the lead's close. -/

namespace Sys2Proof.Machine

/-! ### Reversals (R117) -/

section
variable (deadband command e : Nat)

/-- The first command is taken as the extreme (R117). -/
theorem ReversalTracker.take_first (d : Option Direction) :
    ReversalTracker.take deadband command { direction := d, extreme := none } =
      ({ direction := d, extreme := some command }, none) := rfl

/-- Without a direction, a move of the deadband gives one and is no reversal (R117). -/
theorem ReversalTracker.take_undirected :
    ReversalTracker.take deadband command { direction := none, extreme := some e } =
      if e + deadband ≤ command then ({ direction := some .up, extreme := some command }, none)
      else if command + deadband ≤ e then ({ direction := some .down, extreme := some command }, none)
      else ({ direction := none, extreme := some e }, none) := rfl

/-- Upward, a higher command is the new extreme and a fall of the deadband from the extreme a reversal (R117). -/
theorem ReversalTracker.take_up :
    ReversalTracker.take deadband command { direction := some .up, extreme := some e } =
      if e < command then ({ direction := some .up, extreme := some command }, none)
      else if command + deadband ≤ e then ({ direction := some .down, extreme := some command }, some .down)
      else ({ direction := some .up, extreme := some e }, none) := rfl

/-- Downward, a lower command is the new extreme and a rise of the deadband from the extreme a reversal (R117). -/
theorem ReversalTracker.take_down :
    ReversalTracker.take deadband command { direction := some .down, extreme := some e } =
      if command < e then ({ direction := some .down, extreme := some command }, none)
      else if e + deadband ≤ command then ({ direction := some .up, extreme := some command }, some .up)
      else ({ direction := some .down, extreme := some e }, none) := rfl

end

/-- Settles O48, row by row of the table of R117. -/
theorem reversalTracked : Obligations.ReversalTracked := by
  intro deadband command e _ from_ to_
  exact ⟨ReversalTracker.take_first deadband command none, ReversalTracker.take_undirected deadband command e,
    ReversalTracker.take_up deadband command e, ReversalTracker.take_down deadband command e⟩

/-! ### A member's sample at a coupling (R118 to R120, R123, R124) -/

/-- A coupling names the records of its two member slots and no other. -/
theorem names_iff {c : Coupling} {slot : Nat} : c.names slot = true ↔ slot = c.leadSlot ∨ slot = c.followerSlot := by
  rw [eq_comm (a := slot), eq_comm (a := slot)]
  simp [Coupling.names]

theorem names_eq_false_iff {c : Coupling} {slot : Nat} :
    c.names slot = false ↔ c.leadSlot ≠ slot ∧ c.followerSlot ≠ slot := by
  simp [Coupling.names]

theorem bothOpen_of_commands {c : Coupling} {a b : Nat} (ha : c.leadCommand = some a) (hb : c.followerCommand = some b) :
    c.bothOpen = true ↔ c.params.overlapLevel ≤ a ∧ c.params.overlapLevel ≤ b := by
  simp [Coupling.bothOpen, ha, hb]

theorem bothOpen_of_none {c : Coupling} (h : c.leadCommand = none ∨ c.followerCommand = none) : c.bothOpen = false := by
  unfold Coupling.bothOpen
  split
  · rename_i ha hb
    simp [ha, hb] at h
  · rfl

/-- The gap credited at a sample, by whether u and both stored commands are present (R119). -/
theorem creditedGap_eq (t : Nat) (c : Coupling) :
    c.creditedGap t = match c.lastUpdate, c.leadCommand, c.followerCommand with
      | some u, some a, some b =>
        if u < t ∧ c.params.overlapLevel ≤ a ∧ c.params.overlapLevel ≤ b then min (t - u) 300 else 0
      | _, _, _ => 0 := by
  unfold Coupling.creditedGap
  cases c.lastUpdate with
  | none => rfl
  | some u =>
    cases ha : c.leadCommand with
    | none => simp [bothOpen_of_none (.inl ha)]
    | some a =>
      cases hb : c.followerCommand with
      | none => simp [bothOpen_of_none (.inr hb)]
      | some b => simp only [bothOpen_of_commands ha hb]

/-- u after a sample: the later of the two times (R119). -/
def Coupling.laterUpdate (t : Nat) (c : Coupling) : Nat :=
  match c.lastUpdate with
  | some u => if u < t then t else u
  | none => t

/-- What the overlap step writes for either member: the overlap and u (R119). -/
def Coupling.overlapped (t : Nat) (c : Coupling) : Coupling :=
  { c with overlap := min 65535 (c.overlap + c.creditedGap t), lastUpdate := some (c.laterUpdate t) }

theorem overlapStep_lead (t command : Nat) (c : Coupling) :
    c.overlapStep .lead t command = { c.overlapped t with leadCommand := some command } := by
  cases hu : c.lastUpdate <;> simp [Coupling.overlapStep, Coupling.overlapped, Coupling.laterUpdate, hu, max_def_lt]

theorem overlapStep_follower (t command : Nat) (c : Coupling) :
    c.overlapStep .follower t command = { c.overlapped t with followerCommand := some command } := by
  cases hu : c.lastUpdate <;> simp [Coupling.overlapStep, Coupling.overlapped, Coupling.laterUpdate, hu, max_def_lt]

/-- The other member's unpaired reversal pairs when it lies within the pair window and turns the other way (R120). -/
theorem pairsWith_iff {pairWindow t : Nat} {d : Direction} {other : Option Reversal} :
    pairsWith pairWindow t d other = true ↔
      ∃ y : Reversal, other = some y ∧ ((t : Int) - y.time).natAbs ≤ pairWindow ∧ y.direction ≠ d := by
  unfold pairsWith
  cases other with
  | none => simp
  | some y => simp [distance_eq_natAbs]

section
variable {c : Coupling} {pairWindow t : Nat} {d : Direction}

theorem antiphaseStep_lead_pairs (h : pairsWith c.params.pairWindow t d c.followerReversal = true) :
    c.antiphaseStep .lead t d = { c with antiphase := min 255 (c.antiphase + 1), followerReversal := none } := if_pos h

theorem antiphaseStep_lead_unpaired (h : ¬ pairsWith c.params.pairWindow t d c.followerReversal = true) :
    c.antiphaseStep .lead t d = { c with leadReversal := some { time := t, direction := d } } := if_neg h

theorem antiphaseStep_follower_pairs (h : pairsWith c.params.pairWindow t d c.leadReversal = true) :
    c.antiphaseStep .follower t d = { c with antiphase := min 255 (c.antiphase + 1), leadReversal := none } := if_pos h

theorem antiphaseStep_follower_unpaired (h : ¬ pairsWith c.params.pairWindow t d c.leadReversal = true) :
    c.antiphaseStep .follower t d = { c with followerReversal := some { time := t, direction := d } } := if_neg h

end

section
variable {c : Coupling} {slot : Nat} {reopening : Bool} {x : Sample} {turn : Option Direction}

theorem memberSample_unnamed (h : c.names slot = false) : c.memberSample slot reopening x turn = c := by
  obtain ⟨hlead, hfollower⟩ := names_eq_false_iff.mp h
  rw [Coupling.memberSample, if_neg hlead, if_neg hfollower]

theorem memberSample_lead (h : c.leadSlot = slot) :
    c.memberSample slot reopening x turn = c.takeSample .lead reopening x turn := if_pos h

theorem memberSample_follower (hlead : c.leadSlot ≠ slot) (h : c.followerSlot = slot) :
    c.memberSample slot reopening x turn = c.takeSample .follower reopening x turn := by
  rw [Coupling.memberSample, if_neg hlead, if_pos h]

end

/-- Settles O49, by the role the sample's record has in the coupling, then by whether the sample is a reversal and
pairs. -/
theorem couplingTakesSample : Obligations.CouplingTakesSample := by
  intro c slot reopening x turn gap updated pairs
  have hupdated (d : Coupling) : d.overlapped x.time = updated d := by
    have hgap : d.creditedGap x.time = gap d := creditedGap_eq x.time d
    simp only [Coupling.overlapped, hgap]
    rfl
  refine ⟨memberSample_unnamed, fun hlead => ?_, fun hlead hfollower => ?_⟩
  · intro opened c1
    have hopened : c.reopen .lead reopening = opened := rfl
    have hparams : opened.params = c.params := by
      dsimp only [opened]
      split_ifs <;> rfl
    have hc1 : (c.reopen .lead reopening).overlapStep .lead x.time x.command = c1 := by
      rw [hopened, overlapStep_lead, hupdated]
    have hpairs (d : Direction) : pairs opened.followerReversal d ↔
        pairsWith c1.params.pairWindow x.time d c1.followerReversal = true := by
      rw [pairsWith_iff]
      change _ ↔ ∃ y, opened.followerReversal = some y ∧ _ ≤ opened.params.pairWindow ∧ _
      rw [hparams]
    rw [memberSample_lead hlead]
    refine ⟨fun hturn => ?_, fun d hturn => ⟨fun h => ?_, fun h => ?_⟩⟩
    · rw [hturn]
      exact hc1
    all_goals
      rw [hturn, Coupling.takeSample, hc1]
    · exact antiphaseStep_lead_pairs ((hpairs d).mp h)
    · exact antiphaseStep_lead_unpaired (mt (hpairs d).mpr h)
  · intro c1
    have hc1 : (c.reopen .follower reopening).overlapStep .follower x.time x.command = c1 := by
      rw [overlapStep_follower, hupdated]
      rfl
    have hpairs (d : Direction) : pairs c.leadReversal d ↔
        pairsWith c1.params.pairWindow x.time d c1.leadReversal = true := pairsWith_iff.symm
    rw [memberSample_follower hlead hfollower]
    refine ⟨fun hturn => ?_, fun d hturn => ⟨fun h => ?_, fun h => ?_⟩⟩
    · rw [hturn]
      exact hc1
    all_goals
      rw [hturn, Coupling.takeSample, hc1]
    · exact antiphaseStep_follower_pairs ((hpairs d).mp h)
    · exact antiphaseStep_follower_unpaired (mt (hpairs d).mpr h)

/-! ### The evaluation at the lead's close (R121, R122, R134) -/

section
variable {T : Tables} {lead follower : Record} {w : Window} {c : Coupling}

theorem movementConfirmed_iff {r : Record} :
    r.movementConfirmed = true ↔ r.stuck.verdict = .confirmed ∨ r.flatline.verdict = .confirmed := by
  simp [Record.movementConfirmed]

/-- The six conditions of R121, with the follower in the table. -/
theorem fightNeutral_iff (hf : Table.get T.records c.followerSlot = some follower) :
    T.fightNeutral lead w c = true ↔
      w.samples < lead.active.wide.minSamples ∨ (lead.state = .settling ∨ follower.state = .settling) ∨
      (T.zones[lead.zone].mode = .hold ∨ T.zones[follower.zone].mode = .hold) ∨ c.followerStale = true ∨
      c.followerCommand = none ∨ (lead.movementConfirmed = true ∨ follower.movementConfirmed = true) := by
  simp only [Tables.fightNeutral, hf, Bool.or_eq_true, decide_eq_true_eq, beq_iff_eq, Option.isNone_iff_eq_none,
    or_assoc]

/-- The overlap fraction or the antiphase count reaches its parameter (R122). -/
abbrev Coupling.Fought (windowLength : Nat) (c : Coupling) : Prop :=
  c.params.overlapFraction ≤ overlapFraction c.overlap windowLength ∨ c.params.huntCount ≤ c.antiphase

theorem fightEvidence_of_neutral (h : T.fightNeutral lead w c = true) : T.fightEvidence lead w c = .neutral := if_pos h

theorem fightEvidence_of_fought (h : ¬ T.fightNeutral lead w c = true) (hf : c.Fought lead.active.wide.windowLength) :
    T.fightEvidence lead w c = .evidence := (if_neg h).trans (if_pos hf)

theorem fightEvidence_of_not_fought (h : ¬ T.fightNeutral lead w c = true)
    (hf : ¬ c.Fought lead.active.wide.windowLength) : T.fightEvidence lead w c = .clean := (if_neg h).trans (if_neg hf)

/-- The fight tracker of a coupling after its evaluation (R122). -/
def Tables.fightAfter (T : Tables) (lead : Record) (w : Window) (c : Coupling) : Tracker :=
  c.fight.update (T.profile c.params.profile) (T.fightEvidence lead w c)

/-- Everything an evaluation writes of a coupling (R122, R134). -/
theorem evaluateFight_eq : T.evaluateFight lead w c = { c with
    fight := T.fightAfter lead w c, overlap := 0, antiphase := 0,
    mark := if (T.fightAfter lead w c).verdict = c.fight.verdict then c.mark else setMark T.clock c.mark } := by
  unfold Tables.evaluateFight Tables.fightAfter
  dsimp only
  split_ifs <;> rfl

end

/-- Settles O52, by what the evaluation writes and the three cases of its evidence. -/
theorem fightEvaluated : Obligations.FightEvaluated := by
  intro T lead follower w c hfollower confirmed neutral fought
  have hneutral : T.fightNeutral lead w c = true ↔ neutral := by
    rw [fightNeutral_iff hfollower, movementConfirmed_iff, movementConfirmed_iff]
  exact ⟨T.fightEvidence lead w c, _, fun h => fightEvidence_of_neutral (hneutral.mpr h),
    fun h hf => fightEvidence_of_fought (mt hneutral.mp h) hf,
    fun h hf => fightEvidence_of_not_fought (mt hneutral.mp h) hf,
    evaluateFight_eq, fun h => if_neg h, fun h => if_pos h⟩

end Sys2Proof.Machine
end

section
/-! SUPPORT. COUPLE and UNCOUPLE: the pair of records whose counts they change, what each accepts, and the refusals of
COUPLE. -/

namespace Sys2Proof.Machine

/-! ### The two members' records (R113) -/

/-- One edit of the records in two slots. -/
theorem modifyRecord_pair_get (T : Tables) {a b : Nat} (hne : a ≠ b) (f : Record → Record) (j : Nat) :
    Table.get ((T.modifyRecord a f).modifyRecord b f).records j =
      if j = a ∨ j = b then (Table.get T.records j).map f else Table.get T.records j := by
  rw [modifyRecord_get, modifyRecord_get, modifyRecord_get]
  by_cases hb : j = b
  · subst hb
    rw [if_pos rfl, if_neg (Ne.symm hne), if_pos (.inr rfl)]
  · by_cases ha : j = a
    · subst ha
      rw [if_neg hb, if_pos rfl, if_pos (.inl rfl)]
    · rw [if_neg hb, if_neg ha, if_neg (not_or.mpr ⟨ha, hb⟩)]

/-- What an edit of the records in two slots leaves: each of the two edited, every other as it was. -/
theorem modifyRecord_pair {T : Tables} {a b : Nat} {ra rb : Record} (hne : a ≠ b) (f : Record → Record)
    (ha : Table.get T.records a = some ra) (hb : Table.get T.records b = some rb) :
    Table.get ((T.modifyRecord a f).modifyRecord b f).records a = some (f ra) ∧
    Table.get ((T.modifyRecord a f).modifyRecord b f).records b = some (f rb) ∧
    ∀ j, j ≠ a → j ≠ b →
      Table.get ((T.modifyRecord a f).modifyRecord b f).records j = Table.get T.records j := by
  refine ⟨?_, ?_, fun j hja hjb => ?_⟩ <;> rw [modifyRecord_pair_get T hne]
  · rw [if_pos (.inl rfl), ha, Option.map_some]
  · rw [if_pos (.inr rfl), hb, Option.map_some]
  · exact if_neg (not_or.mpr ⟨hja, hjb⟩)

/-- Two distinct records are coupled when some coupling names them both. -/
theorem coupled_iff {T : Tables} {a b : Nat} (hne : a ≠ b) :
    T.coupled a b = true ↔ ∃ e ∈ T.couplings, e.2.names a = true ∧ e.2.names b = true := by
  simp only [Tables.coupled, List.any_eq_true]
  refine exists_congr fun e => and_congr_right fun _ => ?_
  simp only [names_iff, Bool.or_eq_true, Bool.and_eq_true, beq_iff_eq]
  omega

/-- The uncoupled pair of R111. -/
theorem coupled_eq_false_iff {T : Tables} {a b : Nat} (hne : a ≠ b) :
    T.coupled a b = false ↔ ∀ e ∈ T.couplings, ¬ (e.2.names a = true ∧ e.2.names b = true) := by
  rw [← Bool.not_eq_true, coupled_iff hne]
  push Not
  rfl

/-! ### COUPLE (R107 to R113) -/

/-- Settles O30: the checks of R111 pass, and the tables are those R112 gives. -/
theorem coupleCompletes : Obligations.CoupleCompletes := by
  intro s p f q a b slot lead follower hs hf hq hlead hfollower hne hparams hmayLead hmayFollower hfresh hleadCount
    hfollowerCount hslot hempty hlower c
  have hpermits := And.intro ((permits_iff _ _ _).mpr hmayLead) ((permits_iff _ _ _).mpr hmayFollower)
  have hok := couple_ok.mpr ⟨q, a, lead, b, follower, slot, hq, hlead, hfollower, hne, hparams, hpermits,
    (coupled_eq_false_iff hne).mpr hfresh, ⟨hleadCount, hfollowerCount⟩, lowestFree_eq hslot hempty hlower, rfl⟩
  obtain ⟨hgetLead, hgetFollower, hothers⟩ :=
    modifyRecord_pair hne Record.raiseCount (resolveRecord_get hlead) (resolveRecord_get hfollower)
  exact ⟨_, answers_of_ok (c := .couple) (fun _ => rfl) hs hf hok, hgetLead, hgetFollower, hothers, rfl⟩

/-- Settles O31, check by check in the order of R111. -/
theorem coupleRefused : Obligations.CoupleRefused := by
  intro s p f hs hf
  have refuses {e : Completion} (hrun : couple f s.tables = refuse e) : s.Refuses .couple p f e :=
    refuses_of_refuse (fun _ => rfl) hs hf hrun
  refine ⟨fun hq => refuses ?_, fun q hq => ⟨fun e he => refuses ?_, fun a lead hlead =>
    ⟨fun e he => refuses ?_, fun b follower hfollower => ?_⟩⟩⟩
  · simp only [couple, hq, parsed_none, refuse_bind]
  · simp only [couple, hq, parsed_some, ok_bind, resolveRecord_refuse he, refuse_bind]
  · simp only [couple, hq, parsed_some, ok_bind, hlead, resolveRecord_refuse he, refuse_bind]
  · intro form may fresh
    have hmay : (s.tables.permits f.requester lead.zone && s.tables.permits f.requester follower.zone) = true ↔ may := by
      rw [Bool.and_eq_true, permits_iff, permits_iff]
    have huncoupled (hne : a ≠ b) : (!s.tables.coupled a b) = true ↔ fresh := by
      rw [Bool.not_eq_true', coupled_eq_false_iff hne]
    refine ⟨fun hsame => refuses ?_, fun hne hbad => refuses ?_, fun ⟨hne, hparams⟩ hno => refuses ?_,
      fun ⟨hne, hparams⟩ hyes hno => refuses ?_, fun ⟨hne, hparams⟩ hyes hfresh hfull => refuses ?_,
      fun ⟨hne, hparams⟩ hyes hfresh hleadCount hfollowerCount hoccupied => refuses ?_⟩
    all_goals simp only [couple, hq, parsed_some, ok_bind, hlead, hfollower]
    · rw [require_neg (not_not.mpr hsame), refuse_bind]
    all_goals rw [require_pos hne, ok_bind]
    · have hbad : ¬ ∀ c ∈ q.params, c.InRange := fun h => hbad.elim fun c ⟨hc, hno⟩ => hno (h c hc)
      rw [require_neg hbad, refuse_bind]
    all_goals rw [require_pos hparams, ok_bind]
    · rw [require_neg (mt hmay.mp hno), refuse_bind]
    all_goals rw [require_pos (hmay.mpr hyes), ok_bind]
    · rw [require_neg (mt (huncoupled hne).mp hno), refuse_bind]
    all_goals rw [require_pos ((huncoupled hne).mpr hfresh), ok_bind]
    · rw [require_neg (by omega), refuse_bind]
    · rw [require_pos ⟨hleadCount, hfollowerCount⟩, ok_bind, lowestFree_eq_none hoccupied, orRefuse_none, refuse_bind]

/-! ### UNCOUPLE (R108, R113 to R115) -/

/-- Settles O32, by what emptying a slot, advancing its generation and lowering two counts leave. -/
theorem uncoupleCompletes : Obligations.UncoupleCompletes := by
  intro s p f h slot c lead follower hs hf hq hc hne hlead hfollower hmay
  have hok := uncouple_ok.mpr ⟨h, slot, c, hq, hc, (permitsLead_iff hlead).mpr hmay, rfl⟩
  obtain ⟨hgetLead, hgetFollower, hothers⟩ := modifyRecord_pair hne Record.lowerCount hlead hfollower
  exact ⟨_, answers_of_ok (c := .uncouple) (fun _ => rfl) hs hf hok, Table.get_erase_self _ _,
    fun j hj => Table.get_erase_ne _ hj, generationOf_advance_self _ _, fun j hj => generationOf_advance_ne _ hj,
    hgetLead, hgetFollower, hothers, rfl⟩

end Sys2Proof.Machine
end

section
/-! SUPPORT. Every step keeps the couplings: what leaves the pairs and the counts alone, what a coupling keeps of its
follower, then COUPLE, UNCOUPLE, DEFINE and RETIRE, the samples and the expiry. -/

namespace Sys2Proof.Machine

/-! ### Pairs and counts that stand (R107 to R109, R113) -/

/-- A coupling's members, by their handles. -/
def Coupling.ends (c : Coupling) : Nat × Nat := (c.lead, c.follower)

theorem ends_eq_iff {c c' : Coupling} : c'.ends = c.ends ↔ c'.lead = c.lead ∧ c'.follower = c.follower := Prod.mk_inj

theorem slots_of_ends {c c' : Coupling} (h : c'.ends = c.ends) :
    c'.leadSlot = c.leadSlot ∧ c'.followerSlot = c.followerSlot := by
  obtain ⟨hlead, hfollower⟩ := ends_eq_iff.mp h
  exact ⟨congrArg recordSlotOf hlead, congrArg recordSlotOf hfollower⟩

/-- The members of a pair name the record in a slot. -/
def namedBy (slot : Nat) (ends : Nat × Nat) : Bool := recordSlotOf ends.1 == slot || recordSlotOf ends.2 == slot

/-- Tables with the same couplings of the same members, in records with the same counts. -/
structure Tables.SamePairs (T T' : Tables) : Prop where
  ends : Table.mapValues T'.couplings Coupling.ends = Table.mapValues T.couplings Coupling.ends
  counts : Table.mapValues T'.records Record.couplingCount = Table.mapValues T.records Record.couplingCount
  recordGens : T'.recordGens = T.recordGens
  couplingGens : T'.couplingGens = T.couplingGens

section
variable {α β γ : Type}

/-- Of two tables that list the same images, each entry of one has its like in the other. -/
theorem Table.mem_of_mapValues_eq {t : Table α} {t' : Table β} {f : α → γ} {g : β → γ}
    (h : Table.mapValues t' g = Table.mapValues t f) {e : Nat × β} (he : e ∈ t') : ∃ v, (e.1, v) ∈ t ∧ g e.2 = f v := by
  have hmem : (e.1, g e.2) ∈ Table.mapValues t' g := List.mem_map_of_mem (f := fun e : Nat × β => (e.1, g e.2)) he
  rw [h] at hmem
  exact Table.mem_mapValues hmem

theorem Table.keys_of_mapValues_eq {t : Table α} {t' : Table β} {f : α → γ} {g : β → γ}
    (h : Table.mapValues t' g = Table.mapValues t f) : t'.map Prod.fst = t.map Prod.fst := by
  rw [← Table.mapValues_keys t' g, h, Table.mapValues_keys]

end

/-- The couplings naming a slot are counted by their members alone. -/
theorem couplingsNaming_eq (T : Tables) (slot : Nat) :
    T.couplingsNaming slot =
      ((Table.mapValues T.couplings Coupling.ends).filter fun e => namedBy slot e.2).length := by
  simp only [Tables.couplingsNaming, Table.mapValues, List.filter_map, List.length_map]
  rfl

theorem Tables.SamePairs.couplingsOk {T T' : Tables} (h : T.SamePairs T') (hT : T.CouplingsOk) : T'.CouplingsOk := by
  have old {e : Nat × Coupling} (he : e ∈ T'.couplings) :
      ∃ c, (e.1, c) ∈ T.couplings ∧ e.2.lead = c.lead ∧ e.2.follower = c.follower := by
    obtain ⟨c, hc, hends⟩ := Table.mem_of_mapValues_eq h.ends he
    exact ⟨c, hc, ends_eq_iff.mp hends⟩
  have present (i : Nat) : (Table.get T'.records i).isSome ↔ (Table.get T.records i).isSome := by
    rw [Table.get_isSome_iff, Table.get_isSome_iff, Table.keys_of_mapValues_eq h.counts]
  refine ⟨?_, h.couplingGens ▸ hT.generations, fun e he => ?_, fun e he d hd hne => ?_, fun e he => ?_⟩
  · rw [Table.wf_iff, Table.keys_of_mapValues_eq h.ends, ← Table.wf_iff]
    exact hT.couplings
  · obtain ⟨c, hc, hlead, hfollower⟩ := old he
    simp only [Coupling.leadSlot, Coupling.followerSlot, Tables.recordHandle, present, hlead, hfollower, h.recordGens]
    exact hT.members _ hc
  · obtain ⟨c, hc, hlead, hfollower⟩ := old he
    obtain ⟨c', hc', hlead', hfollower'⟩ := old hd
    simp only [Coupling.names, Coupling.leadSlot, Coupling.followerSlot, hlead, hfollower, hlead', hfollower']
    exact hT.pairs _ hc _ hc' hne
  · obtain ⟨r, hr, hcount⟩ := Table.mem_of_mapValues_eq h.counts he
    rw [hcount, couplingsNaming_eq, h.ends, ← couplingsNaming_eq]
    exact hT.counts _ hr

/-- What every edit of a record keeps stands in each slot of the table. -/
theorem Tables.Edited.mapValues_eq {β : Type} {may : Fin 16 → Prop} {c : Instr} {T T' : Tables}
    (he : Tables.Edited may c T T') (hs : (T.records.map Prod.fst).Pairwise (· < ·)) {f : Record → β}
    (hf : ∀ {r r' : Record}, RecordEdit may r c r' → f r' = f r) :
    Table.mapValues T'.records f = Table.mapValues T.records f := by
  refine Table.eq_of_get (by rwa [Table.mapValues_keys]) (by rw [Table.mapValues_keys, Table.mapValues_keys, he.slots])
    fun i => ?_
  rw [Table.get_mapValues, Table.get_mapValues]
  cases hr : Table.get T.records i with
  | some r =>
    obtain ⟨r', hr', hedit⟩ := he.record i r hr
    rw [hr']
    exact congrArg some (hf hedit)
  | none =>
    have : Table.get T'.records i = none := by
      rw [← Option.not_isSome_iff_eq_none, Table.get_isSome_iff, he.slots, ← Table.get_isSome_iff, hr]
      exact Bool.false_ne_true
    rw [this]

/-- A record edited had been there before the edit. -/
theorem Tables.Edited.before {may : Fin 16 → Prop} {c : Instr} {T T' : Tables} (he : Tables.Edited may c T T') {i : Nat}
    {r' : Record} (hr' : Table.get T'.records i = some r') :
    ∃ r, Table.get T.records i = some r ∧ RecordEdit may r c r' := by
  obtain ⟨r, hr⟩ : ∃ r, Table.get T.records i = some r := by
    rw [← Option.isSome_iff_exists, Table.get_isSome_iff, ← he.slots, ← Table.get_isSome_iff, hr']
    rfl
  obtain ⟨q, hq, hedit⟩ := he.record i r hr
  cases hq.symm.trans hr'
  exact ⟨r, hr, hedit⟩

/-- No command but COUPLE and UNCOUPLE changes a coupling count (R113). -/
theorem Tables.Edited.samePairs {may : Fin 16 → Prop} {c : Instr} {T T' : Tables} (he : Tables.Edited may c T T')
    (hR : T.RecordsOk) (hcouple : c ≠ .couple) (huncouple : c ≠ .uncouple)
    (hends : Table.mapValues T'.couplings Coupling.ends = Table.mapValues T.couplings Coupling.ends)
    (hgens : T'.couplingGens = T.couplingGens) : T.SamePairs T' :=
  ⟨hends, he.mapValues_eq hR.records.1 fun hedit => hedit.keptThrough.couplingCount hcouple huncouple, he.recordGens,
    hgens⟩

/-! ### What a coupling keeps of its follower (R123) -/

/-- The coupling is follower-stale exactly while its follower, which stands in this state, is STALE, and then holds neither
a stored command nor an unpaired reversal of it (R123). -/
def Coupling.FollowsAt (state : Lifecycle) (c : Coupling) : Prop :=
  (c.followerStale = true ↔ state = .stale) ∧
  (c.followerStale = true → c.followerCommand = none ∧ c.followerReversal = none)

theorem followersOk_iff {T : Tables} : T.FollowersOk ↔
    ∀ e ∈ T.couplings, ∀ f, Table.get T.records e.2.followerSlot = some f → e.2.FollowsAt f.state := Iff.rfl

theorem followsAt_awake {c : Coupling} {state : Lifecycle} (hc : c.followerStale = false) (hs : state ≠ .stale) :
    c.FollowsAt state := by
  simp [Coupling.FollowsAt, hc, hs]

/-- The members of a coupling and what it holds of its follower stand, but that an unpaired reversal may go. -/
structure Coupling.Held (c c' : Coupling) : Prop where
  lead : c'.lead = c.lead
  follower : c'.follower = c.follower
  followerStale : c'.followerStale = c.followerStale
  followerCommand : c'.followerCommand = c.followerCommand
  followerReversal : c'.followerReversal = c.followerReversal ∨ c'.followerReversal = none

section
variable {c c' c'' : Coupling} {state : Lifecycle}

theorem Coupling.Held.refl (c : Coupling) : c.Held c := ⟨rfl, rfl, rfl, rfl, .inl rfl⟩

theorem Coupling.Held.trans (h : c.Held c') (h' : c'.Held c'') : c.Held c'' :=
  ⟨h'.lead.trans h.lead, h'.follower.trans h.follower, h'.followerStale.trans h.followerStale,
    h'.followerCommand.trans h.followerCommand,
    h'.followerReversal.elim (fun e => h.followerReversal.imp e.trans e.trans) .inr⟩

theorem Coupling.Held.ends (h : c.Held c') : c'.ends = c.ends := ends_eq_iff.mpr ⟨h.lead, h.follower⟩

theorem Coupling.Held.leadSlot (h : c.Held c') : c'.leadSlot = c.leadSlot := (slots_of_ends h.ends).1

theorem Coupling.Held.followerSlot (h : c.Held c') : c'.followerSlot = c.followerSlot := (slots_of_ends h.ends).2

theorem Coupling.Held.followsAt (h : c.Held c') (hc : c.FollowsAt state) : c'.FollowsAt state := by
  obtain ⟨hiff, hnone⟩ := hc
  refine ⟨by rw [h.followerStale, hiff], fun hs => ?_⟩
  rw [h.followerStale] at hs
  obtain ⟨hcommand, hreversal⟩ := hnone hs
  exact ⟨h.followerCommand.trans hcommand, h.followerReversal.elim (·.trans hreversal) id⟩

end

theorem failCalibration_state (clock : Nat) (reason : CalFailure) (r : Record) :
    (r.failCalibration clock reason).state = r.state := by
  unfold Record.failCalibration
  split_ifs <;> rfl

theorem acquitTracker_state (r : Record) (n : Nat) : (r.acquitTracker n).state = r.state := by
  unfold Record.acquitTracker
  split <;> rfl

/-- No command but OBSERVE and the staleness expiry changes a record's lifecycle state (R9 to R13). -/
theorem RecordEdit.state {may : Fin 16 → Prop} {c : Instr} {r r' : Record} (h : RecordEdit may r c r')
    (hobserve : c ≠ .observe) (hexpiry : ∀ slot, c ≠ .stalenessExpiry slot) : r'.state = r.state := by
  cases h with
  | restarted _ clock _ => exact failCalibration_state clock .restart r
  | expired slot clock => exact absurd rfl (hexpiry slot)
  | observed _ _ _ => exact absurd rfl hobserve
  | acquitted n _ => exact acquitTracker_state r n
  | _ => rfl

/-- While the states of the records stand, a coupling of the new table follows its follower if it was held, or if it
follows the follower that stood before. -/
theorem Tables.Edited.followersOk {may : Fin 16 → Prop} {c : Instr} {T T' : Tables} (he : Tables.Edited may c T T')
    (hobserve : c ≠ .observe) (hexpiry : ∀ slot, c ≠ .stalenessExpiry slot) (hT : T.FollowersOk)
    (hc : ∀ e' ∈ T'.couplings, (∃ e ∈ T.couplings, e.2.Held e'.2) ∨
      ∀ f, Table.get T.records e'.2.followerSlot = some f → e'.2.FollowsAt f.state) : T'.FollowersOk := by
  rw [followersOk_iff]
  intro e' he' f' hf'
  obtain ⟨f, hf, hedit⟩ := he.before hf'
  rw [hedit.state hobserve hexpiry]
  obtain ⟨e, hmem, hheld⟩ | hnew := hc e' he'
  · rw [hheld.followerSlot] at hf
    exact hheld.followsAt (followersOk_iff.mp hT e hmem f hf)
  · exact hnew f hf

/-! ### Couplings held through a step -/

/-- The couplings of the tables, as a step keeps them. -/
structure Tables.Coupled (T : Tables) : Prop where
  couplings : T.CouplingsOk
  followers : T.FollowersOk

/-- Every coupling held in its slot. -/
structure Tables.CouplingsHeld (T T' : Tables) : Prop where
  ends : Table.mapValues T'.couplings Coupling.ends = Table.mapValues T.couplings Coupling.ends
  held : ∀ e' ∈ T'.couplings, ∃ e ∈ T.couplings, e.2.Held e'.2
  couplingGens : T'.couplingGens = T.couplingGens

theorem mapValues_ends (t : Table Coupling) {g : Coupling → Coupling} (hg : ∀ c, (g c).ends = c.ends) :
    Table.mapValues (Table.mapValues t g) Coupling.ends = Table.mapValues t Coupling.ends := by
  rw [Table.mapValues_mapValues]
  exact congrArg (Table.mapValues t) (funext hg)

section
variable {T T' : Tables}

theorem Tables.CouplingsHeld.of_same (h : T'.couplings = T.couplings) (hg : T'.couplingGens = T.couplingGens) :
    T.CouplingsHeld T' :=
  ⟨by rw [h], fun e he => ⟨e, h ▸ he, .refl _⟩, hg⟩

theorem Tables.CouplingsHeld.of_replace (hT : T.CouplingsOk) {slot : Nat} {c c' : Coupling}
    (hc : Table.get T.couplings slot = some c) (h : c.Held c') :
    T.CouplingsHeld { T with couplings := Table.replace T.couplings slot c' } where
  ends := Table.mapValues_replace _ _ hT.couplings.1 hc h.ends
  held e he := by
    obtain rfl | ⟨he, -⟩ := Table.mem_replace he
    · exact ⟨_, Table.mem_of_get hc, h⟩
    · exact ⟨e, he, .refl _⟩
  couplingGens := rfl

theorem Tables.CouplingsHeld.of_mapValues {g : Coupling → Coupling} (hc : T'.couplings = Table.mapValues T.couplings g)
    (hgens : T'.couplingGens = T.couplingGens) (hg : ∀ c : Coupling, c.Held (g c)) : T.CouplingsHeld T' where
  ends := by rw [hc, mapValues_ends _ fun c => (hg c).ends]
  held e he := by
    rw [hc] at he
    obtain ⟨c, hmem, heq⟩ := Table.mem_mapValues he
    exact ⟨_, hmem, heq ▸ hg c⟩
  couplingGens := hgens

/-- A command that changes no coupling count and no lifecycle state of a record. -/
structure QuietCommand (c : Instr) : Prop where
  couple : c ≠ .couple
  uncouple : c ≠ .uncouple
  observe : c ≠ .observe
  expiry : ∀ slot, c ≠ .stalenessExpiry slot

theorem Tables.Edited.coupled {may : Fin 16 → Prop} {c : Instr} (he : Tables.Edited may c T T') (hquiet : QuietCommand c)
    (hR : T.RecordsOk) (hT : T.Coupled) (hheld : T.CouplingsHeld T') : T'.Coupled where
  couplings := (he.samePairs hR hquiet.couple hquiet.uncouple hheld.ends hheld.couplingGens).couplingsOk hT.couplings
  followers := he.followersOk hquiet.observe hquiet.expiry hT.followers fun e' he' => .inl (hheld.held e' he')

end

/-! ### The quiet requests (R8, R20, R99, R140) -/

section
variable {f : Frame} {T : Tables} {a : Accepted}

theorem couplingOfHandle_get {n slot : Nat} {c : Coupling} (h : T.couplingOfHandle n = some (slot, c)) :
    Table.get T.couplings slot = some c := by
  obtain ⟨-, -, -, -, hc⟩ := couplingOfHandle_some.mp h
  exact hc

theorem marked_held (c : Coupling) (mark : Option Nat) : c.Held { c with mark := mark } :=
  ⟨rfl, rfl, rfl, rfl, .inl rfl⟩

theorem lookup_coupled (h : lookup f T = .ok a) (hR : T.RecordsOk) (hT : T.Coupled) : a.tables.Coupled := by
  refine (lookup_edited h).coupled ⟨nofun, nofun, nofun, nofun⟩ hR hT ?_
  obtain ⟨q, _, _, ⟨_, slot, r, _, rfl⟩ | ⟨_, slot, c, _, _, hc, rfl⟩⟩ := lookup_ok.mp h
  · unfold lookupRecord
    dsimp only
    split_ifs <;> exact .of_same rfl rfl
  · unfold lookupCoupling
    dsimp only
    split_ifs
    · exact .of_replace hT.couplings (couplingOfHandle_get hc) (marked_held c none)
    · exact .of_same rfl rfl

theorem acquit_coupled (h : acquit f T = .ok a) (hR : T.RecordsOk) (hT : T.Coupled) : a.tables.Coupled := by
  refine (acquit_edited h).coupled ⟨nofun, nofun, nofun, nofun⟩ hR hT ?_
  obtain ⟨q, _, ⟨_, h⟩ | ⟨n, _, _, h⟩⟩ := acquit_ok.mp h
  · obtain ⟨slot, r, before, _, _, _, _, _, rfl⟩ := acquitRecord_ok.mp h
    exact .of_same rfl rfl
  · obtain ⟨slot, c, hc, _, _, rfl⟩ := acquitCoupling_ok.mp h
    exact .of_replace hT.couplings (couplingOfHandle_get hc) ⟨rfl, rfl, rfl, rfl, .inl rfl⟩

theorem amend_coupled (h : amend f T = .ok a) (hR : T.RecordsOk) (hT : T.Coupled) : a.tables.Coupled := by
  refine (amend_edited h).coupled ⟨nofun, nofun, nofun, nofun⟩ hR hT ?_
  obtain ⟨q, slot, r, z, _, _, _, _, _, _, _, rfl⟩ := amend_ok.mp h
  exact .of_same rfl rfl

theorem calibrate_coupled (h : calibrate f T = .ok a) (hR : T.RecordsOk) (hT : T.Coupled) : a.tables.Coupled := by
  refine (calibrate_edited h).coupled ⟨nofun, nofun, nofun, nofun⟩ hR hT ?_
  obtain ⟨q, slot, r, _, _, _, _, _, _, _, _, _, rfl⟩ := calibrate_ok.mp h
  exact .of_same rfl rfl

end

/-- Tables whose records, couplings and generations all stand. -/
theorem coupled_of_standing {T T' : Tables} (hR : T.RecordsOk) (hT : T.Coupled) (hrecords : T'.records = T.records)
    (hdirectory : T'.directory = T.directory) (hgens : T'.recordGens = T.recordGens) (hc : T'.couplings = T.couplings)
    (hcgens : T'.couplingGens = T.couplingGens) : T'.Coupled :=
  (Tables.Edited.of_records (may := fun _ => True) (c := .clockTick) hrecords hdirectory hgens).coupled
    ⟨nofun, nofun, nofun, nofun⟩ hR hT (.of_same hc hcgens)

/-- A warm restart removes the unpaired reversals and leaves the follower-stale state (R126). -/
theorem warmRestart_coupled {T : Tables} (hR : T.RecordsOk) (hT : T.Coupled) : T.warmRestart.Coupled :=
  (warmRestart_edited (may := fun _ => True) (.inl rfl)).coupled ⟨nofun, nofun, nofun, nofun⟩ hR hT
    (.of_mapValues rfl rfl fun _ => ⟨rfl, rfl, rfl, rfl, .inr rfl⟩)

/-! ### Samples and the staleness expiry (R66, R118, R123, R124) -/

/-- What a change of the record in a slot, which leaves it in this state, makes of a coupling: the members stand; what is
held of another follower stands; and where the record is its follower and not its lead, the coupling follows it. -/
structure Coupling.ChangedAt (slot : Nat) (state : Lifecycle) (c c' : Coupling) : Prop where
  ends : c'.ends = c.ends
  other : c.followerSlot ≠ slot → c.Held c'
  own : c.leadSlot ≠ c.followerSlot → c.followerSlot = slot → c'.FollowsAt state

section
variable {slot : Nat} {state : Lifecycle} {c c' c'' : Coupling}

theorem Coupling.Held.changedAt (h : c.Held c') (h' : c'.ChangedAt slot state c'') :
    c.ChangedAt slot state c'' where
  ends := h'.ends.trans h.ends
  other hne := h.trans (h'.other (by rwa [h.followerSlot]))
  own hne hslot := h'.own (by rwa [h.leadSlot, h.followerSlot]) (h.followerSlot.trans hslot)

theorem takeSample_lead_held (reopening : Bool) (x : Sample) (turn : Option Direction) (c : Coupling) :
    c.Held (c.takeSample .lead reopening x turn) := by
  have hreopen : c.Held (c.reopen .lead reopening) := by
    cases reopening
    · exact .refl c
    · exact ⟨rfl, rfl, rfl, rfl, .inr rfl⟩
  have hoverlap (d : Coupling) : d.Held (d.overlapStep .lead x.time x.command) := by
    rw [overlapStep_lead]
    exact ⟨rfl, rfl, rfl, rfl, .inl rfl⟩
  have hantiphase (d : Coupling) (u : Direction) : d.Held (d.antiphaseStep .lead x.time u) := by
    unfold Coupling.antiphaseStep
    dsimp only
    split_ifs
    · exact ⟨rfl, rfl, rfl, rfl, .inr rfl⟩
    · exact ⟨rfl, rfl, rfl, rfl, .inl rfl⟩
  cases turn with
  | none => exact hreopen.trans (hoverlap _)
  | some u => exact (hreopen.trans (hoverlap _)).trans (hantiphase _ u)

theorem takeSample_follower_followerStale (reopening : Bool) (x : Sample) (turn : Option Direction) (c : Coupling) :
    (c.takeSample .follower reopening x turn).followerStale = false := by
  have hoverlap : ((c.reopen .follower reopening).overlapStep .follower x.time x.command).followerStale = false := by
    rw [overlapStep_follower]
    rfl
  cases turn with
  | none => exact hoverlap
  | some u =>
    rw [← hoverlap]
    dsimp only [Coupling.takeSample, Coupling.antiphaseStep]
    split_ifs <;> rfl

/-- Stage 4 at one coupling, the sample leaving its record in a state other than STALE (R118, R123). -/
theorem memberSample_changedAt (reopening : Bool) (x : Sample) (turn : Option Direction) (hs : state ≠ .stale) :
    c.ChangedAt slot state (c.memberSample slot reopening x turn) where
  ends := by
    have hpair := memberSample_pair slot reopening x turn c
    exact ends_eq_iff.mpr ⟨hpair.lead, hpair.follower⟩
  other hfollower := by
    by_cases hlead : c.leadSlot = slot
    · rw [memberSample_lead hlead]
      exact takeSample_lead_held reopening x turn c
    · rw [memberSample_unnamed (names_eq_false_iff.mpr ⟨hlead, hfollower⟩)]
      exact .refl c
  own hne hfollower := by
    rw [memberSample_follower (hfollower ▸ hne) hfollower]
    exact followsAt_awake (takeSample_follower_followerStale reopening x turn c) hs

theorem memberExpiry_changedAt : c.ChangedAt slot .stale (c.memberExpiry slot) where
  ends := by
    unfold Coupling.memberExpiry
    split_ifs <;> rfl
  other hfollower := by
    unfold Coupling.memberExpiry
    rw [if_neg hfollower]
    split_ifs
    · exact ⟨rfl, rfl, rfl, rfl, .inr rfl⟩
    · exact .refl c
  own hne hfollower := by
    unfold Coupling.memberExpiry
    rw [if_neg (hfollower ▸ hne), if_pos hfollower]
    exact ⟨⟨fun _ => rfl, fun _ => rfl⟩, fun _ => ⟨rfl, rfl⟩⟩

end

/-- Every coupling has two distinct members. -/
def Tables.MembersDistinct (T : Tables) : Prop := ∀ e ∈ T.couplings, e.2.leadSlot ≠ e.2.followerSlot

section
variable {T T' : Tables} {slot : Nat} {r' : Record} {g : Coupling → Coupling}

/-- The couplings follow their followers through a change of one record. -/
theorem followersOk_changedAt (hT : T.FollowersOk) (hd : T.MembersDistinct)
    (hothers : ∀ j, j ≠ slot → Table.get T'.records j = Table.get T.records j)
    (hslot : Table.get T'.records slot = some r') (hc : T'.couplings = Table.mapValues T.couplings g)
    (hg : ∀ c : Coupling, c.ChangedAt slot r'.state (g c)) : T'.FollowersOk ∧ T'.MembersDistinct := by
  have old {e : Nat × Coupling} (he : e ∈ T'.couplings) : ∃ c, (e.1, c) ∈ T.couplings ∧ c.ChangedAt slot r'.state e.2 ∧
      e.2.leadSlot = c.leadSlot ∧ e.2.followerSlot = c.followerSlot := by
    rw [hc] at he
    obtain ⟨c, hmem, heq⟩ := Table.mem_mapValues he
    have hchanged : c.ChangedAt slot r'.state e.2 := heq ▸ hg c
    exact ⟨c, hmem, hchanged, slots_of_ends hchanged.ends⟩
  refine ⟨followersOk_iff.mpr fun e he f hf => ?_, fun e he => ?_⟩
  · obtain ⟨c, hmem, hchanged, -, hfollower⟩ := old he
    rw [hfollower] at hf
    by_cases hown : c.followerSlot = slot
    · rw [hown, hslot] at hf
      cases hf
      exact hchanged.own (hd _ hmem) hown
    · rw [hothers _ hown] at hf
      exact (hchanged.other hown).followsAt (followersOk_iff.mp hT _ hmem f hf)
  · obtain ⟨c, hmem, -, hlead, hfollower⟩ := old he
    rw [hlead, hfollower]
    exact hd _ hmem

end

/-- Stage 1 leaves no record STALE (R13, R36). -/
theorem stageWindow_not_stale (T : Tables) (x : Sample) (r : Record) : (T.stageWindow x r).state ≠ .stale := by
  unfold Tables.stageWindow
  dsimp only
  split_ifs with hs
  · simp only [Record.openWindow, Record.marked, Record.leaveStale]
    split_ifs <;> decide
  · split
    · exact hs
    · split
      · exact hs
      · rename_i w _
        refine fun h => hs ?_
        have h := (latch_stale _ _).mp h
        rw [settleStep_eq] at h
        dsimp only at h
        split_ifs at h
        obtain ⟨-, -, -, hstate⟩ :=
          evaluateWindow_settling T.clock (T.profile r.activeBank.profile) T.zones[r.zone].mode w r
        exact hstate.symm.trans h

theorem sampledRecord_not_stale (T : Tables) (x : Sample) (r : Record) : (T.sampledRecord x r).state ≠ .stale := by
  obtain ⟨_, _, _, h2⟩ := stageWatch_writes x (T.stageWindow x r)
  obtain ⟨_, _, h3⟩ := stageAccumulate_writes x ((T.stageWindow x r).stageWatch x)
  obtain ⟨_, _, _, h5, -⟩ := stageCalibration_writes T.clock x
    ((((T.stageWindow x r).stageWatch x).stageAccumulate x).stageReversal x)
  have hstate : (T.sampledRecord x r).state = (T.stageWindow x r).state := by
    unfold Tables.sampledRecord Record.stageLast
    rw [h5]
    unfold Record.stageReversal
    rw [h3, h2]
  rw [hstate]
  exact stageWindow_not_stale T x r

theorem evaluateFight_held (T : Tables) (lead : Record) (w : Window) (c : Coupling) :
    c.Held (T.evaluateFight lead w c) := by
  rw [evaluateFight_eq]
  exact ⟨rfl, rfl, rfl, rfl, .inl rfl⟩

/-- The evaluations of a close hold every coupling. -/
theorem stageFights_held (T : Tables) (slot : Nat) (x : Sample) (r : Record) :
    ∃ g : Coupling → Coupling, (∀ c : Coupling, c.Held (g c)) ∧
      T.stageFights slot x r = Table.mapValues T.couplings g := by
  unfold Tables.stageFights
  split
  · exact ⟨id, Coupling.Held.refl, by simp [Table.mapValues]⟩
  · refine ⟨_, fun c => ?_, rfl⟩
    split_ifs
    · exact evaluateFight_held _ _ _ c
    · exact .refl c

theorem applySample_followersOk {T : Tables} {slot : Nat} {r : Record} (x : Sample) (hT : T.FollowersOk)
    (hd : T.MembersDistinct) (hr : Table.get T.records slot = some r) :
    (T.applySample slot r x).FollowersOk ∧ (T.applySample slot r x).MembersDistinct := by
  obtain ⟨g, hg, hfights⟩ := stageFights_held T slot x r
  obtain ⟨reopening, turn, hc⟩ : ∃ reopening turn, (T.applySample slot r x).couplings =
      Table.mapValues T.couplings fun c => (g c).memberSample slot reopening x turn := by
    rw [Tables.applySample, Tables.sampledCouplings, hfights, Table.mapValues_mapValues]
    exact ⟨_, _, rfl⟩
  exact followersOk_changedAt hT hd (fun j hj => Table.get_replace_ne _ _ hj) (Table.get_replace_self _ hr) hc fun c =>
    (hg c).changedAt (memberSample_changedAt reopening x turn (sampledRecord_not_stale T x r))

theorem Tables.CouplingsOk.distinct {T : Tables} (h : T.CouplingsOk) : T.MembersDistinct :=
  fun e he => (h.members e he).1

section
variable {f : Frame} {T : Tables} {a : Accepted}

theorem observe_coupled (h : observe f T = .ok a) (hR : T.RecordsOk) (hT : T.Coupled) : a.tables.Coupled := by
  have hedited := observe_edited h
  obtain ⟨q, slot, r, _, hr, _, _, _, rfl⟩ := observe_ok.mp h
  have hat := applySamples_at T slot q.samples
  obtain ⟨g, hg, hc⟩ := hat.couplings
  refine ⟨(hedited.samePairs hR nofun nofun ?_ hat.couplingGens).couplingsOk hT.couplings, ?_⟩
  · dsimp only
    rw [hc, mapValues_ends _ fun c => ends_eq_iff.mpr ⟨(hg c).lead, (hg c).follower⟩]
  · exact (applySamples_induct (P := fun U => U.FollowersOk ∧ U.MembersDistinct) q.samples
      ⟨hT.followers, hT.couplings.distinct⟩
      fun U r x hU hr _ => applySample_followersOk x.condition hU.1 hU.2 hr).1

theorem expire_coupled {slot : Nat} {r : Record} (hr : Table.get T.records slot = some r) (hR : T.RecordsOk)
    (hT : T.Coupled) : (T.expire slot r).Coupled := by
  have hchanged (c : Coupling) : c.ChangedAt slot .stale (c.memberExpiry slot) := memberExpiry_changedAt
  have hpairs := (expire_edited (may := fun _ => True) hr).samePairs hR nofun nofun
    (mapValues_ends _ fun c => (hchanged c).ends) rfl
  refine ⟨hpairs.couplingsOk hT.couplings, ?_⟩
  exact (followersOk_changedAt hT.followers hT.couplings.distinct
    (fun j hj => Table.get_replace_ne _ _ hj) (Table.get_replace_self _ hr) rfl hchanged).1

/-! ### DEFINE and RETIRE: a slot no coupling names (R3, R23, R107) -/

/-- No coupling names the record in a slot. -/
def Tables.Unnamed (T : Tables) (slot : Nat) : Prop := ∀ e ∈ T.couplings, e.2.names slot = false

theorem couplingsNaming_eq_zero {slot : Nat} : T.couplingsNaming slot = 0 ↔ T.Unnamed slot := by
  simp [Tables.couplingsNaming, Tables.Unnamed]

theorem unnamed_of_empty {slot : Nat} (hT : T.CouplingsOk) (h : Table.get T.records slot = none) : T.Unnamed slot := by
  intro e he
  obtain ⟨-, -, -, hlead, hfollower⟩ := hT.members e he
  refine names_eq_false_iff.mpr ⟨?_, ?_⟩ <;> rintro rfl
  · rw [h] at hlead
    cases hlead
  · rw [h] at hfollower
    cases hfollower

/-- What a change of a slot that no coupling names leaves, where it brings no record but one with coupling count 0. -/
theorem coupled_of_unnamed {T' : Tables} {slot : Nat} (hT : T.Coupled) (hR' : T'.RecordsOk) (hfree : T.Unnamed slot)
    (hothers : ∀ j, j ≠ slot → Table.get T'.records j = Table.get T.records j)
    (hgens : ∀ j, j ≠ slot → generationOf T'.recordGens j = generationOf T.recordGens j)
    (hc : T'.couplings = T.couplings) (hcgens : T'.couplingGens = T.couplingGens)
    (hnew : ∀ r, Table.get T'.records slot = some r → r.couplingCount = 0) : T'.Coupled := by
  have named {e : Nat × Coupling} (he : e ∈ T.couplings) : e.2.leadSlot ≠ slot ∧ e.2.followerSlot ≠ slot :=
    names_eq_false_iff.mp (hfree e he)
  have hnaming (j : Nat) : T'.couplingsNaming j = T.couplingsNaming j := by rw [Tables.couplingsNaming, hc]; rfl
  refine ⟨⟨hc ▸ hT.couplings.couplings, hcgens ▸ hT.couplings.generations, fun e he => ?_, hc ▸ hT.couplings.pairs,
    fun e he => ?_⟩, followersOk_iff.mpr fun e he q hq => ?_⟩
  · rw [hc] at he
    obtain ⟨hlead, hfollower⟩ := named he
    simp only [Tables.recordHandle, hgens _ hlead, hgens _ hfollower, hothers _ hlead, hothers _ hfollower]
    exact hT.couplings.members e he
  · have hget := Table.get_of_mem hR'.records.1 he
    rw [hnaming]
    by_cases hslot : e.1 = slot
    · rw [hslot] at hget ⊢
      rw [hnew _ hget, couplingsNaming_eq_zero.mpr hfree]
      exact ⟨rfl, Nat.zero_le _⟩
    · rw [hothers _ hslot] at hget
      exact hT.couplings.counts _ (Table.mem_of_get hget)
  · rw [hc] at he
    rw [hothers _ (named he).2] at hq
    exact followersOk_iff.mp hT.followers e he q hq

theorem define_coupled (h : define f T = .ok a) (hR : T.RecordsOk) (hT : T.Coupled) : a.tables.Coupled := by
  have hR' := define_recordsOk h hR
  obtain ⟨q, key, zone, sense, slot, _, _, _, _, _, _, _, hslot, rfl⟩ := define_ok.mp h
  refine coupled_of_unnamed hT hR' (unnamed_of_empty hT.couplings (Table.lowestFree_some hslot).2.1)
    (fun j hj => Table.get_put_ne _ _ hj) (fun _ _ => rfl) rfl rfl fun r hr => ?_
  cases (Table.get_put_self _ _ _).symm.trans hr
  rfl

theorem retire_coupled (h : retire f T = .ok a) (hR : T.RecordsOk) (hT : T.Coupled) : a.tables.Coupled := by
  have hR' := retire_recordsOk h hR
  obtain ⟨q, slot, r, _, hr, _, _, hcount, rfl⟩ := retire_ok.mp h
  have hfree : T.Unnamed slot := couplingsNaming_eq_zero.mp
    ((hT.couplings.counts _ (Table.mem_of_get (resolveRecord_get hr))).1.symm.trans hcount)
  refine coupled_of_unnamed hT hR' hfree (fun j hj => Table.get_erase_ne _ hj)
    (fun j hj => generationOf_advance_ne _ hj) rfl rfl fun r hr => ?_
  cases (Table.get_erase_self _ _).symm.trans hr

end

end Sys2Proof.Machine
end

section
/-! SUPPORT. COUPLE and UNCOUPLE keep the couplings, and with them every step does. -/

namespace Sys2Proof.Machine

/-! ### One coupling more, one fewer (R113) -/

/-- Emptying an occupied slot lists one entry fewer. -/
theorem Table.erase_perm {α : Type} {t : Table α} {i : Nat} {v : α} (hs : (t.map Prod.fst).Pairwise (· < ·))
    (h : Table.get t i = some v) : t.Perm ((i, v) :: Table.erase t i) := by
  induction t with
  | nil => cases h
  | cons e rest ih =>
    obtain ⟨habove, hrest⟩ := List.pairwise_cons.mp hs
    simp only [Table.get] at h
    by_cases he : e.1 = i
    · rw [if_pos he] at h
      have hentry : e = (i, v) := Prod.ext he (Option.some.inj h)
      have hkept : Table.erase (e :: rest) i = rest := by
        rw [Table.erase, List.filter_cons_of_neg (by simp [he]), List.filter_eq_self]
        intro d hd
        have := habove d.1 (List.mem_map_of_mem hd)
        simp only [decide_eq_true_eq]
        omega
      rw [hkept, hentry]
    · rw [if_neg he] at h
      have hkept : Table.erase (e :: rest) i = e :: Table.erase rest i := List.filter_cons_of_pos (by simp [he])
      rw [hkept]
      exact ((ih hrest h).cons e).trans (List.Perm.swap _ _ _)

theorem couplingsNaming_of_perm {T T' : Tables} {slot : Nat} {c : Coupling}
    (h : T'.couplings.Perm ((slot, c) :: T.couplings)) (j : Nat) :
    T'.couplingsNaming j = T.couplingsNaming j + if c.names j = true then 1 else 0 := by
  unfold Tables.couplingsNaming
  rw [(h.filter _).length_eq, List.filter_cons]
  split_ifs <;> simp

/-- The record an edit of two slots leaves, by the record that stood. -/
theorem modifyRecord_pair_before {T : Tables} {a b j : Nat} {f : Record → Record} {r' : Record} (hne : a ≠ b)
    (h : Table.get ((T.modifyRecord a f).modifyRecord b f).records j = some r') :
    ∃ r, Table.get T.records j = some r ∧ r' = if j = a ∨ j = b then f r else r := by
  rw [modifyRecord_pair_get T hne] at h
  split_ifs at h ⊢
  · obtain ⟨r, hr, rfl⟩ := Option.map_eq_some_iff.mp h
    exact ⟨r, hr, rfl⟩
  · exact ⟨r', h, rfl⟩

theorem modifyRecord_pair_isSome (T : Tables) (a b j : Nat) (f : Record → Record) :
    (Table.get ((T.modifyRecord a f).modifyRecord b f).records j).isSome = (Table.get T.records j).isSome := by
  rw [Bool.eq_iff_iff, Table.get_isSome_iff, Table.get_isSome_iff, modifyRecord_slots, modifyRecord_slots]

section
variable {T : Tables} {slot : Nat} {c : Coupling}

/-- A coupling of a pair no coupling names keeps the pairs apart (R111). -/
theorem pairs_put (hT : T.CouplingsOk)
    (hfresh : ∀ e ∈ T.couplings, ¬ (e.2.names c.leadSlot = true ∧ e.2.names c.followerSlot = true)) :
    ∀ e ∈ Table.put T.couplings slot c, ∀ d ∈ Table.put T.couplings slot c, e.1 ≠ d.1 →
      ¬ (d.2.names e.2.leadSlot = true ∧ d.2.names e.2.followerSlot = true) := by
  intro e he d hd hed
  obtain rfl | he := Table.mem_put he <;> obtain rfl | hd := Table.mem_put hd
  · exact absurd rfl hed
  · exact hfresh d hd
  · have hdistinct := hT.distinct e he
    have hfresh := hfresh e he
    simp only [names_iff] at hfresh ⊢
    omega
  · exact hT.pairs e he d hd hed

/-- The counts of a coupling's members rise with the coupling (R113). -/
theorem counts_put (hT : T.CouplingsOk) (hne : c.leadSlot ≠ c.followerSlot) (hempty : Table.get T.couplings slot = none)
    (hlow : ∀ k r, c.names k = true → Table.get T.records k = some r → r.couplingCount < 4) {k : Nat} {r' : Record}
    (hr' : Table.get ((T.modifyRecord c.leadSlot Record.raiseCount).modifyRecord c.followerSlot
      Record.raiseCount).records k = some r') :
    r'.couplingCount = Tables.couplingsNaming { T with couplings := Table.put T.couplings slot c } k ∧
    r'.couplingCount ≤ 4 := by
  obtain ⟨r, hr, rfl⟩ := modifyRecord_pair_before hne hr'
  obtain ⟨hcount, hle⟩ : r.couplingCount = T.couplingsNaming k ∧ r.couplingCount ≤ 4 := hT.counts _ (Table.mem_of_get hr)
  rw [couplingsNaming_of_perm (T := T) (Table.put_perm c hempty)]
  simp only [← names_iff]
  split_ifs with hnamed
  · exact ⟨congrArg (· + 1) hcount, hlow k r hnamed hr⟩
  · exact ⟨hcount, hle⟩

/-- The counts of a coupling's members fall with the coupling (R113). -/
theorem counts_erase (hT : T.CouplingsOk) (hc : Table.get T.couplings slot = some c) {k : Nat} {r' : Record}
    (hr' : Table.get ((T.modifyRecord c.leadSlot Record.lowerCount).modifyRecord c.followerSlot
      Record.lowerCount).records k = some r') :
    r'.couplingCount = Tables.couplingsNaming { T with couplings := Table.erase T.couplings slot } k ∧
    r'.couplingCount ≤ 4 := by
  obtain ⟨r, hr, rfl⟩ := modifyRecord_pair_before (hT.distinct _ (Table.mem_of_get hc)) hr'
  obtain ⟨hcount, hle⟩ : r.couplingCount = T.couplingsNaming k ∧ r.couplingCount ≤ 4 := hT.counts _ (Table.mem_of_get hr)
  have hnaming : T.couplingsNaming k =
      Tables.couplingsNaming { T with couplings := Table.erase T.couplings slot } k +
        if c.names k = true then 1 else 0 := couplingsNaming_of_perm (Table.erase_perm hT.couplings.1 hc) k
  simp only [← names_iff]
  split_ifs at hnaming ⊢
  · simp only [Record.lowerCount]
    omega
  · omega

end

/-! ### COUPLE (R107 to R113) -/

section
variable {f : Frame} {T : Tables} {a : Accepted}

theorem newCoupling_slots (hT : T.RecordsOk) (i j : Nat) (params : CouplingParams) (stale : Bool) :
    (newCoupling (T.recordHandle i) (T.recordHandle j) params stale).leadSlot = i ∧
    (newCoupling (T.recordHandle i) (T.recordHandle j) params stale).followerSlot = j :=
  ⟨recordSlotOf_recordHandle (generationOf_lt hT.generations i),
    recordSlotOf_recordHandle (generationOf_lt hT.generations j)⟩

theorem couple_couplingsOk (h : couple f T = .ok a) (hR : T.RecordsOk) (hT : T.CouplingsOk) : a.tables.CouplingsOk := by
  have hR' := (couple_edited h).recordsOk hR
  obtain ⟨q, i, lead, j, follower, slot, _, hi, hj, hne, _, _, hfresh, ⟨hleadCount, hfollowerCount⟩, hslot, rfl⟩ :=
    couple_ok.mp h
  have hlead := resolveRecord_get hi
  have hfollower := resolveRecord_get hj
  obtain ⟨hlt, hempty, -⟩ := Table.lowestFree_some hslot
  have hfresh := (coupled_eq_false_iff hne).mp hfresh
  have hslots := newCoupling_slots hR i j (q.params.getD CouplingParams.default) (follower.state == .stale)
  dsimp only at hR' ⊢
  generalize hc : newCoupling (T.recordHandle i) (T.recordHandle j) (q.params.getD CouplingParams.default)
    (follower.state == .stale) = c at hslots ⊢
  obtain ⟨rfl, rfl⟩ := hslots
  have hlow (k : Nat) (r : Record) (hk : c.names k = true) (hr : Table.get T.records k = some r) :
      r.couplingCount < 4 := by
    obtain rfl | rfl := names_iff.mp hk
    · cases hlead.symm.trans hr
      exact hleadCount
    · cases hfollower.symm.trans hr
      exact hfollowerCount
  refine ⟨Table.wf_put hT.couplings hlt c, hT.generations, fun e he => ?_, pairs_put hT hfresh,
    fun e he => counts_put hT hne hempty hlow (Table.get_of_mem hR'.records.1 he)⟩
  simp only [modifyRecord_pair_isSome]
  obtain rfl | he := Table.mem_put he
  · rw [hlead, hfollower]
    exact ⟨hne, congrArg Coupling.lead hc.symm, congrArg Coupling.follower hc.symm, rfl, rfl⟩
  · exact hT.members e he

theorem couple_followersOk (h : couple f T = .ok a) (hR : T.RecordsOk) (hT : T.FollowersOk) : a.tables.FollowersOk := by
  refine (couple_edited h).followersOk nofun nofun hT fun e he => ?_
  obtain ⟨q, i, lead, j, follower, slot, _, _, hj, _, _, _, _, _, _, rfl⟩ := couple_ok.mp h
  obtain rfl | he := Table.mem_put he
  · refine .inr fun r hr => ?_
    dsimp only at hr ⊢
    rw [(newCoupling_slots hR i j _ _).2, resolveRecord_get hj] at hr
    cases hr
    exact ⟨beq_iff_eq, fun _ => ⟨rfl, rfl⟩⟩
  · exact .inl ⟨e, he, .refl _⟩

/-! ### UNCOUPLE (R108, R113 to R115) -/

theorem uncouple_couplingsOk (h : uncouple f T = .ok a) (hR : T.RecordsOk) (hT : T.CouplingsOk) :
    a.tables.CouplingsOk := by
  have hR' := (uncouple_edited h).recordsOk hR
  obtain ⟨n, slot, c, _, hres, _, rfl⟩ := uncouple_ok.mp h
  have hc := couplingOfHandle_get hres
  have hslot : slot < 256 := hT.couplings.2 _ (Table.mem_of_get hc)
  have old {e : Nat × Coupling} (he : e ∈ Table.erase T.couplings slot) : e ∈ T.couplings := (Table.mem_erase.mp he).1
  refine ⟨Table.wf_erase hT.couplings slot, generationsOk_advance hT.generations hslot, fun e he => ?_,
    fun e he d hd => hT.pairs e (old he) d (old hd), fun e he => counts_erase hT hc (Table.get_of_mem hR'.records.1 he)⟩
  simp only [modifyRecord_pair_isSome]
  exact hT.members e (old he)

theorem uncouple_followersOk (h : uncouple f T = .ok a) (hT : T.FollowersOk) : a.tables.FollowersOk := by
  refine (uncouple_edited h).followersOk nofun nofun hT fun e he => ?_
  obtain ⟨n, slot, c, _, _, _, rfl⟩ := uncouple_ok.mp h
  exact .inl ⟨e, (Table.mem_erase.mp he).1, .refl _⟩

end

/-! ### Every step -/

/-- Every change of the tables keeps the couplings. -/
theorem tablesChange_coupled {T T' : Tables} (h : TablesChange T T') (hR : T.RecordsOk) (hT : T.Coupled) :
    T'.Coupled := by
  cases h with
  | powerOn => exact ⟨reset_couplingsOk, fun _ h => (nomatch h)⟩
  | same => exact hT
  | tick => exact coupled_of_standing hR hT rfl rfl rfl rfl rfl
  | warmRestart => exact warmRestart_coupled hR hT
  | expiry slot r hr _ => exact expire_coupled hr hR hT
  | define f a h => exact define_coupled h hR hT
  | lookup f a h => exact lookup_coupled h hR hT
  | amend f a h => exact amend_coupled h hR hT
  | retire f a h => exact retire_coupled h hR hT
  | observe f a h => exact observe_coupled h hR hT
  | calibrate f a h => exact calibrate_coupled h hR hT
  | acquit f a h => exact acquit_coupled h hR hT
  | couple f a h => exact ⟨couple_couplingsOk h hR hT.couplings, couple_followersOk h hR hT.followers⟩
  | uncouple f a h => exact ⟨uncouple_couplingsOk h hR hT.couplings, uncouple_followersOk h hT.followers⟩
  | zoneSet f a h =>
    obtain ⟨_, _, _, _, _, _, _, rfl⟩ := zoneSet_ok.mp h
    exact coupled_of_standing hR hT rfl rfl rfl rfl rfl
  | profileSet f a h =>
    obtain ⟨_, _, _, _, rfl⟩ := profileSet_ok.mp h
    exact coupled_of_standing hR hT rfl rfl rfl rfl rfl
  | setTime f a h =>
    obtain ⟨_, _, _, rfl⟩ := setTime_ok.mp h
    exact coupled_of_standing hR hT rfl rfl rfl rfl rfl

/-- Settles O56: COUPLE adds a coupling and raises the two counts, UNCOUPLE takes one away and lowers them, a record comes
or goes only where no coupling names its slot, and a follower's state changes together with what its couplings hold of
it. -/
theorem couplingsKept : Obligations.CouplingsKept := by
  intro s t hrecords hcouplings hfollowers hstep
  obtain ⟨hc, hf⟩ := tablesChange_coupled (step_tables hstep) hrecords ⟨hcouplings, hfollowers⟩
  exact ⟨hc, hf⟩

end Sys2Proof.Machine
end

section
/-! SUPPORT. The verdict unit: one update of a tracker, and PROFILE_SET. -/

namespace Sys2Proof.Machine

/-! ### The rise and drop tests (R130 to R132) -/

/-- A level stands above the current verdict and the score meets its on-threshold (R130). -/
abbrev Profile.Meets (p : Profile) (score : Nat) (current v : Verdict) : Prop :=
  current.level < v.level ∧ p.on v ≤ score

section
variable {p : Profile} {score : Nat} {v u : Verdict}

/-- The rise test asks the levels from the highest down. -/
theorem riseTo_eq : riseTo p score v =
    if p.Meets score v .confirmed then some .confirmed
    else if p.Meets score v .suspect then some .suspect
    else if p.Meets score v .watch then some .watch else none := rfl

/-- The rise test finds nothing exactly where no level is met. -/
theorem riseTo_eq_none_iff : riseTo p score v = none ↔ ∀ u, ¬ p.Meets score v u := by
  refine ⟨fun h u hu => ?_, fun h => ?_⟩
  · rw [riseTo_eq] at h
    split_ifs at h with hconfirmed hsuspect hwatch
    cases u with
    | clear => exact Nat.not_lt_zero _ hu.1
    | watch => exact hwatch hu
    | suspect => exact hsuspect hu
    | confirmed => exact hconfirmed hu
  · rw [riseTo_eq, if_neg (h .confirmed), if_neg (h .suspect), if_neg (h .watch)]

/-- The rise test finds a level that is met, and of these the highest. -/
theorem riseTo_highest (h : riseTo p score v = some u) :
    p.Meets score v u ∧ ∀ w, p.Meets score v w → w.level ≤ u.level := by
  rw [riseTo_eq] at h
  split_ifs at h with hconfirmed hsuspect hwatch <;> cases h
  · exact ⟨hconfirmed, fun w _ => by cases w <;> decide⟩
  · refine ⟨hsuspect, fun w hw => ?_⟩
    cases w with
    | confirmed => exact absurd hw hconfirmed
    | _ => decide
  · refine ⟨hwatch, fun w hw => ?_⟩
    cases w with
    | confirmed => exact absurd hw hconfirmed
    | suspect => exact absurd hw hsuspect
    | _ => decide

/-- No level stands above CONFIRMED. -/
theorem riseTo_confirmed : riseTo p score .confirmed = none :=
  riseTo_eq_none_iff.mpr fun u hu => by
    have habove : 3 < u.level := hu.1
    cases u <;> exact absurd habove (by decide)

/-- The drop test from SUSPECT, from the level that stands down to CLEAR (R131). -/
theorem dropFrom_suspect : dropFrom p score .suspect =
    if p.onSuspect - p.hyst ≤ score then .suspect
    else if p.onWatch - p.hyst ≤ score then .watch else .clear := by
  simp only [dropFrom, ← Nat.not_lt, ite_not]

end

/-! ### One update of a tracker (R129 to R133) -/

section
variable (p : Profile) (t : Tracker)

theorem update_evidence_score :
    (t.update p .evidence).score = if t.score + p.rise ≤ 255 then t.score + p.rise else 255 := by
  change min 255 (t.score + p.rise) = _
  rw [min_comm, min_def]

theorem update_clean_score : (t.update p .clean).score = if p.fall ≤ t.score then t.score - p.fall else 0 := by
  change t.score - p.fall = _
  split_ifs <;> omega

variable {p t}

/-- The verdict after an update that is not neutral: the rise test, and where it finds nothing the drop test. -/
theorem update_verdict {e : Evidence} (he : e ≠ .neutral) :
    (t.update p e).verdict =
      (riseTo p (t.update p e).score t.verdict).getD (dropFrom p (t.update p e).score t.verdict) := by
  cases e with
  | neutral => exact absurd rfl he
  | evidence | clean => rfl

end

/-- Settles O51, by whether the rise test finds a level. -/
theorem trackerUpdates : Obligations.TrackerUpdates := by
  intro p t
  refine ⟨rfl, update_evidence_score p t, update_clean_score p t, fun e he => ?_⟩
  intro score after meets
  have hafter : after = (riseTo p score t.verdict).getD (dropFrom p score t.verdict) := update_verdict he
  cases hrise : riseTo p score t.verdict with
  | some u =>
    obtain ⟨hmet, hhighest⟩ := riseTo_highest hrise
    rw [hafter, hrise]
    exact ⟨fun _ => ⟨hmet, hhighest⟩, fun hnone => absurd hmet (hnone u)⟩
  | none =>
    have hdrop : after = dropFrom p score t.verdict := by rw [hafter, hrise]; rfl
    refine ⟨fun ⟨v, hv⟩ => absurd hv (riseTo_eq_none_iff.mp hrise v), fun _ => ⟨?_, ?_, ?_, ?_⟩⟩ <;>
      intro hcurrent <;> rw [hdrop, hcurrent]
    · rfl
    · rfl
    · exact dropFrom_suspect
    · rfl

/-! ### PROFILE_SET (R135 to R137) -/

/-- Settles O35, by the body's layout, the requester and the four conditions of R135. -/
theorem profileSetCompletes : Obligations.ProfileSetCompletes := by
  intro s p f hs hf
  have refuses {e : Completion} (hrun : profileSet f s.tables = refuse e) : s.Refuses .profileSet p f e :=
    refuses_of_refuse (fun _ => rfl) hs hf hrun
  refine ⟨fun hnone => refuses ?_, fun q hread => ?_⟩
  · rw [profileSet, hnone, parsed_none, refuse_bind]
  · intro meets values
    have hvalid : q.Valid ↔ meets := by simp only [Profile.Valid, meets, and_assoc]
    refine ⟨fun hno => refuses ?_, fun hadmin hbad => refuses ?_, fun hadmin hmeets => ?_⟩
    · simp only [profileSet, hread, parsed_some, ok_bind, require_neg (mt (isAdmin_iff _).mp hno), refuse_bind]
    · simp only [profileSet, hread, parsed_some, ok_bind, require_pos ((isAdmin_iff _).mpr hadmin),
        require_neg (mt hvalid.mp hbad), refuse_bind]
    · exact answers_of_ok (c := .profileSet) (fun _ => rfl) hs hf
        (profileSet_ok.mpr ⟨q, hread, (isAdmin_iff _).mpr hadmin, hvalid.mpr hmeets, rfl⟩)

end Sys2Proof.Machine
end

section
/-! SUPPORT. CONFIRMED stands: an update of a tracker does not lower it, and so no edit of a record but ACQUIT's and no
change of a coupling but ACQUIT's and UNCOUPLE's does (R132). -/

namespace Sys2Proof.Machine

/-! ### Trackers -/

/-- A CONFIRMED verdict of the first tracker is a CONFIRMED verdict of the second. -/
def Tracker.Stands (t t' : Tracker) : Prop := t.verdict = .confirmed → t'.verdict = .confirmed

section
variable {t t' t'' : Tracker}

theorem Tracker.Stands.refl (t : Tracker) : t.Stands t := id

theorem Tracker.Stands.of_eq (h : t' = t) : t.Stands t' := h ▸ .refl t

theorem Tracker.Stands.trans (h : t.Stands t') (h' : t'.Stands t'') : t.Stands t'' := h' ∘ h

end

/-- CONFIRMED has no level above it and does not drop (R132). -/
theorem update_stands (p : Profile) (e : Evidence) (t : Tracker) : t.Stands (t.update p e) := by
  intro h
  by_cases he : e = .neutral
  · rw [he]
    exact h
  · rw [update_verdict he, h, riseTo_confirmed]
    rfl

/-! ### Records -/

/-- Every CONFIRMED verdict of a record stands. -/
structure Record.VerdictsStand (r r' : Record) : Prop where
  stuck : r.stuck.Stands r'.stuck
  flatline : r.flatline.Stands r'.flatline
  leak : ∀ v, r.valve = some v → ∃ v', r'.valve = some v' ∧ v.leak.Stands v'.leak

section
variable {r r' r'' : Record}

/-- What leaves the three trackers leaves their verdicts. -/
theorem Record.VerdictsStand.of_same (hstuck : r'.stuck = r.stuck) (hflatline : r'.flatline = r.flatline)
    (hleak : r'.valve.map (·.leak) = r.valve.map (·.leak)) : r.VerdictsStand r' := by
  refine ⟨.of_eq hstuck, .of_eq hflatline, fun v hv => ?_⟩
  rw [hv] at hleak
  obtain ⟨v', hv', heq⟩ := Option.map_eq_some_iff.mp hleak
  exact ⟨v', hv', .of_eq heq⟩

theorem Record.VerdictsStand.refl (r : Record) : r.VerdictsStand r := .of_same rfl rfl rfl

theorem Record.VerdictsStand.trans (h : r.VerdictsStand r') (h' : r'.VerdictsStand r'') : r.VerdictsStand r'' where
  stuck := h.stuck.trans h'.stuck
  flatline := h.flatline.trans h'.flatline
  leak v hv := by
    obtain ⟨v', hv', hs⟩ := h.leak v hv
    obtain ⟨v'', hv'', hs'⟩ := h'.leak v' hv'
    exact ⟨v'', hv'', hs.trans hs'⟩

end

/-! ### A sample (R54) -/

theorem marked_verdictsStand (clock : Nat) (r : Record) : r.VerdictsStand (r.marked clock) := .of_same rfl rfl rfl

theorem openWindow_verdictsStand (time : Nat) (r : Record) : r.VerdictsStand (r.openWindow time) := .of_same rfl rfl rfl

theorem leaveStale_verdictsStand (r : Record) : r.VerdictsStand r.leaveStale := .of_same rfl rfl rfl

theorem latch_verdictsStand (season : Fin 2) (r : Record) : r.VerdictsStand (r.latch season) := by
  rw [latch_eq]
  exact .of_same rfl rfl rfl

theorem settleStep_verdictsStand (w : Window) (r : Record) : r.VerdictsStand (r.settleStep w) := by
  rw [settleStep_eq]
  exact .of_same rfl rfl rfl

theorem updateTrackers_verdictsStand (p : Profile) (mode : ZoneMode) (w : Window) (r : Record) :
    r.VerdictsStand (r.updateTrackers p mode w) where
  stuck := update_stands _ _ _
  flatline := update_stands _ _ _
  leak v hv := ⟨_, congrArg (Option.map _) hv, update_stands _ _ v.leak⟩

theorem evaluateWindow_verdictsStand (clock : Nat) (p : Profile) (mode : ZoneMode) (w : Window) (r : Record) :
    r.VerdictsStand (r.evaluateWindow clock p mode w) := by
  rw [evaluateWindow_eq]
  exact (updateTrackers_verdictsStand p mode w r).trans (.of_same rfl rfl rfl)

/-- Stage 1, the one stage that updates trackers. -/
theorem stageWindow_verdictsStand (T : Tables) (x : Sample) (r : Record) : r.VerdictsStand (T.stageWindow x r) := by
  unfold Tables.stageWindow
  dsimp only
  split_ifs
  · exact (((latch_verdictsStand _ _).trans (leaveStale_verdictsStand _)).trans (marked_verdictsStand _ _)).trans
      (openWindow_verdictsStand _ _)
  · split
    · exact openWindow_verdictsStand _ _
    · split
      · exact .refl r
      · exact (((evaluateWindow_verdictsStand _ _ _ _ _).trans (settleStep_verdictsStand _ _)).trans
          (latch_verdictsStand _ _)).trans (openWindow_verdictsStand _ _)

theorem stageWatch_verdictsStand (x : Sample) (r : Record) : r.VerdictsStand (r.stageWatch x) := by
  obtain ⟨_, _, _, h⟩ := stageWatch_writes x r
  rw [h]
  exact .of_same rfl rfl rfl

theorem stageAccumulate_verdictsStand (x : Sample) (r : Record) : r.VerdictsStand (r.stageAccumulate x) := by
  obtain ⟨_, _, h⟩ := stageAccumulate_writes x r
  rw [h]
  exact .of_same rfl rfl rfl

theorem stageCalibration_verdictsStand (clock : Nat) (x : Sample) (r : Record) :
    r.VerdictsStand (r.stageCalibration clock x) := by
  obtain ⟨_, _, _, h, hleak⟩ := stageCalibration_writes clock x r
  rw [h]
  exact .of_same rfl rfl hleak

theorem sampledRecord_verdictsStand (T : Tables) (x : Sample) (r : Record) : r.VerdictsStand (T.sampledRecord x r) := by
  have hreversal (q : Record) : q.VerdictsStand (q.stageReversal x) := .of_same rfl rfl rfl
  have hlast (q : Record) : q.VerdictsStand (q.stageLast x) := .of_same rfl rfl rfl
  exact (((((stageWindow_verdictsStand T x r).trans (stageWatch_verdictsStand x _)).trans
    (stageAccumulate_verdictsStand x _)).trans (hreversal _)).trans (stageCalibration_verdictsStand T.clock x _)).trans
    (hlast _)

theorem Record.SampledFrom.verdictsStand {r r' : Record} (h : r.SampledFrom r') : r.VerdictsStand r' := by
  induction h with
  | refl => exact .refl r
  | step T x _ _ ih => exact ih.trans (sampledRecord_verdictsStand T x.condition _)

/-! ### The edits of a record -/

theorem failCalibration_verdictsStand (clock : Nat) (reason : CalFailure) (r : Record) :
    r.VerdictsStand (r.failCalibration clock reason) := by
  unfold Record.failCalibration
  split_ifs
  · exact .of_same rfl rfl rfl
  · exact .refl r

/-- No edit but ACQUIT's lowers a CONFIRMED verdict of a record. -/
theorem RecordEdit.verdictsStand {may : Fin 16 → Prop} {c : Instr} {r r' : Record} (h : RecordEdit may r c r')
    (hacquit : c ≠ .acquit) : r.VerdictsStand r' := by
  cases h with
  | acquitted => exact absurd rfl hacquit
  | observed _ _ h => exact h.verdictsStand
  | restarted _ clock _ => exact (failCalibration_verdictsStand clock .restart r).trans (.of_same rfl rfl rfl)
  | expired _ clock => exact (failCalibration_verdictsStand clock .stale r).trans (.of_same rfl rfl rfl)
  | same | unmarked | amended | calibrated | raised | counted => exact .of_same rfl rfl rfl

/-! ### Couplings -/

/-- Every coupling stays in its slot, and a CONFIRMED verdict of it stands. -/
def Tables.FightsStand (T T' : Tables) : Prop :=
  ∀ i d, Table.get T.couplings i = some d → ∃ d', Table.get T'.couplings i = some d' ∧ d.fight.Stands d'.fight

section
variable {T T' T'' : Tables}

theorem Tables.FightsStand.of_same (h : T'.couplings = T.couplings) : T.FightsStand T' :=
  fun _ d hd => ⟨d, h ▸ hd, .refl _⟩

theorem Tables.FightsStand.trans (h : T.FightsStand T') (h' : T'.FightsStand T'') : T.FightsStand T'' := by
  intro i d hd
  obtain ⟨d', hd', hs⟩ := h i d hd
  obtain ⟨d'', hd'', hs'⟩ := h' i d' hd'
  exact ⟨d'', hd'', hs.trans hs'⟩

theorem Tables.FightsStand.of_mapValues {g : Coupling → Coupling} (h : T'.couplings = Table.mapValues T.couplings g)
    (hg : ∀ c : Coupling, c.fight.Stands (g c).fight) : T.FightsStand T' :=
  fun i d hd => ⟨g d, by rw [h, Table.get_mapValues, hd]; rfl, hg d⟩

end

/-- Stage 4 at a coupling leaves its fight tracker (R118 to R120). -/
theorem memberSample_fight (slot : Nat) (reopening : Bool) (x : Sample) (turn : Option Direction) (c : Coupling) :
    (c.memberSample slot reopening x turn).fight = c.fight := by
  have hreopen (role : Role) : (c.reopen role reopening).fight = c.fight := by
    cases role with
    | lead => cases reopening <;> rfl
    | follower => rfl
  have hoverlap (role : Role) (d : Coupling) : (d.overlapStep role x.time x.command).fight = d.fight := by
    cases role with
    | lead => rw [overlapStep_lead]; rfl
    | follower => rw [overlapStep_follower]; rfl
  have hantiphase (role : Role) (u : Direction) (d : Coupling) : (d.antiphaseStep role x.time u).fight = d.fight := by
    cases role <;> dsimp only [Coupling.antiphaseStep] <;> split_ifs <;> rfl
  have htake (role : Role) : (c.takeSample role reopening x turn).fight = c.fight := by
    cases turn with
    | none => exact (hoverlap role _).trans (hreopen role)
    | some u => exact (hantiphase role u _).trans ((hoverlap role _).trans (hreopen role))
  unfold Coupling.memberSample
  split_ifs
  · exact htake .lead
  · exact htake .follower
  · rfl

theorem evaluateFight_stands (T : Tables) (lead : Record) (w : Window) (c : Coupling) :
    c.fight.Stands (T.evaluateFight lead w c).fight := by
  rw [evaluateFight_eq]
  exact update_stands _ _ _

/-- The evaluations of a close (R60, R121). -/
theorem evaluateLed_stands (T : Tables) (slot : Nat) (lead : Record) (w : Window) :
    T.FightsStand { T with couplings := T.evaluateLed slot lead w } := by
  refine .of_mapValues (g := fun c => if c.leadSlot = slot then T.evaluateFight lead w c else c) rfl fun c => ?_
  split_ifs
  · exact evaluateFight_stands T lead w c
  · exact .refl _

theorem stageFights_stand (T : Tables) (slot : Nat) (x : Sample) (r : Record) :
    T.FightsStand { T with couplings := T.stageFights slot x r } := by
  unfold Tables.stageFights
  split
  · exact .of_same rfl
  · exact evaluateLed_stands T slot _ _

theorem applySample_fightsStand (T : Tables) (slot : Nat) (r : Record) (x : Sample) :
    T.FightsStand (T.applySample slot r x) :=
  (stageFights_stand T slot x r).trans (.of_mapValues rfl fun c => .of_eq (memberSample_fight _ _ _ _ c))

theorem expire_fightsStand (T : Tables) (slot : Nat) (r : Record) : T.FightsStand (T.expire slot r) := by
  refine .of_mapValues rfl fun c => .of_eq ?_
  unfold Coupling.memberExpiry
  split_ifs <;> rfl

theorem warmRestart_fightsStand (T : Tables) : T.FightsStand T.warmRestart := .of_mapValues rfl fun _ => .refl _

/-! ### Requests -/

section
variable {f : Frame} {T : Tables} {a : Accepted}

theorem observe_fightsStand (h : observe f T = .ok a) : T.FightsStand a.tables := by
  obtain ⟨q, slot, r, _, _, _, _, _, rfl⟩ := observe_ok.mp h
  exact applySamples_induct (P := T.FightsStand) q.samples (.of_same rfl)
    fun U r x hU _ _ => hU.trans (applySample_fightsStand U slot r x.condition)

/-- LOOKUP of a coupling removes its mark at most (R20). -/
theorem lookup_fightsStand (h : lookup f T = .ok a) : T.FightsStand a.tables := by
  obtain ⟨q, _, _, ⟨_, slot, r, _, rfl⟩ | ⟨_, slot, c, _, _, hc, rfl⟩⟩ := lookup_ok.mp h
  · unfold lookupRecord
    dsimp only
    split_ifs <;> exact .of_same rfl
  · unfold lookupCoupling
    dsimp only
    split_ifs
    · intro i d hd
      by_cases hi : i = slot
      · subst hi
        cases (couplingOfHandle_get hc).symm.trans hd
        exact ⟨_, Table.get_replace_self _ hd, .refl _⟩
      · exact ⟨d, (Table.get_replace_ne _ _ hi).trans hd, .refl _⟩
    · exact .of_same rfl

/-- COUPLE fills an empty slot, so it leaves every coupling that stands. -/
theorem couple_fightsStand (h : couple f T = .ok a) : T.FightsStand a.tables := by
  obtain ⟨q, i, lead, j, follower, slot, _, _, _, _, _, _, _, _, hslot, rfl⟩ := couple_ok.mp h
  intro k d hd
  have hne : k ≠ slot := by
    rintro rfl
    rw [(Table.lowestFree_some hslot).2.1] at hd
    cases hd
  exact ⟨d, (Table.get_put_ne _ _ hne).trans hd, .refl _⟩

end

/-! ### Every command -/

section
variable {s t : State}

/-- Serving a request of the tables keeps the couplings as the request does. -/
theorem serveTables_fightsStand {code : Byte} {run : Frame → Tables → Except Refused Accepted}
    (h : s.serveTables code run = .next t) (hrun : ∀ f a, run f s.tables = .ok a → s.tables.FightsStand a.tables) :
    s.tables.FightsStand t.tables := by
  obtain ht | ⟨f, a, hok, ht⟩ := serveTables_tables h
  · exact .of_same (congrArg Tables.couplings ht)
  · exact ht ▸ hrun f a hok

theorem serveTables_fightsStand_of_same {code : Byte} {run : Frame → Tables → Except Refused Accepted}
    (h : s.serveTables code run = .next t)
    (hrun : ∀ {f a}, run f s.tables = .ok a → a.tables.couplings = s.tables.couplings) :
    s.tables.FightsStand t.tables :=
  serveTables_fightsStand h fun _ _ hok => .of_same (hrun hok)

/-- Serving a request that leaves the tables leaves the couplings. -/
theorem serve_fightsStand_of_same {isCode : Byte → Bool} {run : InService → State → Answer}
    (h : s.serve isCode run = .next t) (hrun : ∀ job, (run job s.takeRequest).state.tables = s.tables) :
    s.tables.FightsStand t.tables := by
  obtain rfl | ⟨job, _, _, _, rfl⟩ := serve_next h
  · exact .of_same rfl
  · rw [complete_tables, hrun]
    exact .of_same rfl

theorem restart_fightsStand (h : execRestart s = .next t) : s.tables.FightsStand t.tables := by
  obtain rfl | ⟨job, _, _, _, rfl⟩ := serve_next h
  · exact .of_same rfl
  · rw [complete_tables]
    unfold restartAnswer
    split
    · rw [takeRequest_tables]
      exact .of_same rfl
    · simp only [State.warmRestart, driveAttn_tables, takeRequest_tables]
      exact warmRestart_fightsStand _

theorem stalenessExpiry_fightsStand {slot : Nat} (h : execStalenessExpiry slot s = .next t) :
    s.tables.FightsStand t.tables := by
  unfold execStalenessExpiry at h
  split_ifs at h
  split at h
  · cases h; exact .of_same rfl
  · split_ifs at h <;> cases h
    · exact expire_fightsStand _ _ _
    · exact .of_same rfl

/-- No command but POWER_ON, ACQUIT and UNCOUPLE removes a coupling or lowers a CONFIRMED verdict of one. -/
theorem exec_fightsStand {c : Instr} (h : exec c s = .next t) (hp : c ≠ .powerOn) (ha : c ≠ .acquit)
    (hu : c ≠ .uncouple) : s.tables.FightsStand t.tables := by
  cases c with
  | powerOn => exact absurd rfl hp
  | acquit => exact absurd rfl ha
  | uncouple => exact absurd rfl hu
  | resetLineLow | clockTick => cases h; exact .of_same rfl
  | warmRestart => cases h; exact warmRestart_fightsStand _
  | stalenessExpiry slot => exact stalenessExpiry_fightsStand h
  | attnDelayElapsed p =>
    simp only [exec, execAttnDelayElapsed] at h
    split_ifs at h <;> cases h
    · rw [setPort_tables]; exact .of_same rfl
    · exact .of_same rfl
  | requestFrame p bytes => cases h; rw [clockBytes_tables]; exact .of_same rfl
  | selectRaised p =>
    simp only [exec, execSelectRaised] at h
    split_ifs at h <;> cases h
    · rw [setPort_tables]; exact .of_same rfl
    · exact .of_same rfl
  | replyShiftedOut p filler =>
    simp only [exec, execReplyShiftedOut] at h
    split_ifs at h <;> cases h
    · exact .of_same rfl
    · rw [clockBytes_tables]; exact .of_same rfl
  | unknownRequest => exact serve_fightsStand_of_same h fun job => takeRequest_tables s
  | portSet => exact serve_fightsStand_of_same h fun job => (portSet_tables job _).trans (takeRequest_tables s)
  | status => exact serve_fightsStand_of_same h fun job => (statusAnswer_tables job _).trans (takeRequest_tables s)
  | restart => exact restart_fightsStand h
  | observe => exact serveTables_fightsStand h fun _ _ => observe_fightsStand
  | lookup => exact serveTables_fightsStand h fun _ _ => lookup_fightsStand
  | couple => exact serveTables_fightsStand h fun _ _ => couple_fightsStand
  | define =>
    refine serveTables_fightsStand_of_same h fun hok => ?_
    obtain ⟨_, _, _, _, _, _, _, _, _, _, _, _, _, rfl⟩ := define_ok.mp hok
    rfl
  | retire =>
    refine serveTables_fightsStand_of_same h fun hok => ?_
    obtain ⟨_, _, _, _, _, _, _, _, rfl⟩ := retire_ok.mp hok
    rfl
  | enumerate =>
    refine serveTables_fightsStand_of_same h fun hok => ?_
    obtain ⟨_, _, _, _, _, rfl⟩ := enumerate_ok.mp hok
    rfl
  | amend =>
    refine serveTables_fightsStand_of_same h fun hok => ?_
    obtain ⟨_, _, _, _, _, _, _, _, _, _, _, rfl⟩ := amend_ok.mp hok
    rfl
  | calibrate =>
    refine serveTables_fightsStand_of_same h fun hok => ?_
    obtain ⟨_, _, _, _, _, _, _, _, _, _, _, _, rfl⟩ := calibrate_ok.mp hok
    rfl
  | scan =>
    refine serveTables_fightsStand_of_same h fun hok => ?_
    obtain ⟨_, rfl⟩ := scan_ok.mp hok
    rfl
  | zoneSet =>
    refine serveTables_fightsStand_of_same h fun hok => ?_
    obtain ⟨_, _, _, _, _, _, _, rfl⟩ := zoneSet_ok.mp hok
    rfl
  | profileSet =>
    refine serveTables_fightsStand_of_same h fun hok => ?_
    obtain ⟨_, _, _, _, rfl⟩ := profileSet_ok.mp hok
    rfl
  | setTime =>
    refine serveTables_fightsStand_of_same h fun hok => ?_
    obtain ⟨_, _, _, rfl⟩ := setTime_ok.mp hok
    rfl
  | readTime =>
    refine serveTables_fightsStand_of_same h fun hok => ?_
    obtain ⟨_, rfl⟩ := readTime_ok.mp hok
    rfl

end

/-- Settles O58, by the edit each command makes of a record and what it leaves of the couplings: but for an ACQUIT, both
reach a verdict only through an update, which CONFIRMED withstands. -/
theorem confirmedStands : Obligations.ConfirmedStands := by
  intro s t c rest hpending hstep hp hacquit
  rw [step_of_pending hpending] at hstep
  refine ⟨fun hretire i r hget => ?_, fun huncouple => ?_⟩
  · obtain ⟨r', hget', hedit⟩ := exec_record hstep hp hretire hget
    obtain ⟨hstuck, hflatline, hleak⟩ := hedit.verdictsStand hacquit
    refine ⟨r', hget', hstuck, hflatline, fun v hv hconfirmed => ?_⟩
    obtain ⟨v', hv', hstands⟩ := hleak v hv
    exact ⟨v', hv', hstands hconfirmed⟩
  · have hfights := exec_fightsStand hstep hp hacquit huncouple
    exact hfights

end Sys2Proof.Machine
end

section
/-! SUPPORT. ZONE_SET: the codes it judges, and the zone as the fields it carries leave it. -/

namespace Sys2Proof.Machine

/-! ### The codes a zone's fields carry (R149, section 10.6) -/

theorem modeOfNat_of_code {n : Nat} (h : n = 0 ∨ n = 1) : modeOfNat n = some (if n = 0 then .run else .hold) := by
  obtain rfl | rfl := h <;> rfl

theorem modeOfNat_eq_none {n : Nat} (h : ¬ (n = 0 ∨ n = 1)) : modeOfNat n = none := by
  match n, h with
  | 0, h => exact absurd (.inl rfl) h
  | 1, h => exact absurd (.inr rfl) h
  | _ + 2, _ => rfl

theorem bitOfNat_of_code {n : Nat} (h : n = 0 ∨ n = 1) : bitOfNat n = some (if n = 0 then 0 else 1) := by
  obtain rfl | rfl := h <;> rfl

theorem bitOfNat_eq_none {n : Nat} (h : ¬ (n = 0 ∨ n = 1)) : bitOfNat n = none :=
  dif_neg (by omega)

section
variable {α : Type} {judge : Nat → Option α} {stands : α} {o : Option Nat}

theorem elim_eq_match (o : Option Nat) (stands : α) (value : Nat → α) :
    o.elim stands value = match o with
      | none => stands
      | some n => value n := by
  cases o <;> rfl

/-- A field judged: what stands when it is not carried, the value of its code when it is. -/
theorem elim_eq_some {value : Nat → α} (hjudge : ∀ n, n = 0 ∨ n = 1 → judge n = some (value n))
    (h : ∀ n ∈ o, n = 0 ∨ n = 1) : o.elim (some stands) judge = some (o.elim stands value) := by
  cases o with
  | none => rfl
  | some n => exact hjudge n (h n rfl)

theorem elim_eq_none (hjudge : ∀ n, ¬ (n = 0 ∨ n = 1) → judge n = none) (h : ¬ ∀ n ∈ o, n = 0 ∨ n = 1) :
    o.elim (some stands) judge = none := by
  cases o with
  | none => exact absurd nofun h
  | some n => exact hjudge n fun hn => h fun _ hm => Option.mem_some.mp hm ▸ hn

end

theorem zoneMode_code_eq (m : ZoneMode) : m.code = if m = .run then 0 else 1 := by cases m <;> rfl

theorem Zone.bytes_eq (z : Zone) :
    z.bytes = be8 (if z.mode = .run then 0 else 1) ++ be8 z.seasonBank ++ be8 z.owners.toNat := by
  rw [Zone.bytes, zoneMode_code_eq]

/-! ### ZONE_SET (R149, R150) -/

/-- The part of step 2 of R149 that judges the mode and the season bank. -/
def ZoneSetReq.CodesOk (q : ZoneSetReq) : Prop :=
  (∀ n ∈ q.mode, n = 0 ∨ n = 1) ∧ (∀ n ∈ q.seasonBank, n = 0 ∨ n = 1)

/-- The zone R150 leaves: a field carried takes the value carried, any other stays. -/
def ZoneSetReq.appliedTo (q : ZoneSetReq) (z : Zone) : Zone where
  mode := q.mode.elim z.mode fun n => if n = 0 then .run else .hold
  seasonBank := q.seasonBank.elim z.seasonBank fun n => if n = 0 then 0 else 1
  owners := q.owners.elim z.owners (BitVec.ofNat 8)

theorem Zone.write_eq (z : Zone) (mode bank owners : Option Nat) :
    z.write mode bank owners =
      (mode.elim (some z.mode) modeOfNat).bind fun m => (bank.elim (some z.seasonBank) bitOfNat).bind fun b =>
        some { mode := m, seasonBank := b, owners := owners.elim z.owners (BitVec.ofNat 8) } := by
  rw [elim_eq_match owners]
  cases mode <;> cases bank <;> rfl

theorem write_of_codesOk {q : ZoneSetReq} (h : q.CodesOk) (z : Zone) :
    z.write q.mode q.seasonBank q.owners = some (q.appliedTo z) := by
  obtain ⟨hmode, hbank⟩ := h
  rw [Zone.write_eq, elim_eq_some (fun _ => modeOfNat_of_code) hmode, elim_eq_some (fun _ => bitOfNat_of_code) hbank]
  rfl

theorem write_of_not_codesOk {q : ZoneSetReq} (h : ¬ q.CodesOk) (z : Zone) :
    z.write q.mode q.seasonBank q.owners = none := by
  rw [Zone.write_eq]
  obtain hmode | hbank := not_and_or.mp h
  · rw [elim_eq_none (fun _ => modeOfNat_eq_none) hmode, Option.bind_none]
  · simp only [elim_eq_none (fun _ => bitOfNat_eq_none) hbank, Option.bind_none, Option.bind_fun_none]

/-- Settles O34, by the body's layout, the requester, and then the zone and the codes of step 2 of R149. -/
theorem zoneSetCompletes : Obligations.ZoneSetCompletes := by
  intro s p f hs hf
  have refuses {e : Completion} (hrun : zoneSet f s.tables = refuse e) : s.Refuses .zoneSet p f e :=
    refuses_of_refuse (fun _ => rfl) hs hf hrun
  refine ⟨fun hnone => refuses ?_, fun q hread => ?_⟩
  · rw [zoneSet, hnone, parsed_none, refuse_bind]
  · intro inRange
    refine ⟨fun hno => refuses ?_, fun hadmin hbad => refuses ?_, fun hadmin hin i hi => ?_⟩
    · simp only [zoneSet, hread, parsed_some, ok_bind, require_neg (mt (isAdmin_iff _).mp hno), refuse_bind]
    · simp only [zoneSet, hread, parsed_some, ok_bind, require_pos ((isAdmin_iff _).mpr hadmin)]
      cases hzone : zoneOfNat q.zone with
      | none => rw [orRefuse_none, refuse_bind]
      | some i =>
        have hcodes : ¬ q.CodesOk := fun h => hbad ⟨zoneOfNat_some.mp hzone ▸ i.isLt, h⟩
        rw [orRefuse_some, ok_bind, write_of_not_codesOk hcodes, orRefuse_none, refuse_bind]
    · intro old new
      have hnew : q.appliedTo old = new := by
        simp only [ZoneSetReq.appliedTo, elim_eq_match]
        rfl
      have hwrite : old.write q.mode q.seasonBank q.owners = some new := hnew ▸ write_of_codesOk hin.2 old
      have hbody : old.bytes ++ new.bytes =
          be8 (if old.mode = .run then 0 else 1) ++ be8 old.seasonBank ++ be8 old.owners.toNat ++
            be8 (if new.mode = .run then 0 else 1) ++ be8 new.seasonBank ++ be8 new.owners.toNat := by
        simp only [Zone.bytes_eq, List.append_assoc]
      rw [← hbody]
      exact answers_of_ok (c := .zoneSet) (fun _ => rfl) hs hf
        (zoneSet_ok.mpr ⟨q, i, new, hread, (isAdmin_iff _).mpr hadmin, zoneOfNat_some.mpr hi, hwrite, rfl⟩)

end Sys2Proof.Machine
end

section
/-! SUPPORT. What the ports' invariant asks of one port, and what a byte clocked, a frame received, SELECT raised, a test of
HOLD and a reply placed do to it. -/

namespace Sys2Proof.Machine

/-! ### One port (R165, R166, R172) -/

/-- What the ports' invariant asks of one port, by the level of RESET. -/
structure Port.Ok (low : Bool) (q : Port) : Prop where
  within : q.Within
  holdHigh : low = false → q.HoldOk
  holdLow : low = true → q.hold = false

/-- What the invariant asks of a receiver: it is inside the frame its length byte announces (R164). -/
def Receiver.Within (x : Receiver) : Prop :=
  ∀ length rest, x = .inFrame (length :: rest) →
    4 ≤ length.toNat ∧ length.toNat ≤ 250 ∧ rest.length < length.toNat + 2

theorem hunting_within : Receiver.hunting.Within := fun _ _ h => nomatch h

theorem emptyFrame_within : (Receiver.inFrame []).Within := fun _ _ h => nomatch h

section
variable {q : Port} {low : Bool}

/-- HOLD just tested stands at its hysteresis, whatever it was before (R166). -/
theorem holdOk_of_tested {before : Bool} (hvalid : q.settings.Valid)
    (hhold : q.hold = holdLevel q.settings q.requests.length before) : q.HoldOk := by
  obtain ⟨_, hlt, _⟩ := hvalid
  refine ⟨fun hon => ?_, fun hoff => ?_⟩
  · rw [hhold, holdLevel, if_pos hon]
  · rw [hhold, holdLevel, if_neg (by omega), if_pos hoff]

theorem withRequests_ok {frames : List Frame} (h : q.Within) (hlen : frames.length ≤ 16) :
    (q.withRequests frames).Ok false where
  within := { h with requests := hlen }
  holdHigh _ := holdOk_of_tested h.settings rfl
  holdLow hlow := nomatch hlow

theorem withSettings_ok {set : PortSettings} (h : q.Within) (hset : set.Valid) : (q.withSettings set).Ok false where
  within := { h with settings := hset }
  holdHigh _ := holdOk_of_tested hset rfl
  holdLow hlow := nomatch hlow

theorem heldInReset_ok (h : q.Ok low) : q.heldInReset.Ok true where
  within := { h.within with }
  holdHigh hhigh := nomatch hhigh
  holdLow _ := rfl

theorem warmRestart_portOk (h : q.Ok low) : q.warmRestart.Ok false where
  within := {
    requests := Nat.zero_le _
    replies := Nat.zero_le _
    settings := h.within.settings
    receiver := hunting_within
    shifter := .inl rfl }
  holdHigh _ := by
    obtain ⟨⟨hfour, _⟩, _⟩ := h.within.settings
    exact ⟨fun hon => absurd (hfour.trans hon : 4 ≤ 0) (by decide), fun _ => rfl⟩
  holdLow hlow := nomatch hlow

theorem withAttn_ok (h : q.Ok low) (attn : Bool) : Port.Ok low { q with attn := attn } where
  within := { h.within with }
  holdHigh := h.holdHigh
  holdLow := h.holdLow

/-- A reply placed at the tail leaves the head reply, and with it the shifter, where they stand. -/
theorem withReply_ok (h : q.Ok low) (hroom : q.replies.length < 16) (r : Reply) :
    Port.Ok low { q with replies := q.replies ++ [r] } where
  within := { h.within with
    replies := by
      rw [List.length_append]
      exact hroom
    shifter := h.within.shifter.imp_right fun ⟨first, rest, hreplies, hlt⟩ =>
      ⟨first, rest ++ [r], by rw [hreplies, List.cons_append], hlt⟩ }
  holdHigh := h.holdHigh
  holdLow := h.holdLow

end

/-! ### What the link may do to its port (R163 to R165, R169) -/

/-- A port after the link moved: its part of the invariant is kept, no reply is added, and what ATTN depends on stands. -/
structure Port.Moves (low : Bool) (q q' : Port) : Prop where
  ok : q.Ok low → q'.Ok low
  replies : q'.replies.length ≤ q.replies.length
  attn : q'.attn = q.attn
  settings : q'.settings = q.settings

theorem Port.Moves.trans {low : Bool} {a b c : Port} (h : a.Moves low b) (h' : b.Moves low c) : a.Moves low c :=
  ⟨h'.ok ∘ h.ok, h'.replies.trans h.replies, h'.attn.trans h.attn, h'.settings.trans h.settings⟩

section
variable (low : Bool) (q : Port)

theorem Port.Moves.refl : q.Moves low q := ⟨id, le_rfl, rfl, rfl⟩

theorem withSdo_moves (selected : Bool) (sdo : List Byte) : q.Moves low { q with selected := selected, sdo := sdo } where
  ok h := ⟨{ h.within with }, h.holdHigh, h.holdLow⟩
  replies := le_rfl
  attn := rfl
  settings := rfl

theorem withReceiver_moves {x : Receiver} (hx : x.Within) (flag : Bool) :
    q.Moves low { q with receiver := x, frameError := flag } where
  ok h := ⟨{ h.within with receiver := hx }, h.holdHigh, h.holdLow⟩
  replies := le_rfl
  attn := rfl
  settings := rfl

theorem discardFrame_moves : q.Moves low q.discardFrame := withReceiver_moves low q hunting_within true

/-- A partly shifted reply returns to its marker. -/
theorem toMarker_moves : q.Moves low { q with selected := false, shiftPos := 0, statusByte := 0 } where
  ok h := ⟨{ h.within with shifter := .inl rfl }, h.holdHigh, h.holdLow⟩
  replies := le_rfl
  attn := rfl
  settings := rfl

theorem raiseSelect_moves : q.Moves low q.raiseSelect := by
  unfold Port.raiseSelect
  split
  · exact toMarker_moves low q
  · exact (toMarker_moves low q).trans (discardFrame_moves low _)

end

theorem enqueue_moves (q : Port) (f : Frame) : q.Moves false (q.enqueue f) := by
  unfold Port.enqueue
  split_ifs with hlen
  · exact ⟨fun h => withRequests_ok h.within (by rw [List.length_append]; exact hlen), le_rfl, rfl, rfl⟩
  · exact ⟨fun h => ⟨{ h.within with }, h.holdHigh, h.holdLow⟩, le_rfl, rfl, rfl⟩

/-- A byte added to a frame whose length byte is judged and whose last byte it is not. -/
theorem inFrame_within {got : List Byte} (hjudged : ¬ ((got.headD 0).toNat < 4 ∨ 250 < (got.headD 0).toNat))
    (hmore : got.length < (got.headD 0).toNat + 3) : (Receiver.inFrame got).Within := by
  rintro length rest ⟨⟩
  simp only [List.headD_cons, List.length_cons] at hjudged hmore
  omega

theorem receiveByte_moves (q : Port) (b : Byte) : q.Moves false (q.receiveByte b) := by
  unfold Port.receiveByte
  split
  · split_ifs
    · exact withReceiver_moves false q emptyFrame_within q.frameError
    · exact .refl false q
  · dsimp only
    split_ifs with hbad hmore
    · exact discardFrame_moves false q
    · exact withReceiver_moves false q (inFrame_within hbad hmore) q.frameError
    · split
      · exact (withReceiver_moves false q hunting_within q.frameError).trans (enqueue_moves _ _)
      · exact discardFrame_moves false q

/-- The byte carried out keeps the shifter inside the head reply and adds no reply. -/
theorem shiftByte_shifter {s : State} {p : PortId} (h : (s.port p).Within) :
    (s.shiftByte p).replies.length ≤ (s.port p).replies.length ∧
    ((s.shiftByte p).shiftPos = 0 ∨
      ∃ r rest, (s.shiftByte p).replies = r :: rest ∧ (s.shiftByte p).shiftPos < r.wireLength) := by
  cases hreplies : (s.port p).replies with
  | nil =>
    rw [shiftByte_filler s p hreplies]
    exact ⟨hreplies ▸ le_rfl, h.shifter⟩
  | cons r rest =>
    rw [shiftByte_reply hreplies]
    by_cases hmore : (s.port p).shiftPos + 1 < r.body.length + 9
    · rw [if_pos hmore]
      exact ⟨hreplies ▸ le_rfl, .inr ⟨r, rest, hreplies, hmore⟩⟩
    · rw [if_neg hmore]
      exact ⟨Nat.le_succ _, .inl rfl⟩

theorem shiftByte_ok {s : State} {p : PortId} {low : Bool} (h : (s.port p).Ok low) : (s.shiftByte p).Ok low := by
  have hs := shiftByte_shifted s p
  obtain ⟨hreplies, hshifter⟩ := shiftByte_shifter h.within
  constructor
  case within => exact {
    requests := hs.requests ▸ h.within.requests
    replies := hreplies.trans h.within.replies
    settings := hs.settings ▸ h.within.settings
    receiver := hs.receiver ▸ h.within.receiver
    shifter := hshifter }
  case holdHigh => simpa only [Port.HoldOk, hs.requests, hs.settings, hs.hold] using h.holdHigh
  case holdLow => simpa only [hs.hold] using h.holdLow

theorem shiftByte_moves (s : State) (p : PortId) (h : (s.port p).Within) (low : Bool) :
    (s.port p).Moves low (s.shiftByte p) where
  ok := shiftByte_ok
  replies := (shiftByte_shifter h).1
  attn := (shiftByte_shifted s p).attn
  settings := (shiftByte_shifted s p).settings

end Sys2Proof.Machine
end

section
/-! SUPPORT. RESET driven low, and the ports' invariant through every step: the engine, the requests and each command. -/

namespace Sys2Proof.Machine

/-! ### RESET driven low (R161, R166, R172, R173) -/

theorem attnLevel_of_resetLow {s : State} (h : s.resetLow = true) (p : PortId) : s.attnLevel p = false := by
  rw [State.attnLevel, h, Bool.not_true, Bool.false_and]

/-- Settles O4: with RESET low the tests of R160 do not drive ATTN, whatever the tables hold. -/
theorem resetLineLowHoldsThePart : Obligations.ResetLineLowHoldsThePart := by
  intro s
  simp only [exec, execResetLineLow, State.driveAttn, attnLevel_of_resetLow]
  rfl

/-! ### The invariant, port by port -/

/-- The ports' invariant with ATTN at its tests, said of each port alike. -/
structure State.Sound (s : State) : Prop where
  ports : ∀ p, (s.port p).Ok s.resetLow
  idle : s.resetLow = true → s.serving = none
  room : ∀ job, s.serving = some job → (s.port job.port).replies.length < 16
  attn : ∀ p, (s.port p).attn = s.attnLevel p

theorem sound_iff {s : State} : s.Sound ↔ s.PortsOk ∧ s.AttnOk := by
  constructor
  · intro h
    have ha : s.portA.Ok s.resetLow := h.ports .a
    have hb : s.portB.Ok s.resetLow := h.ports .b
    exact ⟨{ withinA := ha.within
             withinB := hb.within
             holdHigh := fun hr => ⟨ha.holdHigh hr, hb.holdHigh hr⟩
             holdLow := fun hr => ⟨ha.holdLow hr, hb.holdLow hr, h.idle hr⟩
             room := h.room },
      (attnAt_iff s .a).mpr (h.attn .a), (attnAt_iff s .b).mpr (h.attn .b)⟩
  · rintro ⟨h, ha, hb⟩
    constructor
    case ports =>
      rintro (_ | _)
      · exact ⟨h.withinA, fun hr => (h.holdHigh hr).left, fun hr => let ⟨hlow, _, _⟩ := h.holdLow hr; hlow⟩
      · exact ⟨h.withinB, fun hr => (h.holdHigh hr).right, fun hr => let ⟨_, hlow, _⟩ := h.holdLow hr; hlow⟩
    case idle => exact fun hr => let ⟨_, _, hidle⟩ := h.holdLow hr; hidle
    case room => exact h.room
    case attn =>
      rintro (_ | _)
      · exact (attnAt_iff s .a).mp ha
      · exact (attnAt_iff s .b).mp hb

theorem setPort_port_ite (s : State) (p o : PortId) (q : Port) :
    (s.setPort p q).port o = if o = p then q else s.port o := by
  cases p <;> cases o <;> rfl

section
variable {s t : State} {p : PortId}

theorem setPort_sound {q : Port} (h : s.Sound) (hq : (s.port p).Moves s.resetLow q) : (s.setPort p q).Sound := by
  constructor
  case ports =>
    intro o
    rw [setPort_port_ite, setPort_resetLow]
    split_ifs
    · exact hq.ok (h.ports p)
    · exact h.ports o
  case idle => simpa using h.idle
  case room =>
    intro job hjob
    have hroom := h.room job (by simpa using hjob)
    rw [setPort_port_ite]
    split_ifs with hport
    · exact hq.replies.trans_lt (hport ▸ hroom)
    · exact hroom
  case attn =>
    intro o
    have hport : ((s.setPort p q).port o).attn = (s.port o).attn ∧
        ((s.setPort p q).port o).settings = (s.port o).settings := by
      rw [setPort_port_ite]
      split_ifs with ho
      · exact ho ▸ ⟨hq.attn, hq.settings⟩
      · exact ⟨rfl, rfl⟩
    rw [hport.1, attnLevel_congr (setPort_resetLow s p q) (setPort_tables s p q) hport.2]
    exact h.attn o

/-- Driving the ATTN outputs leaves only the rest of the invariant to be shown. -/
theorem driveAttn_sound (hports : ∀ o, (s.port o).Ok s.resetLow) (hidle : s.resetLow = true → s.serving = none)
    (hroom : ∀ job, s.serving = some job → (s.port job.port).replies.length < 16) : s.driveAttn.Sound where
  ports o := by
    rw [driveAttn_port]
    exact withAttn_ok (hports o) _
  idle := hidle
  room job hjob := by
    rw [driveAttn_port]
    exact hroom job hjob
  attn o := by rw [driveAttn_port_attn, driveAttn_attnLevel]

/-- A change of the tables moves nothing of the ports but ATTN. -/
theorem withTables_sound (h : s.Sound) (T : Tables) : ({ s with tables := T } : State).driveAttn.Sound :=
  driveAttn_sound (s := { s with tables := T }) h.ports h.idle h.room

/-! ### Bytes clocked -/

theorem clockByte_sound (h : s.Sound) (b : Byte) : (s.clockByte p b).Sound := by
  cases hr : s.resetLow with
  | true =>
    rw [clockByte_resetLow_eq p b hr]
    exact setPort_sound h (withSdo_moves _ _ true _)
  | false =>
    rw [clockByte_eq s p b hr]
    refine setPort_sound h ?_
    rw [hr]
    exact ((shiftByte_moves s p (h.ports p).within false).trans (withSdo_moves false _ true _)).trans
      (receiveByte_moves _ b)

theorem clockBytes_sound (h : s.Sound) (bytes : List Byte) : (s.clockBytes p bytes).Sound :=
  List.foldlRecOn bytes _ (setPort_sound h (withSdo_moves _ _ (s.port p).selected []))
    fun _ ht b _ => clockByte_sound ht b

/-! ### The engine (R26, R167) -/

theorem arbiter_eligible (h : s.arbiter = some p) : (s.port p).eligible = true := by
  unfold State.arbiter at h
  split_ifs at h with ha hb hb
  · cases p
    · exact ha
    · exact hb
  · cases h
    exact ha
  · cases h
    exact hb

/-- Whatever the state, the engine takes nothing or it takes the head frame of a port with room for the reply. -/
theorem takeRequest_cases (s : State) : s.takeRequest = s ∨ ∃ p f rest, s.resetLow = false ∧
    (s.port p).requests = f :: rest ∧ (s.port p).replies.length < 16 ∧
    s.takeRequest = { s.setPort p ((s.port p).withRequests rest) with
      serving := some { port := p, frame := f }, lastServed := p } := by
  unfold State.takeRequest
  split_ifs with hbusy
  · exact .inl rfl
  · obtain ⟨hr, _⟩ := Bool.or_eq_false_iff.mp (Bool.eq_false_iff.mpr hbusy)
    cases harbiter : s.arbiter with
    | none => exact .inl rfl
    | some p =>
      obtain ⟨_, hroom⟩ := (eligible_iff _).mp (arbiter_eligible harbiter)
      dsimp only
      split
      · exact .inl rfl
      next f rest hrequests => exact .inr ⟨p, f, rest, hr, hrequests, hroom, rfl⟩

theorem takeRequest_sound (h : s.Sound) : s.takeRequest.Sound := by
  obtain he | ⟨p, f, rest, hr, hrequests, hroom, he⟩ := takeRequest_cases s
  · rwa [he]
  · have hrest : rest.length ≤ 16 := by
      have := (h.ports p).within.requests
      rw [hrequests, List.length_cons] at this
      omega
    have hmoves : (s.port p).Moves s.resetLow ((s.port p).withRequests rest) :=
      ⟨fun hp => hr ▸ withRequests_ok hp.within hrest, le_rfl, rfl, rfl⟩
    have hs := setPort_sound h hmoves
    rw [he]
    constructor
    case ports => exact hs.ports
    case idle => exact fun hlow => nomatch hr.symm.trans ((setPort_resetLow _ _ _).symm.trans hlow)
    case room =>
      rintro job ⟨⟩
      change ((s.setPort p _).port p).replies.length < 16
      rwa [setPort_port_self]
    case attn => exact hs.attn

/-- What an answer to this request must leave for its completion to keep the invariant. -/
structure Answer.Ready (a : Answer) (job : InService) : Prop where
  ports : ∀ o, (a.state.port o).Ok a.state.resetLow
  room : (a.state.port job.port).replies.length < 16

theorem complete_sound {a : Answer} {job : InService} (h : a.Ready job) : (a.complete job).Sound := by
  refine driveAttn_sound (fun o => ?_) (fun _ => placeReply_serving _ _ _) fun other hother => ?_
  · rw [State.placeReply, setPort_port_ite, setPort_resetLow]
    split_ifs
    · exact withReply_ok (h.ports job.port) h.room _
    · exact h.ports o
  · exact nomatch (placeReply_serving _ _ _).symm.trans hother

/-- A request keeps the invariant when each answer it can give is ready for its completion. -/
theorem serve_sound {isCode : Byte → Bool} {run : InService → State → Answer} (h : s.serve isCode run = .next t)
    (hs : s.Sound) (hrun : ∀ job u, u.Sound → u.resetLow = false → u.serving = some job → (run job u).Ready job) :
    t.Sound := by
  obtain rfl | ⟨job, hr, hserving, _, rfl⟩ := serve_next h
  · exact hs
  · exact complete_sound (hrun job _ (takeRequest_sound hs) ((takeRequest_resetLow s).trans hr) hserving)

/-! ### The answers of the requests -/

/-- An answer that leaves the ports as the engine had them when it took the request. -/
theorem ready_of_ports {a : Answer} {job : InService} (h : s.Sound) (hserving : s.serving = some job)
    (hports : ∀ o, a.state.port o = s.port o) (hr : a.state.resetLow = s.resetLow) : a.Ready job where
  ports o := hports o ▸ hr ▸ h.ports o
  room := hports job.port ▸ h.room job hserving

theorem answerTables_ready (run : Frame → Tables → Except Refused Accepted) {job : InService} (h : s.Sound)
    (hserving : s.serving = some job) : (answerTables run job s).Ready job := by
  unfold answerTables
  split
  · exact ready_of_ports h hserving (fun _ => rfl) rfl
  · exact ready_of_ports h hserving (fun _ => rfl) rfl

theorem serveTables_sound {code : Byte} {run : Frame → Tables → Except Refused Accepted}
    (h : s.serveTables code run = .next t) (hs : s.Sound) : t.Sound :=
  serve_sound h hs fun _ _ hu _ hserving => answerTables_ready run hu hserving

/-- An answer that changes one port, whose reply queue stands. -/
theorem ready_of_setPort {q : Port} {job : InService} (h : s.Sound) (hserving : s.serving = some job)
    (hq : q.Ok s.resetLow) (hreplies : q.replies = (s.port p).replies) (c : Completion) (body : List Byte) :
    ({ state := s.setPort p q, completion := c, body := body } : Answer).Ready job where
  ports o := by
    rw [setPort_port_ite, setPort_resetLow]
    split_ifs
    · exact hq
    · exact h.ports o
  room := by
    rw [setPort_port_ite]
    split_ifs with hport
    · exact hreplies ▸ hport ▸ h.room job hserving
    · exact h.room job hserving

theorem statusAnswer_ready {job : InService} (h : s.Sound) (hserving : s.serving = some job) :
    (statusAnswer job s).Ready job := by
  unfold statusAnswer
  split
  · exact ready_of_ports h hserving (fun _ => rfl) rfl
  · have hp := h.ports job.port
    refine ready_of_setPort h hserving ?_ ?_ _ _
    · exact ⟨{ hp.within with }, hp.holdHigh, hp.holdLow⟩
    · rfl

theorem portSetChecked_ok {f : Frame} {set : PortSettings} :
    portSetChecked f s = .ok (p, set) ↔ ∃ q, readPortSet f.body = some q ∧ isAdmin f.requester = true ∧
      portOfNat q.port = some p ∧ (q.InRange ∧ set.holdOff < set.holdOn) ∧ (s.port p).settings.write q = set := by
  simp only [portSetChecked, except_bind_ok, parsed_ok, orRefuse_ok, require_ok, pure, Except.pure, Except.ok.injEq,
    exists_const, Prod.mk.injEq]
  constructor
  · rintro ⟨q, hread, hadmin, _, hport, hin, rfl, rfl⟩
    exact ⟨q, hread, hadmin, hport, hin, rfl⟩
  · rintro ⟨q, hread, hadmin, hport, hin, rfl⟩
    exact ⟨q, hread, hadmin, p, hport, hin, rfl, rfl⟩

theorem getD_of_forall {α : Type} {P : α → Prop} {o : Option α} {a : α} (ha : P a) (ho : ∀ b ∈ o, P b) :
    P (o.getD a) := by
  cases o with
  | none => exact ha
  | some b => exact ho b rfl

/-- The settings carried in their ranges and the others standing make valid settings (R160, R166, R170). -/
theorem write_valid {set : PortSettings} {q : PortSetReq} (h : set.Valid) (hq : q.InRange)
    (hlt : (set.write q).holdOff < (set.write q).holdOn) : (set.write q).Valid := by
  obtain ⟨hon, _, htrigger, hdelay⟩ := h
  obtain ⟨hqon, hqtrigger, hqdelay⟩ := hq
  exact ⟨getD_of_forall (P := fun n => 4 ≤ n ∧ n ≤ 16) hon hqon, hlt,
    getD_of_forall (P := fun n => n = 1 ∨ n = 2 ∨ n = 4 ∨ n = 8) htrigger hqtrigger,
    getD_of_forall (P := (· ≤ 255)) hdelay hqdelay⟩

theorem portSet_ready {job : InService} (h : s.Sound) (hr : s.resetLow = false) (hserving : s.serving = some job) :
    (portSet job s).Ready job := by
  unfold portSet
  split
  · exact ready_of_ports h hserving (fun _ => rfl) rfl
  next p set hchecked =>
    obtain ⟨q, _, _, _, ⟨hin, hlt⟩, rfl⟩ := portSetChecked_ok.mp hchecked
    have hp := (h.ports p).within
    refine ready_of_setPort h hserving ?_ ?_ _ _
    · rw [hr]
      exact withSettings_ok hp (write_valid hp.settings hin hlt)
    · rfl

/-! ### Every command -/

theorem warmRestart_sound (h : s.Sound) (cause : RestartCause) : (s.warmRestart cause).Sound := by
  refine driveAttn_sound (fun o => ?_) (fun _ => rfl) nofun
  cases o
  · exact warmRestart_portOk (h.ports .a)
  · exact warmRestart_portOk (h.ports .b)

theorem restartAnswer_ready {job : InService} (h : s.Sound) (hserving : s.serving = some job) :
    (restartAnswer job s).Ready job := by
  unfold restartAnswer
  split
  · exact ready_of_ports h hserving (fun _ => rfl) rfl
  · refine ⟨(warmRestart_sound h .restartRequest).ports, ?_⟩
    cases job.port <;> exact Nat.zero_lt_succ 15

theorem resetLineLow_sound (h : exec .resetLineLow s = .next t) (hs : s.Sound) : t.Sound := by
  cases h
  refine driveAttn_sound (fun o => ?_) (fun _ => rfl) nofun
  cases o
  · exact heldInReset_ok (hs.ports .a)
  · exact heldInReset_ok (hs.ports .b)

theorem stalenessExpiry_sound {slot : Nat} (h : exec (.stalenessExpiry slot) s = .next t) (hs : s.Sound) : t.Sound := by
  simp only [exec, execStalenessExpiry] at h
  split_ifs at h
  split at h
  · cases h
    exact hs
  · split_ifs at h
    · cases h
      exact withTables_sound hs _
    · cases h
      exact hs

/-- The delay test holding is one of the tests of ATTN, so ATTN asserted stands at its level. -/
theorem attnDelayElapsed_sound (h : exec (.attnDelayElapsed p) s = .next t) (hs : s.Sound) : t.Sound := by
  by_cases htest : s.resetLow = false ∧ delayTest (s.port p).settings s.tables = true
  · obtain ⟨hr, hdelay⟩ := htest
    have hattn : (s.port p).attn = true := by rw [hs.attn p, State.attnLevel, hr, hdelay, Bool.or_true]; rfl
    have hsame : { s.port p with attn := true } = s.port p := by rw [← hattn]
    rw [attnDelayElapsed_of_test hr hdelay, hsame, setPort_port] at h
    cases h
    exact hs
  · rw [attnDelayElapsed_of_not htest] at h
    cases h
    exact hs

theorem selectRaised_sound (h : exec (.selectRaised p) s = .next t) (hs : s.Sound) : t.Sound := by
  simp only [exec, execSelectRaised] at h
  split_ifs at h
  · cases h
    exact setPort_sound hs (raiseSelect_moves _ _)
  · cases h
    exact hs

theorem replyShiftedOut_sound {filler : Byte} (h : exec (.replyShiftedOut p filler) s = .next t) (hs : s.Sound) :
    t.Sound := by
  simp only [exec, execReplyShiftedOut] at h
  split_ifs at h
  · cases h
    exact hs
  · cases h
    exact clockBytes_sound hs _

theorem exec_sound {c : Instr} (h : exec c s = .next t) (hs : s.Sound) : t.Sound := by
  cases c with
  | powerOn =>
    cases h
    have hreset := sound_iff.mpr ⟨reset_portsOk, reset_attnOk⟩
    exact { ports := hreset.ports, idle := hreset.idle, room := hreset.room, attn := hreset.attn }
  | resetLineLow => exact resetLineLow_sound h hs
  | warmRestart =>
    cases h
    exact warmRestart_sound hs .resetLine
  | clockTick =>
    cases h
    exact withTables_sound hs _
  | stalenessExpiry slot => exact stalenessExpiry_sound h hs
  | attnDelayElapsed p => exact attnDelayElapsed_sound h hs
  | requestFrame p bytes =>
    cases h
    exact clockBytes_sound hs bytes
  | selectRaised p => exact selectRaised_sound h hs
  | replyShiftedOut p filler => exact replyShiftedOut_sound h hs
  | unknownRequest => exact serve_sound h hs fun _ _ hu _ hserving => answerTables_ready _ hu hserving
  | portSet => exact serve_sound h hs fun _ _ hu hr hserving => portSet_ready hu hr hserving
  | status => exact serve_sound h hs fun _ _ hu _ hserving => statusAnswer_ready hu hserving
  | restart => exact serve_sound h hs fun _ _ hu _ hserving => restartAnswer_ready hu hserving
  | define | lookup | enumerate | amend | retire | observe | calibrate | acquit | couple | uncouple | scan | zoneSet
  | profileSet | setTime | readTime => exact serveTables_sound h hs

end

/-- Settles O54: a step is a command or the engine's own taking of a request, and each keeps the invariant of each port. -/
theorem portsKept : Obligations.PortsKept := by
  intro s t hports hattn hstep
  have hs : s.Sound := sound_iff.mpr ⟨hports, hattn⟩
  refine sound_iff.mp ?_
  unfold step at hstep
  split at hstep
  · cases hstep
    exact takeRequest_sound hs
  next rest _ =>
    have hrest : ({ s with pending := rest } : State).Sound :=
      { ports := hs.ports, idle := hs.idle, room := hs.room, attn := hs.attn }
    exact exec_sound hstep hrest

end Sys2Proof.Machine
end

section
/-! SUPPORT. SCAN: the marked entries in the order of R159, each entry's bytes and the attention count. -/

namespace Sys2Proof.Machine

/-! ### The order of R159 -/

/-- The order of R159, two entries alike in all three counted as ordered. -/
def MarkEntry.Precedes (a b : MarkEntry) : Prop :=
  b.urgency < a.urgency ∨ (a.urgency = b.urgency ∧ (a.time < b.time ∨ (a.time = b.time ∧ a.handle ≤ b.handle)))

section
variable {a b c : MarkEntry}

theorem MarkEntry.Precedes.trans (h : a.Precedes b) (h' : b.Precedes c) : a.Precedes c := by
  unfold MarkEntry.Precedes at *
  omega

theorem before_iff : a.before b = true ↔
    b.urgency < a.urgency ∨ (a.urgency = b.urgency ∧ (a.time < b.time ∨ (a.time = b.time ∧ a.handle < b.handle))) := by
  unfold MarkEntry.before
  split_ifs with hurgency htime
  · simp [hurgency]
  · have heq : a.urgency = b.urgency := not_not.mp hurgency
    simp [heq, htime]
  · have heq : a.urgency = b.urgency := not_not.mp hurgency
    have heq' : a.time = b.time := not_not.mp htime
    simp [heq, heq']

theorem precedes_of_before (h : a.before b = true) : a.Precedes b := by
  rw [before_iff] at h
  unfold MarkEntry.Precedes
  omega

theorem precedes_of_not_before (h : ¬ a.before b = true) : b.Precedes a := by
  rw [before_iff] at h
  unfold MarkEntry.Precedes
  omega

end

/-! ### Sorting -/

theorem insertMark_perm (a : MarkEntry) (l : List MarkEntry) : (insertMark a l).Perm (a :: l) := by
  induction l with
  | nil => exact .refl _
  | cons b rest ih =>
    rw [insertMark]
    split_ifs
    · exact .refl _
    · exact (ih.cons b).trans (.swap a b rest)

/-- Before the first entry it precedes, an entry stands behind those it does not. -/
theorem insertMark_sorted (a : MarkEntry) {l : List MarkEntry} (h : l.Pairwise MarkEntry.Precedes) :
    (insertMark a l).Pairwise MarkEntry.Precedes := by
  induction l with
  | nil => exact List.pairwise_singleton _ a
  | cons b rest ih =>
    obtain ⟨hfirst, hrest⟩ := List.pairwise_cons.mp h
    rw [insertMark]
    split_ifs with hbefore
    · have hab := precedes_of_before hbefore
      exact List.pairwise_cons.mpr ⟨List.forall_mem_cons.mpr ⟨hab, fun c hc => hab.trans (hfirst c hc)⟩, h⟩
    · refine List.pairwise_cons.mpr ⟨fun c hc => ?_, ih hrest⟩
      obtain rfl | hc := List.mem_cons.mp ((insertMark_perm a rest).mem_iff.mp hc)
      · exact precedes_of_not_before hbefore
      · exact hfirst c hc

theorem sortMarks_perm (l : List MarkEntry) : (sortMarks l).Perm l := by
  induction l with
  | nil => exact .refl _
  | cons a rest ih => exact (insertMark_perm a _).trans (ih.cons a)

theorem sortMarks_sorted (l : List MarkEntry) : (sortMarks l).Pairwise MarkEntry.Precedes := by
  induction l with
  | nil => exact .nil
  | cons a rest ih => exact insertMark_sorted a ih

/-! ### The marked entries (R154, R158) -/

theorem recordUrgency_eq (r : Record) :
    r.urgency = max (max r.stuck.verdict.level r.flatline.verdict.level)
      ((r.valve.map fun v => v.leak.verdict.level).getD 0) := by
  unfold Record.urgency
  cases r.valve <;> rfl

theorem markEntries_eq (T : Tables) :
    T.markEntries =
      (T.records.filterMap fun e => e.2.mark.map fun t =>
        { handle := 64 * e.1 + generationOf T.recordGens e.1, time := t,
          urgency := max (max e.2.stuck.verdict.level e.2.flatline.verdict.level)
            ((e.2.valve.map fun v => v.leak.verdict.level).getD 0) }) ++
      T.couplings.filterMap fun e => e.2.mark.map fun t =>
        { handle := 32768 + 64 * e.1 + generationOf T.couplingGens e.1, time := t,
          urgency := e.2.fight.verdict.level } := by
  simp only [Tables.markEntries, recordUrgency_eq]
  rfl

/-- Each mark present makes one entry, so the attention count is the number of entries. -/
theorem attentionCount_eq (T : Tables) : T.attentionCount = T.markEntries.length := by
  have htimes : T.markTimes = T.markEntries.map MarkEntry.time := by
    simp only [Tables.markTimes, Tables.markEntries, List.map_append, List.map_filterMap, Option.map_map,
      Function.comp_def, Option.map_id']
  rw [Tables.attentionCount, htimes, List.length_map]

/-- Settles O33: the sorted entries are the marked ones in the order of R159, and eight of them or all are listed. -/
theorem scanCompletes : Obligations.ScanCompletes := by
  intro s p f hs hf hbody records couplings
  have hentries : s.tables.markEntries = records ++ couplings := markEntries_eq s.tables
  have hperm := sortMarks_perm s.tables.markEntries
  have hlisted : ((sortMarks s.tables.markEntries).take 8).length = min 8 s.tables.markEntries.length := by
    rw [List.length_take, hperm.length_eq]
  have hscan := scan_ok (T := s.tables).mpr ⟨hbody, rfl⟩
  rw [hlisted, attentionCount_eq, hentries] at hscan
  exact ⟨sortMarks (records ++ couplings), sortMarks_perm _, sortMarks_sorted _,
    answers_of_ok (c := .scan) (fun _ => rfl) hs hf hscan⟩

end Sys2Proof.Machine
end

section
/-! SUPPORT. PORT_SET: a request completed and refused outside the tables, a port as it stands after a completion, and the
checks of R170. -/

namespace Sys2Proof.Machine

/-! ### Completion outside the tables (R26, R167, R168) -/

section
variable {s : State} {p : PortId} {f : Frame} {isCode : Byte → Bool} {run : InService → State → Answer}

theorem serve_eq (hs : s.Serves p f) (hf : isCode f.code = true) :
    s.serve isCode run = .next ((run { port := p, frame := f } s.takeRequest).complete { port := p, frame := f }) := by
  rw [State.serve, servedRequest_eq hs hf]

/-- An answer that leaves the state as the engine had it refuses the request. -/
theorem serve_refuses {c : Instr} {e : Completion} (hc : ∀ s, exec c s = s.serve isCode run) (hs : s.Serves p f)
    (hf : isCode f.code = true)
    (hrun : run { port := p, frame := f } s.takeRequest = { state := s.takeRequest, completion := e, body := [] }) :
    s.Refuses c p f e := by
  have hsame : ({ s.takeRequest with tables := s.tables } : State) = s.takeRequest := by rw [← takeRequest_tables s]
  have hdone := completed_of_tables hs s.tables e []
  rw [hsame] at hdone
  exact ⟨_, by rw [hc, serve_eq hs hf, hrun], hdone⟩

/-- Taking a request, port by port: the request queue and HOLD of the port it comes from. -/
theorem takeRequest_port_ite (hs : s.Serves p f) (o : PortId) :
    s.takeRequest.port o = { s.port o with
      requests := if o = p then s.queueAfter p else (s.port o).requests
      hold := if o = p then s.holdAfter p else (s.port o).hold } := by
  obtain ⟨hself, hother, _⟩ := takeRequest_port hs
  obtain rfl | rfl := eq_or_eq_otherPort p o
  · rw [hself, if_pos rfl, if_pos rfl]
  · rw [hother, if_neg (otherPort_ne p), if_neg (otherPort_ne p)]

/-- A completion, port by port: the reply at the tail of the queue of the port the request came from, and ATTN. -/
theorem complete_port (a : Answer) (job : InService) (o : PortId) :
    (a.complete job).port o = { a.state.port o with
      replies := if o = job.port then (a.state.port o).replies ++
          [{ tag := job.frame.tag, code := job.frame.code, completion := a.completion, body := a.body }]
        else (a.state.port o).replies
      attn := ((a.complete job).port o).attn } := by
  simp only [Answer.complete, State.placeReply, driveAttn_port, setPort_port_ite]
  split_ifs with ho
  · subst ho
    rfl
  · rfl

end

section
variable (a : Answer) (job : InService)

@[simp] theorem complete_serving : (a.complete job).serving = none := placeReply_serving _ _ _

@[simp] theorem complete_lastServed : (a.complete job).lastServed = a.state.lastServed := placeReply_lastServed _ _ _

@[simp] theorem complete_resetLow : (a.complete job).resetLow = a.state.resetLow := placeReply_resetLow _ _ _

@[simp] theorem complete_restartCause : (a.complete job).restartCause = a.state.restartCause :=
  placeReply_restartCause _ _ _

@[simp] theorem complete_pending : (a.complete job).pending = a.state.pending := placeReply_pending _ _ _

theorem complete_attnOk : (a.complete job).AttnOk := driveAttn_attnOk _

end

/-! ### The checks of R170 -/

theorem portOfNat_iff {n : Nat} {x : PortId} : portOfNat n = some x ↔ n = if x = .a then 0 else 1 := by
  match n with
  | 0 => cases x <;> decide
  | 1 => cases x <;> decide
  | n + 2 => cases x <;> simp [portOfNat]

theorem portOfNat_eq_none {n : Nat} (h : 2 ≤ n) : portOfNat n = none := by
  match n, h with
  | _ + 2, _ => rfl

section
variable {s : State} {job : InService}

theorem portSet_of_refuse {e : Completion} (h : portSetChecked job.frame s = refuse e) :
    portSet job s = { state := s, completion := e, body := [] } := by
  rw [portSet, h]
  rfl

theorem portSet_of_ok {x : PortId} {set : PortSettings} (h : portSetChecked job.frame s = .ok (x, set)) :
    portSet job s = { state := s.setPort x ((s.port x).withSettings set), completion := .done,
                      body := (s.port x).settings.bytes ++ set.bytes } := by
  rw [portSet, h]

end

section
variable {s : State} {p x : PortId} {f : Frame} {set : PortSettings}

/-- What PORT_SET accepted leaves of a port before its completion: the settings of the port named, and HOLD tested against
them at the count as the frame's leaving made it (R166). -/
theorem portSet_state_port (hs : s.Serves p f) (h : portSetChecked f s.takeRequest = .ok (x, set)) (o : PortId) :
    let requests := if o = p then s.queueAfter p else (s.port o).requests
    let before := if o = p then s.holdAfter p else (s.port o).hold
    (portSet { port := p, frame := f } s.takeRequest).state.port o = { s.port o with
      requests := requests
      settings := if o = x then set else (s.port o).settings
      hold := if o = x then holdAt set requests.length before else before } := by
  intro requests before
  rw [portSet_of_ok h, setPort_port_ite]
  by_cases hx : o = x
  · subst hx
    rw [if_pos rfl, if_pos rfl, if_pos rfl, takeRequest_port_ite hs]
    rfl
  · rw [if_neg hx, if_neg hx, if_neg hx, takeRequest_port_ite hs]

theorem portSet_answer (hs : s.Serves p f) (h : portSetChecked f s.takeRequest = .ok (x, set)) :
    (portSet { port := p, frame := f } s.takeRequest).completion = .done ∧
    (portSet { port := p, frame := f } s.takeRequest).body = (s.port x).settings.bytes ++ set.bytes := by
  rw [portSet_of_ok h, takeRequest_port_ite hs]
  exact ⟨rfl, rfl⟩

end

/-- Settles O36, by the body's layout, the requester, the port, the settings as they would stand, and then port by port. -/
theorem portSetCompletes : Obligations.PortSetCompletes := by
  intro s p f hs hf
  have hcode : (f.code == 0x0E) = true := beq_iff_eq.mpr hf
  have refuses {e : Completion} (hrun : portSetChecked f s.takeRequest = refuse e) : s.Refuses .portSet p f e :=
    serve_refuses (fun _ => rfl) hs hcode (portSet_of_refuse hrun)
  refine ⟨fun hnone => refuses ?_, fun q hread => ⟨fun hno => refuses ?_, fun hadmin hport => refuses ?_,
    fun hadmin x hport => ?_⟩⟩
  · rw [portSetChecked, hnone, parsed_none, refuse_bind]
  · simp only [portSetChecked, hread, parsed_some, ok_bind, require_neg (mt (isAdmin_iff _).mp hno), refuse_bind]
  · simp only [portSetChecked, hread, parsed_some, ok_bind, require_pos ((isAdmin_iff _).mpr hadmin),
      portOfNat_eq_none hport, orRefuse_none, refuse_bind]
  · intro old new inRange values
    have hnew : (s.takeRequest.port x).settings.write q = new := by rw [takeRequest_port_ite hs]; rfl
    have hrange : inRange ↔ q.InRange ∧ new.holdOff < new.holdOn := by
      simp only [inRange, PortSetReq.InRange, and_assoc]
    refine ⟨fun hbad => refuses ?_, fun hin => ?_⟩
    · simp only [portSetChecked, hread, parsed_some, ok_bind, require_pos ((isAdmin_iff _).mpr hadmin),
        portOfNat_iff.mpr hport, orRefuse_some, hnew, require_neg (mt hrange.mpr hbad), refuse_bind]
    · have hchecked : portSetChecked f s.takeRequest = .ok (x, new) :=
        portSetChecked_ok.mpr ⟨q, hread, (isAdmin_iff _).mpr hadmin, portOfNat_iff.mpr hport, hrange.mp hin, hnew⟩
      obtain ⟨_, _, hlast⟩ := takeRequest_port hs
      obtain ⟨hdone, hbody⟩ := portSet_answer hs hchecked
      have hstate := portSet_state_port hs hchecked
      refine ⟨_, serve_eq hs hcode, fun o => ?_, fun o => ?_, fun o => ?_, ?_, ?_, fun o => ?_, complete_attnOk _ _, ?_,
        complete_serving _ _, ?_, ?_, ?_, ?_⟩
      · rw [complete_port, hstate]
      · rw [complete_port, hstate]
      · intro before
        rw [complete_port, hstate]
      · rw [complete_port, hstate, hdone, hbody]
        exact if_pos rfl
      · rw [complete_port, hstate]
        exact if_neg (otherPort_ne p)
      · rw [complete_port, hstate]
        exact ⟨⟨rfl, rfl, rfl, rfl, rfl, rfl, rfl⟩, rfl⟩
      all_goals rw [portSet_of_ok hchecked]
      · simp
      · simp [hlast]
      · simp [hs.1]
      · simp
      · simp

end Sys2Proof.Machine
end

section
/-! SUPPORT. The engine alone and the requests about the part itself: the idle step, UNKNOWN_REQUEST, STATUS and RESTART. -/

namespace Sys2Proof.Machine

/-! ### The idle step (R165 to R167) -/

theorem step_of_idle {s : State} (h : s.pending = []) : step s = .next s.takeRequest := by
  rw [step, h]

/-- Taking a request does nothing while RESET is low, while the engine serves, or where no port is eligible. -/
theorem takeRequest_eq_self {s : State}
    (h : s.resetLow = true ∨ s.serving.isSome = true ∨ (¬ s.portA.CanServe ∧ ¬ s.portB.CanServe)) :
    s.takeRequest = s := by
  obtain hlow | hserving | ⟨ha, hb⟩ := h
  · exact if_pos (by rw [hlow, Bool.true_or])
  · exact if_pos (by rw [hserving, Bool.or_true])
  · exact takeRequest_idle ha hb

/-- Settles O2: the frame R167 names is taken, and elsewhere nothing is. -/
theorem idleStepTakesRequest : Obligations.IdleStepTakesRequest := by
  intro s hpending
  refine ⟨fun p f hr hnext => ⟨_, step_of_idle hpending, ?_⟩, fun hnone => ?_⟩
  · have hs : s.Serves p f := ⟨hr, .inr hnext⟩
    obtain ⟨hself, hother, hlast⟩ := takeRequest_port hs
    have hidle : s.serving.isSome = false := by rw [hnext.idle]; rfl
    refine ⟨takeRequest_serving hs, ?_, ?_, hother, takeRequest_tables s, ?_, takeRequest_restartCause s, ?_⟩
    · simp [hlast, hidle]
    · simp [hself, State.queueAfter, State.holdAfter, hidle]
    · rw [takeRequest_resetLow, hr]
    · rw [takeRequest_pending, hpending]
  · rw [step_of_idle hpending, takeRequest_eq_self hnone]

/-! ### UNKNOWN_REQUEST (R168) -/

/-- The codes 0x00 and above 0x12 name no request (section 10.6). -/
theorem knownCode_eq_false {b : Byte} (h : b = 0 ∨ 0x12 < b.toNat) : knownCode b = false := by
  obtain rfl | h := h
  · rfl
  · simp [knownCode, h]

/-- Settles O13: the engine asks for the codes that name no request, and refuses them all. -/
theorem unknownRequestRefused : Obligations.UnknownRequestRefused := fun _ _ _ hs hf =>
  serve_refuses (c := .unknownRequest) (fun _ => rfl) hs (by rw [knownCode_eq_false hf]; rfl) rfl

/-! ### STATUS (R171) -/

theorem readEmpty_nil : readEmpty [] = some () := rfl

theorem statusAnswer_of_body {job : InService} {s : State} (h : job.frame.body ≠ []) :
    statusAnswer job s = { state := s, completion := .badLength, body := [] } := by
  rw [statusAnswer, readEmpty_none h]

theorem statusAnswer_of_empty {job : InService} {s : State} (h : job.frame.body = []) :
    statusAnswer job s = { state := s.setPort job.port { s.port job.port with restarted := false },
                           completion := .done, body := s.statusBody job.port } := by
  rw [statusAnswer, h, readEmpty_nil]

theorem restartCause_code (c : RestartCause) :
    c.code = match c with
      | .powerOn => 0
      | .resetLine => 1
      | .restartRequest => 2 := by
  cases c <;> rfl

/-- The body is formed once the frame has left its queue. -/
theorem statusBody_takeRequest {s : State} {p : PortId} {f : Frame} (hs : s.Serves p f) :
    s.takeRequest.statusBody p =
      be8 s.restartCause.code ++ be16 s.tables.records.length ++ be16 (512 - s.tables.records.length) ++
      be16 s.tables.couplings.length ++ be16 s.tables.markTimes.length ++ flagByte (s.holdAfter p) ++
      flagByte (s.port p).overrun ++ flagByte (s.port p).frameError ++ be32 s.tables.clock := by
  obtain ⟨hself, _, _⟩ := takeRequest_port hs
  rw [State.statusBody, hself, takeRequest_tables, takeRequest_restartCause]
  rfl

/-- What STATUS accepted leaves of a port before its completion: the restarted indication of its own port is cleared. -/
theorem statusAnswer_state_port {s : State} {p : PortId} {f : Frame} (hs : s.Serves p f) (hbody : f.body = [])
    (o : PortId) :
    (statusAnswer { port := p, frame := f } s.takeRequest).state.port o = { s.port o with
      requests := if o = p then s.queueAfter p else (s.port o).requests
      hold := if o = p then s.holdAfter p else (s.port o).hold
      restarted := if o = p then false else (s.port o).restarted } := by
  rw [statusAnswer_of_empty hbody, setPort_port_ite]
  by_cases ho : o = p
  · subst ho
    rw [if_pos rfl, takeRequest_port_ite hs]
    simp
  · rw [if_neg ho, takeRequest_port_ite hs]
    simp [ho]

/-- Settles O39: the body's layout, then the port the request came from and the other. -/
theorem statusCompletes : Obligations.StatusCompletes := by
  intro s p f hs hf
  have hcode : (f.code == 0x11) = true := beq_iff_eq.mpr hf
  refine ⟨fun hbody => serve_refuses (fun _ => rfl) hs hcode (statusAnswer_of_body hbody), fun hbody => ?_⟩
  intro records flag cause body
  have hanswer := statusAnswer_of_empty (job := { port := p, frame := f }) (s := s.takeRequest) hbody
  have hbytes : s.takeRequest.statusBody p = body := by
    rw [statusBody_takeRequest hs, restartCause_code]
    rfl
  have hstate := statusAnswer_state_port hs hbody
  obtain ⟨_, _, hlast⟩ := takeRequest_port hs
  refine ⟨_, serve_eq hs hcode, ?_, ?_, ?_, ?_, ?_, ?_, ?_, complete_attnOk _ _, ?_, complete_serving _ _, ?_, ?_, ?_, ?_⟩
  · rw [complete_port, hstate, hanswer, hbytes]
    exact if_pos rfl
  · rw [complete_port, hstate]
    exact if_pos rfl
  · rw [complete_port, hstate]
    exact if_pos rfl
  · rw [complete_port, hstate]
    exact if_pos rfl
  · rw [complete_port, hstate]
    exact ⟨rfl, rfl, rfl, rfl, rfl, rfl, rfl⟩
  · rw [complete_port, hstate]
  · rw [complete_port, hstate, if_neg (otherPort_ne p), if_neg (otherPort_ne p), if_neg (otherPort_ne p),
      if_neg (otherPort_ne p)]
    exact ⟨⟨rfl, rfl, rfl, rfl, rfl, rfl, rfl⟩, rfl, rfl, rfl, rfl, rfl⟩
  all_goals rw [hanswer]
  · simp [Answer.complete]
  · simp [hlast]
  · simp [hs.1]
  · simp
  · simp

/-! ### RESTART (R172, R173) -/

section
variable {job : InService} {s : State}

theorem restartAnswer_of_refuse {e : Completion} (h : restartChecked job.frame = refuse e) :
    restartAnswer job s = { state := s, completion := e, body := [] } := by
  rw [restartAnswer, h]
  rfl

theorem restartAnswer_of_ok (h : restartChecked job.frame = .ok ()) :
    restartAnswer job s = { state := s.warmRestart .restartRequest, completion := .done, body := [] } := by
  rw [restartAnswer, h]

end

/-- A RESTART accepted leaves each port as R172 says, with its ATTN at the level of the tests, whatever queue the frame
left. -/
theorem restart_state_port {s : State} {p : PortId} {f : Frame} (hs : s.Serves p f) (cause : RestartCause) (o : PortId) :
    (s.takeRequest.warmRestart cause).port o =
      { (s.port o).warmRestart with attn := ((s.takeRequest.warmRestart cause).port o).attn } := by
  have hport : (s.takeRequest.port o).warmRestart = (s.port o).warmRestart := by
    rw [takeRequest_port_ite hs]
    rfl
  rw [← hport]
  cases o <;> rfl

/-- Settles O40: the checks of R173, then the warm restart and the reply placed after it. -/
theorem restartCompletes : Obligations.RestartCompletes := by
  intro s p f hs hf
  have hcode : (f.code == 0x12) = true := beq_iff_eq.mpr hf
  have refuses {e : Completion} (h : restartChecked f = refuse e) : s.Refuses .restart p f e :=
    serve_refuses (fun _ => rfl) hs hcode (restartAnswer_of_refuse h)
  refine ⟨fun hbody => refuses ?_, fun hbody hno => refuses ?_, fun hbody hadmin => ?_⟩
  · rw [restartChecked, readEmpty_none hbody, parsed_none, refuse_bind]
  · rw [restartChecked, hbody, readEmpty_nil, parsed_some, ok_bind, require_neg (mt (isAdmin_iff _).mp hno)]
  · have hchecked : restartChecked f = .ok () := by
      rw [restartChecked, hbody, readEmpty_nil, parsed_some, ok_bind, require_pos ((isAdmin_iff _).mpr hadmin)]
    have hanswer := restartAnswer_of_ok (job := { port := p, frame := f }) (s := s.takeRequest) hchecked
    have hstate := restart_state_port hs .restartRequest
    let t := Answer.complete { state := s.takeRequest.warmRestart .restartRequest, completion := .done, body := [] }
      { port := p, frame := f }
    have hexec : exec .restart s = .next t := (serve_eq hs hcode).trans (by rw [hanswer])
    refine ⟨t, hexec, ?_, ⟨{ (s.port p).warmRestart with attn := (t.port p).attn }, rfl, ?_⟩, ?_, complete_attnOk _ _,
      complete_serving _ _, complete_lastServed _ _, complete_resetLow _ _, complete_restartCause _ _, ?_⟩
    · have hrestarted := warmRestart_restarted s.takeRequest.tables
      rw [takeRequest_tables] at hrestarted
      simpa [t, Answer.complete, State.warmRestart] using hrestarted
    · rw [complete_port, hstate, if_pos rfl]
      rfl
    · rw [complete_port, hstate, if_neg (otherPort_ne p)]
      rfl
    · exact (complete_pending _ _).trans (takeRequest_pending s)

end Sys2Proof.Machine
end

section
/-! SUPPORT. The layouts of section 10.6 read back: each field, then the parts made of fields, then each request body. -/

namespace Sys2Proof.Machine

/-! ### Fields -/

/-- The reader takes these bytes back to their value and leaves whatever follows them. -/
def ReadsBack {α : Type} (read : List Byte → Option (α × List Byte)) (bytes : List Byte) (x : α) : Prop :=
  ∀ rest, read (bytes ++ rest) = some (x, rest)

theorem readU8_be8 {n : Nat} (h : fits8 n) : ReadsBack readU8 (be8 n) n := fun rest => by
  simp [be8, readU8, Nat.mod_eq_of_lt h]

theorem readU16_be16 {n : Nat} (h : fits16 n) : ReadsBack readU16 (be16 n) n := fun rest => by
  have hvalue := be16_value n h
  simp only [be16, List.cons_append, List.nil_append, readU16, hvalue]

theorem readU32_be32 {n : Nat} (h : fits32 n) : ReadsBack readU32 (be32 n) n := fun rest => by
  have hhigh : fits16 (n / 65536) := by omega
  have hlow : be16 n = be16 (n % 65536) := by
    simp only [be16, List.cons.injEq, and_true]
    exact ⟨BitVec.eq_of_toNat_eq (by simp only [BitVec.toNat_ofNat]; omega),
      BitVec.eq_of_toNat_eq (by simp only [BitVec.toNat_ofNat]; omega)⟩
  have hlow' : fits16 (n % 65536) := by omega
  rw [be32, hlow]
  simp only [readU32, List.append_assoc, Option.bind_eq_bind, Option.bind_some, readU16_be16 hhigh _,
    readU16_be16 hlow' _, Nat.div_add_mod]
  rfl

/-- Two's complement: a value below 0 is sent as the value 65536 above it. -/
theorem readS16_be16s {z : Int} (h : fits16s z) : ReadsBack readS16 (be16s z) z := fun rest => by
  have hfits : fits16 (z % 65536).toNat := by omega
  have hvalue :
      (if (z % 65536).toNat < 32768 then ((z % 65536).toNat : Int) else ((z % 65536).toNat : Int) - 65536) = z := by
    split_ifs <;> omega
  simp only [readS16, be16s, readU16_be16 hfits _, Option.bind_eq_bind, Option.bind_some, hvalue]
  rfl

theorem readEnd_nil {α : Type} (x : α) : readEnd x [] = some x := rfl

/-- A field that is present only when its bit is set. -/
theorem readIf_ifPresent {α : Type} {read : List Byte → Option (α × List Byte)} {enc : α → List Byte} {x : Option α}
    (h : ∀ a ∈ x, ReadsBack read (enc a) a) : ReadsBack (readIf x.isSome read) (ifPresent enc x) x := fun rest => by
  cases x with
  | none => rfl
  | some a =>
    have ha := h a rfl rest
    simp only [readIf, Option.isSome_some, if_true, ifPresent, ha, Option.bind_eq_bind, Option.bind_some]
    rfl

/-- The number a presence byte carries. -/
def presenceNat (b0 b1 b2 b3 : Bool) : Nat := b0.toNat + 2 * b1.toNat + 4 * b2.toNat + 8 * b3.toNat

theorem readU8_presenceByte (b0 b1 b2 b3 : Bool) :
    ReadsBack readU8 (presenceByte b0 b1 b2 b3) (presenceNat b0 b1 b2 b3) :=
  readU8_be8 (by cases b0 <;> cases b1 <;> cases b2 <;> cases b3 <;> decide)

/-- The bits of a presence byte, bit 0 first. -/
theorem presenceNat_testBit (b0 b1 b2 b3 : Bool) :
    (presenceNat b0 b1 b2 b3).testBit 0 = b0 ∧ (presenceNat b0 b1 b2 b3).testBit 1 = b1 ∧
    (presenceNat b0 b1 b2 b3).testBit 2 = b2 ∧ (presenceNat b0 b1 b2 b3).testBit 3 = b3 := by
  revert b0 b1 b2 b3
  decide

theorem readU8_flagByte (b : Bool) : ReadsBack readU8 (flagByte b) b.toNat := by
  cases b <;> exact readU8_be8 (by decide)

/-! ### Names, parameters and samples -/

theorem readKey_bytes {k : RawKey} (h : k.Fits) : ReadsBack readKey k.bytes k := fun rest => by
  obtain ⟨hbuilding, hunit, hkind, hnumber⟩ := h
  have hlast : (16 * k.kind + k.number) % 256 = 16 * k.kind + k.number := by omega
  have hhigh : (16 * k.kind + k.number) / 16 = k.kind := by omega
  have hlow : (16 * k.kind + k.number) % 16 = k.number := by omega
  simp [RawKey.bytes, be8, readKey, Nat.mod_eq_of_lt hbuilding, Nat.mod_eq_of_lt hunit, hlast, hhigh, hlow]

theorem readName_bytes {n : RequestName} (h : n.Fits) : ReadsBack readName n.bytes n := fun rest => by
  cases n with
  | key k =>
    have hform : fits8 1 := by decide
    simp only [readName, RequestName.bytes, List.append_assoc, readU8_be8 hform _, readKey_bytes h _,
      Option.bind_eq_bind, Option.bind_some, if_true]
    rfl
  | handle value =>
    have hform : fits8 2 := by decide
    simp only [readName, RequestName.bytes, List.append_assoc, readU8_be8 hform _, readU16_be16 h _,
      Option.bind_eq_bind, Option.bind_some, if_true]
    rfl

theorem readWide_bytes {w : RecordWide} (h : w.Fits) : ReadsBack readWide w.bytes w := fun rest => by
  obtain ⟨hlength, hmin, hsettle, hstale, hclosed, hleak, hdead⟩ := h
  simp only [readWide, RecordWide.bytes, List.append_assoc, Option.bind_eq_bind, Option.bind_some,
    readU16_be16 hlength _, readU8_be8 hmin _, readU8_be8 hsettle _, readU32_be32 hstale _, readU16_be16 hclosed _,
    readU8_be8 hleak _, readU8_be8 hdead _]
  rfl

theorem readBank_bytes {k : Bank} (h : k.Fits) : ReadsBack readBank k.bytes k := fun rest => by
  obtain ⟨hratio, htravel, hsize, htimeout, hlevel, hleak, hprofile⟩ := h
  simp only [readBank, Bank.bytes, List.append_assoc, Option.bind_eq_bind, Option.bind_some,
    readU16_be16 hratio _, readU16_be16 htravel _, readU16_be16 hsize _, readU16_be16 htimeout _, readU8_be8 hlevel _,
    readU16_be16 hleak _, readU8_be8 hprofile _]
  rfl

theorem readParams_bytes {p : ParamSet} (h : p.Fits) : ReadsBack readParams p.bytes p := fun rest => by
  obtain ⟨hwide, hbank0, hbank1⟩ := h
  simp only [readParams, ParamSet.bytes, List.append_assoc, Option.bind_eq_bind, Option.bind_some,
    readWide_bytes hwide _, readBank_bytes hbank0 _, readBank_bytes hbank1 _]
  rfl

theorem readCouplingParams_bytes {p : CouplingParams} (h : p.Fits) : ReadsBack readCouplingParams p.bytes p :=
  fun rest => by
  obtain ⟨hlevel, hfraction, hhunt, hpair, hprofile⟩ := h
  simp only [readCouplingParams, CouplingParams.bytes, List.append_assoc, Option.bind_eq_bind, Option.bind_some,
    readU16_be16 hlevel _, readU16_be16 hfraction _, readU8_be8 hhunt _, readU16_be16 hpair _, readU8_be8 hprofile _]
  rfl

theorem readSample_bytes {x : RawSample} (h : x.Fits) : ReadsBack readSample x.bytes x := fun rest => by
  obtain ⟨htime, hcommand, hfeedback, hentering, hleaving, hfan⟩ := h
  obtain ⟨hbit0, hbit1, hbit2, hbit3⟩ :=
    presenceNat_testBit x.feedback.isSome x.entering.isSome x.leaving.isSome x.fan.isSome
  simp only [readSample, RawSample.bytes, List.append_assoc, Option.bind_eq_bind, Option.bind_some,
    readU32_be32 htime _, readU8_presenceByte _ _ _ _ _, hbit0, hbit1, hbit2, hbit3, readU16_be16 hcommand _,
    readIf_ifPresent (fun n hn => readU16_be16 (hfeedback n hn)) _,
    readIf_ifPresent (fun z hz => readS16_be16s (hentering z hz)) _,
    readIf_ifPresent (fun z hz => readS16_be16s (hleaving z hz)) _,
    readIf_ifPresent (fun n hn => readU8_be8 (hfan n hn)) _]
  rfl

theorem readSamples_bytes {xs : List RawSample} (h : ∀ x ∈ xs, x.Fits) :
    ReadsBack (readSamples xs.length) (xs.flatMap RawSample.bytes) xs := fun rest => by
  induction xs with
  | nil => rfl
  | cons x xs ih =>
    obtain ⟨hx, hxs⟩ := List.forall_mem_cons.mp h
    simp only [List.length_cons, readSamples, List.flatMap_cons, List.append_assoc, Option.bind_eq_bind,
      Option.bind_some, readSample_bytes hx _, ih hxs]
    rfl

/-! ### Request bodies -/

theorem readDefine_bytes {q : DefineReq} (hkey : q.key.Fits) (hzone : fits8 q.zone) (hsense : ∀ n ∈ q.sense, fits8 n)
    (hparams : ∀ x ∈ q.params, x.Fits) (hlag : ∀ n ∈ q.lag, fits16 n) (hoffset : ∀ z ∈ q.offset, fits16s z) :
    readDefine q.bytes = some q := by
  obtain ⟨hbit0, hbit1, hbit2, hbit3⟩ :=
    presenceNat_testBit q.sense.isSome q.params.isSome q.lag.isSome q.offset.isSome
  rw [← List.append_nil q.bytes]
  simp only [readDefine, DefineReq.bytes, List.append_assoc, Option.bind_eq_bind, Option.bind_some,
    readKey_bytes hkey _, readU8_be8 hzone _, readU8_presenceByte _ _ _ _ _, hbit0, hbit1, hbit2, hbit3,
    readIf_ifPresent (fun n hn => readU8_be8 (hsense n hn)) _,
    readIf_ifPresent (fun x hx => readParams_bytes (hparams x hx)) _,
    readIf_ifPresent (fun n hn => readU16_be16 (hlag n hn)) _,
    readIf_ifPresent (fun z hz => readS16_be16s (hoffset z hz)) _, readEnd_nil]

theorem readLookup_bytes {q : LookupReq} (hname : q.name.Fits) (hview : fits8 q.view) (hkeep : fits8 q.keep) :
    readLookup q.bytes = some q := by
  rw [← List.append_nil q.bytes]
  simp only [readLookup, LookupReq.bytes, List.append_assoc, Option.bind_eq_bind, Option.bind_some,
    readName_bytes hname _, readU8_be8 hview _, readU8_be8 hkeep _, readEnd_nil]

/-- A flag that decides a length carries 0 or 1, and says whether what follows it is present. -/
theorem flag_toNat (b : Bool) : b.toNat ≤ 1 ∧ (b.toNat == 1) = b := by
  revert b
  decide

theorem readEnumerate_bytes {q : EnumerateReq} (hzone : fits8 q.zone) (hcursor : ∀ n ∈ q.cursor, fits16 n) :
    readEnumerate q.bytes = some q := by
  obtain ⟨hle, hflag⟩ := flag_toNat q.cursor.isSome
  rw [← List.append_nil q.bytes]
  simp only [readEnumerate, EnumerateReq.bytes, List.append_assoc, Option.bind_eq_bind, Option.bind_some,
    readU8_be8 hzone _, readU8_flagByte _ _, hle, hflag, if_true,
    readIf_ifPresent (fun n hn => readU16_be16 (hcursor n hn)) _, readEnd_nil]

theorem readAmend_bytes {q : AmendReq} (hname : q.name.Fits) (hexpected : fits16 q.expected)
    (hparams : ∀ x ∈ q.params, x.Fits) (hzone : ∀ n ∈ q.zone, fits8 n) : readAmend q.bytes = some q := by
  obtain ⟨hbit0, hbit1, _, _⟩ := presenceNat_testBit q.params.isSome q.zone.isSome false false
  rw [← List.append_nil q.bytes]
  simp only [readAmend, AmendReq.bytes, List.append_assoc, Option.bind_eq_bind, Option.bind_some,
    readName_bytes hname _, readU16_be16 hexpected _, readU8_presenceByte _ _ _ _ _, hbit0, hbit1,
    readIf_ifPresent (fun x hx => readParams_bytes (hparams x hx)) _,
    readIf_ifPresent (fun n hn => readU8_be8 (hzone n hn)) _, readEnd_nil]

theorem readRetire_bytes {q : RetireReq} (hname : q.name.Fits) (hexpected : fits16 q.expected) :
    readRetire q.bytes = some q := by
  rw [← List.append_nil q.bytes]
  simp only [readRetire, RetireReq.bytes, List.append_assoc, Option.bind_eq_bind, Option.bind_some,
    readName_bytes hname _, readU16_be16 hexpected _, readEnd_nil]

theorem readObserve_bytes {q : ObserveReq} (hname : q.name.Fits) (hexpected : fits16 q.expected) (hcount : fits8 q.count)
    (hlength : q.samples.length = q.count) (hsamples : ∀ x ∈ q.samples, x.Fits) : readObserve q.bytes = some q := by
  have hread := readSamples_bytes hsamples []
  rw [hlength] at hread
  rw [← List.append_nil q.bytes]
  simp only [readObserve, ObserveReq.bytes, List.append_assoc, Option.bind_eq_bind, Option.bind_some,
    readName_bytes hname _, readU16_be16 hexpected _, readU8_be8 hcount _, hread, readEnd_nil]

theorem readCalibrate_bytes {q : CalibrateReq} (hname : q.name.Fits) (hexpected : fits16 q.expected)
    (hduration : fits16 q.duration) : readCalibrate q.bytes = some q := by
  rw [← List.append_nil q.bytes]
  simp only [readCalibrate, CalibrateReq.bytes, List.append_assoc, Option.bind_eq_bind, Option.bind_some,
    readName_bytes hname _, readU16_be16 hexpected _, readU16_be16 hduration _, readEnd_nil]

/-- The expected revision as ACQUIT carries it: absent when the name is a coupling handle. -/
def AcquitReq.carried (q : AcquitReq) : Option Nat := if q.name.isCoupling then none else some q.expected

theorem acquit_bytes (q : AcquitReq) : q.bytes = q.name.bytes ++ be8 q.tracker ++ ifPresent be16 q.carried := by
  unfold AcquitReq.bytes AcquitReq.carried
  split_ifs <;> rfl

theorem acquit_carried_isSome (q : AcquitReq) : (!q.name.isCoupling) = q.carried.isSome := by
  unfold AcquitReq.carried
  split_ifs with h <;> simp [h]

theorem acquit_carried_getD {q : AcquitReq} (h : q.name.isCoupling = true → q.expected = 0) :
    q.carried.getD 0 = q.expected := by
  unfold AcquitReq.carried
  split_ifs with hcoupling
  · exact (h hcoupling).symm
  · rfl

theorem readAcquit_bytes {q : AcquitReq} (hname : q.name.Fits) (htracker : fits8 q.tracker) (hexpected : fits16 q.expected)
    (hcoupling : q.name.isCoupling = true → q.expected = 0) : readAcquit q.bytes = some q := by
  have hcarried : ∀ n ∈ q.carried, ReadsBack readU16 (be16 n) n := fun n hn => by
    unfold AcquitReq.carried at hn
    split_ifs at hn
    · cases hn
    · cases hn
      exact readU16_be16 hexpected
  rw [acquit_bytes, ← List.append_nil (_ ++ _)]
  simp only [readAcquit, List.append_assoc, Option.bind_eq_bind, Option.bind_some, readName_bytes hname _,
    readU8_be8 htracker _, acquit_carried_isSome, readIf_ifPresent hcarried _, acquit_carried_getD hcoupling,
    readEnd_nil]

theorem readCouple_bytes {q : CoupleReq} (hlead : q.lead.Fits) (hfollower : q.follower.Fits)
    (hparams : ∀ x ∈ q.params, x.Fits) : readCouple q.bytes = some q := by
  obtain ⟨hle, hflag⟩ := flag_toNat q.params.isSome
  rw [← List.append_nil q.bytes]
  simp only [readCouple, CoupleReq.bytes, List.append_assoc, Option.bind_eq_bind, Option.bind_some,
    readName_bytes hlead _, readName_bytes hfollower _, readU8_flagByte _ _, hle, hflag, if_true,
    readIf_ifPresent (fun x hx => readCouplingParams_bytes (hparams x hx)) _, readEnd_nil]

theorem readUncouple_be16 {h : Nat} (hfits : fits16 h) : readUncouple (be16 h) = some h := by
  rw [← List.append_nil (be16 h)]
  simp only [readUncouple, Option.bind_eq_bind, Option.bind_some, readU16_be16 hfits _, readEnd_nil]

theorem readZoneSet_bytes {q : ZoneSetReq} (hzone : fits8 q.zone) (hmode : ∀ n ∈ q.mode, fits8 n)
    (hseason : ∀ n ∈ q.seasonBank, fits8 n) (howners : ∀ n ∈ q.owners, fits8 n) : readZoneSet q.bytes = some q := by
  obtain ⟨hbit0, hbit1, hbit2, _⟩ := presenceNat_testBit q.mode.isSome q.seasonBank.isSome q.owners.isSome false
  rw [← List.append_nil q.bytes]
  simp only [readZoneSet, ZoneSetReq.bytes, List.append_assoc, Option.bind_eq_bind, Option.bind_some,
    readU8_be8 hzone _, readU8_presenceByte _ _ _ _ _, hbit0, hbit1, hbit2,
    readIf_ifPresent (fun n hn => readU8_be8 (hmode n hn)) _,
    readIf_ifPresent (fun n hn => readU8_be8 (hseason n hn)) _,
    readIf_ifPresent (fun n hn => readU8_be8 (howners n hn)) _, readEnd_nil]

theorem readProfile_bytes {q : Profile} (h : q.Fits) : readProfile q.bytes = some q := by
  obtain ⟨hrise, hfall, hwatch, hsuspect, hconfirmed, hhyst⟩ := h
  rw [← List.append_nil q.bytes]
  simp only [readProfile, Profile.bytes, List.append_assoc, Option.bind_eq_bind, Option.bind_some, readU8_be8 hrise _,
    readU8_be8 hfall _, readU8_be8 hwatch _, readU8_be8 hsuspect _, readU8_be8 hconfirmed _, readU8_be8 hhyst _,
    readEnd_nil]

theorem readPortSet_bytes {q : PortSetReq} (hport : fits8 q.port) (hon : ∀ n ∈ q.holdOn, fits8 n)
    (hoff : ∀ n ∈ q.holdOff, fits8 n) (htrigger : ∀ n ∈ q.trigger, fits8 n) (hdelay : ∀ n ∈ q.delay, fits16 n) :
    readPortSet q.bytes = some q := by
  obtain ⟨hbit0, hbit1, hbit2, hbit3⟩ :=
    presenceNat_testBit q.holdOn.isSome q.holdOff.isSome q.trigger.isSome q.delay.isSome
  rw [← List.append_nil q.bytes]
  simp only [readPortSet, PortSetReq.bytes, List.append_assoc, Option.bind_eq_bind, Option.bind_some,
    readU8_be8 hport _, readU8_presenceByte _ _ _ _ _, hbit0, hbit1, hbit2, hbit3,
    readIf_ifPresent (fun n hn => readU8_be8 (hon n hn)) _, readIf_ifPresent (fun n hn => readU8_be8 (hoff n hn)) _,
    readIf_ifPresent (fun n hn => readU8_be8 (htrigger n hn)) _,
    readIf_ifPresent (fun n hn => readU16_be16 (hdelay n hn)) _, readEnd_nil]

theorem readSetTime_be32 {n : Nat} (h : fits32 n) : readSetTime (be32 n) = some n := by
  rw [← List.append_nil (be32 n)]
  simp only [readSetTime, Option.bind_eq_bind, Option.bind_some, readU32_be32 h _, readEnd_nil]

/-! ### The bytes of a number -/

theorem be32_eq (n : Nat) :
    be32 n = [BitVec.ofNat 8 (n / 16777216), BitVec.ofNat 8 (n / 65536), BitVec.ofNat 8 (n / 256), BitVec.ofNat 8 n] := by
  simp only [be32, be16, List.cons_append, List.nil_append, Nat.div_div_eq_div_mul]

/-- Settles O41, body by body. -/
theorem layoutsReadBack : Obligations.LayoutsReadBack :=
  ⟨fun _ => readDefine_bytes, fun _ => readLookup_bytes, fun _ => readEnumerate_bytes, fun _ => readAmend_bytes,
    fun _ => readRetire_bytes, fun _ => readObserve_bytes, fun _ => readCalibrate_bytes, fun _ => readAcquit_bytes,
    fun _ => readCouple_bytes, fun _ => readUncouple_be16, fun _ => readZoneSet_bytes, fun _ => readProfile_bytes,
    fun _ => readPortSet_bytes, fun _ => readSetTime_be32, fun n => ⟨rfl, rfl, be32_eq n, rfl⟩,
    fun z => ⟨⟨(z % 65536).toNat, rfl, Int.toNat_of_nonneg (Int.emod_nonneg z (by decide))⟩,
      (z % 4294967296).toNat, rfl, Int.toNat_of_nonneg (Int.emod_nonneg z (by decide))⟩⟩

end Sys2Proof.Machine
end

section
/-! SUPPORT. The receiver of a port, byte by byte, and the select line raised; a frame received whole, and a frame discarded. -/

namespace Sys2Proof.Machine

/-! ### The select line (R163, R164) -/

theorem raiseSelect_eq (q : Port) :
    q.raiseSelect = { q with
      selected := false, shiftPos := 0, statusByte := 0, receiver := .hunting,
      frameError := q.frameError || decide (q.receiver ≠ .hunting) } := by
  unfold Port.raiseSelect
  cases h : q.receiver with
  | hunting => simp
  | inFrame received => simp [Port.discardFrame]

/-- Settles O11, by the level the select stands at. -/
theorem selectRaisedEndsTheSelection : Obligations.SelectRaisedEndsTheSelection := by
  refine fun s p => ⟨fun hselected => ?_, fun hselected => ?_⟩
  · rw [← raiseSelect_eq]
    exact if_pos hselected
  · exact if_neg (by rw [hselected]; decide)

/-! ### The receiver (R164, R165) -/

/-- A frame that joins the queue, and one dropped where the queue holds 16. -/
theorem enqueue_eq (q : Port) (f : Frame) :
    q.enqueue f =
      if q.requests.length < 16 then
        { q with requests := q.requests ++ [f], hold := holdAt q.settings (q.requests.length + 1) q.hold }
      else { q with overrun := true } := by
  unfold Port.enqueue Port.withRequests
  rw [List.length_append]
  rfl

section
variable {q : Port} {b : Byte}

theorem receiveByte_hunting (h : q.receiver = .hunting) :
    q.receiveByte b = if b = 0x5A then { q with receiver := .inFrame [] } else q := by
  unfold Port.receiveByte
  rw [h]
  rfl

/-- The first byte after the marker is the length byte, judged as it comes in. -/
theorem receiveByte_length (h : q.receiver = .inFrame []) :
    q.receiveByte b =
      if b.toNat < 4 ∨ 250 < b.toNat then q.discardFrame else { q with receiver := .inFrame [b] } := by
  unfold Port.receiveByte
  rw [h]
  dsimp only
  by_cases hbad : b.toNat < 4 ∨ 250 < b.toNat
  · rw [if_pos hbad]
    exact if_pos hbad
  · rw [if_neg hbad]
    exact (if_neg hbad).trans (if_pos (by simp))

variable {length : Byte} {rest : List Byte}

theorem receiveByte_collects (h : q.receiver = .inFrame (length :: rest)) (hlow : 4 ≤ length.toNat)
    (hhigh : length.toNat ≤ 250) (hmore : rest.length + 1 < length.toNat + 2) :
    q.receiveByte b = { q with receiver := .inFrame (length :: rest ++ [b]) } := by
  unfold Port.receiveByte
  rw [h]
  dsimp only
  rw [if_neg (by simp; omega), if_pos (by simp; omega)]

theorem receiveByte_completes (h : q.receiver = .inFrame (length :: rest)) (hlow : 4 ≤ length.toNat)
    (hhigh : length.toNat ≤ 250) (hlast : rest.length + 1 = length.toNat + 2) {f : Frame}
    (hf : frameOf (length :: rest ++ [b]) = some f) :
    q.receiveByte b = { q with receiver := .hunting }.enqueue f := by
  unfold Port.receiveByte
  rw [h]
  dsimp only
  rw [if_neg (by simp; omega), if_neg (by simp; omega), hf]

theorem receiveByte_discards (h : q.receiver = .inFrame (length :: rest)) (hlow : 4 ≤ length.toNat)
    (hhigh : length.toNat ≤ 250) (hlast : rest.length + 1 = length.toNat + 2)
    (hf : frameOf (length :: rest ++ [b]) = none) : q.receiveByte b = q.discardFrame := by
  unfold Port.receiveByte
  rw [h]
  dsimp only
  rw [if_neg (by simp; omega), if_neg (by simp; omega), hf]

end

/-- Bytes whose last two are not the check of the rest make no frame. -/
theorem frameOf_badCheck {checked check : List Byte} (hlen : check.length = 2) (h : check ≠ crcBytes checked) :
    frameOf (checked ++ check) = none := by
  have hplace : (checked ++ check).length - 2 = checked.length := by
    rw [List.length_append, hlen, Nat.add_sub_cancel]
  unfold frameOf
  rw [hplace, List.take_left, List.drop_left]
  exact if_neg h

/-! ### A frame discarded (R164) -/

section
variable {s : State} {p : PortId} {b : Byte}

/-- A byte at which the receiver discards the frame: FRAME_ERROR is set after the byte out, and nothing is queued. -/
theorem clockByte_discards (hr : s.resetLow = false)
    (h : ∀ q : Port, q.receiver = (s.port p).receiver → q.receiveByte b = q.discardFrame) :
    ∃ q, s.clockByte p b = s.setPort p q ∧ q.receiver = .hunting ∧ q.frameError = true ∧
      q.requests = (s.port p).requests ∧ q.hold = (s.port p).hold := by
  have hshifted := shiftByte_shifted s p
  refine ⟨_, clockByte_eq s p b hr, ?_⟩
  rw [h { s.shiftByte p with selected := true } hshifted.receiver]
  exact ⟨rfl, rfl, hshifted.requests, hshifted.hold⟩

/-- Bytes collected, and then one at which the receiver discards the frame. -/
theorem clockBytes_discards {bytes : List Byte} {q : Port} (hr : s.resetLow = false)
    (hcollect : bytes.foldl (fun t b => t.clockByte p b) (s.setPort p { s.port p with sdo := [] }) =
      (s.setPort p { s.port p with sdo := [] }).setPort p q)
    (hcollecting : (s.port p).Collecting q)
    (h : ∀ q' : Port, q'.receiver = q.receiver → q'.receiveByte b = q'.discardFrame) :
    ∃ q', exec (.requestFrame p (bytes ++ [b])) s = .next (s.setPort p q') ∧ q'.receiver = .hunting ∧
      q'.frameError = true ∧ q'.requests = (s.port p).requests ∧ q'.hold = (s.port p).hold := by
  rw [setPort_setPort] at hcollect
  obtain ⟨q', hlast, hhunting, herror, hrequests, hhold⟩ :=
    clockByte_discards (s := s.setPort p q) (p := p) (b := b) (by rw [setPort_resetLow, hr])
      (by rw [setPort_port_self]; exact h)
  rw [setPort_setPort] at hlast
  rw [setPort_port_self] at hrequests hhold
  refine ⟨q', congrArg Host.Outcome.next ?_, hhunting, herror, hrequests.trans hcollecting.requests,
    hhold.trans hcollecting.hold⟩
  rw [State.clockBytes, List.foldl_append, hcollect, List.foldl_cons, List.foldl_nil, hlast]

end

/-- Collecting from a port reads nothing of what stood on its data out. -/
theorem Port.Collecting.of_sdo {q q' : Port} {out : List Byte} (h : { q with sdo := out }.Collecting q') :
    q.Collecting q' :=
  ⟨h.requests, h.hold, h.attn, h.restarted, h.settings, h.overrun, h.frameError⟩

/-- Settles O10: the length byte is judged as it comes in, the check at its second byte. -/
theorem badFramesDiscarded : Obligations.BadFramesDiscarded := by
  intro s p hr hhunting
  have hr' : (s.setPort p { s.port p with sdo := [] }).resetLow = false := by rw [setPort_resetLow, hr]
  have hhunting' : ((s.setPort p { s.port p with sdo := [] }).port p).receiver = .hunting := by
    rw [setPort_port_self]
    exact hhunting
  refine ⟨fun length hbad => ?_, fun inner check length hlow hhigh hinner hcheck hcrc => ?_⟩
  · obtain ⟨q, hmarker, hcollecting, hinFrame, _, _⟩ := clockByte_marker hr' hhunting'
    rw [setPort_port_self] at hcollecting
    refine clockBytes_discards (bytes := [requestMarker]) hr hmarker hcollecting.of_sdo fun q' hq' => ?_
    rw [receiveByte_length (hq'.trans hinFrame), if_pos hbad]
  · obtain ⟨c1, c0, rfl⟩ := List.length_eq_two.mp hcheck
    have hlast : (inner ++ [c1]).length + 1 = length.toNat + 2 := by simp [hinner]
    obtain ⟨q, hbytes, hcollecting, hinFrame, _, _⟩ :=
      clockFrame_collects (body := inner ++ [c1]) hr' hhunting' hlow hhigh (by omega)
    rw [setPort_port_self] at hcollecting
    have hnone : frameOf (length :: (inner ++ [c1]) ++ [c0]) = none := by
      have := frameOf_badCheck hcheck hcrc
      simpa using this
    have hdone := clockBytes_discards hr hbytes hcollecting.of_sdo
      fun q' hq' => receiveByte_discards (hq'.trans hinFrame) hlow hhigh hlast hnone
    simpa [requestMarker] using hdone

/-! ### A frame received whole (R164 to R166) -/

/-- A frame as it goes in: its length byte, then bytes that complete nothing, then its last byte. -/
theorem afterMarker_split (f : Frame) : ∃ rest last,
    f.afterMarker = BitVec.ofNat 8 (4 + f.body.length) :: rest ++ [last] ∧ rest.length = f.body.length + 5 := by
  let check := crc16 (be8 (4 + f.body.length) ++ [f.requester, f.code] ++ be16 f.tag.toNat ++ f.body)
  refine ⟨f.requester :: f.code :: (be16 f.tag.toNat ++ f.body ++ [BitVec.ofNat 8 (check.toNat / 256)]),
    BitVec.ofNat 8 check.toNat, ?_, ?_⟩
  · simp [Frame.afterMarker, crcBytes, be8, be16, check]
  · simp
    omega

theorem Frame.bytes_length (f : Frame) : f.bytes.length = f.body.length + 8 := by
  simp [Frame.bytes, Frame.afterMarker]
  omega

theorem lengthByte_toNat {f : Frame} (h : f.body.length ≤ 246) :
    (BitVec.ofNat 8 (4 + f.body.length)).toNat = 4 + f.body.length := by
  rw [BitVec.toNat_ofNat]
  omega

theorem setPort_inj {s : State} {p : PortId} {q q' : Port} (h : s.setPort p q = s.setPort p q') : q = q' := by
  have hport := congrArg (State.port · p) h
  simpa using hport

/-- A frame goes in as so much filler does, and then joins the queue or is dropped. -/
theorem clockList_frame {s : State} {p : PortId} {f : Frame} {filler : Byte} (hfiller : filler ≠ 0x5A)
    (hr : s.resetLow = false) (hhunting : (s.port p).receiver = .hunting) (hf : f.body.length ≤ 246) {q : Port}
    (hq : (List.replicate f.bytes.length filler).foldl (fun t b => t.clockByte p b) s = s.setPort p q) :
    f.bytes.foldl (fun t b => t.clockByte p b) s = s.setPort p (q.enqueue f) := by
  obtain ⟨rest, last, hsplit, hlen⟩ := afterMarker_split f
  have hlength := lengthByte_toNat hf
  generalize BitVec.ofNat 8 (4 + f.body.length) = length at hsplit hlength
  have hlow : 4 ≤ length.toNat := by omega
  have hhigh : length.toNat ≤ 250 := by omega
  have hcomplete : rest.length + 1 = length.toNat + 2 := by omega
  have hbytes : f.bytes = requestMarker :: length :: rest ++ [last] := by rw [Frame.bytes, hsplit]; rfl
  obtain ⟨u, hu, _, huhunting, _, _⟩ := clockList_ignored hfiller (rest.length + 2) hr hhunting
  have hframe : frameOf (length :: rest ++ [last]) = some f := by rw [← hsplit, frameOf_afterMarker]
  have hcollected := clockFrame_asFiller (body := rest) hfiller hr hhunting hlow hhigh (by omega)
  rw [hu, setPort_setPort, setPort_port_self] at hcollected
  have hru : (s.setPort p u).resetLow = false := by rw [setPort_resetLow, hr]
  have hlastOut : q = { (s.setPort p u).shiftByte p with selected := true } := by
    have hcount : f.bytes.length = rest.length + 2 + 1 := by rw [Frame.bytes_length]; omega
    rw [hcount, List.replicate_succ', List.foldl_append, hu, List.foldl_cons, List.foldl_nil,
      clockByte_ignored hru (by rw [setPort_port_self, huhunting]) hfiller, setPort_setPort] at hq
    exact (setPort_inj hq).symm
  have hqhunting : q.receiver = .hunting := by
    rw [hlastOut, ← huhunting]
    have := (shiftByte_shifted (s.setPort p u) p).receiver
    simpa using this
  have hout : (s.setPort p { u with receiver := .inFrame (length :: rest) }).shiftByte p =
      { (s.setPort p u).shiftByte p with receiver := .inFrame (length :: rest) } := by
    have := shiftByte_withReceiver (s.setPort p u) p (.inFrame (length :: rest))
    simpa using this
  rw [hbytes, List.foldl_append, hcollected, List.foldl_cons, List.foldl_nil,
    clockByte_eq _ _ _ (by rw [setPort_resetLow, hr]), setPort_setPort, hout,
    receiveByte_completes rfl hlow hhigh hcomplete hframe]
  congr 2
  rw [← hqhunting, hlastOut]

/-- What filler leaves of a port, field by field. -/
theorem Port.Collecting.eq {q q' : Port} (h : q.Collecting q') (hreceiver : q'.receiver = q.receiver) :
    q' = { q with
      selected := q'.selected, replies := q'.replies, shiftPos := q'.shiftPos, statusByte := q'.statusByte,
      sdo := q'.sdo, overrun := q'.overrun, frameError := q'.frameError } := by
  obtain ⟨hrequests, hhold, hattn, hrestarted, hsettings, _, _⟩ := h
  rw [← hreceiver, ← hrequests, ← hhold, ← hattn, ← hrestarted, ← hsettings]

/-- With no reply queued, filler carries filler out and does nothing else. -/
theorem clockList_fillerOnly {p : PortId} {filler : Byte} (hfiller : filler ≠ 0x5A) (n : Nat) : ∀ {s : State},
    s.resetLow = false → (s.port p).receiver = .hunting → (s.port p).replies = [] →
    (List.replicate (n + 1) filler).foldl (fun t b => t.clockByte p b) s =
      s.setPort p { s.port p with
        selected := true, sdo := (s.port p).sdo ++ List.replicate (n + 1) 0x00 } := by
  induction n with
  | zero =>
    intro s hr hhunting hnone
    rw [List.replicate_one, List.foldl_cons, List.foldl_nil, clockByte_ignored hr hhunting hfiller,
      shiftByte_filler s p hnone]
    rfl
  | succ n ih =>
    intro s hr hhunting hnone
    rw [List.replicate_succ, List.foldl_cons, clockByte_ignored hr hhunting hfiller, shiftByte_filler s p hnone]
    rw [ih (by rw [setPort_resetLow, hr]) (by rw [setPort_port_self]; exact hhunting)
      (by rw [setPort_port_self]; exact hnone), setPort_setPort, setPort_port_self]
    simp only [List.append_assoc, List.replicate_succ (n := n + 1)]
    rfl

/-- Settles O9: the frame goes in as filler does, and then joins the queue or is dropped. -/
theorem frameReceived : Obligations.FrameReceived := by
  intro s p f hr hhunting hf old
  have hr' : (s.setPort p { old with sdo := [] }).resetLow = false := by rw [setPort_resetLow, hr]
  have hhunting' : ((s.setPort p { old with sdo := [] }).port p).receiver = .hunting := by
    rw [setPort_port_self]
    exact hhunting
  have hfiller : (0x00 : Byte) ≠ 0x5A := by decide
  obtain ⟨q, hq, hcollecting, hqhunting, hselected, hsdo⟩ := clockList_ignored hfiller f.bytes.length hr' hhunting'
  have hframe := clockList_frame hfiller hr' hhunting' hf hq
  rw [setPort_setPort] at hq hframe
  rw [setPort_port_self] at hcollecting hsdo
  have hsent : q.selected = true := hselected.resolve_right (by rw [Frame.bytes_length]; omega)
  refine ⟨q, congrArg Host.Outcome.next hq, fun hroom => ?_, fun hfull => ?_, ?_, hcollecting.overrun,
    hcollecting.frameError, by simpa using hsdo, fun hnone => ?_⟩
  · refine (congrArg Host.Outcome.next hframe).trans ?_
    rw [enqueue_eq, hcollecting.requests, hcollecting.settings, hcollecting.hold, if_pos hroom]
  · refine (congrArg Host.Outcome.next hframe).trans ?_
    rw [enqueue_eq, hcollecting.requests, if_neg (by simpa using hfull)]
  · have heq := hcollecting.of_sdo.eq (hqhunting.trans hhunting.symm)
    rwa [hsent] at heq
  · have honly := clockList_fillerOnly hfiller (f.body.length + 7) hr' hhunting' (by rw [setPort_port_self]; exact hnone)
    rw [setPort_setPort, setPort_port_self] at honly
    rw [Frame.bytes_length] at hq
    exact setPort_inj (hq.symm.trans honly)

end Sys2Proof.Machine
end

section
/-! SUPPORT. What goes out of a port while bytes are clocked: the status byte, one byte at a time, and a reply from any place
of its shifter. -/

namespace Sys2Proof.Machine

/-! ### The status byte (R169) -/

/-- Five flags as the low bits of a byte. -/
theorem flagBits_getLsbD (b0 b1 b2 b3 b4 : Bool) (n : Nat) :
    (BitVec.ofNat 8 (b0.toNat + 2 * b1.toNat + 4 * b2.toNat + 8 * b3.toNat + 16 * b4.toNat)).getLsbD n =
      ([b0, b1, b2, b3, b4].getD n false) := by
  match n with
  | 0 | 1 | 2 | 3 | 4 =>
    revert b0 b1 b2 b3 b4
    decide
  | n + 5 =>
    have hsmall : b0.toNat + 2 * b1.toNat + 4 * b2.toNat + 8 * b3.toNat + 16 * b4.toNat < 2 ^ 5 := by
      have := b0.toNat_le
      have := b1.toNat_le
      have := b2.toNat_le
      have := b3.toNat_le
      have := b4.toNat_le
      omega
    have hzero : (b0.toNat + 2 * b1.toNat + 4 * b2.toNat + 8 * b3.toNat + 16 * b4.toNat).testBit (n + 5) = false :=
      Nat.testBit_lt_two_pow (hsmall.trans_le (Nat.pow_le_pow_right (by decide) (by omega)))
    rw [BitVec.getLsbD_ofNat, hzero, Bool.and_false]
    rfl

theorem portStatus_getLsbD (s : State) (p : PortId) (n : Nat) :
    (s.portStatus p).getLsbD n =
      [(s.port p).hold, (s.port p).overrun, (s.port p).frameError, decide (1 ≤ s.tables.attentionCount),
        (s.port p).restarted].getD n false :=
  flagBits_getLsbD _ _ _ _ _ n

/-- The status byte does not read what stands on data out. -/
theorem portStatus_withSdo (s : State) (p : PortId) (out : List Byte) :
    (s.setPort p { s.port p with sdo := out }).portStatus p = s.portStatus p :=
  portStatus_congr rfl rfl rfl rfl

/-! ### The bytes of a reply (R169) -/

/-- A byte of a reply before its status byte does not depend on it, and the bytes from there on follow. -/
theorem Reply.bytes_drop (r : Reply) {status sent : Byte} {n : Nat} (hn : n < r.body.length + 9)
    (hsent : n < 6 ∨ sent = status) :
    (r.bytes status).drop n = (r.bytes sent).getD n 0 :: (r.bytes status).drop (n + 1) := by
  have hlength : n < (r.bytes status).length := by rw [Reply.bytes_length]; exact hn
  rw [List.drop_eq_getElem_cons hlength]
  congr 1
  obtain hbefore | rfl := hsent
  · have htake := congrArg (·.getD n 0) (r.bytes_take status sent (le_refl 6))
    simp only [List.getD_eq_getElem?_getD, List.getElem?_take, if_pos hbefore] at htake
    rw [List.getD_eq_getElem?_getD, ← htake, List.getElem?_eq_getElem hlength]
    rfl
  · rw [List.getD_eq_getElem _ _ hlength]

/-! ### One byte clocked (R163, R164, R169) -/

section
variable {s : State} {p : PortId} {b : Byte}

/-- With no reply queued the byte out is filler. -/
theorem requestFrame_one_filler (hr : s.resetLow = false) (hnone : (s.port p).replies = []) :
    exec (.requestFrame p [b]) s =
      .next (s.setPort p ({ s.port p with sdo := [0x00], selected := true }.receiveByte b)) := by
  refine congrArg Host.Outcome.next ?_
  rw [clockBytes_one s p b hr, shiftByte_filler _ _ (by rw [setPort_port_self]; exact hnone), setPort_port_self]
  rfl

/-- With a reply queued the byte out is its next byte, the status byte formed as it goes out. -/
theorem shiftByte_fresh {r : Reply} {rest : List Reply} (hq : (s.port p).replies = r :: rest) :
    let q := s.port p
    let status := if q.shiftPos = 6 then s.portStatus p else q.statusByte
    let sent := [(r.bytes status).getD q.shiftPos 0]
    (s.setPort p { q with sdo := [] }).shiftByte p =
      if q.shiftPos + 1 < r.body.length + 9 then
        { q with sdo := sent, shiftPos := q.shiftPos + 1, statusByte := status }
      else
        { q with sdo := sent, replies := rest, shiftPos := 0, statusByte := 0,
                 overrun := q.overrun && !status.getLsbD 1, frameError := q.frameError && !status.getLsbD 2 } := by
  have hreply := shiftByte_reply (s := s.setPort p { s.port p with sdo := [] }) (p := p) (r := r) (rest := rest)
    (by rw [setPort_port_self]; exact hq)
  rw [portStatus_withSdo, setPort_port_self] at hreply
  exact hreply

end

/-! ### Bytes clocked one after another (R163) -/

/-- With no reply queued filler goes out, whatever comes in. -/
theorem clockList_noReply {p : PortId} (bytes : List Byte) : ∀ {s : State}, s.resetLow = false →
    (s.port p).replies = [] → ∃ q, bytes.foldl (fun t b => t.clockByte p b) s = s.setPort p q ∧
      q.sdo = (s.port p).sdo ++ List.replicate bytes.length 0x00 ∧ q.replies = [] := by
  induction bytes with
  | nil =>
    intro s _ hnone
    exact ⟨s.port p, (setPort_port s p).symm, (List.append_nil _).symm, hnone⟩
  | cons b bytes ih =>
    intro s hr hnone
    have hclock := clockByte_eq s p b hr
    rw [shiftByte_filler s p hnone] at hclock
    generalize hq1 : Port.receiveByte _ b = q1 at hclock
    obtain ⟨hreplies, _, _, hsdo, _⟩ := hq1 ▸ receiveByte_keeps _ b
    obtain ⟨q, hq, hqsdo, hqnone⟩ := ih (s := s.setPort p q1) (by rw [setPort_resetLow, hr])
      (by rw [setPort_port_self, hreplies]; exact hnone)
    rw [setPort_setPort] at hq
    rw [setPort_port_self, hsdo] at hqsdo
    refine ⟨q, by rw [List.foldl_cons, hclock, hq], ?_, hqnone⟩
    rw [hqsdo, List.append_assoc]
    rfl

/-! ### A reply going out (R163, R169) -/

/-- What so many bytes clocked carry out of the head reply and leave of the shifter, with this status byte formed. -/
structure Port.Sends (q q' : Port) (r : Reply) (rest : List Reply) (n : Nat) (status : Byte) : Prop where
  formed : 6 < q.shiftPos → status = q.statusByte
  sdo : q'.sdo = q.sdo ++ ((r.bytes status).drop q.shiftPos).take n
  part : n < r.body.length + 9 - q.shiftPos →
    q'.replies = r :: rest ∧ q'.shiftPos = q.shiftPos + n ∧ (6 < q'.shiftPos → q'.statusByte = status)
  whole : 0 < n → n = r.body.length + 9 - q.shiftPos → q'.replies = rest ∧ q'.shiftPos = 0

section
variable {p : PortId} {r : Reply} {rest : List Reply}

/-- One byte of the head reply, whatever comes in: the shifter moves on, or the reply leaves its queue. -/
theorem clockByte_reply {s : State} (b : Byte) (hr : s.resetLow = false) (hq : (s.port p).replies = r :: rest) :
    let q := s.port p
    let status := if q.shiftPos = 6 then s.portStatus p else q.statusByte
    ∃ q', s.clockByte p b = s.setPort p q' ∧ q'.sdo = q.sdo ++ [(r.bytes status).getD q.shiftPos 0] ∧
      (q.shiftPos + 1 < r.body.length + 9 →
        q'.replies = r :: rest ∧ q'.shiftPos = q.shiftPos + 1 ∧ q'.statusByte = status) ∧
      (r.body.length + 9 ≤ q.shiftPos + 1 → q'.replies = rest ∧ q'.shiftPos = 0) := by
  intro q status
  refine ⟨_, clockByte_eq s p b hr, ?_⟩
  obtain ⟨hreplies, hpos, hstatus, hsdo, _⟩ := receiveByte_keeps { s.shiftByte p with selected := true } b
  rw [hreplies, hpos, hstatus, hsdo, shiftByte_reply hq]
  by_cases hmore : q.shiftPos + 1 < r.body.length + 9
  · rw [if_pos hmore]
    exact ⟨rfl, fun _ => ⟨hq, rfl, rfl⟩, fun hlast => absurd hmore (Nat.not_lt.mpr hlast)⟩
  · rw [if_neg hmore]
    exact ⟨rfl, fun h => absurd h hmore, fun _ => ⟨rfl, rfl⟩⟩

/-- No more bytes clocked than are left of the head reply carry them out in order, whatever comes in. -/
theorem clockList_reply (bytes : List Byte) : ∀ {s : State}, s.resetLow = false → (s.port p).replies = r :: rest →
    bytes.length ≤ r.body.length + 9 - (s.port p).shiftPos → ∃ q' status,
      bytes.foldl (fun t b => t.clockByte p b) s = s.setPort p q' ∧
      (s.port p).Sends q' r rest bytes.length status := by
  induction bytes with
  | nil =>
    intro s _ hq _
    exact ⟨s.port p, (s.port p).statusByte, (setPort_port s p).symm, fun _ => rfl, (List.append_nil _).symm,
      fun _ => ⟨hq, rfl, fun _ => rfl⟩, fun h => absurd h (Nat.lt_irrefl 0)⟩
  | cons b bytes ih =>
    intro s hr hq hlen
    rw [List.length_cons] at hlen
    obtain ⟨q1, hclock, hsdo, hmore, hlast⟩ := clockByte_reply b hr hq
    generalize hsent : (if (s.port p).shiftPos = 6 then s.portStatus p else (s.port p).statusByte) = sent
      at hsdo hmore
    have hformed : 6 < (s.port p).shiftPos → sent = (s.port p).statusByte := fun h => by
      rw [← hsent, if_neg (by omega)]
    by_cases hnext : (s.port p).shiftPos + 1 < r.body.length + 9
    · obtain ⟨hreplies, hpos, hstatus⟩ := hmore hnext
      obtain ⟨q', status, hfold, hrest⟩ := ih (s := s.setPort p q1) (by rw [setPort_resetLow, hr])
        (by rw [setPort_port_self]; exact hreplies) (by rw [setPort_port_self, hpos]; omega)
      rw [setPort_setPort] at hfold
      rw [setPort_port_self] at hrest
      obtain ⟨hformed', hsdo', hpart, hwhole⟩ := hrest
      rw [hpos] at hformed' hsdo' hpart hwhole
      have hsame : (s.port p).shiftPos < 6 ∨ sent = status := by
        by_cases hbefore : (s.port p).shiftPos < 6
        · exact .inl hbefore
        · exact .inr ((hformed' (by omega)).trans hstatus).symm
      refine ⟨q', status, by rw [List.foldl_cons, hclock, hfold], fun h => ?_, ?_, fun h => ?_, fun _ h => ?_⟩
      · exact (hformed' (by omega)).trans (hstatus.trans (hformed h))
      · rw [hsdo', hsdo, r.bytes_drop (by omega) hsame, List.length_cons, List.take_succ_cons, List.append_assoc]
        rfl
      · rw [List.length_cons] at h ⊢
        obtain ⟨hreplies', hpos', hstatus'⟩ := hpart (by omega)
        exact ⟨hreplies', by omega, hstatus'⟩
      · rw [List.length_cons] at h
        by_cases hnone : bytes.length = 0
        · omega
        · exact hwhole (by omega) (by omega)
    · obtain rfl : bytes = [] := List.length_eq_zero_iff.mp (by omega)
      have hplace : (s.port p).shiftPos < r.body.length + 9 := by rw [List.length_nil] at hlen; omega
      refine ⟨q1, sent, hclock, hformed, ?_, fun h => ?_, fun _ _ => hlast (by omega)⟩
      · rw [hsdo, r.bytes_drop hplace (.inr rfl)]
        rfl
      · rw [List.length_singleton] at h
        omega

/-- The port once the rest of its head reply went out with this status byte, and filler came in. -/
def Port.afterReply (q : Port) (r : Reply) (rest : List Reply) (status : Byte) : Port :=
  { q with
    replies := rest, shiftPos := 0, statusByte := 0, selected := true, sdo := q.sdo ++ (r.bytes status).drop q.shiftPos,
    overrun := q.overrun && !status.getLsbD 1, frameError := q.frameError && !status.getLsbD 2 }

/-- The status byte stands as formed at place 6, once the shifter is past it (R169). -/
theorem formed_at_six (k : Nat) (formed stored : Byte) :
    (if k + 1 ≤ 6 then formed else if k = 6 then formed else stored) = if k ≤ 6 then formed else stored := by
  obtain hbefore | rfl | hafter := Nat.lt_trichotomy k 6
  · rw [if_pos (by omega), if_pos hbefore.le]
  · rfl
  · rw [if_neg (by omega), if_neg (by omega), if_neg (by omega)]

/-- Filler at a hunting receiver carries out the rest of the head reply and does nothing else. -/
theorem clockList_replyOut {filler : Byte} (hfiller : filler ≠ 0x5A) (n : Nat) : ∀ {s : State}, s.resetLow = false →
    (s.port p).receiver = .hunting → (s.port p).replies = r :: rest →
    (s.port p).shiftPos + (n + 1) = r.body.length + 9 →
    (List.replicate (n + 1) filler).foldl (fun t b => t.clockByte p b) s =
      s.setPort p ((s.port p).afterReply r rest
        (if (s.port p).shiftPos ≤ 6 then s.portStatus p else (s.port p).statusByte)) := by
  induction n with
  | zero =>
    intro s hr hhunting hq hpos
    have hlate : ¬ (s.port p).shiftPos ≤ 6 := by omega
    have hend : (r.bytes (s.port p).statusByte).drop ((s.port p).shiftPos + 1) = [] :=
      List.drop_eq_nil_of_le (by rw [Reply.bytes_length, Reply.wireLength]; omega)
    rw [List.replicate_one, List.foldl_cons, List.foldl_nil, clockByte_ignored hr hhunting hfiller, shiftByte_reply hq,
      if_neg (by omega), if_neg (by omega), if_neg hlate, Port.afterReply, r.bytes_drop (by omega) (.inr rfl), hend]
  | succ n ih =>
    intro s hr hhunting hq hpos
    have hclock := clockByte_ignored hr hhunting hfiller
    rw [shiftByte_reply hq, if_pos (by omega)] at hclock
    generalize hsent : (if (s.port p).shiftPos = 6 then s.portStatus p else (s.port p).statusByte) = sent at hclock
    generalize hmoved : ({ s.port p with
      sdo := (s.port p).sdo ++ [(r.bytes sent).getD (s.port p).shiftPos 0], shiftPos := (s.port p).shiftPos + 1,
      statusByte := sent, selected := true } : Port) = moved at hclock
    have hpos' : moved.shiftPos = (s.port p).shiftPos + 1 := by rw [← hmoved]
    have hport : (s.setPort p moved).portStatus p = s.portStatus p := by
      rw [← hmoved]
      exact portStatus_congr rfl rfl rfl rfl
    have hstatus : (if moved.shiftPos ≤ 6 then s.portStatus p else moved.statusByte) =
        if (s.port p).shiftPos ≤ 6 then s.portStatus p else (s.port p).statusByte := by
      rw [← hmoved, ← hsent]
      exact formed_at_six _ _ _
    have hsame : (s.port p).shiftPos < 6 ∨ sent = if moved.shiftPos ≤ 6 then s.portStatus p else moved.statusByte := by
      by_cases hbefore : (s.port p).shiftPos < 6
      · exact .inl hbefore
      · exact .inr (by rw [if_neg (by omega), ← hmoved])
    rw [List.replicate_succ, List.foldl_cons, hclock, ih (by rw [setPort_resetLow, hr])
      (by rw [setPort_port_self, ← hmoved]; exact hhunting) (by rw [setPort_port_self, ← hmoved]; exact hq)
      (by rw [setPort_port_self, hpos']; omega), setPort_setPort, setPort_port_self, hport]
    rw [hstatus] at hsame ⊢
    rw [Port.afterReply, Port.afterReply, r.bytes_drop (by omega) hsame, ← hmoved]
    simp only [List.append_assoc, List.singleton_append]

end

/-! ### REQUEST_FRAME and REPLY_SHIFTED_OUT -/

section
variable {s : State} {p : PortId}

theorem replyShiftedOut_noReply (filler : Byte) (h : (s.port p).replies = []) :
    exec (.replyShiftedOut p filler) s = .next s :=
  if_pos (by rw [h, List.isEmpty_nil, Bool.or_true])

/-- REPLY_SHIFTED_OUT clocks filler for what is left of the head reply. -/
theorem replyShiftedOut_reply {r : Reply} {rest : List Reply} (filler : Byte) (hr : s.resetLow = false)
    (hq : (s.port p).replies = r :: rest) :
    exec (.replyShiftedOut p filler) s =
      exec (.requestFrame p (List.replicate (r.body.length + 9 - (s.port p).shiftPos) filler)) s := by
  have hremaining : (s.port p).remaining = r.body.length + 9 - (s.port p).shiftPos := by
    rw [Port.remaining, hq]
    rfl
  rw [← hremaining]
  exact if_neg (by rw [hr, hq]; exact Bool.false_ne_true)

/-- With a reply queued, one byte clocked carries out its next byte. -/
theorem requestFrame_one_reply {r : Reply} {rest : List Reply} (b : Byte) (hr : s.resetLow = false)
    (hq : (s.port p).replies = r :: rest) :
    let q := s.port p
    let status := if q.shiftPos = 6 then s.portStatus p else q.statusByte
    let sent := [(r.bytes status).getD q.shiftPos 0]
    let after := fun o : Port => Host.Outcome.next (s.setPort p ({ o with selected := true }.receiveByte b))
    (q.shiftPos + 1 < r.body.length + 9 → exec (.requestFrame p [b]) s =
      after { q with sdo := sent, shiftPos := q.shiftPos + 1, statusByte := status }) ∧
    (r.body.length + 9 ≤ q.shiftPos + 1 → exec (.requestFrame p [b]) s =
      after { q with
        sdo := sent, replies := rest, shiftPos := 0, statusByte := 0,
        overrun := q.overrun && !status.getLsbD 1, frameError := q.frameError && !status.getLsbD 2 }) := by
  intro q status sent after
  have hone := clockBytes_one s p b hr
  rw [shiftByte_fresh hq] at hone
  refine ⟨fun hmore => congrArg Host.Outcome.next (hone.trans ?_), fun hlast => congrArg Host.Outcome.next (hone.trans ?_)⟩
  · rw [if_pos hmore]
  · rw [if_neg (Nat.not_lt.mpr hlast)]

/-- A hunting receiver fed filler takes in nothing while REPLY_SHIFTED_OUT carries out the rest of the head reply. -/
theorem replyShiftedOut_afterReply {r : Reply} {rest : List Reply} {filler : Byte} (hr : s.resetLow = false)
    (hq : (s.port p).replies = r :: rest) (hplace : (s.port p).shiftPos < r.body.length + 9)
    (hhunting : (s.port p).receiver = .hunting) (hfiller : filler ≠ 0x5A) :
    exec (.replyShiftedOut p filler) s = .next (s.setPort p ({ s.port p with sdo := [] }.afterReply r rest
      (if (s.port p).shiftPos ≤ 6 then s.portStatus p else (s.port p).statusByte))) := by
  obtain ⟨n, hn⟩ := Nat.exists_eq_add_of_lt hplace
  have hleft : r.body.length + 9 - (s.port p).shiftPos = n + 1 := by omega
  have hout := clockList_replyOut (s := s.setPort p { s.port p with sdo := [] }) (p := p) (r := r) (rest := rest) hfiller n
    (by rw [setPort_resetLow, hr]) (by rw [setPort_port_self]; exact hhunting) (by rw [setPort_port_self]; exact hq)
    (by rw [setPort_port_self]; exact hn.symm)
  rw [setPort_setPort, setPort_port_self, portStatus_withSdo] at hout
  rw [replyShiftedOut_reply filler hr hq, hleft]
  exact congrArg Host.Outcome.next hout

theorem requestFrame_reply {r : Reply} {rest : List Reply} {bytes : List Byte} (hr : s.resetLow = false)
    (hq : (s.port p).replies = r :: rest) (hlen : bytes.length ≤ r.body.length + 9 - (s.port p).shiftPos) :
    ∃ q' status, exec (.requestFrame p bytes) s = .next (s.setPort p q') ∧
      Port.Sends { s.port p with sdo := [] } q' r rest bytes.length status := by
  obtain ⟨q', status, hfold, hsends⟩ := clockList_reply (s := s.setPort p { s.port p with sdo := [] }) (p := p) bytes
    (by rw [setPort_resetLow, hr]) (by rw [setPort_port_self]; exact hq) (by rw [setPort_port_self]; exact hlen)
  rw [setPort_setPort] at hfold
  rw [setPort_port_self] at hsends
  exact ⟨q', status, congrArg Host.Outcome.next hfold, hsends⟩

theorem requestFrame_noReply {bytes : List Byte} (hr : s.resetLow = false) (hnone : (s.port p).replies = []) :
    ∃ q, exec (.requestFrame p bytes) s = .next (s.setPort p q) ∧ q.sdo = List.replicate bytes.length 0x00 ∧
      q.replies = [] := by
  obtain ⟨q, hfold, hsdo, hqnone⟩ := clockList_noReply (s := s.setPort p { s.port p with sdo := [] }) (p := p) bytes
    (by rw [setPort_resetLow, hr]) (by rw [setPort_port_self]; exact hnone)
  rw [setPort_setPort] at hfold
  rw [setPort_port_self] at hsdo
  exact ⟨q, congrArg Host.Outcome.next hfold, hsdo, hqnone⟩

end

/-! ### The byte that completes a frame (R164) -/

section
variable {length b : Byte} {rest : List Byte}

/-- A frame's own bytes are as many as its length byte announces, and make the frame again. -/
theorem frameOf_bytes {f : Frame} (hf : f.bytes = 0x5A :: length :: rest ++ [b]) (hlen : f.body.length ≤ 246) :
    rest.length + 1 = length.toNat + 2 ∧ frameOf (length :: rest ++ [b]) = some f := by
  have hafter : f.afterMarker = length :: rest ++ [b] := (List.cons.inj hf).2
  obtain ⟨rest', last, hsplit, hlen'⟩ := afterMarker_split f
  rw [hafter] at hsplit
  have hlength := (List.cons.inj hsplit).1
  have hcount := congrArg List.length hsplit
  simp only [List.length_append, List.length_cons, List.length_nil, hlen'] at hcount
  refine ⟨?_, by rw [← hafter, frameOf_afterMarker]⟩
  rw [hlength, lengthByte_toNat hlen]
  omega

theorem frameOf_none (hlast : rest.length + 1 = length.toNat + 2)
    (hcheck : (rest ++ [b]).drop length.toNat ≠ crcBytes (length :: (rest ++ [b]).take length.toNat)) :
    frameOf (length :: rest ++ [b]) = none := by
  have hlen : ((rest ++ [b]).drop length.toNat).length = 2 := by
    rw [List.length_drop, List.length_append, List.length_singleton]
    omega
  have hnone := frameOf_badCheck hlen hcheck
  rwa [List.cons_append, List.take_append_drop] at hnone

end

/-- Settles O12: the byte out, the byte in, and the two together byte by byte. -/
theorem replyShiftedOutWhole : Obligations.ReplyShiftedOutWhole := by
  refine ⟨fun _ _ => rfl, fun s p n => ?_,
    fun s p b hr => ⟨requestFrame_one_filler hr, fun r rest => requestFrame_one_reply b hr⟩,
    fun q b => ⟨receiveByte_hunting, receiveByte_length, fun length rest hin hlow hhigh =>
      ⟨receiveByte_collects hin hlow hhigh, fun f hf hlen => ?_, fun hlast hcheck => ?_⟩⟩,
    fun s p xs ys => ⟨_, _, rfl, rfl, congrArg Host.Outcome.next (clockBytes_append s p xs ys)⟩,
    fun s p r rest hr hq => ⟨fun filler => replyShiftedOut_reply filler hr hq,
      fun filler => replyShiftedOut_afterReply hr hq, fun bytes hlen => ?_⟩,
    fun s p bytes => requestFrame_noReply, fun s p filler => replyShiftedOut_noReply filler⟩
  · rw [portStatus_getLsbD]
    match n with
    | 0 | 1 | 2 | 3 | 4 | _ + 5 => rfl
  · obtain ⟨hlast, hframe⟩ := frameOf_bytes hf hlen
    rw [receiveByte_completes hin hlow hhigh hlast hframe, enqueue_eq]
  · exact receiveByte_discards hin hlow hhigh hlast (frameOf_none hlast hcheck)
  · obtain ⟨q', status, hexec, hformed, hsdo, hpart, hwhole⟩ := requestFrame_reply hr hq hlen
    exact ⟨q', status, hexec, hformed, hsdo, hpart, hwhole⟩

end Sys2Proof.Machine
end

section
/-! SUPPORT. The step on a queue at whose front a command waits. -/

namespace Sys2Proof.Machine

/-- Settles O1, by the equation of the step on a queue that is not empty. -/
theorem stepRunsFrontCommand : Obligations.StepRunsFrontCommand :=
  fun _ _ _ hpending => step_of_pending hpending

end Sys2Proof.Machine
end
